-- ==== Sys2Proof/Word.lean ====
section
/-! DEFINITION. The word and the byte of the block (00_scope.md R5 `XLEN` = 32, R6): unsigned bit vectors whose
addition and multiplication wrap. -/

namespace Sys2Proof

/-- A word: `XLEN` = 32 bits (00_scope.md R5, R6). -/
abbrev Word := BitVec 32

/-- A byte: 8 bits (00_scope.md R6). -/
abbrev Byte := BitVec 8

end Sys2Proof
end

