-- ==== Sys2Proof/Config.lean ====
section
/-! DEFINITION. The implementation parameters (00_scope.md R5), the constraints R5 puts on them, and the free values:
constants with no body, of which nothing can be proved. The parameters stand in the state's field `cfg`, which no step
changes, so that a statement about every state is a statement about every choice of them (log 7). -/

namespace Sys2Proof

/-- The two privilege modes (10_state.md R23): machine and supervisor. -/
inductive Priv where
  | M
  | S
deriving DecidableEq, Repr, Inhabited

/-- Instruction alignment of the hart in bits (00_scope.md R5 `IALIGN`). -/
inductive IAlign where
  | bits32
  | bits16
deriving DecidableEq, Repr, Inhabited

/-- What the source/id registry gives for a source id (00_scope.md R5 `HANDLERS`, 10_state.md R55). -/
inductive Handler where
  | none
  | uartEcho
deriving DecidableEq, Repr, Inhabited

/-- A decoded trap cause (30_encoding.md R101). -/
structure TrapCause where
  code : BitVec 31
  isInterrupt : Bool
deriving DecidableEq, Repr, Inhabited

/-- The sub-state of `InterruptHandling` (10_state.md R49). -/
inductive Ih where
  | report
  | claim
  | svcRxPoll
  | svcRxRead
  | svcTxPoll
  | svcTxWrite
  | complete
  | ret
deriving DecidableEq, Repr, Inhabited

/-- The data registers of the dispatch FSM (10_state.md R49), meaningful only while `disp` is not `Idle`. -/
structure DispRegs where
  ih : Ih
  trapMode : Priv
  tc : TrapCause
  /-- the PLIC context number used for claim and complete, as the word `context_index` computes -/
  ctx : Word
  claimedId : Word
  dTxq : List Byte
deriving DecidableEq, Repr, Inhabited

/-- The parameters marked "argument" in 00_scope.md R5. The fixed ones (`XLEN`, `WORD_SIZE`, `NHART`, `HART_ID`,
`NCTX`) are numerals where they are used. -/
structure Config where
  nsrc : Nat
  prioMax : Word
  threshStrict : Bool
  plicBase : Word
  plicSize : Word
  uartBase : Word
  priorityOffset : Word
  pendingOffset : Word
  enableOffset : Word
  enableStride : Word
  thresholdOffset : Word
  thresholdStride : Word
  claimOffset : Word
  claimStride : Word
  uartSourceId : Nat
  uartFifoDepth : Nat
  /-- the source ids for which `HANDLERS` gives `UartEcho`; every other id gives `None` -/
  echoSources : List Nat
  trapEntry : Word
  resetEntry : Word
  mainEntry : Word
  bootTarget : Priv
  edelegMask : Word
  idelegMask : Word
  pmpAddr0 : Word
  pmpCfg0 : Word
  ialign : IAlign
deriving DecidableEq, Repr, Inhabited

/-- `HANDLERS` (00_scope.md R5). -/
def Config.handler (c : Config) (id : Nat) : Handler :=
  if id ∈ c.echoSources then .uartEcho else .none

/-- The constraints 00_scope.md R5 states on the parameters, and four that its other rules imply (log 8): the PLIC base
is a multiple of 4 (42_plic.md R146), a FIFO holds at least a byte, and the UART's id is one of the sources. -/
def Config.wf (c : Config) : Bool :=
  decide (33 ≤ c.nsrc ∧ c.nsrc ≤ 8 * c.enableStride.toNat) &&
  decide (c.prioMax &&& (c.prioMax + 1) = 0) &&
  decide (c.priorityOffset.toNat + 4 * c.nsrc ≤ c.pendingOffset.toNat) &&
  decide (8 * c.pendingOffset.toNat + c.nsrc ≤ 8 * c.enableOffset.toNat) &&
  decide (c.enableOffset.toNat + 2 * c.enableStride.toNat ≤ c.thresholdOffset.toNat) &&
  decide (c.claimOffset.toNat = c.thresholdOffset.toNat + 4) &&
  decide (c.thresholdStride = c.claimStride ∧ 8 ≤ c.claimStride.toNat) &&
  decide (c.thresholdOffset.toNat + 2 * c.thresholdStride.toNat ≤ c.plicSize.toNat) &&
  decide (c.plicBase.toNat + c.plicSize.toNat ≤ 2 ^ 32 ∧ c.uartBase.toNat + 8 ≤ 2 ^ 32) &&
  decide (c.uartBase.toNat + 8 ≤ c.plicBase.toNat ∨ c.plicBase.toNat + c.plicSize.toNat ≤ c.uartBase.toNat) &&
  decide (c.priorityOffset.toNat % 4 = 0 ∧ c.pendingOffset.toNat % 4 = 0 ∧ c.enableOffset.toNat % 4 = 0 ∧
    c.enableStride.toNat % 4 = 0 ∧ c.thresholdOffset.toNat % 4 = 0 ∧ c.thresholdStride.toNat % 4 = 0 ∧
    c.plicBase.toNat % 4 = 0) &&
  decide (c.uartSourceId ∈ c.echoSources ∧ 1 ≤ c.uartSourceId ∧ c.uartSourceId < c.nsrc) &&
  decide (1 ≤ c.uartFifoDepth) &&
  decide (c.trapEntry.toNat % 4 = 0 ∧ c.resetEntry.toNat % 4 = 0 ∧ c.mainEntry.toNat % 4 = 0)

/-- The defaults of 00_scope.md R5. R5 gives no default for the three entry points, the delegation masks and
`HANDLERS`: those values are the conventions of 95_test_vectors.md (log 7, DESIGN CHOICE). -/
def Config.default : Config where
  nsrc := 1024
  prioMax := 7
  threshStrict := false
  plicBase := 0x0C000000
  plicSize := 0x04000000
  uartBase := 0x10000000
  priorityOffset := 0x000000
  pendingOffset := 0x001000
  enableOffset := 0x002000
  enableStride := 0x80
  thresholdOffset := 0x200000
  thresholdStride := 0x1000
  claimOffset := 0x200004
  claimStride := 0x1000
  uartSourceId := 10
  uartFifoDepth := 16
  echoSources := [10]
  trapEntry := 0x80000100
  resetEntry := 0x80000000
  mainEntry := 0x80000200
  bootTarget := .S
  edelegMask := 0
  idelegMask := 0x222
  pmpAddr0 := 0xFFFFFFFF
  pmpCfg0 := 0x0000000F
  ialign := .bits32

/-- FREE VALUE (log 11): the byte the `n`-th read of an empty receive buffer returns, "an arbitrary draw"
(43_uart.md R183). No body: nothing can be proved of it. -/
opaque Config.freeByte : Nat → Byte

/-- FREE VALUE (log 10): what the dispatch data registers hold once the FSM is back in `Idle`, where "their value is
unspecified" (10_state.md R49). No body. -/
opaque Config.freeDispRegs : Nat → DispRegs

end Sys2Proof
end

