-- ==== Sys2Proof/Syntax.lean ====
section
/-! DEFINITION. What can be presented to the block: the slots of its three spaces (30_encoding.md R90, R93, R94), the
turns of the schedule, and `Instr`, one constructor per row of opcode_table.json. -/

namespace Sys2Proof

/-- Which table a slot is read with (log 4): the command port (30_encoding.md R92), the internal steps (R93), the CSR
space, the PLIC window and the UART window (R94). -/
inductive Space where
  | command
  | agent
  | csr
  | plic
  | uart
deriving DecidableEq, Repr, Inhabited

/-- The wires of one presentation: the 8-bit code and three operand words (30_encoding.md R90). In the register spaces
`a0` is the CSR number or the window offset and `op` the kind of access (log 4). -/
structure Slot where
  space : Space
  op : BitVec 8
  a0 : Word
  a1 : Word
  a2 : Word
deriving DecidableEq, Repr, Inhabited

/-- One turn of the schedule (log 1): a slot, or the next step of the host sequence `hseq` names (10_state.md R51). -/
inductive Turn where
  | slot (w : Slot)
  | hostNext
deriving DecidableEq, Repr, Inhabited

/-- The implemented CSRs (10_state.md R24). -/
inductive CsrName where
  | sstatus | sie | stvec | sepc | scause | sip | satp
  | mstatus | medeleg | mideleg | mie | mtvec | mepc | mcause | mip
  | pmpcfg0 | pmpaddr0 | mhartid
deriving DecidableEq, Repr, Inhabited

/-- The four CSR operations (40_csr_access.md R123 to R126) as accesses of one register. -/
inductive CsrAccess where
  | read
  | write (v : Word)
  | set (mask : Word)
  | clear (mask : Word)
deriving DecidableEq, Repr, Inhabited

/-- An access of one PLIC register: 4 bytes (20_memory.md R68). -/
inductive WordAccess where
  | read
  | write (v : Word)
deriving DecidableEq, Repr, Inhabited

/-- An access of one UART register: 1 byte (20_memory.md R68). -/
inductive ByteAccess where
  | read
  | write (v : Byte)
deriving DecidableEq, Repr, Inhabited

/-- The rows of the PLIC register map (20_memory.md R63), with their indexes. -/
inductive PlicReg where
  | priority (s : Nat)
  | pending (w : Nat)
  | enable (c : Fin 2) (w : Nat)
  | threshold (c : Fin 2)
  | claim (c : Fin 2)
  | reserved
deriving DecidableEq, Repr, Inhabited

/-- One constructor per row of opcode_table.json; operands are what the row's rule uses of its operand words. -/
inductive Instr where
  -- host commands, 30_encoding.md R92
  | csrRead (csr : BitVec 12)
  | csrWrite (csr : BitVec 12) (v : Word)
  | csrSet (csr : BitVec 12) (mask : Word)
  | csrClear (csr : BitVec 12) (mask : Word)
  | tcDecode (raw : Word)
  | tcClassify (code : BitVec 31) (isInt : Bool)
  | plicCtx (hart : Word) (mode : Bool)
  | plicPrioaddr (base src : Word)
  | plicEnaddr (base ctx src : Word)
  | plicThraddr (base ctx : Word)
  | plicCcaddr (base ctx : Word)
  | plicPendaddr (base src : Word)
  | plicSetprio (src prio : Word)
  | plicEnable (ctx src : Word)
  | plicSetthr (ctx thr : Word)
  | plicInit (ctx src : Word) (prio thr : BitVec 16)
  | plicClaim (ctx : Word)
  | plicComplete (ctx id : Word)
  | uartPutc (c : Byte)
  | uartGetc
  | uartFlush
  | uartFifocfg
  | uartIeset (mask : BitVec 4)
  | uartIeclr (mask : BitVec 4)
  | uartIpend
  | mmioLoad (addr width : Word)
  | mmioStore (addr width v : Word)
  | mret
  | sret
  | hartSetpc (addr : Word)
  | hartException (code : Word)
  -- internal steps, 30_encoding.md R93
  | bootB0
  | bootB1
  | bootB2
  | bootB3
  | bootB4
  | bootB5
  | bootB6
  | trapInt
  | dispRoute
  | dispFatal
  | dispIreport
  | dispClaim
  | dispRxpoll
  | dispRxread
  | dispTxpoll
  | dispTxwrite
  | dispComplete
  | dispReturn
  | plicGateway (src : Word)
  | uartTxload
  | uartTxemit
  | uartRxarrive (b : Byte) (pe fe bi : Bool)
  | uartModem (v : BitVec 4)
  | pinMtip (v : Bool)
  | pinMsip (v : Bool)
  | pinLine (src : Word) (v : Bool)
  | reset
  -- the CSR rows, 10_state.md R24
  | regSstatus (a : CsrAccess)
  | regSie (a : CsrAccess)
  | regStvec (a : CsrAccess)
  | regSepc (a : CsrAccess)
  | regScause (a : CsrAccess)
  | regSip (a : CsrAccess)
  | regSatp (a : CsrAccess)
  | regMstatus (a : CsrAccess)
  | regMedeleg (a : CsrAccess)
  | regMideleg (a : CsrAccess)
  | regMie (a : CsrAccess)
  | regMtvec (a : CsrAccess)
  | regMepc (a : CsrAccess)
  | regMcause (a : CsrAccess)
  | regMip (a : CsrAccess)
  | regPmpcfg0 (a : CsrAccess)
  | regPmpaddr0 (a : CsrAccess)
  | regMhartid (a : CsrAccess)
  -- the MMIO rows, 20_memory.md R63 and R64
  | regPlicPriority (s : Nat) (a : WordAccess)
  | regPlicPending (w : Nat) (a : WordAccess)
  | regPlicEnable (c : Fin 2) (w : Nat) (a : WordAccess)
  | regPlicThreshold (c : Fin 2) (a : WordAccess)
  | regPlicClaim (c : Fin 2)
  | regPlicComplete (c : Fin 2) (v : Word)
  | regPlicReserved (off : Word) (a : WordAccess)
  | regUartRbr
  | regUartThr (v : Byte)
  | regUartIer (a : ByteAccess)
  | regUartIir
  | regUartFcr (v : Byte)
  | regUartLcr (a : ByteAccess)
  | regUartOffset4 (a : ByteAccess)
  | regUartLsr (a : ByteAccess)
  | regUartMsr (a : ByteAccess)
  | regUartOffset7 (a : ByteAccess)
deriving DecidableEq, Repr, Inhabited

end Sys2Proof
end

