-- ==== Sys2Proof/Machine/PlicMap.lean ====
section
/-! DEFINITION. The PLIC register map (20_memory.md R63): which row a window offset lies on, and the offset of a row.
The decoder of the MMIO rows and the register accesses of the machine read the one map. -/

namespace Sys2Proof

/-- `NW = ceil(NSRC / 32)`: the words of a per-source bit block (20_memory.md R63). -/
def Config.numWords (c : Config) : Nat := (c.nsrc + 31) / 32

/-- `1 <= s < NSRC`: `s` is a source (10_state.md R39). -/
def Config.isSource (c : Config) (s : Nat) : Bool := decide (1 ≤ s ∧ s < c.nsrc)

/-- Which row of the PLIC register map the window offset `o` lies on (20_memory.md R63). -/
def plicSelect (c : Config) (o : Nat) : PlicReg :=
  if o % 4 ≠ 0 then .reserved
  else if c.priorityOffset.toNat ≤ o ∧ o < c.priorityOffset.toNat + 4 * c.nsrc then
    .priority ((o - c.priorityOffset.toNat) / 4)
  else if c.pendingOffset.toNat ≤ o ∧ o < c.pendingOffset.toNat + 4 * c.numWords then
    .pending ((o - c.pendingOffset.toNat) / 4)
  else if c.enableOffset.toNat ≤ o ∧ o < c.enableOffset.toNat + 4 * c.numWords then
    .enable 0 ((o - c.enableOffset.toNat) / 4)
  else if c.enableOffset.toNat + c.enableStride.toNat ≤ o ∧
      o < c.enableOffset.toNat + c.enableStride.toNat + 4 * c.numWords then
    .enable 1 ((o - (c.enableOffset.toNat + c.enableStride.toNat)) / 4)
  else if o = c.thresholdOffset.toNat then .threshold 0
  else if o = c.thresholdOffset.toNat + c.thresholdStride.toNat then .threshold 1
  else if o = c.claimOffset.toNat then .claim 0
  else if o = c.claimOffset.toNat + c.claimStride.toNat then .claim 1
  else .reserved

/-- The window offset of context `c`'s block in a per-context layout: `offset + c * stride` (20_memory.md R63). -/
def ctxOffset (offset stride : Word) (c : Fin 2) : Word :=
  if c = 0 then offset else offset + stride

/-- The window offset of a row of the register map (20_memory.md R63); a reserved row has none of its own. -/
def plicOffset (c : Config) : PlicReg → Word
  | .priority s => c.priorityOffset + BitVec.ofNat 32 (4 * s)
  | .pending w => c.pendingOffset + BitVec.ofNat 32 (4 * w)
  | .enable x w => ctxOffset c.enableOffset c.enableStride x + BitVec.ofNat 32 (4 * w)
  | .threshold x => ctxOffset c.thresholdOffset c.thresholdStride x
  | .claim x => ctxOffset c.claimOffset c.claimStride x
  | .reserved => 0

end Sys2Proof
end

