-- ==== Sys2Proof/WellFormed.lean ====
section
/-! DEFINITION. Which instructions are well formed: the operand ranges the rules state for what an agent may choose
(30_encoding.md R93, 42_plic.md R155, 46_host_port.md R268) and the index ranges of the register rows
(20_memory.md R63). The operands of a host command are any words: their rules say what happens out of range
(46_host_port.md R269). -/

namespace Sys2Proof

/-- The instruction's operands lie in the ranges its rule states. -/
def Instr.wf (c : Config) : Instr → Bool
  | .plicGateway s => c.isSource s.toNat
  | .pinLine s _ => c.isSource s.toNat && decide (s.toNat ≠ c.uartSourceId)
  | .regPlicPriority s _ => decide (s < c.nsrc)
  | .regPlicPending w _ => decide (w < c.numWords)
  | .regPlicEnable _ w _ => decide (w < c.numWords)
  | .regPlicReserved o _ =>
    decide (o.toNat < c.plicSize.toNat) && decide (plicSelect c o.toNat = .reserved)
  | .csrRead _ | .csrWrite _ _ | .csrSet _ _ | .csrClear _ _ | .tcDecode _ | .tcClassify _ _
  | .plicCtx _ _ | .plicPrioaddr _ _ | .plicEnaddr _ _ _ | .plicThraddr _ _ | .plicCcaddr _ _ | .plicPendaddr _ _
  | .plicSetprio _ _ | .plicEnable _ _ | .plicSetthr _ _ | .plicInit _ _ _ _ | .plicClaim _ | .plicComplete _ _
  | .uartPutc _ | .uartGetc | .uartFlush | .uartFifocfg | .uartIeset _ | .uartIeclr _ | .uartIpend
  | .mmioLoad _ _ | .mmioStore _ _ _ | .mret | .sret | .hartSetpc _ | .hartException _
  | .bootB0 | .bootB1 | .bootB2 | .bootB3 | .bootB4 | .bootB5 | .bootB6 | .trapInt
  | .dispRoute | .dispFatal | .dispIreport | .dispClaim | .dispRxpoll | .dispRxread | .dispTxpoll | .dispTxwrite
  | .dispComplete | .dispReturn | .uartTxload | .uartTxemit | .uartRxarrive _ _ _ _ | .uartModem _
  | .pinMtip _ | .pinMsip _ | .reset
  | .regSstatus _ | .regSie _ | .regStvec _ | .regSepc _ | .regScause _ | .regSip _ | .regSatp _
  | .regMstatus _ | .regMedeleg _ | .regMideleg _ | .regMie _ | .regMtvec _ | .regMepc _ | .regMcause _ | .regMip _
  | .regPmpcfg0 _ | .regPmpaddr0 _ | .regMhartid _
  | .regPlicThreshold _ _ | .regPlicClaim _ | .regPlicComplete _ _
  | .regUartRbr | .regUartThr _ | .regUartIer _ | .regUartIir | .regUartFcr _ | .regUartLcr _ | .regUartOffset4 _
  | .regUartLsr _ | .regUartMsr _ | .regUartOffset7 _ => true

end Sys2Proof
end

