-- ==== Sys2Proof/Decode.lean ====
section
/-! DEFINITION. The decoder of the block's three spaces (30_encoding.md R91 to R95; 10_state.md R24; 20_memory.md R63,
R64), total on any wires and rejecting by name, the encoder written from the same tables, the reading of a word of
opcode_table.json, and the state encodings of 30_encoding.md R105. -/

namespace Sys2Proof

/-- Why a slot names no instruction. -/
inductive Reject where
  /-- the op is no host command (30_encoding.md R95) -/
  | illegalCommand
  /-- a CSR command whose `a0[31:12]` is not 0 (30_encoding.md R91, R95) -/
  | illegalCsrNumber
  /-- a number the CSR file does not implement (10_state.md R38) -/
  | noSuchCsr
  /-- a code no internal step has (30_encoding.md R93) -/
  | noSuchStep
  /-- an access kind that is none of the model's (log 4) -/
  | badAccessKind
  /-- a register offset that is not inside its window (20_memory.md R62) -/
  | outsideWindow
deriving DecidableEq, Repr, Inhabited

/-- One bit as a word. -/
def flag (b : Bool) : Word := (BitVec.ofBool b).setWidth 32

/-- The number of a CSR (10_state.md R24). -/
def csrNumber : CsrName → BitVec 12
  | .sstatus => 0x100
  | .sie => 0x104
  | .stvec => 0x105
  | .sepc => 0x141
  | .scause => 0x142
  | .sip => 0x144
  | .satp => 0x180
  | .mstatus => 0x300
  | .medeleg => 0x302
  | .mideleg => 0x303
  | .mie => 0x304
  | .mtvec => 0x305
  | .mepc => 0x341
  | .mcause => 0x342
  | .mip => 0x344
  | .pmpcfg0 => 0x3A0
  | .pmpaddr0 => 0x3B0
  | .mhartid => 0xF14

/-- The CSR a number selects (10_state.md R24); none for an unimplemented number (R38). -/
def csrOfNumber (n : BitVec 12) : Option CsrName :=
  if n = 0x100 then some .sstatus
  else if n = 0x104 then some .sie
  else if n = 0x105 then some .stvec
  else if n = 0x141 then some .sepc
  else if n = 0x142 then some .scause
  else if n = 0x144 then some .sip
  else if n = 0x180 then some .satp
  else if n = 0x300 then some .mstatus
  else if n = 0x302 then some .medeleg
  else if n = 0x303 then some .mideleg
  else if n = 0x304 then some .mie
  else if n = 0x305 then some .mtvec
  else if n = 0x341 then some .mepc
  else if n = 0x342 then some .mcause
  else if n = 0x344 then some .mip
  else if n = 0x3A0 then some .pmpcfg0
  else if n = 0x3B0 then some .pmpaddr0
  else if n = 0xF14 then some .mhartid
  else none

/-- The opcode-table row of a CSR. -/
def csrRow (r : CsrName) (a : CsrAccess) : Instr :=
  match r with
  | .sstatus => .regSstatus a
  | .sie => .regSie a
  | .stvec => .regStvec a
  | .sepc => .regSepc a
  | .scause => .regScause a
  | .sip => .regSip a
  | .satp => .regSatp a
  | .mstatus => .regMstatus a
  | .medeleg => .regMedeleg a
  | .mideleg => .regMideleg a
  | .mie => .regMie a
  | .mtvec => .regMtvec a
  | .mepc => .regMepc a
  | .mcause => .regMcause a
  | .mip => .regMip a
  | .pmpcfg0 => .regPmpcfg0 a
  | .pmpaddr0 => .regPmpaddr0 a
  | .mhartid => .regMhartid a

/-- A CSR number in the low 12 bits of an operand word (30_encoding.md R91); the upper bits must be 0. -/
def csrOperand (a0 : Word) (k : BitVec 12 → Instr) : Except Reject Instr :=
  if a0.extractLsb 31 12 = 0 then .ok (k (a0.setWidth 12)) else .error .illegalCsrNumber

/-- The command port (30_encoding.md R91, R92): the op code selects, the rule's operands are taken from `a0`, `a1`,
`a2`, and what a rule does not name is ignored (R90). -/
def decodeCommand (w : Slot) : Except Reject Instr :=
  match w.op.toNat with
  | 0x01 => csrOperand w.a0 (fun n => .csrRead n)
  | 0x02 => csrOperand w.a0 (fun n => .csrWrite n w.a1)
  | 0x03 => csrOperand w.a0 (fun n => .csrSet n w.a1)
  | 0x04 => csrOperand w.a0 (fun n => .csrClear n w.a1)
  | 0x10 => .ok (.tcDecode w.a0)
  | 0x11 => .ok (.tcClassify (w.a0.setWidth 31) (w.a1.getLsbD 0))
  | 0x20 => .ok (.plicCtx w.a0 (w.a1.getLsbD 0))
  | 0x21 => .ok (.plicPrioaddr w.a0 w.a1)
  | 0x22 => .ok (.plicEnaddr w.a0 w.a1 w.a2)
  | 0x23 => .ok (.plicThraddr w.a0 w.a1)
  | 0x24 => .ok (.plicCcaddr w.a0 w.a1)
  | 0x25 => .ok (.plicPendaddr w.a0 w.a1)
  | 0x28 => .ok (.plicSetprio w.a0 w.a1)
  | 0x29 => .ok (.plicEnable w.a0 w.a1)
  | 0x2A => .ok (.plicSetthr w.a0 w.a1)
  | 0x2B => .ok (.plicInit w.a0 w.a1 (w.a2.extractLsb 15 0) (w.a2.extractLsb 31 16))
  | 0x2C => .ok (.plicClaim w.a0)
  | 0x2D => .ok (.plicComplete w.a0 w.a1)
  | 0x30 => .ok (.uartPutc (w.a0.setWidth 8))
  | 0x31 => .ok (.uartGetc)
  | 0x32 => .ok (.uartFlush)
  | 0x33 => .ok (.uartFifocfg)
  | 0x34 => .ok (.uartIeset (w.a0.setWidth 4))
  | 0x35 => .ok (.uartIeclr (w.a0.setWidth 4))
  | 0x36 => .ok (.uartIpend)
  | 0x40 => .ok (.mmioLoad w.a0 w.a1)
  | 0x41 => .ok (.mmioStore w.a0 w.a1 w.a2)
  | 0x50 => .ok (.mret)
  | 0x51 => .ok (.sret)
  | 0x60 => .ok (.hartSetpc w.a0)
  | 0x61 => .ok (.hartException w.a0)
  | _ => .error .illegalCommand

/-- The internal steps (30_encoding.md R93). Their operands stand in `a0` and `a1`, in the order R93 lists them; for
UART.RXARRIVE the flags `pe`, `fe`, `bi` are bits 0, 1, 2 of `a1` (log 4). -/
def decodeAgent (w : Slot) : Except Reject Instr :=
  match w.op.toNat with
  | 0x80 => .ok (.bootB0)
  | 0x81 => .ok (.bootB1)
  | 0x82 => .ok (.bootB2)
  | 0x83 => .ok (.bootB3)
  | 0x84 => .ok (.bootB4)
  | 0x85 => .ok (.bootB5)
  | 0x86 => .ok (.bootB6)
  | 0x90 => .ok (.trapInt)
  | 0x98 => .ok (.dispRoute)
  | 0x99 => .ok (.dispFatal)
  | 0x9A => .ok (.dispIreport)
  | 0x9B => .ok (.dispClaim)
  | 0x9C => .ok (.dispRxpoll)
  | 0x9D => .ok (.dispRxread)
  | 0x9E => .ok (.dispTxpoll)
  | 0x9F => .ok (.dispTxwrite)
  | 0xA0 => .ok (.dispComplete)
  | 0xA1 => .ok (.dispReturn)
  | 0xA8 => .ok (.plicGateway w.a0)
  | 0xB0 => .ok (.uartTxload)
  | 0xB1 => .ok (.uartTxemit)
  | 0xB2 => .ok (.uartRxarrive (w.a0.setWidth 8) (w.a1.getLsbD 0) (w.a1.getLsbD 1) (w.a1.getLsbD 2))
  | 0xB3 => .ok (.uartModem (w.a0.setWidth 4))
  | 0xB8 => .ok (.pinMtip (w.a0.getLsbD 0))
  | 0xB9 => .ok (.pinMsip (w.a0.getLsbD 0))
  | 0xBA => .ok (.pinLine w.a0 (w.a1.getLsbD 0))
  | 0xBF => .ok (.reset)
  | _ => .error .noSuchStep

/-- The CSR space (30_encoding.md R94): `a0` is the register's number, the access kind and its operand are the model's
(log 4). -/
def decodeCsr (w : Slot) : Except Reject Instr :=
  if w.a0.extractLsb 31 12 ≠ 0 then .error .noSuchCsr
  else match csrOfNumber (w.a0.setWidth 12) with
    | none => .error .noSuchCsr
    | some r =>
      match w.op.toNat with
      | 0 => .ok (csrRow r .read)
      | 1 => .ok (csrRow r (.write w.a1))
      | 2 => .ok (csrRow r (.set w.a1))
      | 3 => .ok (csrRow r (.clear w.a1))
      | _ => .error .badAccessKind

/-- The opcode-table row of a PLIC register and an access of it: a read of the claim/complete word is plic.claim, a
write plic.complete (20_memory.md R63). -/
def plicRow (off : Word) (r : PlicReg) (a : WordAccess) : Instr :=
  match r with
  | .priority s => .regPlicPriority s a
  | .pending w => .regPlicPending w a
  | .enable c w => .regPlicEnable c w a
  | .threshold c => .regPlicThreshold c a
  | .claim c =>
    match a with
    | .read => .regPlicClaim c
    | .write v => .regPlicComplete c v
  | .reserved => .regPlicReserved off a

/-- The PLIC window (30_encoding.md R94, 20_memory.md R63): `a0` is the offset from the base. -/
def decodePlic (cfg : Config) (w : Slot) : Except Reject Instr :=
  if w.a0.toNat < cfg.plicSize.toNat then
    match w.op.toNat with
    | 0 => .ok (plicRow w.a0 (plicSelect cfg w.a0.toNat) .read)
    | 1 => .ok (plicRow w.a0 (plicSelect cfg w.a0.toNat) (.write w.a1))
    | _ => .error .badAccessKind
  else .error .outsideWindow

/-- The rows of the UART register map for a read (20_memory.md R64). -/
def uartReadRow (o : BitVec 3) : Instr :=
  match o.toNat with
  | 0 => .regUartRbr
  | 1 => .regUartIer .read
  | 2 => .regUartIir
  | 3 => .regUartLcr .read
  | 4 => .regUartOffset4 .read
  | 5 => .regUartLsr .read
  | 6 => .regUartMsr .read
  | _ => .regUartOffset7 .read

/-- The rows of the UART register map for a write (20_memory.md R64). -/
def uartWriteRow (o : BitVec 3) (v : Byte) : Instr :=
  match o.toNat with
  | 0 => .regUartThr v
  | 1 => .regUartIer (.write v)
  | 2 => .regUartFcr v
  | 3 => .regUartLcr (.write v)
  | 4 => .regUartOffset4 (.write v)
  | 5 => .regUartLsr (.write v)
  | 6 => .regUartMsr (.write v)
  | _ => .regUartOffset7 (.write v)

/-- The UART window (30_encoding.md R94, 20_memory.md R64): `a0` is the offset from the base. -/
def decodeUart (w : Slot) : Except Reject Instr :=
  if w.a0.toNat < 8 then
    match w.op.toNat with
    | 0 => .ok (uartReadRow (w.a0.setWidth 3))
    | 1 => .ok (uartWriteRow (w.a0.setWidth 3) (w.a1.setWidth 8))
    | _ => .error .badAccessKind
  else .error .outsideWindow

/-- The decoder: total on any slot. The layout constants of `cfg` place the PLIC rows (30_encoding.md R94). -/
def decode (cfg : Config) (w : Slot) : Except Reject Instr :=
  match w.space with
  | .command => decodeCommand w
  | .agent => decodeAgent w
  | .csr => decodeCsr w
  | .plic => decodePlic cfg w
  | .uart => decodeUart w

/-! ## The encoder -/

/-- A CSR command: op code, number in `a0[11:0]`, operand in `a1`. -/
def csrCommand (op : BitVec 8) (n : BitVec 12) (v : Word) : Slot := ⟨.command, op, n.setWidth 32, v, 0⟩

/-- A row of the CSR space. -/
def csrSlot (r : CsrName) (a : CsrAccess) : Slot :=
  match a with
  | .read => ⟨.csr, 0, (csrNumber r).setWidth 32, 0, 0⟩
  | .write v => ⟨.csr, 1, (csrNumber r).setWidth 32, v, 0⟩
  | .set m => ⟨.csr, 2, (csrNumber r).setWidth 32, m, 0⟩
  | .clear m => ⟨.csr, 3, (csrNumber r).setWidth 32, m, 0⟩

/-- A row of the PLIC window, at the offset `off`. -/
def plicSlot (off : Word) (a : WordAccess) : Slot :=
  match a with
  | .read => ⟨.plic, 0, off, 0, 0⟩
  | .write v => ⟨.plic, 1, off, v, 0⟩

/-- A row of the UART window, at the offset `off`. -/
def uartSlot (off : Word) (a : ByteAccess) : Slot :=
  match a with
  | .read => ⟨.uart, 0, off, 0, 0⟩
  | .write v => ⟨.uart, 1, off, v.setWidth 32, 0⟩

/-- The wires of an instruction, from the tables of 30_encoding.md R92, R93, 10_state.md R24, 20_memory.md R63, R64;
operand words a rule does not name are 0. -/
def encode (cfg : Config) : Instr → Slot
  | .csrRead n => csrCommand 0x01 n 0
  | .csrWrite n v => csrCommand 0x02 n v
  | .csrSet n m => csrCommand 0x03 n m
  | .csrClear n m => csrCommand 0x04 n m
  | .tcDecode r => ⟨.command, 0x10, r, 0, 0⟩
  | .tcClassify c i => ⟨.command, 0x11, (c.setWidth 32), (flag i), 0⟩
  | .plicCtx h m => ⟨.command, 0x20, h, (flag m), 0⟩
  | .plicPrioaddr b s => ⟨.command, 0x21, b, s, 0⟩
  | .plicEnaddr b x s => ⟨.command, 0x22, b, x, s⟩
  | .plicThraddr b x => ⟨.command, 0x23, b, x, 0⟩
  | .plicCcaddr b x => ⟨.command, 0x24, b, x, 0⟩
  | .plicPendaddr b s => ⟨.command, 0x25, b, s, 0⟩
  | .plicSetprio s p => ⟨.command, 0x28, s, p, 0⟩
  | .plicEnable x s => ⟨.command, 0x29, x, s, 0⟩
  | .plicSetthr x t => ⟨.command, 0x2A, x, t, 0⟩
  | .plicInit x s p t => ⟨.command, 0x2B, x, s, (t ++ p)⟩
  | .plicClaim x => ⟨.command, 0x2C, x, 0, 0⟩
  | .plicComplete x i => ⟨.command, 0x2D, x, i, 0⟩
  | .uartPutc b => ⟨.command, 0x30, (b.setWidth 32), 0, 0⟩
  | .uartGetc => ⟨.command, 0x31, 0, 0, 0⟩
  | .uartFlush => ⟨.command, 0x32, 0, 0, 0⟩
  | .uartFifocfg => ⟨.command, 0x33, 0, 0, 0⟩
  | .uartIeset m => ⟨.command, 0x34, (m.setWidth 32), 0, 0⟩
  | .uartIeclr m => ⟨.command, 0x35, (m.setWidth 32), 0, 0⟩
  | .uartIpend => ⟨.command, 0x36, 0, 0, 0⟩
  | .mmioLoad a n => ⟨.command, 0x40, a, n, 0⟩
  | .mmioStore a n v => ⟨.command, 0x41, a, n, v⟩
  | .mret => ⟨.command, 0x50, 0, 0, 0⟩
  | .sret => ⟨.command, 0x51, 0, 0, 0⟩
  | .hartSetpc a => ⟨.command, 0x60, a, 0, 0⟩
  | .hartException e => ⟨.command, 0x61, e, 0, 0⟩
  | .bootB0 => ⟨.agent, 0x80, 0, 0, 0⟩
  | .bootB1 => ⟨.agent, 0x81, 0, 0, 0⟩
  | .bootB2 => ⟨.agent, 0x82, 0, 0, 0⟩
  | .bootB3 => ⟨.agent, 0x83, 0, 0, 0⟩
  | .bootB4 => ⟨.agent, 0x84, 0, 0, 0⟩
  | .bootB5 => ⟨.agent, 0x85, 0, 0, 0⟩
  | .bootB6 => ⟨.agent, 0x86, 0, 0, 0⟩
  | .trapInt => ⟨.agent, 0x90, 0, 0, 0⟩
  | .dispRoute => ⟨.agent, 0x98, 0, 0, 0⟩
  | .dispFatal => ⟨.agent, 0x99, 0, 0, 0⟩
  | .dispIreport => ⟨.agent, 0x9A, 0, 0, 0⟩
  | .dispClaim => ⟨.agent, 0x9B, 0, 0, 0⟩
  | .dispRxpoll => ⟨.agent, 0x9C, 0, 0, 0⟩
  | .dispRxread => ⟨.agent, 0x9D, 0, 0, 0⟩
  | .dispTxpoll => ⟨.agent, 0x9E, 0, 0, 0⟩
  | .dispTxwrite => ⟨.agent, 0x9F, 0, 0, 0⟩
  | .dispComplete => ⟨.agent, 0xA0, 0, 0, 0⟩
  | .dispReturn => ⟨.agent, 0xA1, 0, 0, 0⟩
  | .plicGateway s => ⟨.agent, 0xA8, s, 0, 0⟩
  | .uartTxload => ⟨.agent, 0xB0, 0, 0, 0⟩
  | .uartTxemit => ⟨.agent, 0xB1, 0, 0, 0⟩
  | .uartRxarrive b pe fe bi => ⟨.agent, 0xB2, (b.setWidth 32), (flag pe ||| flag fe <<< 1 ||| flag bi <<< 2), 0⟩
  | .uartModem v => ⟨.agent, 0xB3, (v.setWidth 32), 0, 0⟩
  | .pinMtip v => ⟨.agent, 0xB8, (flag v), 0, 0⟩
  | .pinMsip v => ⟨.agent, 0xB9, (flag v), 0, 0⟩
  | .pinLine s v => ⟨.agent, 0xBA, s, (flag v), 0⟩
  | .reset => ⟨.agent, 0xBF, 0, 0, 0⟩
  | .regSstatus a => csrSlot .sstatus a
  | .regSie a => csrSlot .sie a
  | .regStvec a => csrSlot .stvec a
  | .regSepc a => csrSlot .sepc a
  | .regScause a => csrSlot .scause a
  | .regSip a => csrSlot .sip a
  | .regSatp a => csrSlot .satp a
  | .regMstatus a => csrSlot .mstatus a
  | .regMedeleg a => csrSlot .medeleg a
  | .regMideleg a => csrSlot .mideleg a
  | .regMie a => csrSlot .mie a
  | .regMtvec a => csrSlot .mtvec a
  | .regMepc a => csrSlot .mepc a
  | .regMcause a => csrSlot .mcause a
  | .regMip a => csrSlot .mip a
  | .regPmpcfg0 a => csrSlot .pmpcfg0 a
  | .regPmpaddr0 a => csrSlot .pmpaddr0 a
  | .regMhartid a => csrSlot .mhartid a
  | .regPlicPriority s a => plicSlot (plicOffset cfg (.priority s)) a
  | .regPlicPending w a => plicSlot (plicOffset cfg (.pending w)) a
  | .regPlicEnable c w a => plicSlot (plicOffset cfg (.enable c w)) a
  | .regPlicThreshold c a => plicSlot (plicOffset cfg (.threshold c)) a
  | .regPlicClaim c => plicSlot (plicOffset cfg (.claim c)) .read
  | .regPlicComplete c v => plicSlot (plicOffset cfg (.claim c)) (.write v)
  | .regPlicReserved off a => plicSlot off a
  | .regUartRbr => uartSlot 0 .read
  | .regUartThr v => uartSlot 0 (.write v)
  | .regUartIer a => uartSlot 1 a
  | .regUartIir => uartSlot 2 .read
  | .regUartFcr v => uartSlot 2 (.write v)
  | .regUartLcr a => uartSlot 3 a
  | .regUartOffset4 a => uartSlot 4 a
  | .regUartLsr a => uartSlot 5 a
  | .regUartMsr a => uartSlot 6 a
  | .regUartOffset7 a => uartSlot 7 a

/-! ## Words of opcode_table.json -/

/-- The slot of a word of opcode_table.json whose row has `nbits` bits. A table word carries no format, so its width
tells the space (log 5): up to 8 bits an op code of the command port (bit 7 clear) or of an internal step (bit 7 set),
and, where no command has the code, a UART offset; up to 16 bits a CSR number; up to 32 bits a PLIC offset; above, a
command with its operand words. -/
def tableSlot (nbits w : Nat) : Slot :=
  if nbits ≤ 8 then
    if w = 0 ∨ w = 5 ∨ w = 6 ∨ w = 7 then ⟨.uart, 0, BitVec.ofNat 32 w, 0, 0⟩
    else if w < 0x80 then ⟨.command, BitVec.ofNat 8 w, 0, 0, 0⟩
    else ⟨.agent, BitVec.ofNat 8 w, 0, 0, 0⟩
  else if nbits ≤ 16 then ⟨.csr, 0, BitVec.ofNat 32 w, 0, 0⟩
  else if nbits ≤ 32 then ⟨.plic, 0, BitVec.ofNat 32 w, 0, 0⟩
  else ⟨if w % 256 < 0x80 then .command else .agent, BitVec.ofNat 8 w, BitVec.ofNat 32 (w / 2 ^ 8),
    BitVec.ofNat 32 (w / 2 ^ 40), BitVec.ofNat 32 (w / 2 ^ 72)⟩

/-- The instruction the decoder reads from a word of opcode_table.json, under the default layout constants to which
the table's PLIC rows apply (30_encoding.md R94). -/
def decodeTableWord (nbits w : Nat) : Option Instr :=
  match decode Config.default (tableSlot nbits w) with
  | .ok i => some i
  | .error _ => none

/-! ## Pseudo-operations and state encodings -/

/-- PLIC.CONFIG c, s, p, t (30_encoding.md R108). -/
def plicConfig (c s : Word) (p t : BitVec 16) : Instr := .plicInit c s p t

/-- UART.PUTS (30_encoding.md R108): one UART.PUTC per byte, in order. -/
def uartPuts (bytes : List Byte) : List Instr := bytes.map .uartPutc

/-- The encoding of a privilege mode (10_state.md R23, 30_encoding.md R105). -/
def Priv.code : Priv → BitVec 2
  | .S => 0b01
  | .M => 0b11

/-- The encoding of `ih` (30_encoding.md R105). -/
def Ih.code : Ih → Nat
  | .report => 0
  | .claim => 1
  | .svcRxPoll => 2
  | .svcRxRead => 3
  | .svcTxPoll => 4
  | .svcTxWrite => 5
  | .complete => 6
  | .ret => 7

end Sys2Proof
end

