-- ==== Sys2Proof/Machine/State.lean ====
section
/-! DEFINITION. The state of the block as plain data: every component of 10_state.md R20, grouped as that table groups
them, and the model's own fields (`cfg`, `draws`, `r0`, `r1`, `sched`); the ways a step can stop; the state after reset
(10_state.md R56, 70_reset_and_hazards.md R320). -/

namespace Sys2Proof.Machine

open Sys2Proof

/-- What stops the machine as a fault. The spec's own faults are traps and sticky flags, after which the block goes
on (93_implementation_defined.md section 1); this one is the model's. -/
inductive Fault where
  /-- DISP.TXWRITE with an empty `d_txq`: the rule (45_trap_dispatch.md R248) sends `head(d_txq)` and says nothing of an
  empty queue, which no run reaches. Safe (log 17). -/
  | echoQueueEmpty
deriving DecidableEq, Repr, Inhabited

/-- Why the spec, or this model, gives a step no successor (00_scope.md R10). All are safe: the run stops. -/
inductive Refusal where
  /-- exec's arm of an instruction that has no meaning yet (none in this model). Safe. -/
  | notModelled (mnemonic : String)
  /-- MemRead, MemWrite: not inside one window (20_memory.md R66). Safe. -/
  | outsideBlock
  /-- MemRead, MemWrite at S with `satp[31] = 1` (20_memory.md R74). Safe. -/
  | translationNotModelled
  /-- the protection check met `R = 0`, `W = 1` (20_memory.md R75). Safe. -/
  | pmpReservedRw
  /-- a reserved PLIC offset (42_plic.md R151). Safe. -/
  | plicReservedOffset
  /-- UART offsets 4 and 7 (43_uart.md R191). Safe. -/
  | uartUnlistedRegister
  /-- UART offsets 0 and 1 while `lcr[7] = 1` (43_uart.md R181). Safe. -/
  | uartDivisorLatch
  /-- a FIFO-control write with `v[7:6]` not 0 (43_uart.md R187). Safe. -/
  | uartRxTrigger
  /-- a trap return into user mode (60_exceptions.md R299, R300). Safe. -/
  | userModeNotModelled
  /-- a trap that does not land at `TRAP_ENTRY` (60_exceptions.md R294). Safe. -/
  | vectorNotInstalled
  /-- a turn of the schedule that is no step of the spec (log 21). Safe. -/
  | malformedTurn
deriving DecidableEq, Repr, Inhabited

/-- A sparse table: the entries of an indexed register bank that differ from the bank's default, keys rising. -/
abbrev Tab (β : Type) := List (Nat × β)

/-- The state of a gateway (10_state.md R42). -/
inductive Gw where
  | open
  | pending
  | claimed (c : Fin 2)
deriving DecidableEq, Repr, Inhabited

/-- The stored CSRs (10_state.md R24 to R36), each 32 bits. -/
structure Csrs where
  mstatus : Word
  mie : Word
  mipSw : Word
  medeleg : Word
  mideleg : Word
  mtvec : Word
  stvec : Word
  mepc : Word
  sepc : Word
  mcause : Word
  scause : Word
  satp : Word
  pmpcfg0 : Word
  pmpaddr0 : Word
deriving DecidableEq, Repr, Inhabited

/-- One PLIC context: its enable words (20_memory.md R63) and its threshold (10_state.md R40, R41). -/
structure PlicCtx where
  enable : Tab Word
  threshold : Word
deriving DecidableEq, Repr, Inhabited

/-- The PLIC (10_state.md R39 to R43). -/
structure Plic where
  priority : Tab Word
  ctx0 : PlicCtx
  ctx1 : PlicCtx
  gw : Tab Gw
  /-- the interrupt lines of the sources other than the UART: input pins (10_state.md R43) -/
  extLine : Tab Bool
deriving DecidableEq, Repr, Inhabited

/-- The UART (10_state.md R45 to R48). -/
structure Uart where
  ier : BitVec 4
  fifoEn : Bool
  lcr : Byte
  rxFifo : List Byte
  txFifo : List Byte
  tsr : Option Byte
  err : BitVec 4
  threIp : Bool
  msrDelta : BitVec 4
  /-- the modem-status inputs `{DCD, RI, DSR, CTS}`: input pins (10_state.md R54) -/
  modemIn : BitVec 4
deriving DecidableEq, Repr, Inhabited

/-- The dispatch FSM's state (10_state.md R49). -/
inductive Disp where
  | idle
  | decoding
  | exceptionFatal
  | interruptHandling
  | halted
deriving DecidableEq, Repr, Inhabited

/-- The boot FSM's state (10_state.md R50). -/
inductive Boot where
  | b0
  | b1
  | b2
  | b3
  | b4
  | b5
  | b6
  | done
deriving DecidableEq, Repr, Inhabited

/-- The multi-step operation HOST has begun, at the label of its next step, with its temporaries (10_state.md R51). -/
inductive HostSeq where
  /-- UART.PUTC at P1; the bytes still to send -/
  | putcP1 (b : Byte) (rest : List Byte)
  /-- UART.PUTC at P2 -/
  | putcP2 (b : Byte) (rest : List Byte)
  /-- UART.GETC at G1 -/
  | getcG1
  /-- UART.GETC at G2 -/
  | getcG2
  /-- UART.FLUSH at F1 -/
  | flushF1
  /-- UART.IESET at S2; the mask and the byte S1 read -/
  | iesetS2 (mask : BitVec 4) (v : Byte)
  /-- UART.IECLR at C2; the mask and the byte C1 read -/
  | ieclrC2 (mask : BitVec 4) (v : Byte)
  /-- PLIC.ENABLE at E2; the operands and the word E1 read -/
  | enableE2 (ctx src w : Word)
  /-- PLIC.INIT at I2; the operands -/
  | initI2 (ctx src : Word) (thr : BitVec 16)
  /-- PLIC.INIT at I3; the operands and the word I2 read -/
  | initI3 (ctx src : Word) (thr : BitVec 16) (w : Word)
  /-- PLIC.INIT at I4; the operands -/
  | initI4 (ctx : Word) (thr : BitVec 16)
deriving DecidableEq, Repr, Inhabited

/-- The sticky fault flags (10_state.md R52). -/
structure FaultFlags where
  plicComplete : Bool
  uartTx : Bool
  uartRx : Bool
  doubleTrap : Bool
deriving DecidableEq, Repr, Inhabited

/-- The machine timer and machine software interrupt pins (10_state.md R54). -/
structure Pins where
  mtip : Bool
  msip : Bool
deriving DecidableEq, Repr, Inhabited

/-- The state of the block (10_state.md R20). -/
structure State where
  pc : Word
  priv : Priv
  csr : Csrs
  plic : Plic
  uart : Uart
  disp : Disp
  /-- `ih`, `trap_mode`, `tc`, `ctx`, `claimed_id`, `d_txq` (10_state.md R49) -/
  dregs : DispRegs
  boot : Boot
  hseq : Option HostSeq
  flags : FaultFlags
  sinkLog : List Byte
  txLog : List Byte
  pins : Pins
  /-- the model's: the parameters of 00_scope.md R5; changed by no step (log 7) -/
  cfg : Config
  /-- the model's: how many free values were drawn (log 12) -/
  draws : Nat
  /-- the model's: the result words on the command port, none while no result is driven (log 13) -/
  r0 : Option Word
  r1 : Option Word
  /-- the model's: the turns to come (log 1) -/
  sched : List Turn
deriving DecidableEq, Repr, Inhabited

/-! ## Named updates, one per field -/

namespace State

/-- `s` with a new `pc`. -/
def setPc (s : State) (x : Word) : State := { s with pc := x }

/-- `s` with a new `priv`. -/
def setPriv (s : State) (x : Priv) : State := { s with priv := x }

/-- `s` with a new `csr`. -/
def setCsr (s : State) (x : Csrs) : State := { s with csr := x }

/-- `s` with a new `plic`. -/
def setPlic (s : State) (x : Plic) : State := { s with plic := x }

/-- `s` with a new `uart`. -/
def setUart (s : State) (x : Uart) : State := { s with uart := x }

/-- `s` with a new `disp`. -/
def setDisp (s : State) (x : Disp) : State := { s with disp := x }

/-- `s` with a new `dregs`. -/
def setDregs (s : State) (x : DispRegs) : State := { s with dregs := x }

/-- `s` with a new `boot`. -/
def setBoot (s : State) (x : Boot) : State := { s with boot := x }

/-- `s` with a new `hseq`. -/
def setHseq (s : State) (x : Option HostSeq) : State := { s with hseq := x }

/-- `s` with a new `flags`. -/
def setFlags (s : State) (x : FaultFlags) : State := { s with flags := x }

/-- `s` with a new `sinkLog`. -/
def setSinkLog (s : State) (x : List Byte) : State := { s with sinkLog := x }

/-- `s` with a new `txLog`. -/
def setTxLog (s : State) (x : List Byte) : State := { s with txLog := x }

/-- `s` with a new `pins`. -/
def setPins (s : State) (x : Pins) : State := { s with pins := x }

/-- `s` with a new `draws`. -/
def setDraws (s : State) (x : Nat) : State := { s with draws := x }

/-- `s` with a new `sched`. -/
def setSched (s : State) (x : List Turn) : State := { s with sched := x }

/-- `s` with these results on the command port. -/
def answer (s : State) (r0 r1 : Option Word) : State := { s with r0 := r0, r1 := r1 }

end State

/-! ## Reset -/

/-- The CSR file after reset: every stored register 0 (10_state.md R56). -/
def Csrs.reset : Csrs := ⟨0, 0, 0, 0, 0, 0, 0, 0, 0, 0, 0, 0, 0, 0⟩

/-- The PLIC after reset: priorities, enables and thresholds 0, every gateway open (10_state.md R56); the lines are
pins and keep their levels. -/
def Plic.reset (extLine : Tab Bool) : Plic := ⟨[], ⟨[], 0⟩, ⟨[], 0⟩, [], extLine⟩

/-- The UART after reset (10_state.md R56); the modem inputs are pins and keep their levels. -/
def Uart.reset (modemIn : BitVec 4) : Uart := ⟨0, false, 0, [], [], none, 0, false, 0, modemIn⟩

/-- The dispatch data registers at reset: R56 leaves them unspecified, these values are the model's (log 9,
DESIGN CHOICE). -/
def resetDispRegs : DispRegs := ⟨.report, .M, ⟨0, false⟩, 0, 0, []⟩

/-- What RESET makes of a state (10_state.md R56, 70_reset_and_hazards.md R320): every component at the table's value,
the input pins unchanged; of the model's own fields the port drives no result and the others stay. -/
def State.afterReset (s : State) : State where
  pc := s.cfg.resetEntry
  priv := .M
  csr := Csrs.reset
  plic := Plic.reset s.plic.extLine
  uart := Uart.reset s.uart.modemIn
  disp := .idle
  dregs := resetDispRegs
  boot := .b0
  hseq := none
  flags := ⟨false, false, false, false⟩
  sinkLog := []
  txLog := []
  pins := s.pins
  cfg := s.cfg
  draws := s.draws
  r0 := none
  r1 := none
  sched := s.sched

/-- The machine right after reset, with the default parameters (log 7), all pins 0 (10_state.md R56's launch premise,
log 24) and no turn listed (log 1). -/
def State.reset : State where
  pc := Config.default.resetEntry
  priv := .M
  csr := Csrs.reset
  plic := Plic.reset []
  uart := Uart.reset 0
  disp := .idle
  dregs := resetDispRegs
  boot := .b0
  hseq := none
  flags := ⟨false, false, false, false⟩
  sinkLog := []
  txLog := []
  pins := ⟨false, false⟩
  cfg := Config.default
  draws := 0
  r0 := none
  r1 := none
  sched := []

end Sys2Proof.Machine
end

