-- ==== Sys2Proof/Machine/Operands.lean ====
section
/-! DEFINITION. The operand forms and the pure functions of operands: bit fields (00_scope.md R6), cause words
(30_encoding.md R100, R101; 41_trap_cause_decoder.md R130), the PLIC address functions (42_plic.md R140 to R145), access
widths (30_encoding.md R91), the newline translation (43_uart.md R192, R201) and the report record (30_encoding.md
R104). -/

namespace Sys2Proof.Machine

open Sys2Proof

/-! ## Bit fields -/

/-- `w` with bit `i` set to `b`. -/
def setBit (w : Word) (i : Nat) (b : Bool) : Word :=
  if b then w ||| (1#32 <<< i) else w &&& ~~~(1#32 <<< i)

/-- A write of `v` through a writable mask: `(old & ~m) | (v & m)` (40_csr_access.md R122). -/
def maskWrite (old m v : Word) : Word := (old &&& ~~~m) ||| (v &&& m)

/-- The word whose bit `b` is `f b`. -/
def wordOf (f : Nat → Bool) : Word :=
  (List.range 32).foldl (fun acc b => if f b then acc ||| (1#32 <<< b) else acc) 0

/-- One bit as a byte. -/
def byteFlag (b : Bool) : Byte := (BitVec.ofBool b).setWidth 8

/-! ## Trap causes -/

/-- `decode` (41_trap_cause_decoder.md R130): the top bit is the interrupt flag, the rest the code. -/
def decodeCause (raw : Word) : TrapCause := ⟨raw.setWidth 31, raw.getLsbD 31⟩

/-- `encode` (30_encoding.md R101): `(is_interrupt << 31) | code`. -/
def encodeCause (tc : TrapCause) : Word := (flag tc.isInterrupt <<< 31) ||| tc.code.setWidth 32

/-- What `classify` answers (30_encoding.md R103). -/
inductive CauseClass where
  | unknown
  | exception (code : BitVec 31)
  | interrupt (code : BitVec 31)
deriving DecidableEq, Repr, Inhabited

/-- The exception table (60_exceptions.md R281): codes 0 to 15 but for the reserved 10 and 14. -/
def exceptionKnown (code : Nat) : Bool := decide (code < 16 ∧ code ≠ 10 ∧ code ≠ 14)

/-- The interrupt table (60_exceptions.md R282): codes 1, 3, 5, 7, 9, 11. -/
def interruptKnown (code : Nat) : Bool := decide (code < 12 ∧ code % 2 = 1)

/-- `classify` (41_trap_cause_decoder.md R130). -/
def classify (tc : TrapCause) : CauseClass :=
  if tc.isInterrupt then
    if interruptKnown tc.code.toNat then .interrupt tc.code else .unknown
  else
    if exceptionKnown tc.code.toNat then .exception tc.code else .unknown

/-- The result words of TC.CLASSIFY (30_encoding.md R103). -/
def CauseClass.words : CauseClass → Word × Word
  | .unknown => (0, 0)
  | .exception e => (1, e.setWidth 32)
  | .interrupt i => (2, i.setWidth 32)

/-- Exception codes the block raises itself (60_exceptions.md R281). -/
def excInstrMisaligned : BitVec 31 := 0
/-- Illegal instruction. -/
def excIllegal : BitVec 31 := 2
/-- Load access fault. -/
def excLoadFault : BitVec 31 := 5
/-- Store access fault. -/
def excStoreFault : BitVec 31 := 7

/-! ## PLIC addressing -/

/-- `context_index` (42_plic.md R140): `(hart << 1) | mode`. -/
def contextIndex (hart : Word) (mode : Bool) : Word := (hart <<< 1) ||| flag mode

/-- `priority_address` (42_plic.md R141). -/
def priorityAddress (cfg : Config) (base src : Word) : Word := base + cfg.priorityOffset + src * 4

/-- The address part of `enable_bit_address` (42_plic.md R142). -/
def enableAddress (cfg : Config) (base ctx src : Word) : Word :=
  base + cfg.enableOffset + ctx * cfg.enableStride + (src >>> 5) * 4

/-- `source % 32`: the bit index of `enable_bit_address` and `pending_bit_address` (42_plic.md R142, R145). -/
def sourceBit (src : Word) : BitVec 5 := src.setWidth 5

/-- `threshold_address` (42_plic.md R143). -/
def thresholdAddress (cfg : Config) (base ctx : Word) : Word := base + cfg.thresholdOffset + ctx * cfg.thresholdStride

/-- `claim_complete_address` (42_plic.md R144). -/
def claimAddress (cfg : Config) (base ctx : Word) : Word := base + cfg.claimOffset + ctx * cfg.claimStride

/-- The address part of `pending_bit_address` (42_plic.md R145). -/
def pendingAddress (cfg : Config) (base src : Word) : Word := base + cfg.pendingOffset + (src >>> 5) * 4

/-- `w | (1 << bit)` (42_plic.md R157). -/
def withSourceBit (w : Word) (bit : BitVec 5) : Word := w ||| (1#32 <<< bit.toNat)

/-! ## Access widths -/

/-- The width of an access of the MMIO space: 1 or 4 bytes (20_memory.md R72). -/
inductive Width where
  | byte
  | word
deriving DecidableEq, Repr, Inhabited

/-- The number of bytes. -/
def Width.bytes : Width → Nat
  | .byte => 1
  | .word => 4

/-- The width operand of MMIO.LOAD and MMIO.STORE: 1 or 4 (30_encoding.md R91). -/
def widthOf (w : Word) : Option Width :=
  if w = 1 then some .byte else if w = 4 then some .word else none

/-- The part of a store's value operand that its width uses: `a2[8*a1-1:0]` (46_host_port.md R262). -/
def storeValue (n : Width) (v : Word) : Word :=
  match n with
  | .byte => v &&& 0xFF
  | .word => v

/-! ## Bytes of the UART driver -/

/-- `PutcSeq` (43_uart.md R192): carriage-return before a line-feed. The first byte and the rest. -/
def putcSeq (c : Byte) : Byte × List Byte := if c = 0x0A then (0x0D, [0x0A]) else (c, [])

/-- `read_byte`'s translation (43_uart.md R201): a carriage-return becomes a line-feed. -/
def crToLf (b : Byte) : Byte := if b = 0x0D then 0x0A else b

/-! ## The report record -/

/-- `report(tag, v)` (30_encoding.md R104): the tag, then the word low byte first. -/
def reportBytes (tag : Byte) (v : Word) : List Byte :=
  [tag, v.setWidth 8, (v >>> 8).setWidth 8, (v >>> 16).setWidth 8, (v >>> 24).setWidth 8]

/-! ## State encodings (30_encoding.md R105) -/

/-- The encoding of `disp`. -/
def Disp.code : Disp → Nat
  | .idle => 0
  | .decoding => 1
  | .exceptionFatal => 2
  | .interruptHandling => 3
  | .halted => 4

/-- The encoding of `boot`. -/
def Boot.code : Boot → Nat
  | .b0 => 0
  | .b1 => 1
  | .b2 => 2
  | .b3 => 3
  | .b4 => 4
  | .b5 => 5
  | .b6 => 6
  | .done => 7

/-- The encoding of a gateway's state. -/
def Gw.code : Gw → Nat
  | .open => 0
  | .pending => 1
  | .claimed c => 2 + c.val

end Sys2Proof.Machine
end

