-- ==== Sys2Proof/Machine/Tables.lean ====
section
/-! DEFINITION. The sparse tables that hold the PLIC's register banks, and the accessors of a bank's registers
(10_state.md R39 to R43). `d` is a bank's default: what every unlisted index holds. -/

namespace Sys2Proof.Machine

open Sys2Proof

/-- What index `k` holds. -/
def Tab.get {β : Type} (d : β) : Tab β → Nat → β
  | [], _ => d
  | (k', v) :: t, k => if k' = k then v else Tab.get d t k

/-- Put an entry before the first larger key. -/
def Tab.insert {β : Type} (k : Nat) (v : β) : Tab β → Tab β
  | [] => [(k, v)]
  | (k', v') :: t => if k < k' then (k, v) :: (k', v') :: t else (k', v') :: Tab.insert k v t

/-- Write `v` at index `k`; writing the default removes the entry, so that equal banks are equal data. -/
def Tab.set {β : Type} [DecidableEq β] (d : β) (t : Tab β) (k : Nat) (v : β) : Tab β :=
  let rest := t.filter (fun e => e.1 != k)
  if v = d then rest else Tab.insert k v rest

/-- The canonical form: keys strictly rising, no entry equal to the default. -/
def Tab.wf {β : Type} [DecidableEq β] (d : β) (t : Tab β) : Bool :=
  decide (t.Pairwise (fun a b => a.1 < b.1)) && t.all (fun e => decide (e.2 ≠ d))

/-! ## The PLIC's registers -/

/-- Context `c` (10_state.md R40, R41). -/
def Plic.ctx (p : Plic) (c : Fin 2) : PlicCtx := if c = 0 then p.ctx0 else p.ctx1

/-- `p` with a new context `c`. -/
def Plic.setCtx (p : Plic) (c : Fin 2) (x : PlicCtx) : Plic :=
  if c = 0 then { p with ctx0 := x } else { p with ctx1 := x }

/-- `priority[s]` (10_state.md R39). -/
def Plic.prio (p : Plic) (s : Nat) : Word := Tab.get 0 p.priority s

/-- `p` with `priority[s] = v`. -/
def Plic.setPrio (p : Plic) (s : Nat) (v : Word) : Plic := { p with priority := Tab.set 0 p.priority s v }

/-- The enable word `w` of context `c` (20_memory.md R63). -/
def Plic.enableWord (p : Plic) (c : Fin 2) (w : Nat) : Word := Tab.get 0 (p.ctx c).enable w

/-- `p` with a new enable word. -/
def Plic.setEnableWord (p : Plic) (c : Fin 2) (w : Nat) (v : Word) : Plic :=
  p.setCtx c { p.ctx c with enable := Tab.set 0 (p.ctx c).enable w v }

/-- `enable[c][s]` (10_state.md R40). -/
def Plic.enabled (p : Plic) (c : Fin 2) (s : Nat) : Bool := (p.enableWord c (s / 32)).getLsbD (s % 32)

/-- `threshold[c]` (10_state.md R41). -/
def Plic.thresh (p : Plic) (c : Fin 2) : Word := (p.ctx c).threshold

/-- `p` with `threshold[c] = v`. -/
def Plic.setThresh (p : Plic) (c : Fin 2) (v : Word) : Plic := p.setCtx c { p.ctx c with threshold := v }

/-- `gw[s]` (10_state.md R42). -/
def Plic.gate (p : Plic) (s : Nat) : Gw := Tab.get .open p.gw s

/-- `p` with `gw[s] = g`. -/
def Plic.setGate (p : Plic) (s : Nat) (g : Gw) : Plic := { p with gw := Tab.set .open p.gw s g }

/-- `ext_line[s]` (10_state.md R43). -/
def Plic.ext (p : Plic) (s : Nat) : Bool := Tab.get false p.extLine s

/-- `p` with `ext_line[s] = v`. -/
def Plic.setExt (p : Plic) (s : Nat) (v : Bool) : Plic := { p with extLine := Tab.set false p.extLine s v }

end Sys2Proof.Machine
end

