-- ==== Sys2Proof/Machine/Flags.lean ====
section
/-! DEFINITION. Everything the spec derives from the state: the UART's line status, interrupt identification and
interrupt output (10_state.md R47, R48), the source lines (R43), eligibility, arbitration and the external-interrupt
outputs of the PLIC (R44, 42_plic.md R154), the assembled `mip` (R28) and the interrupt that can be taken
(60_exceptions.md R295). -/

namespace Sys2Proof.Machine

open Sys2Proof

/-! ## UART -/

/-- `cap` (10_state.md R46): the capacity of both queues. -/
def Uart.cap (u : Uart) (cfg : Config) : Nat := if u.fifoEn then cfg.uartFifoDepth else 1

/-- The line-status register's value (10_state.md R47): `{0, TEMT, THRE, err[3:0], DR}`. -/
def Uart.lsr (u : Uart) : Byte :=
  byteFlag (!u.rxFifo.isEmpty) ||| u.err.setWidth 8 <<< 1 ||| byteFlag u.txFifo.isEmpty <<< 5 |||
    byteFlag (u.txFifo.isEmpty && u.tsr.isNone) <<< 6

/-- `IIR[3:0]` (10_state.md R48): the first enabled condition that holds. -/
def Uart.iid (u : Uart) : BitVec 4 :=
  if u.ier.getLsbD 2 ∧ u.err ≠ 0 then 0b0110
  else if u.ier.getLsbD 0 ∧ u.rxFifo ≠ [] then 0b0100
  else if u.ier.getLsbD 1 ∧ u.threIp then 0b0010
  else if u.ier.getLsbD 3 ∧ u.msrDelta ≠ 0 then 0b0000
  else 0b0001

/-- The interrupt-identification register's value (43_uart.md R186): `{fifo_en, fifo_en, 0, 0, IIR[3:0]}`. -/
def Uart.iir (u : Uart) : Byte :=
  byteFlag u.fifoEn <<< 7 ||| byteFlag u.fifoEn <<< 6 ||| u.iid.setWidth 8

/-- The modem-status register's value (43_uart.md R190): `{modem_in, msr_delta}`. -/
def Uart.msr (u : Uart) : Byte := u.modemIn ++ u.msrDelta

/-- `uart_irq` (10_state.md R48): some enabled condition holds. -/
def Uart.irq (u : Uart) : Bool := !u.iid.getLsbD 0

/-! ## PLIC -/

/-- `line[s]` (10_state.md R43): the UART's output for its source, a pin for every other. -/
def lineHigh (s : State) (src : Nat) : Bool :=
  if src = s.cfg.uartSourceId then s.uart.irq else s.plic.ext src

/-- `eligible(p, t)` (10_state.md R44). -/
def eligible (cfg : Config) (p t : Word) : Bool :=
  decide (p ≠ 0) && (if cfg.threshStrict then decide (t < p) else decide (t ≤ p))

/-- `src` is in `cand(c)` (10_state.md R44). -/
def isCand (s : State) (c : Fin 2) (src : Nat) : Bool :=
  s.cfg.isSource src && decide (s.plic.gate src = .pending) && s.plic.enabled c src &&
    eligible s.cfg (s.plic.prio src) (s.plic.thresh c)

/-- `cand(c)` (10_state.md R44). Only a listed gateway can be pending. -/
def cand (s : State) (c : Fin 2) : List Nat := (s.plic.gw.map Prod.fst).filter (isCand s c)

/-- `eip[c]` (10_state.md R44). -/
def eip (s : State) (c : Fin 2) : Bool := !(cand s c).isEmpty

/-- `a` goes before `b` in arbitration (42_plic.md R154): larger priority, then smaller id. -/
def beats (s : State) (a b : Nat) : Bool :=
  decide (s.plic.prio b < s.plic.prio a) || (decide (s.plic.prio a = s.plic.prio b) && decide (a < b))

/-- The better of the best so far and `b`. -/
def pick (s : State) (acc : Option Nat) (b : Nat) : Option Nat :=
  match acc with
  | none => some b
  | some a => if beats s b a then some b else some a

/-- `best(c)` (42_plic.md R154). -/
def best (s : State) (c : Fin 2) : Option Nat := (cand s c).foldl (pick s) none

/-! ## Interrupt bits -/

/-- The assembled `mip` (10_state.md R28). -/
def mip (s : State) : Word :=
  (s.csr.mipSw &&& 0x22) ||| flag s.pins.msip <<< 3 ||| flag s.pins.mtip <<< 7 |||
    flag (eip s 1) <<< 9 ||| flag (eip s 0) <<< 11

/-- `mstatus.MIE` (10_state.md R25). -/
def mieBit (w : Word) : Bool := w.getLsbD 3
/-- `mstatus.SIE`. -/
def sieBit (w : Word) : Bool := w.getLsbD 1
/-- `mstatus.MPIE`. -/
def mpieBit (w : Word) : Bool := w.getLsbD 7
/-- `mstatus.SPIE`. -/
def spieBit (w : Word) : Bool := w.getLsbD 5
/-- `mstatus.SPP`. -/
def sppBit (w : Word) : Bool := w.getLsbD 8
/-- `mstatus.MPP`. -/
def mppField (w : Word) : BitVec 2 := (w >>> 11).setWidth 2
/-- `mstatus.MPP <- v`, the other fields unchanged. -/
def setMpp (w : Word) (v : BitVec 2) : Word := (w &&& ~~~0x1800#32) ||| (v.setWidth 32 <<< 11)

/-- `T_M` (60_exceptions.md R295): the takeable interrupts bound for machine mode. -/
def takeableM (s : State) : Word :=
  if s.priv = .S ∨ mieBit s.csr.mstatus then mip s &&& s.csr.mie &&& ~~~s.csr.mideleg else 0

/-- `T_S` (60_exceptions.md R295): the takeable interrupts bound for supervisor mode. -/
def takeableS (s : State) : Word :=
  if s.priv = .S ∧ sieBit s.csr.mstatus then mip s &&& s.csr.mie &&& s.csr.mideleg else 0

/-- The interrupt TRAP.INT takes (60_exceptions.md R295): machine-bound ones first, in the order 11, 3, 7, 9, 1, 5,
then supervisor-bound ones in the order 9, 1, 5. -/
def interruptChoice (s : State) : Option Nat :=
  if takeableM s ≠ 0 then [11, 3, 7, 9, 1, 5].find? (fun i => (takeableM s).getLsbD i)
  else [9, 1, 5].find? (fun i => (takeableS s).getLsbD i)

end Sys2Proof.Machine
end

