-- ==== Sys2Proof/Machine/Ops.lean ====
section
/-! DEFINITION. The shared operations of the steps: the three ways a step's body ends (00_scope.md R7, R10), the report
(30_encoding.md R104), taking a trap (60_exceptions.md R294, R296, R304) and returning from one (R299, R300), and the
frames of a host command (46_host_port.md R260), a BOOT step (44_privilege_bootstrap.md R220) and a dispatch step
(45_trap_dispatch.md R240, 60_exceptions.md R302). -/

namespace Sys2Proof.Machine

open Sys2Proof

/-- The outcome of the machine. -/
abbrev Out := Host.Outcome State Fault Refusal

/-- How the body of a step ends: with a value and the new state, with `raise` (none of the step's effects is applied,
00_scope.md R7) or with `refuse`. -/
inductive Res (α : Type) where
  | ok (a : α) (s : State)
  | raise (code : BitVec 31)
  | refuse (r : Refusal)
deriving DecidableEq, Repr

/-- Go on with the value and the state, unless the step raised or refused. -/
def Res.andThen {α β : Type} (r : Res α) (f : α → State → Res β) : Res β :=
  match r with
  | .ok a s => f a s
  | .raise e => .raise e
  | .refuse r => .refuse r

/-- The result words a host step produces (30_encoding.md R90): none where its rule names none. -/
abbrev Answer := Option Word × Option Word

/-- No result. -/
def noAnswer : Answer := (none, none)

/-- One result, in `r0`. -/
def answerOne (w : Word) : Answer := (some w, none)

/-- Two results. -/
def answerTwo (w0 w1 : Word) : Answer := (some w0, some w1)

/-- `report(tag, v)` (30_encoding.md R104): one 5-byte record is appended to `sink_log`. -/
def report (s : State) (tag : Byte) (v : Word) : State := s.setSinkLog (s.sinkLog ++ reportBytes tag v)

/-! ## Trap entry -/

/-- The destination mode of a trap (60_exceptions.md R304). -/
def trapDest (s : State) (isInt : Bool) (code : BitVec 31) : Priv :=
  if isInt then
    if s.csr.mideleg.getLsbD code.toNat then .S else .M
  else
    if s.priv = .S ∧ s.csr.medeleg.getLsbD code.toNat then .S else .M

/-- `mstatus` at a trap into M (60_exceptions.md R294): `MPIE <- MIE`, `MIE <- 0`, `MPP <- priv`. -/
def mstatusTrapM (w : Word) (p : Priv) : Word := setMpp (setBit (setBit w 7 (mieBit w)) 3 false) p.code

/-- `mstatus` at a trap into S (60_exceptions.md R294): `SPIE <- SIE`, `SIE <- 0`, `SPP <- 1`. -/
def mstatusTrapS (w : Word) : Word := setBit (setBit (setBit w 5 (sieBit w)) 1 false) 8 true

/-- Lines 3 of `TrapEnter` (60_exceptions.md R294): what is saved, and the new mode, enable and pc. -/
def trapSave (s : State) (dest : Priv) (cause : Word) : State :=
  match dest with
  | .M => { s with
      csr := { s.csr with mepc := s.pc, mcause := cause, mstatus := mstatusTrapM s.csr.mstatus s.priv },
      priv := .M, pc := s.csr.mtvec }
  | .S => { s with
      csr := { s.csr with sepc := s.pc, scause := cause, mstatus := mstatusTrapS s.csr.mstatus },
      priv := .S, pc := s.csr.stvec }

/-- Line 5 of `TrapEnter` (60_exceptions.md R294): the FSM reads the cause just written. -/
def trapDecode (s : State) (dest : Priv) (cause : Word) : State :=
  { s with dregs := { s.dregs with trapMode := dest, tc := decodeCause cause }, disp := .decoding }

/-- TAKING A TRAP: `TrapEnter(is_int, code)` (60_exceptions.md R294). -/
def trapEnter (s : State) (isInt : Bool) (code : BitVec 31) : Out :=
  let cause := encodeCause ⟨code, isInt⟩
  let dest := trapDest s isInt code
  let t := trapSave s dest cause
  if t.pc = s.cfg.trapEntry then .next (trapDecode t dest cause) else .refused .vectorNotInstalled

/-- The synchronous trap of a `raise` in a HOST step (60_exceptions.md R296): `hseq <- none`, no result, then
`TrapEnter(0, code)`. -/
def raiseException (s : State) (code : BitVec 31) : Out :=
  trapEnter { s with hseq := none, r0 := none, r1 := none } false code

/-! ## Trap return -/

/-- The mode a return from M enters: M if `MPP = 0b11`, else S (60_exceptions.md R299). -/
def mretPriv (w : Word) : Priv := if mppField w = 0b11 then .M else .S

/-- `mstatus` after a return from M (60_exceptions.md R299): `MIE <- MPIE`, `MPIE <- 1`, `MPP <- 0b00`. -/
def mstatusMret (w : Word) : Word := setMpp (setBit (setBit w 3 (mpieBit w)) 7 true) 0b00

/-- RETURNING FROM A TRAP IN M: the effects of MRET after its privilege check (60_exceptions.md R299). -/
def mretEffects (s : State) : Res Unit :=
  if mppField s.csr.mstatus = 0b00 then .refuse .userModeNotModelled
  else .ok () { s with
    priv := mretPriv s.csr.mstatus, csr := { s.csr with mstatus := mstatusMret s.csr.mstatus }, pc := s.csr.mepc }

/-- `mstatus` after a return from S (60_exceptions.md R300): `SIE <- SPIE`, `SPIE <- 1`, `SPP <- 0`. -/
def mstatusSret (w : Word) : Word := setBit (setBit (setBit w 1 (spieBit w)) 5 true) 8 false

/-- RETURNING FROM A TRAP IN S: the effects of SRET (60_exceptions.md R300). -/
def sretEffects (s : State) : Res Unit :=
  if sppBit s.csr.mstatus = false then .refuse .userModeNotModelled
  else .ok () { s with
    priv := .S, csr := { s.csr with mstatus := mstatusSret s.csr.mstatus }, pc := s.csr.sepc }

/-! ## The frames of a step -/

/-- HOST may take a new command (46_host_port.md R260). -/
def hostReady (s : State) : Bool := decide (s.boot = .done) && decide (s.disp = .idle) && s.hseq.isNone

/-- A HOST step ends: its results stand on the port, or its exception is taken, or the run stops. -/
def hostFinish (s : State) (r : Res Answer) : Out :=
  match r with
  | .ok a t => .next (t.answer a.1 a.2)
  | .raise e => raiseException s e
  | .refuse r => .refused r

/-- A host command: accepted and its first step performed, or turned away with nothing changed (46_host_port.md R260;
log 3). -/
def hostCommand (s : State) (body : State → Res Answer) : Out :=
  if hostReady s then hostFinish s (body s) else .next s

/-- A BOOT step (44_privilege_bootstrap.md R220): guard `boot` = its label and `disp = Idle`; it never raises. -/
def bootStep (s : State) (label next : Boot) (body : State → Res Unit) : Out :=
  if s.boot = label ∧ s.disp = .idle then
    match body s with
    | .ok _ t => .next (t.setBoot next)
    | .raise e => raiseException s e
    | .refuse r => .refused r
  else .next s

/-- A `raise` inside a DISP step (60_exceptions.md R302): the block halts, nothing else changes. -/
def doubleTrap (s : State) : State := { s with disp := .halted, flags := { s.flags with doubleTrap := true } }

/-- A DISP step with its guard (45_trap_dispatch.md R240): an exception is the double trap of 60_exceptions.md R302. -/
def dispStep (s : State) (guard : Bool) (body : State → Res Unit) : Out :=
  if guard then
    match body s with
    | .ok _ t => .next t
    | .raise _ => .next (doubleTrap s)
    | .refuse r => .refused r
  else .next s

/-- `disp = InterruptHandling` and `ih` is the label (45_trap_dispatch.md R243 to R250). -/
def inService (s : State) (label : Ih) : Bool := decide (s.disp = .interruptHandling) && decide (s.dregs.ih = label)

/-- `ih <- label`. -/
def setIh (s : State) (label : Ih) : State := s.setDregs { s.dregs with ih := label }

end Sys2Proof.Machine
end

