-- ==== Sys2Proof/Machine/CsrFile.lean ====
section
/-! DEFINITION. The CSR file: the access check and the read and write primitives (40_csr_access.md R120 to R122; each
register's rule in 10_state.md R25 to R37). -/

namespace Sys2Proof.Machine

open Sys2Proof

/-- `rank` (40_csr_access.md R120). -/
def Priv.rank : Priv → Nat
  | .M => 3
  | .S => 1

/-- `CsrCheck(id, is_write)` (40_csr_access.md R120): the register, or none where the access is illegal. -/
def csrCheck (s : State) (id : BitVec 12) (isWrite : Bool) : Option CsrName :=
  match csrOfNumber id with
  | none => none
  | some r =>
    if Priv.rank s.priv < (id.extractLsb 9 8).toNat then none
    else if isWrite ∧ id.extractLsb 11 10 = 0b11 then none
    else some r

/-- `CsrRead(id)` (40_csr_access.md R121): no side effect. -/
def csrReadValue (s : State) (r : CsrName) : Word :=
  match r with
  | .sstatus => s.csr.mstatus &&& 0x122
  | .sie => s.csr.mie &&& s.csr.mideleg
  | .stvec => s.csr.stvec
  | .sepc => s.csr.sepc
  | .scause => s.csr.scause
  | .sip => mip s &&& s.csr.mideleg
  | .satp => s.csr.satp
  | .mstatus => s.csr.mstatus
  | .medeleg => s.csr.medeleg
  | .mideleg => s.csr.mideleg
  | .mie => s.csr.mie
  | .mtvec => s.csr.mtvec
  | .mepc => s.csr.mepc
  | .mcause => s.csr.mcause
  | .mip => mip s
  | .pmpcfg0 => s.csr.pmpcfg0
  | .pmpaddr0 => s.csr.pmpaddr0
  | .mhartid => 0

/-- A CSR write of `v` to `mstatus` (10_state.md R25): the reserved `MPP` value 0b10 keeps the old `MPP`. -/
def mstatusWrite (old v : Word) : Word :=
  let w := maskWrite old 0x19AA v
  if mppField v = 0b10 then setMpp w (mppField old) else w

/-- The writable mask of `mepc` and `sepc` (10_state.md R33). -/
def epcMask (cfg : Config) : Word :=
  match cfg.ialign with
  | .bits32 => 0xFFFFFFFC
  | .bits16 => 0xFFFFFFFE

/-- `CsrWrite(id, v)` on the stored registers (40_csr_access.md R122); `mhartid` has no storage. -/
def csrWriteFile (cfg : Config) (c : Csrs) (r : CsrName) (v : Word) : Csrs :=
  match r with
  | .sstatus => { c with mstatus := maskWrite c.mstatus 0x122 v }
  | .sie => { c with mie := maskWrite c.mie c.mideleg v }
  | .stvec => { c with stvec := maskWrite c.stvec 0xFFFFFFFC v }
  | .sepc => { c with sepc := maskWrite c.sepc (epcMask cfg) v }
  | .scause => { c with scause := v }
  | .sip => { c with mipSw := maskWrite c.mipSw (c.mideleg &&& 0x2) v }
  | .satp => { c with satp := v }
  | .mstatus => { c with mstatus := mstatusWrite c.mstatus v }
  | .medeleg => { c with medeleg := maskWrite c.medeleg 0xB3FF v }
  | .mideleg => { c with mideleg := maskWrite c.mideleg 0x222 v }
  | .mie => { c with mie := maskWrite c.mie 0xAAA v }
  | .mtvec => { c with mtvec := maskWrite c.mtvec 0xFFFFFFFC v }
  | .mepc => { c with mepc := maskWrite c.mepc (epcMask cfg) v }
  | .mcause => { c with mcause := v }
  | .mip => { c with mipSw := maskWrite c.mipSw 0x22 v }
  | .pmpcfg0 => { c with pmpcfg0 := maskWrite c.pmpcfg0 0x1F v }
  | .pmpaddr0 => { c with pmpaddr0 := v }
  | .mhartid => c

/-- `CsrWrite(id, v)`. -/
def csrWriteState (s : State) (r : CsrName) (v : Word) : State := s.setCsr (csrWriteFile s.cfg s.csr r v)

/-- One access of one CSR by HOST, with its check (40_csr_access.md R123 to R126): CSR.SET and CSR.CLEAR count as
writes whatever their mask. -/
def csrAccess (id : BitVec 12) (a : CsrAccess) (s : State) : Res Answer :=
  match a with
  | .read =>
    match csrCheck s id false with
    | none => .raise excIllegal
    | some r => .ok (answerOne (csrReadValue s r)) s
  | .write v =>
    match csrCheck s id true with
    | none => .raise excIllegal
    | some r => .ok noAnswer (csrWriteState s r v)
  | .set m =>
    match csrCheck s id true with
    | none => .raise excIllegal
    | some r => .ok noAnswer (csrWriteState s r (csrReadValue s r ||| m))
  | .clear m =>
    match csrCheck s id true with
    | none => .raise excIllegal
    | some r => .ok noAnswer (csrWriteState s r (csrReadValue s r &&& ~~~m))

end Sys2Proof.Machine
end

