-- ==== Sys2Proof/Machine/Bootstrap.lean ====
section
/-! DEFINITION. The privilege bootstrap (44_privilege_bootstrap.md R221 to R227). -/

namespace Sys2Proof.Machine

open Sys2Proof

/-- BOOT.B0 (44_privilege_bootstrap.md R221): install the trap vectors. -/
def execBootB0 (s : State) : Out :=
  bootStep s .b0 .b1 fun s =>
    .ok () (csrWriteState (csrWriteState s .mtvec s.cfg.trapEntry) .stvec s.cfg.trapEntry)

/-- BOOT.B1 (44_privilege_bootstrap.md R222): disable address translation. -/
def execBootB1 (s : State) : Out := bootStep s .b1 .b2 fun s => .ok () (csrWriteState s .satp 0)

/-- BOOT.B2 (44_privilege_bootstrap.md R223): configure memory protection. -/
def execBootB2 (s : State) : Out :=
  bootStep s .b2 .b3 fun s =>
    .ok () (csrWriteState (csrWriteState s .pmpaddr0 s.cfg.pmpAddr0) .pmpcfg0 s.cfg.pmpCfg0)

/-- BOOT.B3 (44_privilege_bootstrap.md R224): the entry point and the previous-privilege field. -/
def execBootB3 (s : State) : Out :=
  bootStep s .b3 .b4 fun s =>
    let t := csrWriteState s .mepc s.cfg.mainEntry
    .ok () (t.setCsr { t.csr with mstatus := setMpp t.csr.mstatus s.cfg.bootTarget.code })

/-- BOOT.B4 (44_privilege_bootstrap.md R225): the target's global interrupt enable. -/
def execBootB4 (s : State) : Out :=
  bootStep s .b4 .b5 fun s =>
    .ok () (s.setCsr { s.csr with
      mstatus := setBit s.csr.mstatus (match s.cfg.bootTarget with | .S => 1 | .M => 7) true })

/-- BOOT.B5 (44_privilege_bootstrap.md R226): the delegation masks. -/
def execBootB5 (s : State) : Out :=
  bootStep s .b5 .b6 fun s =>
    .ok () (csrWriteState (csrWriteState s .medeleg s.cfg.edelegMask) .mideleg s.cfg.idelegMask)

/-- BOOT.B6 (44_privilege_bootstrap.md R227): the privilege-mode return. -/
def execBootB6 (s : State) : Out := bootStep s .b6 .done mretEffects

end Sys2Proof.Machine
end

