-- ==== Sys2Proof/Machine/Csr.lean ====
section
/-! DEFINITION. The CSR commands (40_csr_access.md R123 to R126) and the CSR rows of opcode_table.json: a row is the
CSR operation its operand names, made by HOST on that register (30_encoding.md R94; log 14). -/

namespace Sys2Proof.Machine

open Sys2Proof

/-- CSR.READ (40_csr_access.md R123). -/
def execCsrRead (csr : BitVec 12) (s : State) : Out := hostCommand s (csrAccess csr .read)

/-- CSR.WRITE (40_csr_access.md R124). -/
def execCsrWrite (csr : BitVec 12) (v : Word) (s : State) : Out := hostCommand s (csrAccess csr (.write v))

/-- CSR.SET (40_csr_access.md R125): one atomic read-modify-write. -/
def execCsrSet (csr : BitVec 12) (mask : Word) (s : State) : Out := hostCommand s (csrAccess csr (.set mask))

/-- CSR.CLEAR (40_csr_access.md R126): one atomic read-modify-write. -/
def execCsrClear (csr : BitVec 12) (mask : Word) (s : State) : Out := hostCommand s (csrAccess csr (.clear mask))

/-- A CSR row: the register's number through the CSR operation (log 14). -/
def csrRowAccess (r : CsrName) (a : CsrAccess) (s : State) : Out := hostCommand s (csrAccess (csrNumber r) a)

/-- The row sstatus (10_state.md R26). -/
def execRegSstatus (a : CsrAccess) (s : State) : Out := csrRowAccess .sstatus a s

/-- The row sie (10_state.md R29). -/
def execRegSie (a : CsrAccess) (s : State) : Out := csrRowAccess .sie a s

/-- The row stvec (10_state.md R32). -/
def execRegStvec (a : CsrAccess) (s : State) : Out := csrRowAccess .stvec a s

/-- The row sepc (10_state.md R33). -/
def execRegSepc (a : CsrAccess) (s : State) : Out := csrRowAccess .sepc a s

/-- The row scause (10_state.md R34). -/
def execRegScause (a : CsrAccess) (s : State) : Out := csrRowAccess .scause a s

/-- The row sip (10_state.md R29). -/
def execRegSip (a : CsrAccess) (s : State) : Out := csrRowAccess .sip a s

/-- The row satp (10_state.md R35). -/
def execRegSatp (a : CsrAccess) (s : State) : Out := csrRowAccess .satp a s

/-- The row mstatus (10_state.md R25). -/
def execRegMstatus (a : CsrAccess) (s : State) : Out := csrRowAccess .mstatus a s

/-- The row medeleg (10_state.md R30). -/
def execRegMedeleg (a : CsrAccess) (s : State) : Out := csrRowAccess .medeleg a s

/-- The row mideleg (10_state.md R31). -/
def execRegMideleg (a : CsrAccess) (s : State) : Out := csrRowAccess .mideleg a s

/-- The row mie (10_state.md R27). -/
def execRegMie (a : CsrAccess) (s : State) : Out := csrRowAccess .mie a s

/-- The row mtvec (10_state.md R32). -/
def execRegMtvec (a : CsrAccess) (s : State) : Out := csrRowAccess .mtvec a s

/-- The row mepc (10_state.md R33). -/
def execRegMepc (a : CsrAccess) (s : State) : Out := csrRowAccess .mepc a s

/-- The row mcause (10_state.md R34). -/
def execRegMcause (a : CsrAccess) (s : State) : Out := csrRowAccess .mcause a s

/-- The row mip (10_state.md R28). -/
def execRegMip (a : CsrAccess) (s : State) : Out := csrRowAccess .mip a s

/-- The row pmpcfg0 (10_state.md R36). -/
def execRegPmpcfg0 (a : CsrAccess) (s : State) : Out := csrRowAccess .pmpcfg0 a s

/-- The row pmpaddr0 (10_state.md R36). -/
def execRegPmpaddr0 (a : CsrAccess) (s : State) : Out := csrRowAccess .pmpaddr0 a s

/-- The row mhartid (10_state.md R37). -/
def execRegMhartid (a : CsrAccess) (s : State) : Out := csrRowAccess .mhartid a s

end Sys2Proof.Machine
end

