-- ==== Sys2Proof/Machine/Devices.lean ====
section
/-! DEFINITION. The steps of the device agents and of the environment: the gateway (42_plic.md R155), the transmitter,
the receiver and the modem lines (43_uart.md R196 to R199), the pins (46_host_port.md R266 to R268) and reset
(70_reset_and_hazards.md R320). A step whose guard does not hold, or whose operand is out of its range, changes nothing
(log 3). -/

namespace Sys2Proof.Machine

open Sys2Proof

/-- The guard of PLIC.GATEWAY (42_plic.md R155). -/
def gatewayReady (s : State) (src : Nat) : Bool :=
  s.cfg.isSource src && decide (s.plic.gate src = .open) && lineHigh s src

/-- PLIC.GATEWAY (42_plic.md R155): a request is latched. -/
def execPlicGateway (src : Word) (s : State) : Out :=
  if gatewayReady s src.toNat then .next (s.setPlic (s.plic.setGate src.toNat .pending)) else .next s

/-- UART.TXLOAD (43_uart.md R196). -/
def execUartTxload (s : State) : Out :=
  match s.uart.tsr, s.uart.txFifo with
  | none, b :: rest =>
    .next (s.setUart { s.uart with tsr := some b, txFifo := rest, threIp := s.uart.threIp || rest.isEmpty })
  | _, _ => .next s

/-- UART.TXEMIT (43_uart.md R197). -/
def execUartTxemit (s : State) : Out :=
  match s.uart.tsr with
  | some b => .next ((s.setUart { s.uart with tsr := none }).setTxLog (s.txLog ++ [b]))
  | none => .next s

/-- The receiver's queue and overrun bit after a byte arrives (43_uart.md R198). -/
def rxPush (u : Uart) (cap : Nat) (b : Byte) : Uart :=
  if u.rxFifo.length < cap then { u with rxFifo := u.rxFifo ++ [b] }
  else { u with err := u.err ||| 0b0001, rxFifo := if u.fifoEn then u.rxFifo else [b] }

/-- The error bits a character sets (43_uart.md R198): parity, framing, break. -/
def rxErrors (pe fe bi : Bool) : BitVec 4 :=
  (if pe then 0b0010#4 else 0) ||| (if fe then 0b0100#4 else 0) ||| (if bi then 0b1000#4 else 0)

/-- UART.RXARRIVE (43_uart.md R198). -/
def execUartRxarrive (b : Byte) (pe fe bi : Bool) (s : State) : Out :=
  let u := rxPush s.uart (s.uart.cap s.cfg) b
  .next (s.setUart { u with err := u.err ||| rxErrors pe fe bi })

/-- The change bits new modem levels set (43_uart.md R199): DCTS, DDSR, TERI (only a falling RI), DDCD. -/
def modemDelta (old v : BitVec 4) : BitVec 4 := ((old ^^^ v) &&& 0b1011) ||| (old &&& ~~~v &&& 0b0100)

/-- UART.MODEM (43_uart.md R199). -/
def execUartModem (v : BitVec 4) (s : State) : Out :=
  .next (s.setUart { s.uart with msrDelta := s.uart.msrDelta ||| modemDelta s.uart.modemIn v, modemIn := v })

/-- PIN.MTIP (46_host_port.md R266). -/
def execPinMtip (v : Bool) (s : State) : Out := .next (s.setPins { s.pins with mtip := v })

/-- PIN.MSIP (46_host_port.md R267). -/
def execPinMsip (v : Bool) (s : State) : Out := .next (s.setPins { s.pins with msip := v })

/-- PIN.LINE (46_host_port.md R268). -/
def execPinLine (src : Word) (v : Bool) (s : State) : Out :=
  if s.cfg.isSource src.toNat ∧ src.toNat ≠ s.cfg.uartSourceId then .next (s.setPlic (s.plic.setExt src.toNat v))
  else .next s

/-- RESET (70_reset_and_hazards.md R320). -/
def execReset (s : State) : Out := .next s.afterReset

end Sys2Proof.Machine
end

