-- ==== Sys2Proof/Machine/PlicRegs.lean ====
section
/-! DEFINITION. The PLIC's registers (42_plic.md R146 to R153): what a read of each gives and what a write of each
does, the claim and the completion among them. -/

namespace Sys2Proof.Machine

open Sys2Proof

/-- The bits of per-source word `w` that exist: sources `1 .. NSRC-1` (42_plic.md R148, R149). -/
def sourceMask (cfg : Config) (w : Nat) : Word := wordOf (fun b => cfg.isSource (32 * w + b))

/-- Pending word `w` (42_plic.md R148): bit `b` is `gw[32*w + b] = Pending`. -/
def pendingWord (s : State) (w : Nat) : Word :=
  wordOf (fun b => s.cfg.isSource (32 * w + b) && decide (s.plic.gate (32 * w + b) = .pending))

/-- The claim (42_plic.md R152): one atomic event. -/
def claim (s : State) (c : Fin 2) : Word × State :=
  match best s c with
  | none => (0, s)
  | some src => (BitVec.ofNat 32 src, s.setPlic (s.plic.setGate src (.claimed c)))

/-- The completion (42_plic.md R153): one atomic event. -/
def completion (s : State) (c : Fin 2) (v : Word) : State :=
  if s.cfg.isSource v.toNat ∧ s.plic.gate v.toNat = .claimed c then s.setPlic (s.plic.setGate v.toNat .open)
  else s.setFlags { s.flags with plicComplete := true }

/-- `PlicRegRead(o)` (42_plic.md R146). -/
def plicRegRead (s : State) (o : Nat) : Res Word :=
  match plicSelect s.cfg o with
  | .priority src => .ok (if src = 0 then 0 else s.plic.prio src) s
  | .pending w => .ok (pendingWord s w) s
  | .enable c w => .ok (s.plic.enableWord c w &&& sourceMask s.cfg w) s
  | .threshold c => .ok (s.plic.thresh c) s
  | .claim c => .ok (claim s c).1 (claim s c).2
  | .reserved => .refuse .plicReservedOffset

/-- `PlicRegWrite(o, v)` (42_plic.md R146). -/
def plicRegWrite (s : State) (o : Nat) (v : Word) : Res Unit :=
  match plicSelect s.cfg o with
  | .priority src => .ok () (if src = 0 then s else s.setPlic (s.plic.setPrio src (v &&& s.cfg.prioMax)))
  | .pending _ => .ok () s
  | .enable c w => .ok () (s.setPlic (s.plic.setEnableWord c w (v &&& sourceMask s.cfg w)))
  | .threshold c => .ok () (s.setPlic (s.plic.setThresh c (v &&& s.cfg.prioMax)))
  | .claim c => .ok () (completion s c v)
  | .reserved => .refuse .plicReservedOffset

end Sys2Proof.Machine
end

