-- ==== Sys2Proof/Machine/UartRegs.lean ====
section
/-! DEFINITION. The UART's registers (43_uart.md R181 to R191): what a read of each gives and clears, and what a write
of each does. -/

namespace Sys2Proof.Machine

open Sys2Proof

/-- RBR (43_uart.md R183): the oldest received byte, removed; from an empty buffer an arbitrary byte (a free value,
log 11) and `flag.uart_rx`. -/
def rbrRead (s : State) : Byte × State :=
  match s.uart.rxFifo with
  | b :: rest => (b, s.setUart { s.uart with rxFifo := rest })
  | [] => (Config.freeByte s.draws, (s.setFlags { s.flags with uartRx := true }).setDraws (s.draws + 1))

/-- THR (43_uart.md R184): the byte is queued if there is room; else it is dropped with `flag.uart_tx`. -/
def thrWrite (s : State) (v : Byte) : State :=
  if s.uart.txFifo.length < s.uart.cap s.cfg then
    s.setUart { s.uart with txFifo := s.uart.txFifo ++ [v], threIp := false }
  else s.setFlags { s.flags with uartTx := true }

/-- IER write (43_uart.md R185): turning bit 1 on while the transmit queue is empty latches its interrupt. -/
def ierWrite (u : Uart) (v : Byte) : Uart :=
  { u with ier := v.setWidth 4, threIp := u.threIp || (!u.ier.getLsbD 1 && v.getLsbD 1 && u.txFifo.isEmpty) }

/-- IIR read (43_uart.md R186): reporting the transmit-empty interrupt clears it. -/
def iirRead (u : Uart) : Byte × Uart :=
  (u.iir, if u.iid = 0b0010 then { u with threIp := false } else u)

/-- FCR write (43_uart.md R187); none where the trigger level is not modelled. -/
def fcrWrite (u : Uart) (v : Byte) : Option Uart :=
  if v.extractLsb 7 6 ≠ 0 then none
  else
    let changed := v.getLsbD 0 != u.fifoEn
    let clearTx := v.getLsbD 2 || changed
    some { u with
      fifoEn := v.getLsbD 0
      rxFifo := if v.getLsbD 1 || changed then [] else u.rxFifo
      txFifo := if clearTx then [] else u.txFifo
      threIp := u.threIp || clearTx }

/-- `UartRegRead(o)` (43_uart.md R181). -/
def uartRegRead (s : State) (o : BitVec 3) : Res Byte :=
  if s.uart.lcr.getLsbD 7 ∧ o.toNat < 2 then .refuse .uartDivisorLatch
  else match o.toNat with
    | 0 => .ok (rbrRead s).1 (rbrRead s).2
    | 1 => .ok (s.uart.ier.setWidth 8) s
    | 2 => .ok (iirRead s.uart).1 (s.setUart (iirRead s.uart).2)
    | 3 => .ok s.uart.lcr s
    | 5 => .ok s.uart.lsr (s.setUart { s.uart with err := 0 })
    | 6 => .ok s.uart.msr (s.setUart { s.uart with msrDelta := 0 })
    | _ => .refuse .uartUnlistedRegister

/-- `UartRegWrite(o, v)` (43_uart.md R181): writes to LSR and MSR are ignored (R189, R190). -/
def uartRegWrite (s : State) (o : BitVec 3) (v : Byte) : Res Unit :=
  if s.uart.lcr.getLsbD 7 ∧ o.toNat < 2 then .refuse .uartDivisorLatch
  else match o.toNat with
    | 0 => .ok () (thrWrite s v)
    | 1 => .ok () (s.setUart (ierWrite s.uart v))
    | 2 =>
      match fcrWrite s.uart v with
      | some u => .ok () (s.setUart u)
      | none => .refuse .uartRxTrigger
    | 3 => .ok () (s.setUart { s.uart with lcr := v })
    | 5 => .ok () s
    | 6 => .ok () s
    | _ => .refuse .uartUnlistedRegister

end Sys2Proof.Machine
end

