-- ==== Sys2Proof/Machine/MemAccess.lean ====
section
/-! DEFINITION. `MemRead` and `MemWrite` (20_memory.md R72, R73): the window, translation, protection, width and
alignment checks in their order, then the register access. -/

namespace Sys2Proof.Machine

open Sys2Proof

/-- The two windows (20_memory.md R62). -/
inductive Window where
  | plic
  | uart
deriving DecidableEq, Repr, Inhabited

/-- The kind of an access (20_memory.md R75). -/
inductive AccKind where
  | read
  | write
deriving DecidableEq, Repr, Inhabited

/-- The window `[addr, addr+n)` lies inside, if any (20_memory.md R62, R66). The range does not wrap (log 26). -/
def windowOf (cfg : Config) (addr : Word) (n : Width) : Option Window :=
  if cfg.uartBase.toNat ≤ addr.toNat ∧ addr.toNat + n.bytes ≤ cfg.uartBase.toNat + 8 then some .uart
  else if cfg.plicBase.toNat ≤ addr.toNat ∧ addr.toNat + n.bytes ≤ cfg.plicBase.toNat + cfg.plicSize.toNat then
    some .plic
  else none

/-! ## Protection (20_memory.md R75) -/

/-- The number of trailing 1 bits of a number of at most `fuel` bits. -/
def trailingOnes : Nat → Nat → Nat
  | 0, _ => 0
  | fuel + 1, p => if p % 2 = 1 then trailingOnes fuel (p / 2) + 1 else 0

/-- `match(y)` (20_memory.md R75): `A` the address-matching mode, `p` the address register, `y` a byte address. -/
def pmpMatch (a : BitVec 2) (p : Word) (y : Nat) : Bool :=
  match a.toNat with
  | 0 => false
  | 1 => decide (y / 4 < p.toNat)
  | 2 => decide (y / 4 = p.toNat)
  | _ =>
    let t := trailingOnes 32 p.toNat
    if t = 32 then true else decide (y / 4 / 2 ^ (t + 1) = p.toNat / 2 ^ (t + 1))

/-- How many of the access's bytes match. -/
def pmpMatches (c : Csrs) (addr : Word) (n : Width) : Nat :=
  (List.range n.bytes).countP (fun i => pmpMatch ((c.pmpcfg0 >>> 3).setWidth 2) c.pmpaddr0 (addr.toNat + i))

/-- What the protection check answers. -/
inductive PmpAnswer where
  | allow
  | deny
  | reserved
deriving DecidableEq, Repr, Inhabited

/-- `PmpAllows(p, addr, n, kind)` (20_memory.md R75). -/
def pmpAllows (c : Csrs) (p : Priv) (addr : Word) (n : Width) (k : AccKind) : PmpAnswer :=
  if p = .M then .allow
  else if pmpMatches c addr n < n.bytes then .deny
  else if c.pmpcfg0.getLsbD 0 = false ∧ c.pmpcfg0.getLsbD 1 then .reserved
  else
    match k with
    | .read => if c.pmpcfg0.getLsbD 0 then .allow else .deny
    | .write => if c.pmpcfg0.getLsbD 1 then .allow else .deny

/-! ## The checks -/

/-- What the five checks of `MemRead` and `MemWrite` answer. -/
inductive Gate where
  | pass (w : Window)
  | fault
  | refuse (r : Refusal)
deriving DecidableEq, Repr, Inhabited

/-- The width and alignment the window's registers take (20_memory.md R68). -/
def shapeOk (w : Window) (addr : Word) (n : Width) : Bool :=
  match w with
  | .uart => decide (n = .byte)
  | .plic => decide (n = .word) && decide (addr.toNat % 4 = 0)

/-- The checks of 20_memory.md R72 and R73, in their order: the first that fails decides. -/
def accessGate (s : State) (addr : Word) (n : Width) (k : AccKind) : Gate :=
  match windowOf s.cfg addr n with
  | none => .refuse .outsideBlock
  | some w =>
    if s.priv = .S ∧ s.csr.satp.getLsbD 31 then .refuse .translationNotModelled
    else
      match pmpAllows s.csr s.priv addr n k with
      | .reserved => .refuse .pmpReservedRw
      | .deny => .fault
      | .allow => if shapeOk w addr n then .pass w else .fault

/-- `MemRead(addr, n)` (20_memory.md R72), the value zero-extended to a word. -/
def memRead (s : State) (addr : Word) (n : Width) : Res Word :=
  match accessGate s addr n .read with
  | .refuse r => .refuse r
  | .fault => .raise excLoadFault
  | .pass .uart => (uartRegRead s ((addr - s.cfg.uartBase).setWidth 3)).andThen fun b t => .ok (b.setWidth 32) t
  | .pass .plic => plicRegRead s (addr - s.cfg.plicBase).toNat

/-- `MemWrite(addr, n, v)` (20_memory.md R73); the UART takes the low byte of `v`. -/
def memWrite (s : State) (addr : Word) (n : Width) (v : Word) : Res Unit :=
  match accessGate s addr n .write with
  | .refuse r => .refuse r
  | .fault => .raise excStoreFault
  | .pass .uart => uartRegWrite s ((addr - s.cfg.uartBase).setWidth 3) (v.setWidth 8)
  | .pass .plic => plicRegWrite s (addr - s.cfg.plicBase).toNat v

/-- The address of a UART register (43_uart.md section 3). -/
def uartReg (s : State) (o : Word) : Word := s.cfg.uartBase + o

/-- The address of a PLIC register by its window offset (20_memory.md R63). -/
def plicReg (s : State) (o : Word) : Word := s.cfg.plicBase + o

/-- A read of one UART register (1 byte wide). -/
def uartLoad (s : State) (o : Word) : Res Word := memRead s (uartReg s o) .byte

/-- A write of one UART register (1 byte wide). -/
def uartStore (s : State) (o : Word) (v : Byte) : Res Unit := memWrite s (uartReg s o) .byte (v.setWidth 32)

end Sys2Proof.Machine
end

