-- ==== Sys2Proof/Machine/HostPort.lean ====
section
/-! DEFINITION. The raw accesses, the hart's events and the trap returns on the command port (46_host_port.md R261 to
R265; 60_exceptions.md R299, R300), and what an illegal command does (R263). -/

namespace Sys2Proof.Machine

open Sys2Proof

/-- MMIO.LOAD (46_host_port.md R261). -/
def execMmioLoad (addr width : Word) (s : State) : Out :=
  hostCommand s fun s =>
    match widthOf width with
    | none => .raise excLoadFault
    | some n => (memRead s addr n).andThen fun w t => .ok (answerOne w) t

/-- MMIO.STORE (46_host_port.md R262). -/
def execMmioStore (addr width v : Word) (s : State) : Out :=
  hostCommand s fun s =>
    match widthOf width with
    | none => .raise excStoreFault
    | some n => (memWrite s addr n (storeValue n v)).andThen fun _ t => .ok noAnswer t

/-- MRET (60_exceptions.md R299). -/
def execMret (s : State) : Out :=
  hostCommand s fun s =>
    if s.priv = .M then (mretEffects s).andThen fun _ t => .ok noAnswer t else .raise excIllegal

/-- SRET (60_exceptions.md R300): permitted at S and at M. -/
def execSret (s : State) : Out :=
  hostCommand s fun s => (sretEffects s).andThen fun _ t => .ok noAnswer t

/-- `a0 % (IALIGN / 8) = 0` (46_host_port.md R264). -/
def pcAligned (cfg : Config) (a : Word) : Bool :=
  match cfg.ialign with
  | .bits32 => decide (a.toNat % 4 = 0)
  | .bits16 => decide (a.toNat % 2 = 0)

/-- HART.SETPC (46_host_port.md R264). -/
def execHartSetpc (addr : Word) (s : State) : Out :=
  hostCommand s fun s => if pcAligned s.cfg addr then .ok noAnswer (s.setPc addr) else .raise excInstrMisaligned

/-- HART.EXCEPTION (46_host_port.md R265). -/
def execHartException (code : Word) (s : State) : Out :=
  hostCommand s fun _ => if code.getLsbD 31 then .raise excIllegal else .raise (code.setWidth 31)

/-- An illegal command on the port, and an access of a CSR that is not implemented (46_host_port.md R263,
10_state.md R38). -/
def illegalCommand (s : State) : Out := hostCommand s fun _ => .raise excIllegal

end Sys2Proof.Machine
end

