-- ==== Sys2Proof/Machine/HostSteps.lean ====
section
/-! DEFINITION. The steps of the multi-step host commands (10_state.md R51): one definition per label, and the step of
HOST that goes on with the sequence `hseq` names. Each step writes `hseq` with the label that follows, `none` when the
operation is done. -/

namespace Sys2Proof.Machine

open Sys2Proof

/-- `next` label, or done. -/
def setSeq (s : State) (q : Option HostSeq) : Res Answer := .ok noAnswer (s.setHseq q)

/-- UART.PUTC, P1 (43_uart.md R200). -/
def putcP1 (b : Byte) (rest : List Byte) (s : State) : Res Answer :=
  (uartLoad s 5).andThen fun l t => setSeq t (some (if l.getLsbD 5 then .putcP2 b rest else .putcP1 b rest))

/-- UART.PUTC, P2 (43_uart.md R200). -/
def putcP2 (b : Byte) (rest : List Byte) (s : State) : Res Answer :=
  (uartStore s 0 b).andThen fun _ t =>
    setSeq t (match rest with
      | [] => none
      | b' :: rest' => some (.putcP1 b' rest'))

/-- UART.GETC, G1 (43_uart.md R201). -/
def getcG1 (s : State) : Res Answer :=
  (uartLoad s 5).andThen fun l t => setSeq t (some (if l.getLsbD 0 then .getcG2 else .getcG1))

/-- UART.GETC, G2 (43_uart.md R201). -/
def getcG2 (s : State) : Res Answer :=
  (uartLoad s 0).andThen fun b t => .ok (answerOne ((crToLf (b.setWidth 8)).setWidth 32)) (t.setHseq none)

/-- UART.FLUSH, F1 (43_uart.md R202). -/
def flushF1 (s : State) : Res Answer :=
  (uartLoad s 5).andThen fun l t => setSeq t (if l.getLsbD 6 then none else some .flushF1)

/-- UART.IESET, S1 (43_uart.md R204). -/
def iesetS1 (mask : BitVec 4) (s : State) : Res Answer :=
  (uartLoad s 1).andThen fun v t => setSeq t (some (.iesetS2 mask (v.setWidth 8)))

/-- UART.IESET, S2 (43_uart.md R204). -/
def iesetS2 (mask : BitVec 4) (v : Byte) (s : State) : Res Answer :=
  (uartStore s 1 (v ||| mask.setWidth 8)).andThen fun _ t => setSeq t none

/-- UART.IECLR, C1 (43_uart.md R205). -/
def ieclrC1 (mask : BitVec 4) (s : State) : Res Answer :=
  (uartLoad s 1).andThen fun v t => setSeq t (some (.ieclrC2 mask (v.setWidth 8)))

/-- UART.IECLR, C2 (43_uart.md R205). -/
def ieclrC2 (mask : BitVec 4) (v : Byte) (s : State) : Res Answer :=
  (uartStore s 1 (v &&& ~~~(mask.setWidth 8))).andThen fun _ t => setSeq t none

/-- The address the enable steps access (42_plic.md R157, R159). -/
def enableAt (s : State) (ctx src : Word) : Word := enableAddress s.cfg s.cfg.plicBase ctx src

/-- PLIC.ENABLE, E1 (42_plic.md R157). -/
def enableE1 (ctx src : Word) (s : State) : Res Answer :=
  (memRead s (enableAt s ctx src) .word).andThen fun w t => setSeq t (some (.enableE2 ctx src w))

/-- PLIC.ENABLE, E2 (42_plic.md R157). -/
def enableE2 (ctx src w : Word) (s : State) : Res Answer :=
  (memWrite s (enableAt s ctx src) .word (withSourceBit w (sourceBit src))).andThen fun _ t => setSeq t none

/-- PLIC.INIT, I1 (42_plic.md R159). -/
def initI1 (ctx src : Word) (prio thr : BitVec 16) (s : State) : Res Answer :=
  (memWrite s (priorityAddress s.cfg s.cfg.plicBase src) .word (prio.setWidth 32)).andThen fun _ t =>
    setSeq t (some (.initI2 ctx src thr))

/-- PLIC.INIT, I2 (42_plic.md R159). -/
def initI2 (ctx src : Word) (thr : BitVec 16) (s : State) : Res Answer :=
  (memRead s (enableAt s ctx src) .word).andThen fun w t => setSeq t (some (.initI3 ctx src thr w))

/-- PLIC.INIT, I3 (42_plic.md R159). -/
def initI3 (ctx src : Word) (thr : BitVec 16) (w : Word) (s : State) : Res Answer :=
  (memWrite s (enableAt s ctx src) .word (withSourceBit w (sourceBit src))).andThen fun _ t =>
    setSeq t (some (.initI4 ctx thr))

/-- PLIC.INIT, I4 (42_plic.md R159). -/
def initI4 (ctx : Word) (thr : BitVec 16) (s : State) : Res Answer :=
  (memWrite s (thresholdAddress s.cfg s.cfg.plicBase ctx) .word (thr.setWidth 32)).andThen fun _ t => setSeq t none

/-- The step at a label. -/
def seqStep (q : HostSeq) (s : State) : Res Answer :=
  match q with
  | .putcP1 b rest => putcP1 b rest s
  | .putcP2 b rest => putcP2 b rest s
  | .getcG1 => getcG1 s
  | .getcG2 => getcG2 s
  | .flushF1 => flushF1 s
  | .iesetS2 m v => iesetS2 m v s
  | .ieclrC2 m v => ieclrC2 m v s
  | .enableE2 c i w => enableE2 c i w s
  | .initI2 c i t => initI2 c i t s
  | .initI3 c i t w => initI3 c i t w s
  | .initI4 c t => initI4 c t s

/-- HOST goes on with the sequence `hseq` names (10_state.md R51, 46_host_port.md R260), under `boot = Done` and
`disp = Idle`; otherwise the turn changes nothing (log 3, log 23). -/
def hostNext (s : State) : Out :=
  match s.hseq with
  | none => .next s
  | some q => if s.boot = .done ∧ s.disp = .idle then hostFinish s (seqStep q s) else .next s

end Sys2Proof.Machine
end

