-- ==== Sys2Proof/Machine/PlicCommands.lean ====
section
/-! DEFINITION. The PLIC commands: the address functions (42_plic.md R140 to R145) and the configuration and protocol
operations (R156 to R161). None checks its operands' ranges: the access goes where the address arithmetic leads. -/

namespace Sys2Proof.Machine

open Sys2Proof

/-- PLIC.CTX (42_plic.md R140). -/
def execPlicCtx (hart : Word) (mode : Bool) (s : State) : Out :=
  hostCommand s fun s => .ok (answerOne (contextIndex hart mode)) s

/-- PLIC.PRIOADDR (42_plic.md R141). -/
def execPlicPrioaddr (base src : Word) (s : State) : Out :=
  hostCommand s fun s => .ok (answerOne (priorityAddress s.cfg base src)) s

/-- PLIC.ENADDR (42_plic.md R142). -/
def execPlicEnaddr (base ctx src : Word) (s : State) : Out :=
  hostCommand s fun s => .ok (answerTwo (enableAddress s.cfg base ctx src) ((sourceBit src).setWidth 32)) s

/-- PLIC.THRADDR (42_plic.md R143). -/
def execPlicThraddr (base ctx : Word) (s : State) : Out :=
  hostCommand s fun s => .ok (answerOne (thresholdAddress s.cfg base ctx)) s

/-- PLIC.CCADDR (42_plic.md R144). -/
def execPlicCcaddr (base ctx : Word) (s : State) : Out :=
  hostCommand s fun s => .ok (answerOne (claimAddress s.cfg base ctx)) s

/-- PLIC.PENDADDR (42_plic.md R145). -/
def execPlicPendaddr (base src : Word) (s : State) : Out :=
  hostCommand s fun s => .ok (answerTwo (pendingAddress s.cfg base src) ((sourceBit src).setWidth 32)) s

/-- PLIC.SETPRIO (42_plic.md R156). -/
def execPlicSetprio (src prio : Word) (s : State) : Out :=
  hostCommand s fun s =>
    (memWrite s (priorityAddress s.cfg s.cfg.plicBase src) .word prio).andThen fun _ t => .ok noAnswer t

/-- PLIC.ENABLE (42_plic.md R157): the command's own step is E1. -/
def execPlicEnable (ctx src : Word) (s : State) : Out := hostCommand s (enableE1 ctx src)

/-- PLIC.SETTHR (42_plic.md R158). -/
def execPlicSetthr (ctx thr : Word) (s : State) : Out :=
  hostCommand s fun s =>
    (memWrite s (thresholdAddress s.cfg s.cfg.plicBase ctx) .word thr).andThen fun _ t => .ok noAnswer t

/-- PLIC.INIT (42_plic.md R159): the command's own step is I1. -/
def execPlicInit (ctx src : Word) (prio thr : BitVec 16) (s : State) : Out := hostCommand s (initI1 ctx src prio thr)

/-- PLIC.CLAIM (42_plic.md R160). -/
def execPlicClaim (ctx : Word) (s : State) : Out :=
  hostCommand s fun s =>
    (memRead s (claimAddress s.cfg s.cfg.plicBase ctx) .word).andThen fun w t => .ok (answerOne w) t

/-- PLIC.COMPLETE (42_plic.md R161). -/
def execPlicComplete (ctx id : Word) (s : State) : Out :=
  hostCommand s fun s =>
    (memWrite s (claimAddress s.cfg s.cfg.plicBase ctx) .word id).andThen fun _ t => .ok noAnswer t

end Sys2Proof.Machine
end

