-- ==== Sys2Proof/Machine/RegisterRows.lean ====
section
/-! DEFINITION. The MMIO rows of opcode_table.json: HOST's access of one register of the PLIC or the UART window, with
every check of 20_memory.md R72 and R73 (R94; log 14). It is MMIO.LOAD or MMIO.STORE at the register's address. -/

namespace Sys2Proof.Machine

open Sys2Proof

/-- HOST accesses the PLIC register at a window offset. -/
def plicRowAccess (off : Config → Word) (a : WordAccess) (s : State) : Out :=
  hostCommand s fun s =>
    match a with
    | .read => (memRead s (plicReg s (off s.cfg)) .word).andThen fun w t => .ok (answerOne w) t
    | .write v => (memWrite s (plicReg s (off s.cfg)) .word v).andThen fun _ t => .ok noAnswer t

/-- HOST accesses the UART register at a window offset. -/
def uartRowAccess (off : Word) (a : ByteAccess) (s : State) : Out :=
  hostCommand s fun s =>
    match a with
    | .read => (uartLoad s off).andThen fun w t => .ok (answerOne w) t
    | .write v => (uartStore s off v).andThen fun _ t => .ok noAnswer t

/-- The row plic.priority (42_plic.md R147). -/
def execRegPlicPriority (src : Nat) (a : WordAccess) (s : State) : Out :=
  plicRowAccess (fun c => plicOffset c (.priority src)) a s

/-- The row plic.pending (42_plic.md R148). -/
def execRegPlicPending (w : Nat) (a : WordAccess) (s : State) : Out :=
  plicRowAccess (fun c => plicOffset c (.pending w)) a s

/-- The row plic.enable (42_plic.md R149). -/
def execRegPlicEnable (c : Fin 2) (w : Nat) (a : WordAccess) (s : State) : Out :=
  plicRowAccess (fun cfg => plicOffset cfg (.enable c w)) a s

/-- The row plic.threshold (42_plic.md R150). -/
def execRegPlicThreshold (c : Fin 2) (a : WordAccess) (s : State) : Out :=
  plicRowAccess (fun cfg => plicOffset cfg (.threshold c)) a s

/-- The row plic.claim (42_plic.md R152). -/
def execRegPlicClaim (c : Fin 2) (s : State) : Out :=
  plicRowAccess (fun cfg => plicOffset cfg (.claim c)) .read s

/-- The row plic.complete (42_plic.md R153). -/
def execRegPlicComplete (c : Fin 2) (v : Word) (s : State) : Out :=
  plicRowAccess (fun cfg => plicOffset cfg (.claim c)) (.write v) s

/-- The row plic.reserved (42_plic.md R151). -/
def execRegPlicReserved (off : Word) (a : WordAccess) (s : State) : Out := plicRowAccess (fun _ => off) a s

/-- The row uart.rbr (43_uart.md R183). -/
def execRegUartRbr (s : State) : Out := uartRowAccess 0 .read s

/-- The row uart.thr (43_uart.md R184). -/
def execRegUartThr (v : Byte) (s : State) : Out := uartRowAccess 0 (.write v) s

/-- The row uart.ier (43_uart.md R185). -/
def execRegUartIer (a : ByteAccess) (s : State) : Out := uartRowAccess 1 a s

/-- The row uart.iir (43_uart.md R186). -/
def execRegUartIir (s : State) : Out := uartRowAccess 2 .read s

/-- The row uart.fcr (43_uart.md R187). -/
def execRegUartFcr (v : Byte) (s : State) : Out := uartRowAccess 2 (.write v) s

/-- The row uart.lcr (43_uart.md R188). -/
def execRegUartLcr (a : ByteAccess) (s : State) : Out := uartRowAccess 3 a s

/-- The row uart.offset4 (43_uart.md R191). -/
def execRegUartOffset4 (a : ByteAccess) (s : State) : Out := uartRowAccess 4 a s

/-- The row uart.lsr (43_uart.md R189). -/
def execRegUartLsr (a : ByteAccess) (s : State) : Out := uartRowAccess 5 a s

/-- The row uart.msr (43_uart.md R190). -/
def execRegUartMsr (a : ByteAccess) (s : State) : Out := uartRowAccess 6 a s

/-- The row uart.offset7 (43_uart.md R191). -/
def execRegUartOffset7 (a : ByteAccess) (s : State) : Out := uartRowAccess 7 a s

end Sys2Proof.Machine
end

