-- ==== Sys2Proof/Machine/TrapCause.lean ====
section
/-! DEFINITION. The trap cause decoder's commands (41_trap_cause_decoder.md R131, R132): pure functions of their
operands. -/

namespace Sys2Proof.Machine

open Sys2Proof

/-- TC.DECODE (41_trap_cause_decoder.md R131). -/
def execTcDecode (raw : Word) (s : State) : Out :=
  hostCommand s fun s =>
    .ok (answerTwo ((decodeCause raw).code.setWidth 32) (flag (decodeCause raw).isInterrupt)) s

/-- TC.CLASSIFY (41_trap_cause_decoder.md R132). -/
def execTcClassify (code : BitVec 31) (isInt : Bool) (s : State) : Out :=
  hostCommand s fun s =>
    let k := (classify ⟨code, isInt⟩).words
    .ok (answerTwo k.1 k.2) s

end Sys2Proof.Machine
end

