-- ==== Sys2Proof/Machine/TrapFsm.lean ====
section
/-! DEFINITION. TRAP.INT (60_exceptions.md R295) and the dispatch FSM's steps (45_trap_dispatch.md R241 to R250). -/

namespace Sys2Proof.Machine

open Sys2Proof

/-- TRAP.INT (60_exceptions.md R295): between two steps, only while the FSM is idle. -/
def execTrapInt (s : State) : Out :=
  if s.disp = .idle then
    match interruptChoice s with
    | some i => trapEnter s true (BitVec.ofNat 31 i)
    | none => .next s
  else .next s

/-- DISP.ROUTE (45_trap_dispatch.md R241). -/
def execDispRoute (s : State) : Out :=
  dispStep s (decide (s.disp = .decoding)) fun s =>
    .ok () (if s.dregs.tc.isInterrupt then setIh (s.setDisp .interruptHandling) .report
      else s.setDisp .exceptionFatal)

/-- The report tag of an exception (30_encoding.md R104). -/
def exceptionTag (tc : TrapCause) : Byte :=
  match classify tc with
  | .exception _ => 0x45
  | _ => 0x58

/-- The report tag of an interrupt (30_encoding.md R104). -/
def interruptTag (tc : TrapCause) : Byte :=
  match classify tc with
  | .interrupt _ => 0x49
  | _ => 0x4A

/-- DISP.FATAL (45_trap_dispatch.md R242): report and halt. -/
def execDispFatal (s : State) : Out :=
  dispStep s (decide (s.disp = .exceptionFatal)) fun s =>
    .ok () ((report s (exceptionTag s.dregs.tc) (s.dregs.tc.code.setWidth 32)).setDisp .halted)

/-- DISP.IREPORT (45_trap_dispatch.md R243): report, then the claim for an external interrupt, else the return. -/
def execDispIreport (s : State) : Out :=
  dispStep s (inService s .report) fun s =>
    let t := report s (interruptTag s.dregs.tc) (s.dregs.tc.code.setWidth 32)
    match classify s.dregs.tc with
    | .interrupt i =>
      if i = 11 then .ok () (t.setDregs { t.dregs with ctx := contextIndex 0 false, ih := .claim })
      else if i = 9 then .ok () (t.setDregs { t.dregs with ctx := contextIndex 0 true, ih := .claim })
      else .ok () (setIh t .ret)
    | _ => .ok () (setIh t .ret)

/-- What DISP.CLAIM does with the id the claim returned (45_trap_dispatch.md R244). -/
def claimRoute (s : State) (id : Word) : State :=
  let t := s.setDregs { s.dregs with claimedId := id }
  if id = 0 then setIh (report t 0x5A 0) .ret
  else
    match s.cfg.handler id.toNat with
    | .uartEcho => setIh (report t 0x53 id) .svcRxPoll
    | .none => setIh (report t 0x55 id) .complete

/-- DISP.CLAIM (45_trap_dispatch.md R244). -/
def execDispClaim (s : State) : Out :=
  dispStep s (inService s .claim) fun s =>
    (memRead s (claimAddress s.cfg s.cfg.plicBase s.dregs.ctx) .word).andThen fun id t => .ok () (claimRoute t id)

/-- DISP.RXPOLL (45_trap_dispatch.md R245). -/
def execDispRxpoll (s : State) : Out :=
  dispStep s (inService s .svcRxPoll) fun s =>
    (uartLoad s 5).andThen fun l t => .ok () (setIh t (if l.getLsbD 0 then .svcRxRead else .svcRxPoll))

/-- DISP.RXREAD (45_trap_dispatch.md R246). -/
def execDispRxread (s : State) : Out :=
  dispStep s (inService s .svcRxRead) fun s =>
    (uartLoad s 0).andThen fun b t =>
      let q := putcSeq (crToLf (b.setWidth 8))
      .ok () (t.setDregs { t.dregs with dTxq := q.1 :: q.2, ih := .svcTxPoll })

/-- DISP.TXPOLL (45_trap_dispatch.md R247). -/
def execDispTxpoll (s : State) : Out :=
  dispStep s (inService s .svcTxPoll) fun s =>
    (uartLoad s 5).andThen fun l t => .ok () (setIh t (if l.getLsbD 5 then .svcTxWrite else .svcTxPoll))

/-- DISP.TXWRITE with the byte and the rest of `d_txq` (45_trap_dispatch.md R248). -/
def txWriteBody (b : Byte) (rest : List Byte) (s : State) : Res Unit :=
  (uartStore s 0 b).andThen fun _ t =>
    .ok () (t.setDregs { t.dregs with dTxq := rest, ih := if rest.isEmpty then .complete else .svcTxPoll })

/-- DISP.TXWRITE (45_trap_dispatch.md R248). An empty queue, which no run reaches, has no head (log 17). -/
def execDispTxwrite (s : State) : Out :=
  if inService s .svcTxWrite then
    match s.dregs.dTxq with
    | b :: rest => dispStep s (inService s .svcTxWrite) (txWriteBody b rest)
    | [] => .fault .echoQueueEmpty
  else .next s

/-- DISP.COMPLETE (45_trap_dispatch.md R249). -/
def execDispComplete (s : State) : Out :=
  dispStep s (inService s .complete) fun s =>
    (memWrite s (claimAddress s.cfg s.cfg.plicBase s.dregs.ctx) .word s.dregs.claimedId).andThen fun _ t =>
      .ok () (setIh t .ret)

/-- Back to `Idle`: the FSM's data registers become unspecified (10_state.md R49), a free value (log 10). -/
def dispIdle (s : State) : State :=
  { s with disp := .idle, dregs := Config.freeDispRegs s.draws, draws := s.draws + 1 }

/-- DISP.RETURN (45_trap_dispatch.md R250). -/
def execDispReturn (s : State) : Out :=
  dispStep s (inService s .ret) fun s =>
    (match s.dregs.trapMode with
      | .M => mretEffects s
      | .S => sretEffects s).andThen fun _ t => .ok () (dispIdle t)

end Sys2Proof.Machine
end

