-- ==== Sys2Proof/Machine/UartCommands.lean ====
section
/-! DEFINITION. The UART driver's commands (43_uart.md R200 to R206). The command's own step is its first; the later
steps are those of HostSteps.lean. -/

namespace Sys2Proof.Machine

open Sys2Proof

/-- UART.PUTC (43_uart.md R200): accepting sets the bytes to send and performs the first P1. -/
def execUartPutc (c : Byte) (s : State) : Out := hostCommand s (putcP1 (putcSeq c).1 (putcSeq c).2)

/-- UART.GETC (43_uart.md R201). -/
def execUartGetc (s : State) : Out := hostCommand s getcG1

/-- UART.FLUSH (43_uart.md R202). -/
def execUartFlush (s : State) : Out := hostCommand s flushF1

/-- UART.FIFOCFG (43_uart.md R203): writes 0x07 to the FIFO-control register. -/
def execUartFifocfg (s : State) : Out :=
  hostCommand s fun s => (uartStore s 2 0x07).andThen fun _ t => .ok noAnswer t

/-- UART.IESET (43_uart.md R204). -/
def execUartIeset (mask : BitVec 4) (s : State) : Out := hostCommand s (iesetS1 mask)

/-- UART.IECLR (43_uart.md R205). -/
def execUartIeclr (mask : BitVec 4) (s : State) : Out := hostCommand s (ieclrC1 mask)

/-- UART.IPEND (43_uart.md R206): the not-pending bit of the interrupt-identification register, inverted. -/
def execUartIpend (s : State) : Out :=
  hostCommand s fun s => (uartLoad s 2).andThen fun i t => .ok (answerOne (flag (!i.getLsbD 0))) t

end Sys2Proof.Machine
end

