-- ==== Sys2Proof/Machine/Dispatch.lean ====
section
/-! DEFINITION. The dispatch: one arm per row of opcode_table.json, each one call of that row's meaning. -/

namespace Sys2Proof.Machine

open Sys2Proof

/-- The meaning of an instruction. -/
def exec (i : Instr) (s : State) : Host.Outcome State Fault Refusal :=
  match i with
  | .csrRead csr => Sys2Proof.Machine.execCsrRead csr s
  | .csrWrite csr v => Sys2Proof.Machine.execCsrWrite csr v s
  | .csrSet csr mask => Sys2Proof.Machine.execCsrSet csr mask s
  | .csrClear csr mask => Sys2Proof.Machine.execCsrClear csr mask s
  | .tcDecode raw => Sys2Proof.Machine.execTcDecode raw s
  | .tcClassify code isInt => Sys2Proof.Machine.execTcClassify code isInt s
  | .plicCtx hart mode => Sys2Proof.Machine.execPlicCtx hart mode s
  | .plicPrioaddr base src => Sys2Proof.Machine.execPlicPrioaddr base src s
  | .plicEnaddr base ctx src => Sys2Proof.Machine.execPlicEnaddr base ctx src s
  | .plicThraddr base ctx => Sys2Proof.Machine.execPlicThraddr base ctx s
  | .plicCcaddr base ctx => Sys2Proof.Machine.execPlicCcaddr base ctx s
  | .plicPendaddr base src => Sys2Proof.Machine.execPlicPendaddr base src s
  | .plicSetprio src prio => Sys2Proof.Machine.execPlicSetprio src prio s
  | .plicEnable ctx src => Sys2Proof.Machine.execPlicEnable ctx src s
  | .plicSetthr ctx thr => Sys2Proof.Machine.execPlicSetthr ctx thr s
  | .plicInit ctx src prio thr => Sys2Proof.Machine.execPlicInit ctx src prio thr s
  | .plicClaim ctx => Sys2Proof.Machine.execPlicClaim ctx s
  | .plicComplete ctx id => Sys2Proof.Machine.execPlicComplete ctx id s
  | .uartPutc c => Sys2Proof.Machine.execUartPutc c s
  | .uartGetc => Sys2Proof.Machine.execUartGetc s
  | .uartFlush => Sys2Proof.Machine.execUartFlush s
  | .uartFifocfg => Sys2Proof.Machine.execUartFifocfg s
  | .uartIeset mask => Sys2Proof.Machine.execUartIeset mask s
  | .uartIeclr mask => Sys2Proof.Machine.execUartIeclr mask s
  | .uartIpend => Sys2Proof.Machine.execUartIpend s
  | .mmioLoad addr width => Sys2Proof.Machine.execMmioLoad addr width s
  | .mmioStore addr width v => Sys2Proof.Machine.execMmioStore addr width v s
  | .mret => Sys2Proof.Machine.execMret s
  | .sret => Sys2Proof.Machine.execSret s
  | .hartSetpc addr => Sys2Proof.Machine.execHartSetpc addr s
  | .hartException code => Sys2Proof.Machine.execHartException code s
  | .bootB0 => Sys2Proof.Machine.execBootB0 s
  | .bootB1 => Sys2Proof.Machine.execBootB1 s
  | .bootB2 => Sys2Proof.Machine.execBootB2 s
  | .bootB3 => Sys2Proof.Machine.execBootB3 s
  | .bootB4 => Sys2Proof.Machine.execBootB4 s
  | .bootB5 => Sys2Proof.Machine.execBootB5 s
  | .bootB6 => Sys2Proof.Machine.execBootB6 s
  | .trapInt => Sys2Proof.Machine.execTrapInt s
  | .dispRoute => Sys2Proof.Machine.execDispRoute s
  | .dispFatal => Sys2Proof.Machine.execDispFatal s
  | .dispIreport => Sys2Proof.Machine.execDispIreport s
  | .dispClaim => Sys2Proof.Machine.execDispClaim s
  | .dispRxpoll => Sys2Proof.Machine.execDispRxpoll s
  | .dispRxread => Sys2Proof.Machine.execDispRxread s
  | .dispTxpoll => Sys2Proof.Machine.execDispTxpoll s
  | .dispTxwrite => Sys2Proof.Machine.execDispTxwrite s
  | .dispComplete => Sys2Proof.Machine.execDispComplete s
  | .dispReturn => Sys2Proof.Machine.execDispReturn s
  | .plicGateway src => Sys2Proof.Machine.execPlicGateway src s
  | .uartTxload => Sys2Proof.Machine.execUartTxload s
  | .uartTxemit => Sys2Proof.Machine.execUartTxemit s
  | .uartRxarrive b pe fe bi => Sys2Proof.Machine.execUartRxarrive b pe fe bi s
  | .uartModem v => Sys2Proof.Machine.execUartModem v s
  | .pinMtip v => Sys2Proof.Machine.execPinMtip v s
  | .pinMsip v => Sys2Proof.Machine.execPinMsip v s
  | .pinLine src v => Sys2Proof.Machine.execPinLine src v s
  | .reset => Sys2Proof.Machine.execReset s
  | .regSstatus a => Sys2Proof.Machine.execRegSstatus a s
  | .regSie a => Sys2Proof.Machine.execRegSie a s
  | .regStvec a => Sys2Proof.Machine.execRegStvec a s
  | .regSepc a => Sys2Proof.Machine.execRegSepc a s
  | .regScause a => Sys2Proof.Machine.execRegScause a s
  | .regSip a => Sys2Proof.Machine.execRegSip a s
  | .regSatp a => Sys2Proof.Machine.execRegSatp a s
  | .regMstatus a => Sys2Proof.Machine.execRegMstatus a s
  | .regMedeleg a => Sys2Proof.Machine.execRegMedeleg a s
  | .regMideleg a => Sys2Proof.Machine.execRegMideleg a s
  | .regMie a => Sys2Proof.Machine.execRegMie a s
  | .regMtvec a => Sys2Proof.Machine.execRegMtvec a s
  | .regMepc a => Sys2Proof.Machine.execRegMepc a s
  | .regMcause a => Sys2Proof.Machine.execRegMcause a s
  | .regMip a => Sys2Proof.Machine.execRegMip a s
  | .regPmpcfg0 a => Sys2Proof.Machine.execRegPmpcfg0 a s
  | .regPmpaddr0 a => Sys2Proof.Machine.execRegPmpaddr0 a s
  | .regMhartid a => Sys2Proof.Machine.execRegMhartid a s
  | .regPlicPriority n a => Sys2Proof.Machine.execRegPlicPriority n a s
  | .regPlicPending w a => Sys2Proof.Machine.execRegPlicPending w a s
  | .regPlicEnable c w a => Sys2Proof.Machine.execRegPlicEnable c w a s
  | .regPlicThreshold c a => Sys2Proof.Machine.execRegPlicThreshold c a s
  | .regPlicClaim c => Sys2Proof.Machine.execRegPlicClaim c s
  | .regPlicComplete c v => Sys2Proof.Machine.execRegPlicComplete c v s
  | .regPlicReserved off a => Sys2Proof.Machine.execRegPlicReserved off a s
  | .regUartRbr => Sys2Proof.Machine.execRegUartRbr s
  | .regUartThr v => Sys2Proof.Machine.execRegUartThr v s
  | .regUartIer a => Sys2Proof.Machine.execRegUartIer a s
  | .regUartIir => Sys2Proof.Machine.execRegUartIir s
  | .regUartFcr v => Sys2Proof.Machine.execRegUartFcr v s
  | .regUartLcr a => Sys2Proof.Machine.execRegUartLcr a s
  | .regUartOffset4 a => Sys2Proof.Machine.execRegUartOffset4 a s
  | .regUartLsr a => Sys2Proof.Machine.execRegUartLsr a s
  | .regUartMsr a => Sys2Proof.Machine.execRegUartMsr a s
  | .regUartOffset7 a => Sys2Proof.Machine.execRegUartOffset7 a s

end Sys2Proof.Machine
end

