-- ==== Sys2Proof/Machine/Placement.lean ====
section
/-! DEFINITION. The state in which the agent of a slot may step, made from a given state: what `withFetchWord` sets
beside the schedule (log 6). The block loads no program: a slot's step runs only where the guard of its agent holds
(46_host_port.md R260, 44_privilege_bootstrap.md R220, 45_trap_dispatch.md R240). -/

namespace Sys2Proof.Machine

open Sys2Proof

/-- The state a step leads to; the state before where it stops. -/
def Out.stateOr (o : Out) (s : State) : State :=
  match o with
  | .next t => t
  | .fault _ => s
  | .refused _ => s

/-- Every step of the bootstrap that is left (44_privilege_bootstrap.md R220); a step whose label has passed changes
nothing. -/
def runBoot (s : State) : State :=
  [execBootB0, execBootB1, execBootB2, execBootB3, execBootB4, execBootB5, execBootB6].foldl
    (fun t f => Out.stateOr (f t) t) s

/-- Normal context with no sequence begun. -/
def quiet (s : State) : State := (s.setDisp .idle).setHseq none

/-- HOST may issue a command: the bootstrap is over (46_host_port.md R260). -/
def forHost (s : State) : State := (runBoot (quiet s)).setBoot .done

/-- The bootstrap stands at a label. -/
def forBoot (label : Boot) (s : State) : State :=
  match label with
  | .b6 => ((Out.stateOr (execBootB3 ((quiet s).setBoot .b3)) s)).setBoot .b6
  | _ => (quiet s).setBoot label

/-- A machine timer interrupt stands takeable (60_exceptions.md R295). -/
def forTrap (s : State) : State :=
  let t := forHost s
  (t.setPins { t.pins with mtip := true }).setCsr
    { t.csr with mie := t.csr.mie ||| 0x80#32, mstatus := t.csr.mstatus ||| 0x8#32 }

/-- That interrupt was taken: the dispatch FSM is in `Decoding`. -/
def forDisp (s : State) : State := Out.stateOr (execTrapInt (forTrap s)) s

/-- The dispatch FSM handles it, at a label. -/
def forService (label : Ih) (s : State) : State := setIh ((forDisp s).setDisp .interruptHandling) label

/-- `s` where the internal step `op` is enabled; a device step that needs a byte finds the byte 0. -/
def forAgent (op : Nat) (s : State) : State :=
  match op with
  | 0x80 => forBoot .b0 s
  | 0x81 => forBoot .b1 s
  | 0x82 => forBoot .b2 s
  | 0x83 => forBoot .b3 s
  | 0x84 => forBoot .b4 s
  | 0x85 => forBoot .b5 s
  | 0x86 => forBoot .b6 s
  | 0x90 => forTrap s
  | 0x98 => forDisp s
  | 0x99 => (forDisp s).setDisp .exceptionFatal
  | 0x9A => forService .report s
  | 0x9B => forService .claim s
  | 0x9C => forService .svcRxPoll s
  | 0x9D =>
    let t := forService .svcRxRead s
    t.setUart { t.uart with rxFifo := [0] }
  | 0x9E => forService .svcTxPoll s
  | 0x9F =>
    let t := forService .svcTxWrite s
    t.setDregs { t.dregs with dTxq := [0] }
  | 0xA0 => forService .complete s
  | 0xA1 => forService .ret s
  | 0xB0 => s.setUart { s.uart with txFifo := [0], tsr := none }
  | 0xB1 => s.setUart { s.uart with tsr := some 0 }
  | _ => s

/-- `s` where the agent that a slot belongs to may step. -/
def placeFor (w : Slot) (s : State) : State :=
  match w.space with
  | .agent => forAgent w.op.toNat s
  | .command => forHost s
  | .csr => forHost s
  | .plic => forHost s
  | .uart => forHost s

end Sys2Proof.Machine
end

