-- ==== Sys2Proof/Machine/Schedule.lean ====
section
/-! DEFINITION. What the next step is: the head of the schedule, read by the decoder; with no turn listed, the block's
own agents in one fixed order, which is one of the orders 00_scope.md R8 allows (logs 1 and 2). And what a turn that
names no instruction does. -/

namespace Sys2Proof.Machine

open Sys2Proof

/-- What the step fetched, with the state after the turn is taken off the schedule. -/
inductive Fetched where
  | run (i : Instr) (s : State)
  | hostNext (s : State)
  | reject (e : Reject) (s : State)
  | idle
deriving DecidableEq, Repr

/-- A listed slot, decoded (30_encoding.md R90 to R96). -/
def fetchSlot (w : Slot) (s : State) : Fetched :=
  match decode s.cfg w with
  | .ok i => .run i s
  | .error e => .reject e s

/-- The one step of DISP that is enabled (45_trap_dispatch.md R240), if any. -/
def dispNext (s : State) : Option Instr :=
  match s.disp with
  | .idle => none
  | .decoding => some .dispRoute
  | .exceptionFatal => some .dispFatal
  | .halted => none
  | .interruptHandling =>
    match s.dregs.ih with
    | .report => some .dispIreport
    | .claim => some .dispClaim
    | .svcRxPoll => some .dispRxpoll
    | .svcRxRead => some .dispRxread
    | .svcTxPoll => some .dispTxpoll
    | .svcTxWrite => some .dispTxwrite
    | .complete => some .dispComplete
    | .ret => some .dispReturn

/-- The next step of BOOT (44_privilege_bootstrap.md R220), if any. -/
def bootNext (s : State) : Option Instr :=
  match s.boot with
  | .b0 => some .bootB0
  | .b1 => some .bootB1
  | .b2 => some .bootB2
  | .b3 => some .bootB3
  | .b4 => some .bootB4
  | .b5 => some .bootB5
  | .b6 => some .bootB6
  | .done => none

/-- The step of UTX that is enabled (43_uart.md R196, R197), if any. -/
def utxNext (s : State) : Option Instr :=
  match s.uart.tsr with
  | some _ => some .uartTxemit
  | none => if s.uart.txFifo.isEmpty then none else some .uartTxload

/-- A step of GW that is enabled (42_plic.md R155), if any: the UART's source first, then the lines listed high. -/
def gatewayNext (s : State) : Option Instr :=
  ((s.cfg.uartSourceId :: s.plic.extLine.map Prod.fst).find? (gatewayReady s)).map
    fun src => .plicGateway (BitVec.ofNat 32 src)

/-- The step of DISP, BOOT or TRAP that is enabled, if any; DISP excludes the other two (10_state.md R49). -/
def controlNext (s : State) : Option Instr :=
  if s.disp = .idle then (bootNext s).or (if (interruptChoice s).isSome then some .trapInt else none)
  else dispNext s

/-- With no turn listed: the transmitter, the gateways, then DISP, BOOT or TRAP, then HOST's sequence, each if it has
an enabled step; ENV and new commands only come from the schedule (log 2, DESIGN CHOICE). -/
def autonomous (s : State) : Fetched :=
  match ((utxNext s).or (gatewayNext s)).or (controlNext s) with
  | some i => .run i s
  | none => if s.hseq.isSome ∧ s.disp = .idle then .hostNext s else .idle

/-- The next turn. -/
def fetch (s : State) : Fetched :=
  match s.sched with
  | [] => autonomous s
  | .hostNext :: rest => .hostNext (s.setSched rest)
  | .slot w :: rest => fetchSlot w (s.setSched rest)

/-- A turn that names no instruction: an illegal command (30_encoding.md R95, 46_host_port.md R263), an access of a CSR
that is not implemented (10_state.md R38), or a slot that is no step of the spec (log 21). -/
def rejectTurn (e : Reject) (s : State) : Out :=
  match e with
  | .illegalCommand => illegalCommand s
  | .illegalCsrNumber => illegalCommand s
  | .noSuchCsr => illegalCommand s
  | .noSuchStep => .refused .malformedTurn
  | .badAccessKind => .refused .malformedTurn
  | .outsideWindow => .refused .malformedTurn

end Sys2Proof.Machine
end

