-- ==== Sys2Proof/Machine/Step.lean ====
section
/-! DEFINITION. One step of the block (00_scope.md R8, R10), and the placement of a slot where the next step fetches
it. -/

namespace Sys2Proof.Machine

open Sys2Proof

/-- The step: the next turn's step. Where no agent's step is enabled the state stays as it is (log 2). -/
def step (s : State) : Host.Outcome State Fault Refusal :=
  match fetch s with
  | .run i t => exec i t
  | .hostNext t => hostNext t
  | .reject e t => rejectTurn e t
  | .idle => .next s

/-- `s` with the slot of a word of opcode_table.json as the very next turn, its agent able to step (log 6). -/
def State.withFetchWord (s : State) (nbits w : Nat) : State :=
  let t := placeFor (tableSlot nbits w) s
  t.setSched (.slot (tableSlot nbits w) :: t.sched)

end Sys2Proof.Machine
end

