-- ==== Sys2Proof/Safety.lean ====
section
/-! DEFINITION. The terms the statements use: the agent of a step (00_scope.md R9), when an access is permitted
(20_memory.md R74, R75), which word a step writes and where (42_plic.md sections 4 and 5), and what a legal state is: the
register contents the write masks leave (10_state.md R22 to R36), the PLIC's and the UART's storage (R39 to R46), and how
`disp`, `boot`, `hseq` and the trap registers hang together (R49 to R51; 45_trap_dispatch.md R240). -/

namespace Sys2Proof.Machine

open Sys2Proof

/-- The agents (00_scope.md R9). -/
inductive Agent where
  | host
  | boot
  | trap
  | disp
  | gw
  | utx
  | env
deriving DecidableEq, Repr, Inhabited

/-- Whose step an instruction is (30_encoding.md R92, R93); the register rows are accesses HOST makes (log 14). -/
def agentOf : Instr → Agent
  | .bootB0 | .bootB1 | .bootB2 | .bootB3 | .bootB4 | .bootB5 | .bootB6 => .boot
  | .trapInt => .trap
  | .dispRoute | .dispFatal | .dispIreport | .dispClaim | .dispRxpoll | .dispRxread | .dispTxpoll | .dispTxwrite
  | .dispComplete | .dispReturn => .disp
  | .plicGateway _ => .gw
  | .uartTxload | .uartTxemit => .utx
  | .uartRxarrive _ _ _ _ | .uartModem _ | .pinMtip _ | .pinMsip _ | .pinLine _ _ | .reset => .env
  | .csrRead _ | .csrWrite _ _ | .csrSet _ _ | .csrClear _ _ | .tcDecode _ | .tcClassify _ _
  | .plicCtx _ _ | .plicPrioaddr _ _ | .plicEnaddr _ _ _ | .plicThraddr _ _ | .plicCcaddr _ _ | .plicPendaddr _ _
  | .plicSetprio _ _ | .plicEnable _ _ | .plicSetthr _ _ | .plicInit _ _ _ _ | .plicClaim _ | .plicComplete _ _
  | .uartPutc _ | .uartGetc | .uartFlush | .uartFifocfg | .uartIeset _ | .uartIeclr _ | .uartIpend
  | .mmioLoad _ _ | .mmioStore _ _ _ | .mret | .sret | .hartSetpc _ | .hartException _
  | .regSstatus _ | .regSie _ | .regStvec _ | .regSepc _ | .regScause _ | .regSip _ | .regSatp _
  | .regMstatus _ | .regMedeleg _ | .regMideleg _ | .regMie _ | .regMtvec _ | .regMepc _ | .regMcause _ | .regMip _
  | .regPmpcfg0 _ | .regPmpaddr0 _ | .regMhartid _
  | .regPlicPriority _ _ | .regPlicPending _ _ | .regPlicEnable _ _ _ | .regPlicThreshold _ _ | .regPlicClaim _
  | .regPlicComplete _ _ | .regPlicReserved _ _
  | .regUartRbr | .regUartThr _ | .regUartIer _ | .regUartIir | .regUartFcr _ | .regUartLcr _ | .regUartOffset4 _
  | .regUartLsr _ | .regUartMsr _ | .regUartOffset7 _ => .host

/-- No protocol rule was broken: "a model should take \"no flag set\" as a premise of every claim" (00_scope.md R10). -/
def State.noFlags (s : State) : Bool :=
  !s.flags.plicComplete && !s.flags.uartTx && !s.flags.uartRx && !s.flags.doubleTrap

/-- The current mode passes the translation and the protection check for an access (20_memory.md R74, R75). -/
def State.mayAccess (s : State) (addr : Word) (n : Width) (k : AccKind) : Bool :=
  decide (s.priv = .M) || (!s.csr.satp.getLsbD 31 && decide (pmpAllows s.csr s.priv addr n k = .allow))

/-- The dispatch FSM runs: neither `Idle` nor `Halted` (10_state.md R49). -/
def State.inTrap (s : State) : Bool :=
  decide (s.disp = .decoding) || decide (s.disp = .exceptionFatal) || decide (s.disp = .interruptHandling)

/-- `InterruptHandling` at one of these labels. -/
def State.serving (s : State) (labels : List Ih) : Bool :=
  decide (s.disp = .interruptHandling) && decide (s.dregs.ih ∈ labels)

/-- Instructions carried out one after another, each by its own agent; the first stop ends the run. -/
def runAll : List Instr → State → Out
  | [], s => .next s
  | i :: rest, s =>
    match exec i s with
    | .next t => runAll rest t
    | .fault f => .fault f
    | .refused r => .refused r

/-- The step of HOST is its next sequence step or an instruction: what one turn can do. -/
def turnStep (s t : State) : Prop := (∃ i, exec i s = .next t) ∨ hostNext s = .next t

/-! ## The writes of PLIC registers -/

/-- The word write the step `i` makes in the MMIO space, if it makes one: its address and its value (42_plic.md R156,
R158, R159 I1, R161; 46_host_port.md R262; 45_trap_dispatch.md R249; the rows of 20_memory.md R63, log 14). -/
def wordWrite (s : State) (i : Instr) : Option (Word × Word) :=
  match i with
  | .plicSetprio src prio => some (priorityAddress s.cfg s.cfg.plicBase src, prio)
  | .plicSetthr ctx thr => some (thresholdAddress s.cfg s.cfg.plicBase ctx, thr)
  | .plicInit _ src prio _ => some (priorityAddress s.cfg s.cfg.plicBase src, prio.setWidth 32)
  | .plicComplete ctx id => some (claimAddress s.cfg s.cfg.plicBase ctx, id)
  | .mmioStore addr width v => if width = 4 then some (addr, v) else none
  | .dispComplete => some (claimAddress s.cfg s.cfg.plicBase s.dregs.ctx, s.dregs.claimedId)
  | .regPlicPriority src (.write v) => some (plicReg s (plicOffset s.cfg (.priority src)), v)
  | .regPlicPending w (.write v) => some (plicReg s (plicOffset s.cfg (.pending w)), v)
  | .regPlicEnable c w (.write v) => some (plicReg s (plicOffset s.cfg (.enable c w)), v)
  | .regPlicThreshold c (.write v) => some (plicReg s (plicOffset s.cfg (.threshold c)), v)
  | .regPlicComplete c v => some (plicReg s (plicOffset s.cfg (.claim c)), v)
  | .regPlicReserved off (.write v) => some (plicReg s off, v)
  | _ => none

/-- The word write HOST's next sequence step makes, if it makes one (42_plic.md R157 E2, R159 I3 and I4). -/
def seqWordWrite (s : State) : Option (Word × Word) :=
  match s.hseq with
  | some (.enableE2 ctx src w) | some (.initI3 ctx src _ w) =>
    some (enableAddress s.cfg s.cfg.plicBase ctx src, withSourceBit w (sourceBit src))
  | some (.initI4 ctx thr) => some (thresholdAddress s.cfg s.cfg.plicBase ctx, thr.setWidth 32)
  | _ => none

/-! ## Legal register contents -/

/-- A word holds no bit outside a mask. -/
def within (mask w : Word) : Bool := decide (w &&& ~~~mask = 0)

/-- The CSR file holds only what its write masks allow (40_csr_access.md R122). -/
def Csrs.legal (cfg : Config) (c : Csrs) : Bool :=
  within 0x19AA c.mstatus && decide (mppField c.mstatus ≠ 0b10) && within 0xAAA c.mie && within 0x22 c.mipSw &&
    within 0xB3FF c.medeleg && within 0x222 c.mideleg && within 0xFFFFFFFC c.mtvec && within 0xFFFFFFFC c.stvec &&
    within (epcMask cfg) c.mepc && within (epcMask cfg) c.sepc && within 0x1F c.pmpcfg0

/-- Legal parameters, CSR file and program counter (10_state.md R22). -/
def State.legalRegs (s : State) : Bool :=
  s.cfg.wf && Csrs.legal s.cfg s.csr && within (epcMask s.cfg) s.pc

/-- One PLIC context: canonical enable words with bits of existing sources only, a threshold up to `PRIO_MAX`
(10_state.md R40, R41). -/
def PlicCtx.legal (cfg : Config) (x : PlicCtx) : Bool :=
  Tab.wf 0 x.enable && x.enable.all (fun e => decide (e.1 < cfg.numWords) && within (sourceMask cfg e.1) e.2) &&
    within cfg.prioMax x.threshold

/-- The PLIC's storage: every table canonical (the model's representation, log 19), entries only for sources, priorities
up to `PRIO_MAX` (10_state.md R39 to R43). -/
def Plic.legal (cfg : Config) (p : Plic) : Bool :=
  Tab.wf 0 p.priority && p.priority.all (fun e => cfg.isSource e.1 && within cfg.prioMax e.2) &&
    PlicCtx.legal cfg p.ctx0 && PlicCtx.legal cfg p.ctx1 &&
    Tab.wf .open p.gw && p.gw.all (fun e => cfg.isSource e.1) &&
    Tab.wf false p.extLine && p.extLine.all (fun e => cfg.isSource e.1 && decide (e.1 ≠ cfg.uartSourceId))

/-- The UART's queues hold at most `cap` bytes (10_state.md R46). -/
def Uart.legal (cfg : Config) (u : Uart) : Bool :=
  decide (u.rxFifo.length ≤ u.cap cfg) && decide (u.txFifo.length ≤ u.cap cfg)

/-! ## Control -/

/-- The word a trap into a mode recorded as its cause. -/
def causeOf (c : Csrs) (p : Priv) : Word :=
  match p with
  | .M => c.mcause
  | .S => c.scause

/-- The return from a trap taken in a mode finds a previous mode (60_exceptions.md R299, R300). -/
def returnable (c : Csrs) (p : Priv) : Prop :=
  match p with
  | .M => mppField c.mstatus ≠ 0b00
  | .S => sppBit c.mstatus = true

/-- While the bootstrap runs nothing else does, no interrupt is enabled, and the previous-privilege field is set from
B4 on (44_privilege_bootstrap.md R220; 70_reset_and_hazards.md R321). -/
def State.bootCoherent (s : State) : Prop :=
  (s.boot ≠ .done → s.disp = .idle ∧ s.hseq = none ∧ s.priv = .M ∧ s.csr.mie = 0) ∧
  (s.boot = .b4 ∨ s.boot = .b5 ∨ s.boot = .b6 → mppField s.csr.mstatus = s.cfg.bootTarget.code)

/-- In trap context the FSM's registers are those trap entry wrote (60_exceptions.md R294), and its state agrees with
the cause (45_trap_dispatch.md R241). -/
def State.trapCoherent (s : State) : Prop :=
  (s.inTrap = true → s.priv = s.dregs.trapMode ∧ s.pc = s.cfg.trapEntry ∧ returnable s.csr s.dregs.trapMode ∧
    causeOf s.csr s.dregs.trapMode = encodeCause s.dregs.tc ∧
    (s.dregs.tc.isInterrupt = true → interruptKnown s.dregs.tc.code.toNat = true)) ∧
  (s.disp = .exceptionFatal → s.dregs.tc.isInterrupt = false) ∧
  (s.disp = .interruptHandling → s.dregs.tc.isInterrupt = true)

/-- The claim in service is the FSM's own: from the claim to the completion the gateway of `claimed_id` is
`Claimed(ctx)` (45_trap_dispatch.md R249), and each wait found what it waited for (R246, R248). -/
def State.serviceCoherent (s : State) : Prop :=
  (s.serving [.claim, .svcRxPoll, .svcRxRead, .svcTxPoll, .svcTxWrite, .complete] = true →
    s.dregs.ctx = 0 ∨ s.dregs.ctx = 1) ∧
  (s.serving [.svcRxPoll, .svcRxRead, .svcTxPoll, .svcTxWrite, .complete] = true →
    s.cfg.isSource s.dregs.claimedId.toNat = true ∧
    s.plic.gate s.dregs.claimedId.toNat = .claimed (if s.dregs.ctx = 0 then 0 else 1)) ∧
  (s.serving [.svcRxRead] = true → s.uart.rxFifo ≠ []) ∧
  (s.serving [.svcTxPoll, .svcTxWrite] = true → s.dregs.dTxq ≠ [] ∧ s.dregs.dTxq.length ≤ 2) ∧
  (s.serving [.svcTxWrite] = true → s.uart.txFifo = [])

/-- The whole control state hangs together, under legal parameters. -/
def State.coherent (s : State) : Prop :=
  s.cfg.wf = true ∧ s.bootCoherent ∧ s.trapCoherent ∧ s.serviceCoherent

end Sys2Proof.Machine
end

