-- ==== Sys2Proof/Certificates/Slice0/Obligations.lean ====
section
/-! DEFINITION. The statements about the block. Each docstring names the rules of spec/ it formalises. A state stands
for every state; `cfg.wf` says the parameters meet the constraints of 00_scope.md R5 and log 8. Where a clause
rests on a choice of the model the docstring says so and names its log. -/

open Sys2Proof Sys2Proof.Machine

/-! ## The step and the encodings -/

/-- A slot at the head of the schedule that decodes to an instruction is that instruction's step, on the state without
the slot (00_scope.md R8; the schedule is the model's, log 1). -/
def Obligations.StepRunsDecodedInstruction : Prop :=
  ∀ (s : State) (w : Slot) (rest : List Turn) (i : Instr),
    s.sched = .slot w :: rest → decode s.cfg w = .ok i → step s = exec i (s.setSched rest)

/-- A turn of HOST goes on with the sequence; with no sequence begun, or outside normal context, it changes nothing
(10_state.md R51, 46_host_port.md R260; logs 3 and 23). -/
def Obligations.StepContinuesHostSequence : Prop :=
  (∀ (s : State) (rest : List Turn), s.sched = .hostNext :: rest → step s = hostNext (s.setSched rest)) ∧
  (∀ s : State, s.hseq = none ∨ s.boot ≠ .done ∨ s.disp ≠ .idle → hostNext s = .next s)

/-- Decoding the wires of a well-formed instruction gives the instruction, every operand at every value
(30_encoding.md R91 to R94; 20_memory.md R63).
The model's own: the operand layout of the internal steps and the register spaces (log 4). -/
def Obligations.DecodeOfEncodeIsIdentity : Prop :=
  ∀ (cfg : Config) (i : Instr), cfg.wf = true → i.wf cfg = true → decode cfg (encode cfg i) = .ok i

/-- Wires written out from the tables of 30_encoding.md R92, R93, 10_state.md R24 and 20_memory.md R63, R64, one of each
family.
The model's own: the spaces and the operand layout of the last five (log 4), the rows as accesses (log 14). -/
def Obligations.WrittenOutWordsDecode : Prop :=
  decode Config.default ⟨.command, 0x02, 0x305, 0x80000103, 0⟩ = .ok (.csrWrite 0x305 0x80000103) ∧
  decode Config.default ⟨.command, 0x11, 0x80000002, 0xFFFFFFFE, 0⟩ = .ok (.tcClassify 2 false) ∧
  decode Config.default ⟨.command, 0x2B, 0, 10, 0x00050001⟩ = .ok (.plicInit 0 10 1 5) ∧
  decode Config.default ⟨.command, 0x30, 0xFFFFFF41, 0, 0⟩ = .ok (.uartPutc 0x41) ∧
  decode Config.default ⟨.command, 0x41, 0x0C000028, 4, 1⟩ = .ok (.mmioStore 0x0C000028 4 1) ∧
  decode Config.default ⟨.command, 0x61, 3, 0, 0⟩ = .ok (.hartException 3) ∧
  decode Config.default ⟨.agent, 0x86, 0, 0, 0⟩ = .ok .bootB6 ∧
  decode Config.default ⟨.agent, 0xA8, 10, 0, 0⟩ = .ok (.plicGateway 10) ∧
  decode Config.default ⟨.csr, 1, 0x304, 0x800, 0⟩ = .ok (.regMie (.write 0x800)) ∧
  decode Config.default ⟨.plic, 0, 0x2080, 0, 0⟩ = .ok (.regPlicEnable 1 0 .read) ∧
  decode Config.default ⟨.uart, 1, 2, 7, 0⟩ = .ok (.regUartFcr 7)

/-- An illegal command (an op that is no host operation, or a CSR command with `a0[31:12]` not 0) does what an
illegal-instruction exception does (30_encoding.md R95, 46_host_port.md R263). -/
def Obligations.IllegalCommandsTrap : Prop :=
  ∀ (s : State) (w : Slot) (rest : List Turn),
    s.sched = .slot w :: rest → w.space = .command →
    (w.op.toNat ∉ [0x01, 0x02, 0x03, 0x04, 0x10, 0x11, 0x20, 0x21, 0x22, 0x23, 0x24, 0x25, 0x28, 0x29, 0x2A, 0x2B,
        0x2C, 0x2D, 0x30, 0x31, 0x32, 0x33, 0x34, 0x35, 0x36, 0x40, 0x41, 0x50, 0x51, 0x60, 0x61] ∨
      (w.op.toNat ∈ [0x01, 0x02, 0x03, 0x04] ∧ w.a0.toNat ≥ 2 ^ 12)) →
    step s = exec (.hartException 2) (s.setSched rest)

/-- Each offset of the PLIC window lies on at most one row of the register map, at the offset the row's formula gives,
and every other offset is reserved (20_memory.md R63, 42_plic.md R146, R151). -/
def Obligations.PlicMapSelectsTheRow : Prop :=
  ∀ (c : Config) (o : Nat), c.wf = true → o < c.plicSize.toNat →
    (∀ s, plicSelect c o = .priority s ↔ s < c.nsrc ∧ o = c.priorityOffset.toNat + 4 * s) ∧
    (∀ w, plicSelect c o = .pending w ↔ w < (c.nsrc + 31) / 32 ∧ o = c.pendingOffset.toNat + 4 * w) ∧
    (∀ (x : Fin 2) (w : Nat), plicSelect c o = .enable x w ↔
      w < (c.nsrc + 31) / 32 ∧ o = c.enableOffset.toNat + x.val * c.enableStride.toNat + 4 * w) ∧
    (∀ x : Fin 2, plicSelect c o = .threshold x ↔
      o = c.thresholdOffset.toNat + x.val * c.thresholdStride.toNat) ∧
    (∀ x : Fin 2, plicSelect c o = .claim x ↔ o = c.claimOffset.toNat + x.val * c.claimStride.toNat)

/-! ## CSR access -/

/-- What each CSR reads as, through CSR.READ and through the register's row: the S-level registers in either mode, the
M-level ones in M. Nothing but the answer changes (40_csr_access.md R121, R123; 10_state.md R25 to R37).
The model's own: how the port shows results (log 13), the register rows as accesses of HOST (log 14). -/
def Obligations.CsrReadsGiveRegisterValues : Prop :=
  ∀ s : State, hostReady s = true →
    (∀ e ∈ [((0x100 : BitVec 12), Instr.regSstatus, s.csr.mstatus &&& 0x122),
        (0x104, Instr.regSie, s.csr.mie &&& s.csr.mideleg), (0x105, Instr.regStvec, s.csr.stvec),
        (0x141, Instr.regSepc, s.csr.sepc), (0x142, Instr.regScause, s.csr.scause),
        (0x144, Instr.regSip, mip s &&& s.csr.mideleg), (0x180, Instr.regSatp, s.csr.satp)],
      exec (.csrRead e.1) s = .next (s.answer (some e.2.2) none) ∧
      exec (e.2.1 .read) s = .next (s.answer (some e.2.2) none)) ∧
    (s.priv = .M → ∀ e ∈ [((0x300 : BitVec 12), Instr.regMstatus, s.csr.mstatus),
        (0x302, Instr.regMedeleg, s.csr.medeleg), (0x303, Instr.regMideleg, s.csr.mideleg),
        (0x304, Instr.regMie, s.csr.mie), (0x305, Instr.regMtvec, s.csr.mtvec), (0x341, Instr.regMepc, s.csr.mepc),
        (0x342, Instr.regMcause, s.csr.mcause), (0x344, Instr.regMip, mip s),
        (0x3A0, Instr.regPmpcfg0, s.csr.pmpcfg0), (0x3B0, Instr.regPmpaddr0, s.csr.pmpaddr0),
        (0xF14, Instr.regMhartid, (0 : Word))],
      exec (.csrRead e.1) s = .next (s.answer (some e.2.2) none) ∧
      exec (e.2.1 .read) s = .next (s.answer (some e.2.2) none))

/-- CSR.WRITE, CSR.SET and CSR.CLEAR, and the rows' writes, sets and clears: each register takes the written word through
its writable mask, `mstatus` keeps its old MPP where 0b10 is written, a set or clear works on the value read; nothing
else changes (40_csr_access.md R122, R124 to R126).
The model's own: how the port shows results (log 13), the register rows as accesses of HOST (log 14). -/
def Obligations.CsrWritesGoThroughTheMasks : Prop :=
  ∀ (s : State) (v : Word), hostReady s = true →
    let put (old mask w : Word) : Word := (old &&& ~~~mask) ||| (w &&& mask)
    let epc : Word := if s.cfg.ialign = .bits32 then 0xFFFFFFFC else 0xFFFFFFFE
    let does (n : BitVec 12) (row : CsrAccess → Instr) (old : Word) (file : Word → Csrs) : Prop :=
      (exec (.csrWrite n v) s = .next ((s.setCsr (file v)).answer none none) ∧
        exec (row (.write v)) s = .next ((s.setCsr (file v)).answer none none)) ∧
      (exec (.csrSet n v) s = .next ((s.setCsr (file (old ||| v))).answer none none) ∧
        exec (row (.set v)) s = .next ((s.setCsr (file (old ||| v))).answer none none)) ∧
      (exec (.csrClear n v) s = .next ((s.setCsr (file (old &&& ~~~v))).answer none none) ∧
        exec (row (.clear v)) s = .next ((s.setCsr (file (old &&& ~~~v))).answer none none))
    (does 0x100 .regSstatus (s.csr.mstatus &&& 0x122)
        (fun w => { s.csr with mstatus := put s.csr.mstatus 0x122 w }) ∧
      does 0x104 .regSie (s.csr.mie &&& s.csr.mideleg)
        (fun w => { s.csr with mie := put s.csr.mie s.csr.mideleg w }) ∧
      does 0x105 .regStvec s.csr.stvec (fun w => { s.csr with stvec := put s.csr.stvec 0xFFFFFFFC w }) ∧
      does 0x141 .regSepc s.csr.sepc (fun w => { s.csr with sepc := put s.csr.sepc epc w }) ∧
      does 0x142 .regScause s.csr.scause (fun w => { s.csr with scause := w }) ∧
      does 0x144 .regSip (mip s &&& s.csr.mideleg)
        (fun w => { s.csr with mipSw := put s.csr.mipSw (s.csr.mideleg &&& 0x2) w }) ∧
      does 0x180 .regSatp s.csr.satp (fun w => { s.csr with satp := w })) ∧
    (s.priv = .M →
      does 0x300 .regMstatus s.csr.mstatus (fun w => { s.csr with
        mstatus := put s.csr.mstatus (if (w >>> 11).setWidth 2 = 0b10#2 then 0x01AA else 0x19AA) w }) ∧
      does 0x302 .regMedeleg s.csr.medeleg (fun w => { s.csr with medeleg := put s.csr.medeleg 0xB3FF w }) ∧
      does 0x303 .regMideleg s.csr.mideleg (fun w => { s.csr with mideleg := put s.csr.mideleg 0x222 w }) ∧
      does 0x304 .regMie s.csr.mie (fun w => { s.csr with mie := put s.csr.mie 0xAAA w }) ∧
      does 0x305 .regMtvec s.csr.mtvec (fun w => { s.csr with mtvec := put s.csr.mtvec 0xFFFFFFFC w }) ∧
      does 0x341 .regMepc s.csr.mepc (fun w => { s.csr with mepc := put s.csr.mepc epc w }) ∧
      does 0x342 .regMcause s.csr.mcause (fun w => { s.csr with mcause := w }) ∧
      does 0x344 .regMip (mip s) (fun w => { s.csr with mipSw := put s.csr.mipSw 0x22 w }) ∧
      does 0x3A0 .regPmpcfg0 s.csr.pmpcfg0 (fun w => { s.csr with pmpcfg0 := put s.csr.pmpcfg0 0x1F w }) ∧
      does 0x3B0 .regPmpaddr0 s.csr.pmpaddr0 (fun w => { s.csr with pmpaddr0 := w }))

/-- Every CSR access `CsrCheck` forbids is an illegal-instruction exception: an unimplemented number, an M-level
register at S, any write, set or clear of `mhartid` (40_csr_access.md R120; 10_state.md R38).
The model's own: the register rows as accesses of HOST (log 14). -/
def Obligations.ForbiddenCsrAccessesTrap : Prop :=
  ∀ (s : State) (n : BitVec 12) (v : Word),
    let trap : Out := exec (.hartException 2) s
    let machineLevel : List (BitVec 12) :=
      [0x300, 0x302, 0x303, 0x304, 0x305, 0x341, 0x342, 0x344, 0x3A0, 0x3B0, 0xF14]
    (n ∉ [0x100, 0x104, 0x105, 0x141, 0x142, 0x144, 0x180] ++ machineLevel ∨ s.priv = .S ∧ n ∈ machineLevel →
      exec (.csrRead n) s = trap ∧ exec (.csrWrite n v) s = trap ∧ exec (.csrSet n v) s = trap ∧
      exec (.csrClear n v) s = trap) ∧
    (exec (.csrWrite 0xF14 v) s = trap ∧ exec (.csrSet 0xF14 v) s = trap ∧ exec (.csrClear 0xF14 v) s = trap ∧
      exec (.regMhartid (.write v)) s = trap ∧ exec (.regMhartid (.set v)) s = trap ∧
      exec (.regMhartid (.clear v)) s = trap) ∧
    (s.priv = .S → ∀ row ∈ [Instr.regMstatus, .regMedeleg, .regMideleg, .regMie, .regMtvec, .regMepc, .regMcause,
        .regMip, .regPmpcfg0, .regPmpaddr0, .regMhartid],
      ∀ a ∈ [CsrAccess.read, .write v, .set v, .clear v], exec (row a) s = trap)

/-- `mip` bit by bit: SSIP and STIP from `mip_sw`, MSIP and MTIP from the pins, SEIP and MEIP from the PLIC, whose output
for a context is high exactly when a pending, enabled, eligible source exists (10_state.md R28, R44). -/
def Obligations.MipIsAssembledFromItsSources : Prop :=
  (∀ (s : State) (i : Nat), i < 32 → (mip s).getLsbD i =
    if i = 1 then s.csr.mipSw.getLsbD 1 else if i = 3 then s.pins.msip else if i = 5 then s.csr.mipSw.getLsbD 5
    else if i = 7 then s.pins.mtip else if i = 9 then eip s 1 else if i = 11 then eip s 0 else false) ∧
  (∀ (s : State) (c : Fin 2), eip s c = true ↔
    ∃ src, 1 ≤ src ∧ src < s.cfg.nsrc ∧ s.plic.gate src = .pending ∧ s.plic.enabled c src = true ∧
      s.plic.prio src ≠ 0 ∧
      (if s.cfg.threshStrict then s.plic.thresh c < s.plic.prio src else s.plic.thresh c ≤ s.plic.prio src))

/-! ## The trap cause decoder and the PLIC address functions -/

/-- TC.DECODE splits the top bit from the other 31, and the two parts make up the word again; nothing else changes
(41_trap_cause_decoder.md R130, R131; 30_encoding.md R101). -/
def Obligations.TcDecodeSplitsTheCauseWord : Prop :=
  ∀ (s : State) (raw : Word),
    (hostReady s = true →
      exec (.tcDecode raw) s = .next (s.answer (some (raw &&& 0x7FFFFFFF)) (some (raw >>> 31)))) ∧
    (raw >>> 31) <<< 31 ||| (raw &&& 0x7FFFFFFF) = raw ∧
    encodeCause (decodeCause raw) = raw

/-- TC.CLASSIFY over the whole 31-bit code space: the known exceptions, the known interrupts, and `Unknown` for every
other code; nothing else changes (41_trap_cause_decoder.md R130, R132; 60_exceptions.md R281, R282). -/
def Obligations.TcClassifyNamesKnownCodes : Prop :=
  ∀ (s : State) (code : BitVec 31), hostReady s = true →
    let known (l : List Nat) (cls : Word) : Out :=
      .next (if code.toNat ∈ l then s.answer (some cls) (some (BitVec.ofNat 32 code.toNat))
        else s.answer (some 0) (some 0))
    exec (.tcClassify code false) s = known [0, 1, 2, 3, 4, 5, 6, 7, 8, 9, 11, 12, 13, 15] 1 ∧
    exec (.tcClassify code true) s = known [1, 3, 5, 7, 9, 11] 2

/-- The six PLIC address functions, modulo 2^32; nothing but the answer changes (42_plic.md R140 to R145).
The model's own: how the port shows results (log 13). -/
def Obligations.PlicAddressFunctionsCompute : Prop :=
  ∀ (s : State) (base hart ctx src : Word) (mode : Bool), hostReady s = true →
    exec (.plicCtx hart mode) s = .next (s.answer (some (hart * 2 ||| if mode then 1 else 0)) none) ∧
    exec (.plicPrioaddr base src) s = .next (s.answer (some (base + s.cfg.priorityOffset + src * 4)) none) ∧
    exec (.plicEnaddr base ctx src) s = .next (s.answer
      (some (base + s.cfg.enableOffset + ctx * s.cfg.enableStride + src / 32 * 4)) (some (src % 32))) ∧
    exec (.plicThraddr base ctx) s =
      .next (s.answer (some (base + s.cfg.thresholdOffset + ctx * s.cfg.thresholdStride)) none) ∧
    exec (.plicCcaddr base ctx) s =
      .next (s.answer (some (base + s.cfg.claimOffset + ctx * s.cfg.claimStride)) none) ∧
    exec (.plicPendaddr base src) s = .next (s.answer
      (some (base + s.cfg.pendingOffset + src / 32 * 4)) (some (src % 32)))

/-! ## Traps and returns -/

/-- An exception HOST reports, taken in M: the pc and the cause are saved, MPIE takes MIE, MIE is cleared, MPP holds the
old mode, the pc is the vector, the FSM is in `Decoding` with the cause; nothing else changes (60_exceptions.md R294,
R296, R304; 46_host_port.md R265).
The model's own: how the port shows results (log 13). -/
def Obligations.ExceptionTakenInMachineMode : Prop :=
  ∀ (s : State) (code : Word), hostReady s = true → code.getLsbD 31 = false →
    s.priv = .M ∨ s.csr.medeleg.getLsbD code.toNat = false → s.csr.mtvec = s.cfg.trapEntry →
    ∃ m : Word,
      exec (.hartException code) s = .next { s with
        pc := s.csr.mtvec, priv := .M, csr := { s.csr with mepc := s.pc, mcause := code, mstatus := m },
        disp := .decoding, dregs := { s.dregs with trapMode := .M, tc := ⟨code.setWidth 31, false⟩ },
        hseq := none, r0 := none, r1 := none } ∧
      ∀ j, j < 32 → m.getLsbD j =
        if j = 7 then s.csr.mstatus.getLsbD 3 else if j = 3 then false else if j = 11 then true
        else if j = 12 then decide (s.priv = .M) else s.csr.mstatus.getLsbD j

/-- An exception raised at S whose delegation bit is set is taken in S: SPIE takes SIE, SIE is cleared, SPP is set; and
a code with bit 31 set is an illegal instruction (60_exceptions.md R294, R304; 46_host_port.md R265).
The model's own: how the port shows results (log 13). -/
def Obligations.ExceptionTakenInSupervisorMode : Prop :=
  (∀ (s : State) (code : Word), hostReady s = true → code.getLsbD 31 = false →
    s.priv = .S → s.csr.medeleg.getLsbD code.toNat = true → s.csr.stvec = s.cfg.trapEntry →
    ∃ m : Word,
      exec (.hartException code) s = .next { s with
        pc := s.csr.stvec, priv := .S, csr := { s.csr with sepc := s.pc, scause := code, mstatus := m },
        disp := .decoding, dregs := { s.dregs with trapMode := .S, tc := ⟨code.setWidth 31, false⟩ },
        hseq := none, r0 := none, r1 := none } ∧
      ∀ j, j < 32 → m.getLsbD j =
        if j = 5 then s.csr.mstatus.getLsbD 1 else if j = 1 then false else if j = 8 then true
        else s.csr.mstatus.getLsbD j) ∧
  (∀ (s : State) (code : Word), code.getLsbD 31 = true → exec (.hartException code) s = exec (.hartException 2) s)

/-- A trap, by an exception or by an interrupt, whose vector register does not hold the FSM's entry point has no
successor: `mtvec` where the trap is taken in M, `stvec` where it is delegated and taken in S (60_exceptions.md R294
line 4, R295). -/
def Obligations.TrapElsewhereIsRefused : Prop :=
  (∀ (s : State) (code : Word), hostReady s = true → code.getLsbD 31 = false →
    (s.priv = .M ∨ s.csr.medeleg.getLsbD code.toNat = false → s.csr.mtvec ≠ s.cfg.trapEntry →
      exec (.hartException code) s = .refused .vectorNotInstalled) ∧
    (s.priv = .S → s.csr.medeleg.getLsbD code.toNat = true → s.csr.stvec ≠ s.cfg.trapEntry →
      exec (.hartException code) s = .refused .vectorNotInstalled)) ∧
  (∀ s : State, s.disp = .idle →
    let pend := mip s &&& s.csr.mie
    (∀ i ∈ [11, 3, 7, 9, 1, 5], s.priv = .S ∨ s.csr.mstatus.getLsbD 3 = true →
      (pend &&& ~~~s.csr.mideleg).getLsbD i = true → s.csr.mtvec ≠ s.cfg.trapEntry →
      exec .trapInt s = .refused .vectorNotInstalled) ∧
    (∀ i ∈ [9, 1, 5], s.priv = .S → s.csr.mstatus.getLsbD 1 = true → pend &&& ~~~s.csr.mideleg = 0 →
      (pend &&& s.csr.mideleg).getLsbD i = true → s.csr.stvec ≠ s.cfg.trapEntry →
      exec .trapInt s = .refused .vectorNotInstalled))

/-- TRAP.INT takes the first takeable interrupt in the order 11, 3, 7, 9, 1, 5 for machine mode, in the order 9, 1, 5 for
supervisor mode if none is bound for machine mode, and enters the trap (60_exceptions.md R295, R294). It changes nothing
while the dispatch FSM is active or halted (no nesting, R301, R303), or where no interrupt is takeable: a machine-bound
one needs S or MIE, a delegated one S and SIE (R295).
The model's own: a step whose guard fails changes nothing (log 3). -/
def Obligations.InterruptTakenInOrder : Prop :=
  (∀ (s : State) (pre post : List Nat) (i : Nat), s.disp = .idle →
    let pend := mip s &&& s.csr.mie
    (pre ++ i :: post = [11, 3, 7, 9, 1, 5] → s.priv = .S ∨ s.csr.mstatus.getLsbD 3 = true →
      (∀ j ∈ pre, (pend &&& ~~~s.csr.mideleg).getLsbD j = false) →
      (pend &&& ~~~s.csr.mideleg).getLsbD i = true → s.csr.mtvec = s.cfg.trapEntry →
      ∃ m : Word,
        exec .trapInt s = .next { s with
          pc := s.csr.mtvec, priv := .M, disp := .decoding,
          csr := { s.csr with mepc := s.pc, mcause := BitVec.ofNat 32 (2 ^ 31 + i), mstatus := m },
          dregs := { s.dregs with trapMode := .M, tc := ⟨BitVec.ofNat 31 i, true⟩ } } ∧
        ∀ j, j < 32 → m.getLsbD j =
          if j = 7 then s.csr.mstatus.getLsbD 3 else if j = 3 then false else if j = 11 then true
          else if j = 12 then decide (s.priv = .M) else s.csr.mstatus.getLsbD j) ∧
    (pre ++ i :: post = [9, 1, 5] → s.priv = .S → s.csr.mstatus.getLsbD 1 = true →
      pend &&& ~~~s.csr.mideleg = 0 → (∀ j ∈ pre, (pend &&& s.csr.mideleg).getLsbD j = false) →
      (pend &&& s.csr.mideleg).getLsbD i = true → s.csr.stvec = s.cfg.trapEntry →
      ∃ m : Word,
        exec .trapInt s = .next { s with
          pc := s.csr.stvec, priv := .S, disp := .decoding,
          csr := { s.csr with sepc := s.pc, scause := BitVec.ofNat 32 (2 ^ 31 + i), mstatus := m },
          dregs := { s.dregs with trapMode := .S, tc := ⟨BitVec.ofNat 31 i, true⟩ } } ∧
        ∀ j, j < 32 → m.getLsbD j =
          if j = 5 then s.csr.mstatus.getLsbD 1 else if j = 1 then false else if j = 8 then true
          else s.csr.mstatus.getLsbD j)) ∧
  (∀ s : State,
    (s.disp ≠ .idle → exec .trapInt s = .next s) ∧
    ((s.priv = .S ∨ s.csr.mstatus.getLsbD 3 = true → mip s &&& s.csr.mie &&& ~~~s.csr.mideleg = 0) →
      (s.priv = .S ∧ s.csr.mstatus.getLsbD 1 = true → mip s &&& s.csr.mie &&& s.csr.mideleg = 0) →
      exec .trapInt s = .next s))

/-- MRET: at M the mode becomes MPP's, MIE takes MPIE, MPIE is set, MPP is cleared, the pc is `mepc`; MPP = 0b00 has no
successor; at S it is an illegal instruction (60_exceptions.md R299).
The model's own: how the port shows results (log 13). -/
def Obligations.MretRestoresThePreviousMode : Prop :=
  ∀ s : State,
    let mpp : BitVec 2 := (s.csr.mstatus >>> 11).setWidth 2
    (hostReady s = true → s.priv = .M → mpp ≠ 0b00 → ∃ m : Word,
      exec .mret s = .next ({ s with
        priv := if mpp = 0b11 then .M else .S, pc := s.csr.mepc, csr := { s.csr with mstatus := m } }.answer none none) ∧
      ∀ j, j < 32 → m.getLsbD j =
        if j = 3 then s.csr.mstatus.getLsbD 7 else if j = 7 then true else if j = 11 ∨ j = 12 then false
        else s.csr.mstatus.getLsbD j) ∧
    (hostReady s = true → s.priv = .M → mpp = 0b00 → exec .mret s = .refused .userModeNotModelled) ∧
    (s.priv = .S → exec .mret s = exec (.hartException 2) s)

/-- SRET, at S and at M: the mode becomes S, SIE takes SPIE, SPIE is set, SPP is cleared, the pc is `sepc`; SPP = 0 has
no successor (60_exceptions.md R300).
The model's own: how the port shows results (log 13). -/
def Obligations.SretRestoresSupervisorMode : Prop :=
  ∀ s : State, hostReady s = true →
    (s.csr.mstatus.getLsbD 8 = true → ∃ m : Word,
      exec .sret s = .next ({ s with
        priv := .S, pc := s.csr.sepc, csr := { s.csr with mstatus := m } }.answer none none) ∧
      ∀ j, j < 32 → m.getLsbD j =
        if j = 1 then s.csr.mstatus.getLsbD 5 else if j = 5 then true else if j = 8 then false
        else s.csr.mstatus.getLsbD j) ∧
    (s.csr.mstatus.getLsbD 8 = false → exec .sret s = .refused .userModeNotModelled)

/-- An interrupt and the FSM's return from it, with the CSR file, mode and trap mode as trap entry left them: the mode,
the pc and the global enable of the trap's mode are again those before the trap (45_trap_dispatch.md R250, R251). -/
def Obligations.ReturnUndoesInterruptEntry : Prop :=
  ∀ s t u v : State, s.disp = .idle → exec .trapInt s = .next t → t ≠ s →
    u.csr = t.csr → u.priv = t.priv → u.dregs.trapMode = t.dregs.trapMode →
    u.disp = .interruptHandling → u.dregs.ih = .ret → exec .dispReturn u = .next v →
    v.priv = s.priv ∧ v.pc = s.pc ∧ v.disp = .idle ∧
    (t.priv = .M → v.csr.mstatus.getLsbD 3 = s.csr.mstatus.getLsbD 3) ∧
    (t.priv = .S → v.csr.mstatus.getLsbD 1 = s.csr.mstatus.getLsbD 1)

/-! ## The bootstrap -/

/-- Each BOOT step at its label, in normal context: the CSR writes of its rule, the label after it, nothing else; at
another label or outside normal context it changes nothing (44_privilege_bootstrap.md R220 to R227).
The model's own: a step whose guard fails changes nothing (log 3), the return in B6 checks as MRET does (log 20). -/
def Obligations.BootStepsConfigureTheHart : Prop :=
  ∀ s : State,
    let put (old mask w : Word) : Word := (old &&& ~~~mask) ||| (w &&& mask)
    let epc : Word := if s.cfg.ialign = .bits32 then 0xFFFFFFFC else 0xFFFFFFFE
    let mpp : BitVec 2 := (s.csr.mstatus >>> 11).setWidth 2
    (s.disp = .idle →
      (s.boot = .b0 → exec .bootB0 s = .next { s with boot := .b1, csr := { s.csr with
        mtvec := put s.csr.mtvec 0xFFFFFFFC s.cfg.trapEntry, stvec := put s.csr.stvec 0xFFFFFFFC s.cfg.trapEntry } }) ∧
      (s.boot = .b1 → exec .bootB1 s = .next { s with boot := .b2, csr := { s.csr with satp := 0 } }) ∧
      (s.boot = .b2 → exec .bootB2 s = .next { s with boot := .b3, csr := { s.csr with
        pmpaddr0 := s.cfg.pmpAddr0, pmpcfg0 := put s.csr.pmpcfg0 0x1F s.cfg.pmpCfg0 } }) ∧
      (s.boot = .b3 → exec .bootB3 s = .next { s with boot := .b4, csr := { s.csr with
        mepc := put s.csr.mepc epc s.cfg.mainEntry,
        mstatus := put s.csr.mstatus 0x1800 (if s.cfg.bootTarget = .S then 0x0800 else 0x1800) } }) ∧
      (s.boot = .b4 → exec .bootB4 s = .next { s with boot := .b5, csr := { s.csr with
        mstatus := s.csr.mstatus ||| (if s.cfg.bootTarget = .S then 0x2 else 0x80) } }) ∧
      (s.boot = .b5 → exec .bootB5 s = .next { s with boot := .b6, csr := { s.csr with
        medeleg := put s.csr.medeleg 0xB3FF s.cfg.edelegMask,
        mideleg := put s.csr.mideleg 0x222 s.cfg.idelegMask } }) ∧
      (s.boot = .b6 → mpp ≠ 0b00 → ∃ m : Word,
        exec .bootB6 s = .next { s with
          boot := .done, priv := if mpp = 0b11 then .M else .S, pc := s.csr.mepc, csr := { s.csr with mstatus := m } } ∧
        ∀ j, j < 32 → m.getLsbD j =
          if j = 3 then s.csr.mstatus.getLsbD 7 else if j = 7 then true else if j = 11 ∨ j = 12 then false
          else s.csr.mstatus.getLsbD j)) ∧
    (∀ e ∈ [(Boot.b0, Instr.bootB0), (.b1, .bootB1), (.b2, .bootB2), (.b3, .bootB3), (.b4, .bootB4), (.b5, .bootB5),
        (.b6, .bootB6)], s.boot ≠ e.1 ∨ s.disp ≠ .idle → exec e.2 s = .next s)

/-- From the reset state the seven BOOT steps, in order, leave the state of 44_privilege_bootstrap.md R228: the target
mode at the main entry point, the vectors, protection and delegation installed, everything else as after reset. -/
def Obligations.BootstrapLeavesTheMainRoutine : Prop :=
  ∀ s : State, s.cfg.wf = true →
    runAll [.bootB0, .bootB1, .bootB2, .bootB3, .bootB4, .bootB5, .bootB6] s.afterReset = .next { s.afterReset with
      priv := s.cfg.bootTarget, pc := s.cfg.mainEntry, boot := .done,
      csr := { Csrs.reset with
        mstatus := if s.cfg.bootTarget = .S then 0x82 else 0x88, mtvec := s.cfg.trapEntry, stvec := s.cfg.trapEntry,
        mepc := s.cfg.mainEntry, pmpaddr0 := s.cfg.pmpAddr0, pmpcfg0 := s.cfg.pmpCfg0 &&& 0x1F,
        medeleg := s.cfg.edelegMask &&& 0xB3FF, mideleg := s.cfg.idelegMask &&& 0x222 } }

/-! ## The dispatch FSM -/

/-- DISP.ROUTE goes by the interrupt flag alone; DISP.FATAL appends the five bytes of the report, tag `E` for a known
exception and `X` for any other cause, and halts (45_trap_dispatch.md R241, R242; 30_encoding.md R104). -/
def Obligations.ExceptionsAreReportedAndHalt : Prop :=
  ∀ s : State,
    let v : Word := s.dregs.tc.code.setWidth 32
    let known : Prop := s.dregs.tc.isInterrupt = false ∧
      s.dregs.tc.code.toNat ∈ [0, 1, 2, 3, 4, 5, 6, 7, 8, 9, 11, 12, 13, 15]
    (s.disp = .decoding → s.dregs.tc.isInterrupt = false →
      exec .dispRoute s = .next { s with disp := .exceptionFatal }) ∧
    (s.disp = .decoding → s.dregs.tc.isInterrupt = true →
      exec .dispRoute s = .next { s with disp := .interruptHandling, dregs := { s.dregs with ih := .report } }) ∧
    (s.disp = .exceptionFatal → ∃ tag : Byte, (known → tag = 0x45) ∧ (¬known → tag = 0x58) ∧
      exec .dispFatal s = .next { s with
        sinkLog := s.sinkLog ++ [tag, v.extractLsb' 0 8, v.extractLsb' 8 8, v.extractLsb' 16 8, v.extractLsb' 24 8],
        disp := .halted })

/-- DISP.IREPORT appends the report, tag `I` for a known interrupt and `J` for any other cause, and goes to the claim with
context 0 for code 11, with context 1 for code 9, to the return for every other cause (45_trap_dispatch.md R243). -/
def Obligations.InterruptsAreReportedAndRouted : Prop :=
  ∀ s : State, s.serving [.report] = true →
    let v : Word := s.dregs.tc.code.setWidth 32
    let code := s.dregs.tc.code.toNat
    let isInt := s.dregs.tc.isInterrupt
    exec .dispIreport s = .next { s with
      sinkLog := s.sinkLog ++ [if isInt = true ∧ code ∈ [1, 3, 5, 7, 9, 11] then 0x49 else 0x4A,
        v.extractLsb' 0 8, v.extractLsb' 8 8, v.extractLsb' 16 8, v.extractLsb' 24 8],
      dregs :=
        if isInt = true ∧ code = 11 then { s.dregs with ctx := 0, ih := .claim }
        else if isInt = true ∧ code = 9 then { s.dregs with ctx := 1, ih := .claim }
        else { s.dregs with ih := .ret } }

/-- DISP.CLAIM claims for its context: nothing pending reports `Z` and returns; a claimed source's gateway becomes
`Claimed(ctx)`, it is reported `S` and served if it has a handler, reported `U` and completed if it has none
(45_trap_dispatch.md R244; 42_plic.md R152). -/
def Obligations.DispatchClaimsTheBestSource : Prop :=
  ∀ (s : State) (c : Fin 2), s.cfg.wf = true → s.serving [.claim] = true → s.dregs.ctx = BitVec.ofNat 32 c.val →
    s.mayAccess (s.cfg.plicBase + s.cfg.claimOffset + BitVec.ofNat 32 c.val * s.cfg.claimStride) .word .read = true →
    (best s c = none → exec .dispClaim s = .next { s with
      sinkLog := s.sinkLog ++ [0x5A, 0, 0, 0, 0], dregs := { s.dregs with claimedId := 0, ih := .ret } }) ∧
    (∀ src : Nat, best s c = some src →
      let v : Word := BitVec.ofNat 32 src
      ∃ g : Tab Gw,
        exec .dispClaim s = .next { s with
          plic := { s.plic with gw := g },
          sinkLog := s.sinkLog ++ [if src ∈ s.cfg.echoSources then 0x53 else 0x55,
            v.extractLsb' 0 8, v.extractLsb' 8 8, v.extractLsb' 16 8, v.extractLsb' 24 8],
          dregs := { s.dregs with
            claimedId := v, ih := if src ∈ s.cfg.echoSources then .svcRxPoll else .complete } } ∧
        ∀ j, Tab.get .open g j = if j = src then .claimed c else s.plic.gate j)

/-- The echo service: each poll clears the error bits and goes on when its queue is ready; the read takes the oldest byte,
turns CR into LF and queues CR before LF; the write queues one byte, or drops it with the flag if there is no room
(45_trap_dispatch.md R245 to R248; 43_uart.md R183, R184, R192). With divisor access on, read and write have no successor
(43_uart.md R181); an empty echo queue is the model's fault (log 17).
The model's own: the byte an empty buffer gives is free (log 11), the write's test for the last byte sees the echo queue
after the byte has left it (DEDUCED, log 27). -/
def Obligations.EchoServiceReadsAndWrites : Prop :=
  ∀ s : State, s.cfg.wf = true →
    (s.mayAccess (s.cfg.uartBase + 5) .byte .read = true →
      (s.serving [.svcRxPoll] = true → exec .dispRxpoll s = .next { s with
        uart := { s.uart with err := 0 },
        dregs := { s.dregs with ih := if s.uart.rxFifo = [] then .svcRxPoll else .svcRxRead } }) ∧
      (s.serving [.svcTxPoll] = true → exec .dispTxpoll s = .next { s with
        uart := { s.uart with err := 0 },
        dregs := { s.dregs with ih := if s.uart.txFifo = [] then .svcTxWrite else .svcTxPoll } })) ∧
    (s.serving [.svcRxRead] = true → s.mayAccess (s.cfg.uartBase + 0) .byte .read = true →
      let echo (b : Byte) : List Byte :=
        if b = 0x0D ∨ b = 0x0A then [0x0D, 0x0A] else [b]
      (s.uart.lcr.getLsbD 7 = true → exec .dispRxread s = .refused .uartDivisorLatch) ∧
      (s.uart.lcr.getLsbD 7 = false → ∀ (b : Byte) (rest : List Byte), s.uart.rxFifo = b :: rest →
        exec .dispRxread s = .next { s with
          uart := { s.uart with rxFifo := rest }, dregs := { s.dregs with dTxq := echo b, ih := .svcTxPoll } }) ∧
      (s.uart.lcr.getLsbD 7 = false → s.uart.rxFifo = [] → ∃ (b : Byte) (n : Nat),
        exec .dispRxread s = .next { s with
          flags := { s.flags with uartRx := true }, draws := n,
          dregs := { s.dregs with dTxq := echo b, ih := .svcTxPoll } })) ∧
    (s.serving [.svcTxWrite] = true → s.mayAccess (s.cfg.uartBase + 0) .byte .write = true →
      (s.dregs.dTxq = [] → exec .dispTxwrite s = .fault .echoQueueEmpty) ∧
      (s.uart.lcr.getLsbD 7 = true → s.dregs.dTxq ≠ [] → exec .dispTxwrite s = .refused .uartDivisorLatch) ∧
      (s.uart.lcr.getLsbD 7 = false → ∀ (b : Byte) (rest : List Byte), s.dregs.dTxq = b :: rest →
        let d : DispRegs := { s.dregs with dTxq := rest, ih := if rest = [] then .complete else .svcTxPoll }
        exec .dispTxwrite s = .next
          (if s.uart.txFifo.length < (if s.uart.fifoEn then s.cfg.uartFifoDepth else 1) then
            { s with dregs := d, uart := { s.uart with txFifo := s.uart.txFifo ++ [b], threIp := false } }
          else { s with dregs := d, flags := { s.flags with uartTx := true } })))

/-- DISP.COMPLETE writes the claimed id back to its context's word: a claim held by that context is released, anything
else sets the flag (45_trap_dispatch.md R249, 42_plic.md R153); DISP.RETURN performs the return of the trap's mode and
goes idle, the FSM's data registers then holding values nothing states (R250; 10_state.md R49, log 10).
The model's own: the refusals of the return (log 20). -/
def Obligations.DispatchCompletesAndReturns : Prop :=
  (∀ (s : State) (c : Fin 2), s.cfg.wf = true → s.serving [.complete] = true → s.dregs.ctx = BitVec.ofNat 32 c.val →
    s.mayAccess (s.cfg.plicBase + s.cfg.claimOffset + BitVec.ofNat 32 c.val * s.cfg.claimStride) .word .write = true →
    let id := s.dregs.claimedId.toNat
    (1 ≤ id ∧ id < s.cfg.nsrc ∧ s.plic.gate id = .claimed c → ∃ g : Tab Gw,
      exec .dispComplete s = .next { s with plic := { s.plic with gw := g }, dregs := { s.dregs with ih := .ret } } ∧
      ∀ j, Tab.get .open g j = if j = id then .open else s.plic.gate j) ∧
    (¬(1 ≤ id ∧ id < s.cfg.nsrc ∧ s.plic.gate id = .claimed c) →
      exec .dispComplete s = .next { s with
        flags := { s.flags with plicComplete := true }, dregs := { s.dregs with ih := .ret } })) ∧
  (∀ s : State, s.serving [.ret] = true →
    let mpp : BitVec 2 := (s.csr.mstatus >>> 11).setWidth 2
    (s.dregs.trapMode = .M → mpp ≠ 0b00 → ∃ (m : Word) (d : DispRegs) (n : Nat),
      exec .dispReturn s = .next { s with
        priv := if mpp = 0b11 then .M else .S, pc := s.csr.mepc, csr := { s.csr with mstatus := m },
        disp := .idle, dregs := d, draws := n } ∧
      ∀ j, j < 32 → m.getLsbD j =
        if j = 3 then s.csr.mstatus.getLsbD 7 else if j = 7 then true else if j = 11 ∨ j = 12 then false
        else s.csr.mstatus.getLsbD j) ∧
    (s.dregs.trapMode = .S → s.csr.mstatus.getLsbD 8 = true → ∃ (m : Word) (d : DispRegs) (n : Nat),
      exec .dispReturn s = .next { s with
        priv := .S, pc := s.csr.sepc, csr := { s.csr with mstatus := m },
        disp := .idle, dregs := d, draws := n } ∧
      ∀ j, j < 32 → m.getLsbD j =
        if j = 1 then s.csr.mstatus.getLsbD 5 else if j = 5 then true else if j = 8 then false
        else s.csr.mstatus.getLsbD j) ∧
    (s.dregs.trapMode = .M ∧ mpp = 0b00 ∨ s.dregs.trapMode = .S ∧ s.csr.mstatus.getLsbD 8 = false →
      exec .dispReturn s = .refused .userModeNotModelled))

/-- A device access of the FSM that the protection check denies: the block halts with the double-trap flag and nothing
else changes (60_exceptions.md R302).
The model's own: with the echo queue empty the model faults instead (log 17). -/
def Obligations.DeniedDispatchAccessHalts : Prop :=
  ∀ (s : State) (c : Fin 2), s.cfg.wf = true → s.disp = .interruptHandling → s.priv = .S →
    s.csr.satp.getLsbD 31 = false → s.dregs.ctx = BitVec.ofNat 32 c.val →
    let cc : Word := s.cfg.plicBase + s.cfg.claimOffset + BitVec.ofNat 32 c.val * s.cfg.claimStride
    let u (o : Word) : Word := s.cfg.uartBase + o
    ∀ e ∈ [(Ih.claim, Instr.dispClaim, cc, Width.word, AccKind.read), (.svcRxPoll, .dispRxpoll, u 5, .byte, .read),
        (.svcRxRead, .dispRxread, u 0, .byte, .read), (.svcTxPoll, .dispTxpoll, u 5, .byte, .read),
        (.svcTxWrite, .dispTxwrite, u 0, .byte, .write), (.complete, .dispComplete, cc, .word, .write)],
      s.dregs.ih = e.1 → pmpAllows s.csr .S e.2.2.1 e.2.2.2.1 e.2.2.2.2 = .deny →
      (e.1 = .svcTxWrite → s.dregs.dTxq ≠ []) →
      exec e.2.1 s = .next { s with disp := .halted, flags := { s.flags with doubleTrap := true } }

/-- In `Halted` the steps of HOST, BOOT, TRAP and DISP change nothing, and no step but reset leaves it or touches the pc,
the mode, a CSR, the sequencers, the flags or the report (60_exceptions.md R303).
The model's own: the turn of a later step (log 23), a step whose guard fails changes nothing (log 3). -/
def Obligations.HaltedIsLeftOnlyByReset : Prop :=
  ∀ s : State, s.disp = .halted →
    (∀ i, agentOf i ∈ [Agent.host, .boot, .trap, .disp] → exec i s = .next s) ∧ hostNext s = .next s ∧
    (∀ i, i ≠ .reset → ∃ t, exec i s = .next t ∧ t.disp = .halted ∧ t.pc = s.pc ∧ t.priv = s.priv ∧ t.csr = s.csr ∧
      t.boot = s.boot ∧ t.hseq = s.hseq ∧ t.flags = s.flags ∧ t.sinkLog = s.sinkLog ∧ t.dregs = s.dregs)

/-- Normal and trap context exclude each other: outside `Idle` no step of HOST, BOOT or TRAP does anything, in `Idle` and
`Halted` no step of DISP does, and in every other state exactly one DISP step is enabled (00_scope.md R9, 10_state.md
R49, 45_trap_dispatch.md R240).
The model's own: the turn of a later step (log 23), a step whose guard fails changes nothing (log 3). -/
def Obligations.ContextsExcludeEachOther : Prop :=
  ∀ s : State,
    (s.disp ≠ .idle → (∀ i, agentOf i ∈ [Agent.host, .boot, .trap] → exec i s = .next s) ∧ hostNext s = .next s) ∧
    (s.disp = .idle ∨ s.disp = .halted → ∀ i, agentOf i = .disp → exec i s = .next s) ∧
    (s.disp ≠ .idle → s.disp ≠ .halted →
      ∃ i, dispNext s = some i ∧ agentOf i = .disp ∧ ∀ j, agentOf j = .disp → j ≠ i → exec j s = .next s)

/-! ## The PLIC -/

/-- The priority register of a source, by PLIC.SETPRIO and by its row: a write stores the word masked with `PRIO_MAX`, is
ignored for source 0, a read gives the priority; every other priority and everything else is as before (42_plic.md R147,
R156).
The model's own: how the port shows results (log 13), the register rows as accesses of HOST (log 14). -/
def Obligations.PriorityRegisterStoresMasked : Prop :=
  ∀ (s : State) (src : Nat) (v : Word), s.cfg.wf = true → hostReady s = true → src < s.cfg.nsrc →
    let addr : Word := s.cfg.plicBase + s.cfg.priorityOffset + BitVec.ofNat 32 (4 * src)
    (s.mayAccess addr .word .write = true → ∃ t : Tab Word,
      exec (.plicSetprio (BitVec.ofNat 32 src) v) s =
        .next ({ s with plic := { s.plic with priority := t } }.answer none none) ∧
      exec (.regPlicPriority src (.write v)) s =
        .next ({ s with plic := { s.plic with priority := t } }.answer none none) ∧
      ∀ j, Tab.get 0 t j = if j = src ∧ src ≠ 0 then v &&& s.cfg.prioMax else s.plic.prio j) ∧
    (s.mayAccess addr .word .read = true →
      exec (.regPlicPriority src .read) s =
        .next (s.answer (some (if src = 0 then 0 else s.plic.prio src)) none))

/-- Threshold words, by PLIC.SETTHR and by their row: a write stores the word masked with `PRIO_MAX` in that context, a
read gives the threshold; nothing else changes (42_plic.md R150, R158).
The model's own: how the port shows results (log 13), the register rows as accesses of HOST (log 14). -/
def Obligations.ThresholdRegisterStoresMasked : Prop :=
  ∀ (s : State) (c : Fin 2) (v : Word), s.cfg.wf = true → hostReady s = true →
    let addr : Word := s.cfg.plicBase + s.cfg.thresholdOffset + BitVec.ofNat 32 c.val * s.cfg.thresholdStride
    let x : PlicCtx := { s.plic.ctx c with threshold := v &&& s.cfg.prioMax }
    let p : Plic := if c = 0 then { s.plic with ctx0 := x } else { s.plic with ctx1 := x }
    (s.mayAccess addr .word .write = true →
      exec (.plicSetthr (BitVec.ofNat 32 c.val) v) s = .next ({ s with plic := p }.answer none none) ∧
      exec (.regPlicThreshold c (.write v)) s = .next ({ s with plic := p }.answer none none)) ∧
    (s.mayAccess addr .word .read = true →
      exec (.regPlicThreshold c .read) s = .next (s.answer (some (s.plic.thresh c)) none))

/-- Enable and pending words by their rows: bit `b` of word `w` is source `32 w + b`; a read gives the bits of existing
sources and 0 elsewhere; an enable write sets the bits of existing sources of that word and context and no other; a
pending write is ignored (42_plic.md R148, R149).
The model's own: how the port shows results (log 13), the register rows as accesses of HOST (log 14). -/
def Obligations.EnableAndPendingWordsHoldSourceBits : Prop :=
  ∀ (s : State) (c : Fin 2) (w : Nat) (v : Word), s.cfg.wf = true → hostReady s = true →
    w < (s.cfg.nsrc + 31) / 32 →
    let pend : Word := s.cfg.plicBase + s.cfg.pendingOffset + BitVec.ofNat 32 (4 * w)
    let en : Word := s.cfg.plicBase + (s.cfg.enableOffset + BitVec.ofNat 32 c.val * s.cfg.enableStride) +
      BitVec.ofNat 32 (4 * w)
    (s.mayAccess pend .word .read = true → ∃ r : Word,
      exec (.regPlicPending w .read) s = .next (s.answer (some r) none) ∧
      ∀ b, b < 32 → r.getLsbD b = (s.cfg.isSource (32 * w + b) && decide (s.plic.gate (32 * w + b) = .pending))) ∧
    (s.mayAccess pend .word .write = true →
      exec (.regPlicPending w (.write v)) s = .next (s.answer none none)) ∧
    (s.mayAccess en .word .read = true → ∃ r : Word,
      exec (.regPlicEnable c w .read) s = .next (s.answer (some r) none) ∧
      ∀ b, b < 32 → r.getLsbD b = (s.cfg.isSource (32 * w + b) && s.plic.enabled c (32 * w + b))) ∧
    (s.mayAccess en .word .write = true → ∃ t : Tab Word,
      exec (.regPlicEnable c w (.write v)) s = .next ({ s with
        plic := if c = 0 then { s.plic with ctx0 := { s.plic.ctx0 with enable := t } }
          else { s.plic with ctx1 := { s.plic.ctx1 with enable := t } } }.answer none none) ∧
      (∀ w', w' ≠ w → Tab.get 0 t w' = s.plic.enableWord c w') ∧
      ∀ b, b < 32 → (Tab.get 0 t w).getLsbD b = (s.cfg.isSource (32 * w + b) && v.getLsbD b))

/-- A claim, by PLIC.CLAIM and by the claim row: 0 and no change where no source is a candidate, else the best source,
whose gateway becomes `Claimed(c)` and no other gateway moves (42_plic.md R152, R160).
The model's own: how the port shows results (log 13), the register rows as accesses of HOST (log 14). -/
def Obligations.ClaimReturnsTheBestSource : Prop :=
  ∀ (s : State) (c : Fin 2), s.cfg.wf = true → hostReady s = true →
    s.mayAccess (s.cfg.plicBase + s.cfg.claimOffset + BitVec.ofNat 32 c.val * s.cfg.claimStride) .word .read = true →
    (best s c = none →
      exec (.plicClaim (BitVec.ofNat 32 c.val)) s = .next (s.answer (some 0) none) ∧
      exec (.regPlicClaim c) s = .next (s.answer (some 0) none)) ∧
    (∀ src : Nat, best s c = some src → ∃ g : Tab Gw,
      exec (.plicClaim (BitVec.ofNat 32 c.val)) s =
        .next ({ s with plic := { s.plic with gw := g } }.answer (some (BitVec.ofNat 32 src)) none) ∧
      exec (.regPlicClaim c) s =
        .next ({ s with plic := { s.plic with gw := g } }.answer (some (BitVec.ofNat 32 src)) none) ∧
      ∀ j, Tab.get .open g j = if j = src then .claimed c else s.plic.gate j)

/-- A completion, by PLIC.COMPLETE and by the complete row: the gateway that context claimed opens; any other id sets the
sticky flag and changes no gateway (42_plic.md R153, R161).
The model's own: how the port shows results (log 13), the register rows as accesses of HOST (log 14). -/
def Obligations.CompletionReleasesOnlyItsClaim : Prop :=
  ∀ (s : State) (c : Fin 2) (id : Word), s.cfg.wf = true → hostReady s = true →
    s.mayAccess (s.cfg.plicBase + s.cfg.claimOffset + BitVec.ofNat 32 c.val * s.cfg.claimStride) .word .write = true →
    (1 ≤ id.toNat ∧ id.toNat < s.cfg.nsrc ∧ s.plic.gate id.toNat = .claimed c → ∃ g : Tab Gw,
      exec (.plicComplete (BitVec.ofNat 32 c.val) id) s =
        .next ({ s with plic := { s.plic with gw := g } }.answer none none) ∧
      exec (.regPlicComplete c id) s = .next ({ s with plic := { s.plic with gw := g } }.answer none none) ∧
      ∀ j, Tab.get .open g j = if j = id.toNat then .open else s.plic.gate j) ∧
    (¬(1 ≤ id.toNat ∧ id.toNat < s.cfg.nsrc ∧ s.plic.gate id.toNat = .claimed c) →
      exec (.plicComplete (BitVec.ofNat 32 c.val) id) s =
        .next ({ s with flags := { s.flags with plicComplete := true } }.answer none none) ∧
      exec (.regPlicComplete c id) s =
        .next ({ s with flags := { s.flags with plicComplete := true } }.answer none none))

/-- Arbitration: the best source is a candidate of largest priority, the smallest id among equals, and there is none
exactly when no candidate exists (42_plic.md R154, 10_state.md R44). -/
def Obligations.ArbitrationPicksHighestPriority : Prop :=
  ∀ (s : State) (c : Fin 2),
    let candidate (src : Nat) : Prop := 1 ≤ src ∧ src < s.cfg.nsrc ∧ s.plic.gate src = .pending ∧
      s.plic.enabled c src = true ∧ s.plic.prio src ≠ 0 ∧
      (if s.cfg.threshStrict then s.plic.thresh c < s.plic.prio src else s.plic.thresh c ≤ s.plic.prio src)
    (best s c = none ↔ ∀ src, ¬candidate src) ∧
    (∀ src, best s c = some src ↔ candidate src ∧ ∀ other, candidate other →
      s.plic.prio other < s.plic.prio src ∨ (s.plic.prio other = s.plic.prio src ∧ src ≤ other))

/-- A source becomes pending only by its gateway's step, which needs the gateway open and the line high and does nothing
otherwise (42_plic.md R155, 10_state.md R43).
The model's own: the turn of a later step (log 23), a step whose guard fails changes nothing (log 3). -/
def Obligations.SourcePendsOnlyByItsGateway : Prop :=
  (∀ (s : State) (src : Word),
    let line : Bool := if src.toNat = s.cfg.uartSourceId then s.uart.irq else s.plic.ext src.toNat
    (1 ≤ src.toNat → src.toNat < s.cfg.nsrc → s.plic.gate src.toNat = .open → line = true → ∃ g : Tab Gw,
      exec (.plicGateway src) s = .next { s with plic := { s.plic with gw := g } } ∧
      ∀ j, Tab.get .open g j = if j = src.toNat then .pending else s.plic.gate j) ∧
    (s.plic.gate src.toNat ≠ .open ∨ line = false → exec (.plicGateway src) s = .next s)) ∧
  (∀ (i : Instr) (s t : State) (src : Nat), exec i s = .next t → t.plic.gate src = .pending →
    s.plic.gate src = .pending ∨ ∃ w, i = .plicGateway w ∧ w.toNat = src ∧ s.plic.gate src = .open) ∧
  (∀ (s t : State) (src : Nat), hostNext s = .next t → t.plic.gate src = .pending → s.plic.gate src = .pending)

/-- A claimed source stays claimed by its context until reset or its matching completion: a step of HOST or DISP whose
word write puts the source's id into the claim word of that very context. The completion opens the gateway and moves no
other, so no source is pending or another context's before its own completion (42_plic.md R163 (a), (c)).
The model's own: the register rows as accesses of HOST (log 14), the turn of a later step (log 23). -/
def Obligations.ClaimedSourceWaitsForItsCompletion : Prop :=
  ∀ (s t : State) (src : Nat) (c : Fin 2), s.plic.gate src = .claimed c →
    let kept : Prop := t.plic.gate src = .claimed c
    let claimWord : Word := claimAddress s.cfg s.cfg.plicBase (BitVec.ofNat 32 c.val)
    let completedBy (write : Option (Word × Word)) : Prop :=
      (∃ (id : Word) (u : State), write = some (claimWord, id) ∧ id.toNat = src ∧
        memWrite s claimWord .word id = .ok () u ∧ t.plic = u.plic) ∧
      t.plic.gate src = .open ∧ ∀ j, j ≠ src → t.plic.gate j = s.plic.gate j
    (∀ i, exec i s = .next t →
      kept ∨ i = .reset ∨ ((agentOf i = .host ∨ agentOf i = .disp) ∧ completedBy (wordWrite s i))) ∧
    (hostNext s = .next t → kept ∨ completedBy (seqWordWrite s))

/-- PLIC.ENABLE and PLIC.INIT step by step: the accesses of their rules in order, each step leaving the label of the next
(42_plic.md R157, R159); the write back sets the source's bit and writes the word's other bits as they were read.
The model's own: how the port shows results (log 13), the turn of a later step (log 23). -/
def Obligations.EnableAndInitRunStepByStep : Prop :=
  ∀ (s : State) (c : Fin 2) (src : Nat), s.cfg.wf = true → 1 ≤ src → src < s.cfg.nsrc →
    let ctx : Word := BitVec.ofNat 32 c.val
    let id : Word := BitVec.ofNat 32 src
    let en : Word := s.cfg.plicBase + (s.cfg.enableOffset + ctx * s.cfg.enableStride) + BitVec.ofNat 32 (4 * (src / 32))
    let prio : Word := s.cfg.plicBase + s.cfg.priorityOffset + BitVec.ofNat 32 (4 * src)
    let thr : Word := s.cfg.plicBase + s.cfg.thresholdOffset + ctx * s.cfg.thresholdStride
    let wordRead (r : Word) : Prop := ∀ b, b < 32 → r.getLsbD b =
      (s.cfg.isSource (32 * (src / 32) + b) && s.plic.enabled c (32 * (src / 32) + b))
    let put (t : Tab Word) (q : Option HostSeq) : Out := .next ({ s with
      hseq := q, plic := if c = 0 then { s.plic with ctx0 := { s.plic.ctx0 with enable := t } }
        else { s.plic with ctx1 := { s.plic.ctx1 with enable := t } } }.answer none none)
    let written (t : Tab Word) (w : Word) : Prop :=
      (∀ w', w' ≠ src / 32 → Tab.get 0 t w' = s.plic.enableWord c w') ∧
      ∀ b, b < 32 → (Tab.get 0 t (src / 32)).getLsbD b =
        (s.cfg.isSource (32 * (src / 32) + b) && (w.getLsbD b || decide (b = src % 32)))
    (hostReady s = true → s.mayAccess en .word .read = true → ∃ r : Word, wordRead r ∧
      exec (.plicEnable ctx id) s = .next ({ s with hseq := some (.enableE2 ctx id r) }.answer none none)) ∧
    (hostReady s = true → s.mayAccess prio .word .write = true → ∀ p th : BitVec 16, ∃ t : Tab Word,
      exec (.plicInit ctx id p th) s = .next ({ s with
        hseq := some (.initI2 ctx id th), plic := { s.plic with priority := t } }.answer none none) ∧
      ∀ j, Tab.get 0 t j = if j = src then p.setWidth 32 &&& s.cfg.prioMax else s.plic.prio j) ∧
    (s.boot = .done → s.disp = .idle →
      (∀ w : Word, s.hseq = some (.enableE2 ctx id w) → s.mayAccess en .word .write = true →
        ∃ t : Tab Word, hostNext s = put t none ∧ written t w) ∧
      (∀ th : BitVec 16, s.hseq = some (.initI2 ctx id th) → s.mayAccess en .word .read = true →
        ∃ r : Word, wordRead r ∧
          hostNext s = .next ({ s with hseq := some (.initI3 ctx id th r) }.answer none none)) ∧
      (∀ (th : BitVec 16) (w : Word), s.hseq = some (.initI3 ctx id th w) → s.mayAccess en .word .write = true →
        ∃ t : Tab Word, hostNext s = put t (some (.initI4 ctx th)) ∧ written t w) ∧
      (∀ th : BitVec 16, s.hseq = some (.initI4 ctx th) → s.mayAccess thr .word .write = true →
        let x : PlicCtx := { s.plic.ctx c with threshold := th.setWidth 32 &&& s.cfg.prioMax }
        hostNext s = .next ({ s with
          hseq := none, plic := if c = 0 then { s.plic with ctx0 := x } else { s.plic with ctx1 := x } }.answer
            none none)))

/-- The rows with no register: an access of a reserved PLIC offset or of UART offset 4 or 7 that passes the checks has no
successor, nor has an access of UART offset 0 or 1 while divisor access is on, nor a FIFO-control write with a trigger
level (42_plic.md R151; 43_uart.md R181, R187, R191).
The model's own: the register rows as accesses of HOST (log 14). -/
def Obligations.UnlistedRegistersStop : Prop :=
  ∀ s : State, s.cfg.wf = true → hostReady s = true →
    let may (o : Word) (k : AccKind) : Prop := s.mayAccess (s.cfg.uartBase + o) .byte k = true
    (∀ (o v : Word), o.toNat + 4 ≤ s.cfg.plicSize.toNat → o.toNat % 4 = 0 → plicSelect s.cfg o.toNat = .reserved →
      (s.mayAccess (s.cfg.plicBase + o) .word .read = true →
        exec (.regPlicReserved o .read) s = .refused .plicReservedOffset) ∧
      (s.mayAccess (s.cfg.plicBase + o) .word .write = true →
        exec (.regPlicReserved o (.write v)) s = .refused .plicReservedOffset)) ∧
    (∀ v : Byte,
      (may 4 .read → exec (.regUartOffset4 .read) s = .refused .uartUnlistedRegister) ∧
      (may 4 .write → exec (.regUartOffset4 (.write v)) s = .refused .uartUnlistedRegister) ∧
      (may 7 .read → exec (.regUartOffset7 .read) s = .refused .uartUnlistedRegister) ∧
      (may 7 .write → exec (.regUartOffset7 (.write v)) s = .refused .uartUnlistedRegister) ∧
      (s.uart.lcr.getLsbD 7 = true →
        (may 0 .read → exec .regUartRbr s = .refused .uartDivisorLatch) ∧
        (may 0 .write → exec (.regUartThr v) s = .refused .uartDivisorLatch) ∧
        (may 1 .read → exec (.regUartIer .read) s = .refused .uartDivisorLatch) ∧
        (may 1 .write → exec (.regUartIer (.write v)) s = .refused .uartDivisorLatch)) ∧
      (v.toNat ≥ 64 → may 2 .write → exec (.regUartFcr v) s = .refused .uartRxTrigger))

/-! ## The UART -/

/-- What each UART register reads as and what the read clears, by the rows: RBR the oldest byte, removed (an empty buffer
gives some byte and sets the flag); IER; IIR, whose transmit-empty report clears the latch; LCR; LSR, clearing the error
bits; MSR, clearing the change bits (43_uart.md R183, R185, R186, R188 to R190; 10_state.md R47, R48).
The model's own: how the port shows results (log 13), the register rows as accesses of HOST (log 14), the byte an
empty buffer gives is free (log 11). -/
def Obligations.UartRegisterReads : Prop :=
  ∀ s : State, s.cfg.wf = true → hostReady s = true →
    let u := s.uart
    let may (o : Word) : Prop := s.mayAccess (s.cfg.uartBase + o) .byte .read = true
    let bit (b : Bool) : BitVec 1 := BitVec.ofBool b
    let gives (i : Instr) (x : Byte) (u' : Uart) : Prop :=
      exec i s = .next ({ s with uart := u' }.answer (some (x.setWidth 32)) none)
    let iid : BitVec 4 :=
      if u.ier.getLsbD 2 = true ∧ u.err ≠ 0 then 0b0110 else if u.ier.getLsbD 0 = true ∧ u.rxFifo ≠ [] then 0b0100
      else if u.ier.getLsbD 1 = true ∧ u.threIp = true then 0b0010
      else if u.ier.getLsbD 3 = true ∧ u.msrDelta ≠ 0 then 0b0000 else 0b0001
    (may 0 → u.lcr.getLsbD 7 = false →
      (∀ b rest, u.rxFifo = b :: rest → gives .regUartRbr b { u with rxFifo := rest }) ∧
      (u.rxFifo = [] → ∃ (b : Byte) (n : Nat), exec .regUartRbr s = .next ({ s with
        flags := { s.flags with uartRx := true }, draws := n }.answer (some (b.setWidth 32)) none))) ∧
    (may 1 → u.lcr.getLsbD 7 = false → gives (.regUartIer .read) ((0 : BitVec 4) ++ u.ier) u) ∧
    (may 2 → gives .regUartIir (bit u.fifoEn ++ bit u.fifoEn ++ (0 : BitVec 2) ++ iid)
      (if iid = 0b0010 then { u with threIp := false } else u)) ∧
    (may 3 → gives (.regUartLcr .read) u.lcr u) ∧
    (may 5 → gives (.regUartLsr .read)
      (bit false ++ bit (decide (u.txFifo = []) && decide (u.tsr = none)) ++ bit (decide (u.txFifo = [])) ++ u.err ++
        bit (decide (u.rxFifo ≠ []))) { u with err := 0 }) ∧
    (may 6 → gives (.regUartMsr .read) (u.modemIn ++ u.msrDelta) { u with msrDelta := 0 })

/-- What a write of each UART register does, by the rows: THR queues a byte or drops it with the flag; IER sets the
enables and may latch the transmit-empty interrupt; FCR enables and clears the queues; LCR is stored; LSR and MSR ignore
writes (43_uart.md R184, R185, R187 to R190).
The model's own: how the port shows results (log 13), the register rows as accesses of HOST (log 14). -/
def Obligations.UartRegisterWrites : Prop :=
  ∀ (s : State) (v : Byte), s.cfg.wf = true → hostReady s = true →
    let u := s.uart
    let may (o : Word) : Prop := s.mayAccess (s.cfg.uartBase + o) .byte .write = true
    let does (i : Instr) (u' : Uart) : Prop := exec i s = .next ({ s with uart := u' }.answer none none)
    (may 0 → u.lcr.getLsbD 7 = false →
      (u.txFifo.length < (if u.fifoEn then s.cfg.uartFifoDepth else 1) →
        does (.regUartThr v) { u with txFifo := u.txFifo ++ [v], threIp := false }) ∧
      (¬u.txFifo.length < (if u.fifoEn then s.cfg.uartFifoDepth else 1) →
        exec (.regUartThr v) s = .next ({ s with flags := { s.flags with uartTx := true } }.answer none none))) ∧
    (may 1 → u.lcr.getLsbD 7 = false → does (.regUartIer (.write v)) { u with
      ier := v.setWidth 4,
      threIp := if u.ier.getLsbD 1 = false ∧ v.getLsbD 1 = true ∧ u.txFifo = [] then true else u.threIp }) ∧
    (may 2 → v.toNat < 64 →
      let changed : Prop := v.getLsbD 0 ≠ u.fifoEn
      does (.regUartFcr v) { u with
        fifoEn := v.getLsbD 0
        rxFifo := if v.getLsbD 1 = true ∨ changed then [] else u.rxFifo
        txFifo := if v.getLsbD 2 = true ∨ changed then [] else u.txFifo
        threIp := if v.getLsbD 2 = true ∨ changed then true else u.threIp }) ∧
    (may 3 → does (.regUartLcr (.write v)) { u with lcr := v }) ∧
    (may 5 → does (.regUartLsr (.write v)) u) ∧ (may 6 → does (.regUartMsr (.write v)) u)

/-- UART.PUTC: the command and each later P1 read the line status once, clearing the error bits, and wait until the
transmit queue is empty; P2 writes one byte; a line-feed is sent as carriage-return then line-feed, each after its own
wait (43_uart.md R192, R200).
The model's own: how the port shows results (log 13), the turn of a later step (log 23), P2's test for the last byte
sees `q` after the byte has left it (DEDUCED, log 27). -/
def Obligations.PutcWaitsBeforeEachByte : Prop :=
  ∀ s : State, s.cfg.wf = true →
    let polled (b : Byte) (q : List Byte) : Out := .next ({ s with
      uart := { s.uart with err := 0 },
      hseq := some (if s.uart.txFifo = [] then .putcP2 b q else .putcP1 b q) }.answer none none)
    (s.mayAccess (s.cfg.uartBase + 5) .byte .read = true →
      (hostReady s = true →
        exec (.uartPutc 0x0A) s = polled 0x0D [0x0A] ∧ ∀ c : Byte, c ≠ 0x0A → exec (.uartPutc c) s = polled c []) ∧
      (s.boot = .done → s.disp = .idle → ∀ b q, s.hseq = some (.putcP1 b q) → hostNext s = polled b q)) ∧
    (s.mayAccess (s.cfg.uartBase + 0) .byte .write = true → s.uart.lcr.getLsbD 7 = false →
      s.boot = .done → s.disp = .idle → ∀ (b : Byte) (q : List Byte), s.hseq = some (.putcP2 b q) →
      let next : Option HostSeq := match q with
        | [] => none
        | b' :: q' => some (.putcP1 b' q')
      hostNext s = .next
        ((if s.uart.txFifo.length < (if s.uart.fifoEn then s.cfg.uartFifoDepth else 1) then
          { s with hseq := next, uart := { s.uart with txFifo := s.uart.txFifo ++ [b], threIp := false } }
        else { s with hseq := next, flags := { s.flags with uartTx := true } }).answer none none))

/-- UART.GETC waits for data-ready, then takes the oldest byte with CR turned into LF; UART.FLUSH waits until the queue
and the shift register are empty; each poll reads the line status once, clearing the error bits (43_uart.md R201, R202;
an emptied buffer gives some byte and the flag, R183).
The model's own: how the port shows results (log 13), the turn of a later step (log 23), the byte an empty buffer
gives is free (log 11). -/
def Obligations.GetcAndFlushWait : Prop :=
  ∀ s : State, s.cfg.wf = true →
    let polled (q : Option HostSeq) : Out := .next ({ s with
      uart := { s.uart with err := 0 }, hseq := q }.answer none none)
    let getc : Out := polled (some (if s.uart.rxFifo = [] then .getcG1 else .getcG2))
    let flush : Out := polled (if s.uart.txFifo = [] ∧ s.uart.tsr = none then none else some .flushF1)
    (s.mayAccess (s.cfg.uartBase + 5) .byte .read = true →
      (hostReady s = true → exec .uartGetc s = getc ∧ exec .uartFlush s = flush) ∧
      (s.boot = .done → s.disp = .idle →
        (s.hseq = some .getcG1 → hostNext s = getc) ∧ (s.hseq = some .flushF1 → hostNext s = flush))) ∧
    (s.mayAccess (s.cfg.uartBase + 0) .byte .read = true → s.uart.lcr.getLsbD 7 = false →
      s.boot = .done → s.disp = .idle → s.hseq = some .getcG2 →
      let word (b : Byte) : Word := if b = 0x0D then 0x0A else b.setWidth 32
      (∀ b rest, s.uart.rxFifo = b :: rest → hostNext s = .next ({ s with
        hseq := none, uart := { s.uart with rxFifo := rest } }.answer (some (word b)) none)) ∧
      (s.uart.rxFifo = [] → ∃ (b : Byte) (n : Nat), hostNext s = .next ({ s with
        hseq := none, flags := { s.flags with uartRx := true }, draws := n }.answer (some (word b)) none)))

/-- UART.IESET and IECLR read the interrupt-enable register, then write it with the mask's bits set or cleared;
UART.IPEND answers whether an enabled condition holds and acknowledges a transmit-empty one; UART.FIFOCFG enables and
clears both queues (43_uart.md R203 to R206).
The model's own: how the port shows results (log 13), the turn of a later step (log 23). -/
def Obligations.InterruptEnableAndFifoCommands : Prop :=
  ∀ (s : State) (mask : BitVec 4), s.cfg.wf = true →
    let may (o : Word) (k : AccKind) : Prop := s.mayAccess (s.cfg.uartBase + o) .byte k = true
    let wrote (x : BitVec 4) : Out := .next ({ s with
      hseq := none,
      uart := { s.uart with
        ier := x,
        threIp := if s.uart.ier.getLsbD 1 = false ∧ x.getLsbD 1 = true ∧ s.uart.txFifo = [] then true
          else s.uart.threIp } }.answer none none)
    let read : Byte := s.uart.ier.setWidth 8
    (hostReady s = true →
      (may 1 .read → s.uart.lcr.getLsbD 7 = false →
        exec (.uartIeset mask) s = .next ({ s with hseq := some (.iesetS2 mask read) }.answer none none) ∧
        exec (.uartIeclr mask) s = .next ({ s with hseq := some (.ieclrC2 mask read) }.answer none none)) ∧
      (may 2 .read → exec .uartIpend s = .next ({ s with
        uart := if s.uart.iid = 0b0010 then { s.uart with threIp := false } else s.uart }.answer
          (some (if s.uart.irq then 1 else 0)) none)) ∧
      (may 2 .write → exec .uartFifocfg s = .next ({ s with
        uart := { s.uart with fifoEn := true, rxFifo := [], txFifo := [], threIp := true } }.answer none none))) ∧
    (s.boot = .done → s.disp = .idle → may 1 .write → s.uart.lcr.getLsbD 7 = false → ∀ old : BitVec 4,
      (s.hseq = some (.iesetS2 mask (old.setWidth 8)) → hostNext s = wrote (old ||| mask)) ∧
      (s.hseq = some (.ieclrC2 mask (old.setWidth 8)) → hostNext s = wrote (old &&& ~~~mask)))

/-- The transmitter: UART.TXLOAD moves the oldest queued byte to the empty shift register and latches the transmit-empty
interrupt when the queue runs empty; UART.TXEMIT puts the byte in the shift register on the line; each does nothing
without its guard (43_uart.md R196, R197).
The model's own: the latch's test sees the queue after the byte has left it (DEDUCED, log 27), a step whose guard fails
changes nothing (log 3). -/
def Obligations.TransmitterMovesBytesInOrder : Prop :=
  ∀ s : State,
    (∀ b rest, s.uart.tsr = none → s.uart.txFifo = b :: rest → exec .uartTxload s = .next { s with
      uart := { s.uart with
        tsr := some b, txFifo := rest, threIp := if rest = [] then true else s.uart.threIp } }) ∧
    (s.uart.tsr ≠ none ∨ s.uart.txFifo = [] → exec .uartTxload s = .next s) ∧
    (∀ b, s.uart.tsr = some b → exec .uartTxemit s = .next { s with
      txLog := s.txLog ++ [b], uart := { s.uart with tsr := none } }) ∧
    (s.uart.tsr = none → exec .uartTxemit s = .next s)

/-- UART.RXARRIVE queues the byte if there is room; else it sets the overrun bit, overwriting the buffer in non-FIFO mode
and dropping the byte in FIFO mode; the character's error bits are set either way (43_uart.md R198). -/
def Obligations.ReceiverQueuesOrOverruns : Prop :=
  ∀ (s : State) (b : Byte) (pe fe bi : Bool),
    let room : Prop := s.uart.rxFifo.length < (if s.uart.fifoEn then s.cfg.uartFifoDepth else 1)
    ∃ e : BitVec 4,
      exec (.uartRxarrive b pe fe bi) s = .next { s with uart := { s.uart with
        err := e
        rxFifo := if room then s.uart.rxFifo ++ [b] else if s.uart.fifoEn then s.uart.rxFifo else [b] } } ∧
      (e.getLsbD 0 = true ↔ s.uart.err.getLsbD 0 = true ∨ ¬room) ∧
      e.getLsbD 1 = (s.uart.err.getLsbD 1 || pe) ∧ e.getLsbD 2 = (s.uart.err.getLsbD 2 || fe) ∧
      e.getLsbD 3 = (s.uart.err.getLsbD 3 || bi)

/-- The environment's pins: UART.MODEM stores the levels and sets the change bits (a falling edge only for RI); PIN.MTIP,
PIN.MSIP and PIN.LINE store one level; nothing else changes (43_uart.md R199; 46_host_port.md R266 to R268). Each pin
keeps its level in every other step, reset and the later steps of HOST's sequences among them (10_state.md R54, R51). -/
def Obligations.PinsKeepTheirLevels : Prop :=
  (∀ (s : State) (v : BitVec 4) (b : Bool) (src : Word),
    (∃ d : BitVec 4,
      exec (.uartModem v) s = .next { s with uart := { s.uart with modemIn := v, msrDelta := d } } ∧
      (∀ j, j < 4 → j ≠ 2 → d.getLsbD j =
        (s.uart.msrDelta.getLsbD j || (v.getLsbD j != s.uart.modemIn.getLsbD j))) ∧
      d.getLsbD 2 = (s.uart.msrDelta.getLsbD 2 || (s.uart.modemIn.getLsbD 2 && !v.getLsbD 2))) ∧
    exec (.pinMtip b) s = .next { s with pins := { s.pins with mtip := b } } ∧
    exec (.pinMsip b) s = .next { s with pins := { s.pins with msip := b } } ∧
    (1 ≤ src.toNat → src.toNat < s.cfg.nsrc → src.toNat ≠ s.cfg.uartSourceId → ∃ t : Tab Bool,
      exec (.pinLine src b) s = .next { s with plic := { s.plic with extLine := t } } ∧
      ∀ j, Tab.get false t j = if j = src.toNat then b else s.plic.ext j)) ∧
  (∀ s t : State,
    (∀ i, exec i s = .next t →
      (t.pins.mtip = s.pins.mtip ∨ i = .pinMtip t.pins.mtip) ∧
      (t.pins.msip = s.pins.msip ∨ i = .pinMsip t.pins.msip) ∧
      (t.uart.modemIn = s.uart.modemIn ∨ i = .uartModem t.uart.modemIn) ∧
      ∀ j, t.plic.ext j = s.plic.ext j ∨ ∃ src : Word, src.toNat = j ∧ i = .pinLine src (t.plic.ext j)) ∧
    (hostNext s = .next t →
      t.pins = s.pins ∧ t.uart.modemIn = s.uart.modemIn ∧ ∀ j, t.plic.ext j = s.plic.ext j))

/-- RESET, from every state: each component takes the value of 10_state.md R56, the pins keep their levels (R320). The
dispatch registers are the model's choice (log 9); the parameters, the schedule and the draw counter stay (log 16).
The model's own: how the port shows results (log 13). -/
def Obligations.ResetSetsEveryComponent : Prop :=
  ∀ s : State, ∃ (t : State) (d : DispRegs), exec .reset s = .next t ∧
    t = { s with
      pc := s.cfg.resetEntry, priv := .M, csr := ⟨0, 0, 0, 0, 0, 0, 0, 0, 0, 0, 0, 0, 0, 0⟩,
      plic := { priority := [], ctx0 := ⟨[], 0⟩, ctx1 := ⟨[], 0⟩, gw := [], extLine := s.plic.extLine },
      uart := { ier := 0, fifoEn := false, lcr := 0, rxFifo := [], txFifo := [], tsr := none, err := 0,
                threIp := false, msrDelta := 0, modemIn := s.uart.modemIn },
      disp := .idle, dregs := d, boot := .b0, hseq := none, flags := ⟨false, false, false, false⟩,
      sinkLog := [], txLog := [], r0 := none, r1 := none } ∧
    (∀ src, t.plic.prio src = 0 ∧ t.plic.gate src = .open ∧ ∀ c, t.plic.enabled c src = false) ∧ t.uart.lsr = 0x60

/-! ## Raw accesses, protection, HART.SETPC -/

/-- MMIO.LOAD and MMIO.STORE: a width that is neither 1 nor 4 is an access fault; a range inside no window has no
successor; the checks an S access meets before the register, in their order; a wrong width or alignment inside a window
is an access fault (20_memory.md R66, R68, R72 to R75; 46_host_port.md R261, R262). -/
def Obligations.RawAccessesAreChecked : Prop :=
  ∀ (s : State) (addr width v : Word),
    let lo (b : Word) (n : Nat) : Prop := b.toNat ≤ addr.toNat ∧ addr.toNat + width.toNat ≤ b.toNat + n
    let inUart : Prop := lo s.cfg.uartBase 8
    let inPlic : Prop := lo s.cfg.plicBase s.cfg.plicSize.toNat
    let n : Width := if width = 1 then .byte else .word
    let loadFault : Out := exec (.hartException 5) s
    let storeFault : Out := exec (.hartException 7) s
    (width ≠ 1 → width ≠ 4 → exec (.mmioLoad addr width) s = loadFault ∧
      exec (.mmioStore addr width v) s = storeFault) ∧
    (s.cfg.wf = true → hostReady s = true → width = 1 ∨ width = 4 →
      (¬inUart → ¬inPlic → exec (.mmioLoad addr width) s = .refused .outsideBlock ∧
        exec (.mmioStore addr width v) s = .refused .outsideBlock) ∧
      (inUart ∨ inPlic → s.priv = .S → s.csr.satp.getLsbD 31 = true →
        exec (.mmioLoad addr width) s = .refused .translationNotModelled ∧
        exec (.mmioStore addr width v) s = .refused .translationNotModelled) ∧
      (inUart ∨ inPlic → s.priv = .S → s.csr.satp.getLsbD 31 = false →
        (pmpAllows s.csr .S addr n .read = .deny → exec (.mmioLoad addr width) s = loadFault) ∧
        (pmpAllows s.csr .S addr n .write = .deny → exec (.mmioStore addr width v) s = storeFault) ∧
        (pmpAllows s.csr .S addr n .read = .reserved → exec (.mmioLoad addr width) s = .refused .pmpReservedRw) ∧
        (pmpAllows s.csr .S addr n .write = .reserved →
          exec (.mmioStore addr width v) s = .refused .pmpReservedRw)) ∧
      (inUart ∧ width = 4 ∨ inPlic ∧ (width = 1 ∨ addr.toNat % 4 ≠ 0) →
        (s.mayAccess addr n .read = true → exec (.mmioLoad addr width) s = loadFault) ∧
        (s.mayAccess addr n .write = true → exec (.mmioStore addr width v) s = storeFault)))

/-- MMIO.LOAD and MMIO.STORE at a register, if the mode may access it, complete and are the register's own read and
write: what the register's row does, or what the PLIC command for that address does (46_host_port.md R261, R262;
20_memory.md R63, R64; 42_plic.md R156, R158, R160, R161).
The model's own: how the port shows results (log 13), the register rows as accesses of HOST (log 14). -/
def Obligations.RawAccessesReachTheRegisters : Prop :=
  ∀ (s : State) (o v : Word), s.cfg.wf = true →
    let at4 : Word := s.cfg.plicBase + o
    let at1 : Word := s.cfg.uartBase + o
    (o.toNat + 4 ≤ s.cfg.plicSize.toNat →
      exec (.mmioLoad at4 4) s = exec (plicRow o (plicSelect s.cfg o.toNat) .read) s ∧
      exec (.mmioStore at4 4 v) s = exec (plicRow o (plicSelect s.cfg o.toNat) (.write v)) s) ∧
    (o.toNat < 8 →
      exec (.mmioLoad at1 1) s = exec (uartReadRow (o.setWidth 3)) s ∧
      exec (.mmioStore at1 1 v) s = exec (uartWriteRow (o.setWidth 3) (v.setWidth 8)) s) ∧
    (hostReady s = true → o.toNat + 4 ≤ s.cfg.plicSize.toNat → o.toNat % 4 = 0 →
      plicSelect s.cfg o.toNat ≠ .reserved →
      (s.mayAccess at4 .word .read = true → ∃ t, exec (.mmioLoad at4 4) s = .next t ∧ t.r0 ≠ none ∧ t.csr = s.csr ∧
        t.pc = s.pc ∧ t.uart = s.uart) ∧
      (s.mayAccess at4 .word .write = true → ∃ t, exec (.mmioStore at4 4 v) s = .next t ∧ t.r0 = none ∧
        t.csr = s.csr ∧ t.pc = s.pc ∧ t.uart = s.uart)) ∧
    (∀ a x : Word,
      exec (.plicSetprio a x) s = exec (.mmioStore (priorityAddress s.cfg s.cfg.plicBase a) 4 x) s ∧
      exec (.plicSetthr a x) s = exec (.mmioStore (thresholdAddress s.cfg s.cfg.plicBase a) 4 x) s ∧
      exec (.plicClaim a) s = exec (.mmioLoad (claimAddress s.cfg s.cfg.plicBase a) 4) s ∧
      exec (.plicComplete a x) s = exec (.mmioStore (claimAddress s.cfg s.cfg.plicBase a) 4 x) s)

/-- The protection check: M always passes; S passes exactly if every byte of the access matches entry 0 and its R or W
bit allows the kind; `R = 0`, `W = 1` on a full match has no meaning; the match is none, below the address register,
one aligned word, or the naturally aligned power-of-two region the trailing ones name (20_memory.md R75). -/
def Obligations.ProtectionEntryGuardsSupervisor : Prop :=
  (∀ (c : Csrs) (addr : Word) (n : Width) (k : AccKind),
    let all : Prop := ∀ i, i < n.bytes → pmpMatch ((c.pmpcfg0 >>> 3).setWidth 2) c.pmpaddr0 (addr.toNat + i) = true
    let r := c.pmpcfg0.getLsbD 0
    let w := c.pmpcfg0.getLsbD 1
    pmpAllows c .M addr n k = .allow ∧
    (pmpAllows c .S addr n k = .allow ↔ all ∧ ¬(r = false ∧ w = true) ∧ (if k = .read then r else w) = true) ∧
    (pmpAllows c .S addr n k = .reserved ↔ all ∧ r = false ∧ w = true)) ∧
  (∀ (p : Word) (y : Nat),
    pmpMatch 0 p y = false ∧ (pmpMatch 1 p y = true ↔ y < 4 * p.toNat) ∧
    (pmpMatch 2 p y = true ↔ 4 * p.toNat ≤ y ∧ y < 4 * p.toNat + 4)) ∧
  (∀ (t base y : Nat), base * 2 ^ (t + 1) + 2 ^ t ≤ 2 ^ 32 → y < 2 ^ 32 →
    (pmpMatch 3 (BitVec.ofNat 32 (base * 2 ^ (t + 1) + (2 ^ t - 1))) y = true ↔
      base * 2 ^ (t + 3) ≤ y ∧ y < (base + 1) * 2 ^ (t + 3)))

/-- HART.SETPC sets the pc to an aligned address and changes nothing else; a misaligned one is an exception of code 0
(46_host_port.md R264).
The model's own: how the port shows results (log 13). -/
def Obligations.SetpcTakesAlignedAddresses : Prop :=
  ∀ (s : State) (a : Word),
    let step : Nat := if s.cfg.ialign = .bits32 then 4 else 2
    (a.toNat % step = 0 → hostReady s = true → exec (.hartSetpc a) s = .next ({ s with pc := a }.answer none none)) ∧
    (a.toNat % step ≠ 0 → exec (.hartSetpc a) s = exec (.hartException 0) s)

/-! ## Rules over every step -/

/-- The pc and the mode change only by trap entry (which saves the pc and goes to the vector of the mode entered), by a
trap return or the bootstrap's last step, by HART.SETPC (the pc alone), and by reset (10_state.md R22, R23;
60_exceptions.md R307).
The model's own: the turn of a later step (log 23). -/
def Obligations.PcAndModeChangeOnlyByTheirEvents : Prop :=
  ∀ s t : State,
    let trapped : Prop := s.disp = .idle ∧ t.disp = .decoding ∧
      (t.priv = .M ∧ t.pc = s.csr.mtvec ∧ t.csr.mepc = s.pc ∨
        t.priv = .S ∧ s.priv = .S ∧ t.pc = s.csr.stvec ∧ t.csr.sepc = s.pc)
    (∀ i, exec i s = .next t →
      (t.pc = s.pc ∧ t.priv = s.priv) ∨ trapped ∨
      (i ∈ [Instr.mret, .bootB6, .dispReturn] ∧ t.pc = s.csr.mepc) ∨
      (i ∈ [Instr.sret, .dispReturn] ∧ t.pc = s.csr.sepc ∧ t.priv = .S) ∨
      (i = .hartSetpc t.pc ∧ t.priv = s.priv) ∨ (i = .reset ∧ t.pc = s.cfg.resetEntry ∧ t.priv = .M)) ∧
    (hostNext s = .next t → (t.pc = s.pc ∧ t.priv = s.priv) ∨ trapped)

/-- Until reset the sticky flags stay set, the byte histories only grow and a finished bootstrap stays finished; the
parameters never change (10_state.md R50, R52, R53; 00_scope.md R5).
The model's own: reset empties the histories (log 16). -/
def Obligations.HistoriesOnlyGrow : Prop :=
  ∀ s t : State, turnStep s t →
    t.cfg = s.cfg ∧
    (t = s.afterReset ∨
      (s.boot = .done → t.boot = .done) ∧
      (s.flags.plicComplete = true → t.flags.plicComplete = true) ∧ (s.flags.uartTx = true → t.flags.uartTx = true) ∧
      (s.flags.uartRx = true → t.flags.uartRx = true) ∧ (s.flags.doubleTrap = true → t.flags.doubleTrap = true) ∧
      (∃ a, t.sinkLog = s.sinkLog ++ a) ∧ ∃ a, t.txLog = s.txLog ++ a)

/-- Every step keeps the registers legal: no CSR holds a bit outside its mask, MPP is never 0b10, the vectors, the saved
pcs and the pc stay aligned (10_state.md R22, R25 to R36). -/
def Obligations.EveryStepKeepsRegistersLegal : Prop :=
  ∀ s t : State, s.legalRegs = true → step s = .next t → t.legalRegs = true

/-- Every step keeps the devices' storage legal: entries only for existing sources, priorities and thresholds up to
`PRIO_MAX`, each UART queue within its capacity (10_state.md R39 to R43, R46).
The model's own: the PLIC's banks as tables and their one canonical form, a representation that no rule names (DESIGN
CHOICE, log 19). -/
def Obligations.EveryStepKeepsDeviceStorageLegal : Prop :=
  (∀ s t : State, Plic.legal s.cfg s.plic = true → step s = .next t → Plic.legal t.cfg t.plic = true) ∧
  (∀ s t : State, Uart.legal s.cfg s.uart = true → step s = .next t → Uart.legal t.cfg t.uart = true)

/-- Every step keeps the control state coherent: the bootstrap runs alone, trap context holds the registers trap entry
wrote and a return that can be made, and the claim in service is the FSM's own (10_state.md R49, R50; 45_trap_dispatch.md
R240, R249; 70_reset_and_hazards.md R321). -/
def Obligations.EveryStepKeepsControlCoherent : Prop :=
  ∀ s t : State, s.coherent → step s = .next t → t.coherent

/-- The state after reset, from the default parameters and from every state with legal ones, meets the three invariants
(10_state.md R56; the default parameters are log 7's choice). -/
def Obligations.ResetMeetsTheInvariants : Prop :=
  (State.reset.legalRegs = true ∧ Plic.legal State.reset.cfg State.reset.plic = true ∧
    Uart.legal State.reset.cfg State.reset.uart = true ∧ State.reset.coherent) ∧
  (∀ s : State, s.cfg.wf = true → Plic.legal s.cfg s.plic = true →
    s.afterReset.legalRegs = true ∧ Plic.legal s.afterReset.cfg s.afterReset.plic = true ∧
    Uart.legal s.afterReset.cfg s.afterReset.uart = true ∧ s.afterReset.coherent)

/-- From a coherent state the dispatch FSM never breaks a protocol rule: its steps set none of the flags for a wrong
completion, a full transmit register or an empty receive register; its return is never refused; and no instruction ever
meets the model's fault (45_trap_dispatch.md R246, R248 to R250; log 17). -/
def Obligations.CoherentDispatchBreaksNoProtocol : Prop :=
  ∀ s : State, s.coherent →
    (∀ i t, agentOf i = .disp → exec i s = .next t →
      t.flags.plicComplete = s.flags.plicComplete ∧ t.flags.uartTx = s.flags.uartTx ∧
      t.flags.uartRx = s.flags.uartRx) ∧
    (s.serving [.ret] = true → ∃ t, exec .dispReturn s = .next t ∧ t.disp = .idle) ∧
    (∀ (i : Instr) (f : Fault), exec i s ≠ .fault f)
end

