-- ==== Sys2Proof/Laws/Access.lean ====
section
/-! SUPPORT. The windows and the access checks: where the registers of the two devices lie under legal parameters, and
what `memRead` and `memWrite` come down to at a register the current mode may access. -/

namespace Sys2Proof.Machine

open Sys2Proof

/-- The parameter constraints of 00_scope.md R5 (and log 8), as the linear facts the proofs use. -/
theorem wf_facts {c : Config} (h : c.wf = true) :
    33 ≤ c.nsrc ∧ c.nsrc ≤ 8 * c.enableStride.toNat ∧
    c.priorityOffset.toNat + 4 * c.nsrc ≤ c.pendingOffset.toNat ∧
    8 * c.pendingOffset.toNat + c.nsrc ≤ 8 * c.enableOffset.toNat ∧
    c.enableOffset.toNat + 2 * c.enableStride.toNat ≤ c.thresholdOffset.toNat ∧
    c.claimOffset.toNat = c.thresholdOffset.toNat + 4 ∧
    c.thresholdStride = c.claimStride ∧ 8 ≤ c.claimStride.toNat ∧
    c.thresholdOffset.toNat + 2 * c.thresholdStride.toNat ≤ c.plicSize.toNat ∧
    c.plicBase.toNat + c.plicSize.toNat ≤ 2 ^ 32 ∧ c.uartBase.toNat + 8 ≤ 2 ^ 32 ∧
    (c.uartBase.toNat + 8 ≤ c.plicBase.toNat ∨ c.plicBase.toNat + c.plicSize.toNat ≤ c.uartBase.toNat) ∧
    c.priorityOffset.toNat % 4 = 0 ∧ c.pendingOffset.toNat % 4 = 0 ∧ c.enableOffset.toNat % 4 = 0 ∧
    c.enableStride.toNat % 4 = 0 ∧ c.thresholdOffset.toNat % 4 = 0 ∧ c.thresholdStride.toNat % 4 = 0 ∧
    c.plicBase.toNat % 4 = 0 ∧
    c.uartSourceId ∈ c.echoSources ∧ 1 ≤ c.uartSourceId ∧ c.uartSourceId < c.nsrc ∧ 1 ≤ c.uartFifoDepth ∧
    c.trapEntry.toNat % 4 = 0 ∧ c.resetEntry.toNat % 4 = 0 ∧ c.mainEntry.toNat % 4 = 0 ∧
    c.prioMax &&& (c.prioMax + 1) = 0 := by
  simp only [Config.wf, Bool.and_eq_true, decide_eq_true_eq] at h
  tauto

/-! ## The two windows -/

theorem windowOf_uart {c : Config} (h : c.wf = true) (o : Word) (ho : o.toNat < 8) :
    windowOf c (c.uartBase + o) .byte = some .uart := by
  have := wf_facts h
  have e : (c.uartBase + o).toNat = c.uartBase.toNat + o.toNat := by
    rw [BitVec.toNat_add, Nat.mod_eq_of_lt (by omega)]
  have b1 : Width.byte.bytes = 1 := rfl
  unfold windowOf
  rw [if_pos (by omega)]

theorem windowOf_plic {c : Config} (h : c.wf = true) (o : Word) (ho : o.toNat + 4 ≤ c.plicSize.toNat) :
    windowOf c (c.plicBase + o) .word = some .plic := by
  have := wf_facts h
  have e : (c.plicBase + o).toNat = c.plicBase.toNat + o.toNat := by
    rw [BitVec.toNat_add, Nat.mod_eq_of_lt (by omega)]
  have b4 : Width.word.bytes = 4 := rfl
  unfold windowOf
  rw [if_neg (by omega), if_pos (by omega)]

theorem add_sub_base (b o : Word) : b + o - b = o := by
  rw [BitVec.add_comm, BitVec.add_sub_cancel]

/-! ## The register map: each row's offset selects that row -/

/-- A row of the register map whose indexes exist. -/
def regExists (c : Config) : PlicReg → Prop
  | .priority s => s < c.nsrc
  | .pending w => w < c.numWords
  | .enable _ w => w < c.numWords
  | .threshold _ => True
  | .claim _ => True
  | .reserved => False

theorem fin2_cases (c : Fin 2) : c = 0 ∨ c = 1 := by
  rcases c with ⟨_ | _ | n, h⟩
  · exact .inl rfl
  · exact .inr rfl
  · omega

/-- The offset of a row, as a number. -/
theorem plicOffset_toNat {c : Config} (h : c.wf = true) (r : PlicReg) (hr : regExists c r) :
    (plicOffset c r).toNat =
      match r with
      | .priority s => c.priorityOffset.toNat + 4 * s
      | .pending w => c.pendingOffset.toNat + 4 * w
      | .enable x w => c.enableOffset.toNat + x.val * c.enableStride.toNat + 4 * w
      | .threshold x => c.thresholdOffset.toNat + x.val * c.thresholdStride.toNat
      | .claim x => c.claimOffset.toNat + x.val * c.claimStride.toNat
      | .reserved => 0 := by
  have hw := wf_facts h
  have hn : c.numWords = (c.nsrc + 31) / 32 := rfl
  have := c.plicSize.isLt
  have he : c.thresholdStride.toNat = c.claimStride.toNat := by rw [hw.2.2.2.2.2.2.1]
  cases r with
  | priority s =>
    simp only [regExists] at hr
    simp only [plicOffset, BitVec.toNat_add, BitVec.toNat_ofNat]; omega
  | pending w =>
    simp only [regExists] at hr
    simp only [plicOffset, BitVec.toNat_add, BitVec.toNat_ofNat]; omega
  | enable x w =>
    simp only [regExists] at hr
    rcases fin2_cases x with rfl | rfl <;>
      simp [plicOffset, ctxOffset, BitVec.toNat_add, BitVec.toNat_ofNat] <;> omega
  | threshold x =>
    rcases fin2_cases x with rfl | rfl
    · simp [plicOffset, ctxOffset]
    · simp [plicOffset, ctxOffset, BitVec.toNat_add]; omega
  | claim x =>
    rcases fin2_cases x with rfl | rfl
    · simp [plicOffset, ctxOffset]
    · simp [plicOffset, ctxOffset, BitVec.toNat_add]; omega
  | reserved => exact hr.elim

/-- A row's offset is aligned and inside the window. -/
theorem plicOffset_bounds {c : Config} (h : c.wf = true) (r : PlicReg) (hr : regExists c r) :
    (plicOffset c r).toNat % 4 = 0 ∧ (plicOffset c r).toNat + 4 ≤ c.plicSize.toNat := by
  have hw := wf_facts h
  have hn : c.numWords = (c.nsrc + 31) / 32 := rfl
  have he : c.thresholdStride.toNat = c.claimStride.toNat := by rw [hw.2.2.2.2.2.2.1]
  rw [plicOffset_toNat h r hr]
  cases r with
  | priority s => simp only [regExists] at hr; simp only; omega
  | pending w => simp only [regExists] at hr; simp only; omega
  | enable x w =>
    simp only [regExists] at hr
    rcases fin2_cases x with rfl | rfl <;> simp <;> omega
  | threshold x => rcases fin2_cases x with rfl | rfl <;> simp <;> omega
  | claim x => rcases fin2_cases x with rfl | rfl <;> simp <;> omega
  | reserved => exact hr.elim

/-- A row's offset selects that row: the map is unambiguous (42_plic.md R146). -/
theorem plicSelect_plicOffset {c : Config} (h : c.wf = true) (r : PlicReg) (hr : regExists c r) :
    plicSelect c (plicOffset c r).toNat = r := by
  have hw := wf_facts h
  have hn : c.numWords = (c.nsrc + 31) / 32 := rfl
  have he : c.thresholdStride.toNat = c.claimStride.toNat := by rw [hw.2.2.2.2.2.2.1]
  have hb := plicOffset_bounds h r hr
  rw [plicOffset_toNat h r hr] at hb ⊢
  cases r with
  | priority s =>
    simp only [regExists] at hr
    simp only at hb ⊢
    unfold plicSelect
    repeat rw [if_neg (by omega)]
    rw [if_pos (by omega)]
    congr 1; omega
  | pending w =>
    simp only [regExists] at hr
    simp only at hb ⊢
    unfold plicSelect
    repeat rw [if_neg (by omega)]
    rw [if_pos (by omega)]
    congr 1; omega
  | enable x w =>
    simp only [regExists] at hr
    rcases fin2_cases x with rfl | rfl <;> simp at hb ⊢ <;> unfold plicSelect <;>
      (repeat rw [if_neg (by omega)]) <;> rw [if_pos (by omega)] <;> congr 1 <;> omega
  | threshold x =>
    rcases fin2_cases x with rfl | rfl <;> simp at hb ⊢ <;> unfold plicSelect <;>
      (repeat rw [if_neg (by omega)]) <;> rw [if_pos (by omega)]
  | claim x =>
    rcases fin2_cases x with rfl | rfl <;> simp at hb ⊢ <;> unfold plicSelect <;>
      (repeat rw [if_neg (by omega)]) <;> rw [if_pos (by omega)]
  | reserved => exact hr.elim

/-- A row the map selects has existing indexes, and its offset is the one selected. -/
theorem plicSelect_exists {c : Config} (h : c.wf = true) (o : Nat) (ho : o < 2 ^ 32)
    (hne : plicSelect c o ≠ .reserved) :
    regExists c (plicSelect c o) ∧ (plicOffset c (plicSelect c o)).toNat = o := by
  have hw := wf_facts h
  have hn : c.numWords = (c.nsrc + 31) / 32 := rfl
  have he : c.thresholdStride.toNat = c.claimStride.toNat := by rw [hw.2.2.2.2.2.2.1]
  have key : ∀ r, plicSelect c o = r → regExists c r →
      (plicOffset c r).toNat = o → regExists c (plicSelect c o) ∧ (plicOffset c (plicSelect c o)).toNat = o := by
    rintro r rfl h1 h2
    exact ⟨h1, h2⟩
  generalize hr : plicSelect c o = r at *
  unfold plicSelect at hr
  split at hr
  · exact absurd hr.symm hne
  split at hr
  · subst hr
    have hex : regExists c (.priority ((o - c.priorityOffset.toNat) / 4)) := by simp only [regExists]; omega
    refine ⟨hex, ?_⟩
    rw [plicOffset_toNat h _ hex]; simp only; omega
  split at hr
  · subst hr
    have hex : regExists c (.pending ((o - c.pendingOffset.toNat) / 4)) := by simp only [regExists]; omega
    refine ⟨hex, ?_⟩
    rw [plicOffset_toNat h _ hex]; simp only; omega
  split at hr
  · subst hr
    have hex : regExists c (.enable 0 ((o - c.enableOffset.toNat) / 4)) := by simp only [regExists]; omega
    refine ⟨hex, ?_⟩
    rw [plicOffset_toNat h _ hex]; simp; omega
  split at hr
  · subst hr
    have hex : regExists c (.enable 1 ((o - (c.enableOffset.toNat + c.enableStride.toNat)) / 4)) := by
      simp only [regExists]; omega
    refine ⟨hex, ?_⟩
    rw [plicOffset_toNat h _ hex]; simp; omega
  split at hr
  · subst hr
    have hex : regExists c (.threshold 0) := trivial
    refine ⟨hex, ?_⟩
    rw [plicOffset_toNat h _ hex]; simp; omega
  split at hr
  · subst hr
    have hex : regExists c (.threshold 1) := trivial
    refine ⟨hex, ?_⟩
    rw [plicOffset_toNat h _ hex]; simp; omega
  split at hr
  · subst hr
    have hex : regExists c (.claim 0) := trivial
    refine ⟨hex, ?_⟩
    rw [plicOffset_toNat h _ hex]; simp; omega
  split at hr
  · subst hr
    have hex : regExists c (.claim 1) := trivial
    refine ⟨hex, ?_⟩
    rw [plicOffset_toNat h _ hex]; simp; omega
  · exact absurd hr.symm hne

/-! ## The checks, for an access the current mode may make -/

theorem accessGate_of_mayAccess (s : State) (addr : Word) (n : Width) (k : AccKind) (w : Window)
    (hw : windowOf s.cfg addr n = some w) (hm : s.mayAccess addr n k = true) :
    accessGate s addr n k = if shapeOk w addr n then .pass w else .fault := by
  unfold accessGate
  rw [hw]
  simp only [State.mayAccess, Bool.or_eq_true, decide_eq_true_eq, Bool.and_eq_true, Bool.not_eq_true'] at hm
  rcases hm with hp | ⟨h31, ha⟩
  · have ha : pmpAllows s.csr s.priv addr n k = .allow := by simp [pmpAllows, hp]
    rw [ha]
    simp [hp]
  · rw [ha, h31]
    simp

/-- A UART register is accessed with one byte. -/
theorem accessGate_uartReg (s : State) (o : Word) (k : AccKind) (hc : s.cfg.wf = true) (ho : o.toNat < 8)
    (hm : s.mayAccess (uartReg s o) .byte k = true) : accessGate s (uartReg s o) .byte k = .pass .uart := by
  rw [accessGate_of_mayAccess s (uartReg s o) _ _ .uart (windowOf_uart hc o ho) hm]
  rfl

/-- A PLIC register is accessed with an aligned word. -/
theorem accessGate_plicReg (s : State) (o : Word) (k : AccKind) (hc : s.cfg.wf = true)
    (ho : o.toNat + 4 ≤ s.cfg.plicSize.toNat) (ha : o.toNat % 4 = 0)
    (hm : s.mayAccess (plicReg s o) .word k = true) : accessGate s (plicReg s o) .word k = .pass .plic := by
  rw [accessGate_of_mayAccess s (plicReg s o) _ _ .plic (windowOf_plic hc o ho) hm]
  have hw := wf_facts hc
  have e : (s.cfg.plicBase + o).toNat = s.cfg.plicBase.toNat + o.toNat := by
    rw [BitVec.toNat_add, Nat.mod_eq_of_lt (by omega)]
  have : shapeOk .plic (plicReg s o) .word = true := by
    simp [shapeOk, plicReg]
    omega
  simp [this]

theorem uartLoad_eq (s : State) (o : Word) (hc : s.cfg.wf = true) (ho : o.toNat < 8)
    (hm : s.mayAccess (uartReg s o) .byte .read = true) :
    uartLoad s o = (uartRegRead s (o.setWidth 3)).andThen fun b t => .ok (b.setWidth 32) t := by
  unfold uartLoad memRead
  rw [accessGate_uartReg s o .read hc ho hm]
  simp only [uartReg, add_sub_base]

theorem uartStore_eq (s : State) (o : Word) (v : Byte) (hc : s.cfg.wf = true) (ho : o.toNat < 8)
    (hm : s.mayAccess (uartReg s o) .byte .write = true) :
    uartStore s o v = uartRegWrite s (o.setWidth 3) v := by
  unfold uartStore memWrite
  rw [accessGate_uartReg s o .write hc ho hm]
  simp only [uartReg, add_sub_base]
  congr 1
  rw [BitVec.setWidth_setWidth_of_le _ (by decide), BitVec.setWidth_eq]

theorem memRead_plicReg (s : State) (o : Word) (hc : s.cfg.wf = true)
    (ho : o.toNat + 4 ≤ s.cfg.plicSize.toNat) (ha : o.toNat % 4 = 0)
    (hm : s.mayAccess (plicReg s o) .word .read = true) :
    memRead s (plicReg s o) .word = plicRegRead s o.toNat := by
  unfold memRead
  rw [accessGate_plicReg s o .read hc ho ha hm]
  simp only [plicReg, add_sub_base]

theorem memWrite_plicReg (s : State) (o v : Word) (hc : s.cfg.wf = true)
    (ho : o.toNat + 4 ≤ s.cfg.plicSize.toNat) (ha : o.toNat % 4 = 0)
    (hm : s.mayAccess (plicReg s o) .word .write = true) :
    memWrite s (plicReg s o) .word v = plicRegWrite s o.toNat v := by
  unfold memWrite
  rw [accessGate_plicReg s o .write hc ho ha hm]
  simp only [plicReg, add_sub_base]

/-! ## The address functions at the block's own base -/

theorem priorityAddress_eq (c : Config) (src : Nat) :
    priorityAddress c c.plicBase (BitVec.ofNat 32 src) = c.plicBase + plicOffset c (.priority src) := by
  simp only [priorityAddress, plicOffset, BitVec.add_assoc]
  congr 2
  apply BitVec.eq_of_toNat_eq
  simp [BitVec.toNat_mul]
  ring_nf

theorem claimAddress_eq (c : Config) (x : Fin 2) :
    claimAddress c c.plicBase (BitVec.ofNat 32 x.val) = c.plicBase + plicOffset c (.claim x) := by
  rcases fin2_cases x with rfl | rfl <;> simp [claimAddress, plicOffset, ctxOffset, BitVec.add_assoc]

theorem thresholdAddress_eq (c : Config) (x : Fin 2) :
    thresholdAddress c c.plicBase (BitVec.ofNat 32 x.val) = c.plicBase + plicOffset c (.threshold x) := by
  rcases fin2_cases x with rfl | rfl <;> simp [thresholdAddress, plicOffset, ctxOffset, BitVec.add_assoc]

theorem enableAddress_eq (c : Config) (x : Fin 2) (src : Nat) (hs : src < 2 ^ 32) :
    enableAddress c c.plicBase (BitVec.ofNat 32 x.val) (BitVec.ofNat 32 src) =
      c.plicBase + plicOffset c (.enable x (src / 32)) := by
  have h : (BitVec.ofNat 32 src >>> 5) * 4 = BitVec.ofNat 32 (4 * (src / 32)) := by
    apply BitVec.eq_of_toNat_eq
    simp [BitVec.toNat_mul, Nat.shiftRight_eq_div_pow]
    omega
  simp only [enableAddress, h]
  rcases fin2_cases x with rfl | rfl <;> simp [plicOffset, ctxOffset, BitVec.add_assoc]

/-! ## A register the current mode may access, by its row -/

theorem nsrc_lt {c : Config} (h : c.wf = true) : c.nsrc < 2 ^ 32 := by
  have := wf_facts h
  have := c.plicSize.isLt
  omega

/-- What a read of a row's register answers (42_plic.md R146). -/
def rowRead (s : State) : PlicReg → Res Word
  | .priority src => .ok (if src = 0 then 0 else s.plic.prio src) s
  | .pending w => .ok (pendingWord s w) s
  | .enable c w => .ok (s.plic.enableWord c w &&& sourceMask s.cfg w) s
  | .threshold c => .ok (s.plic.thresh c) s
  | .claim c => .ok (claim s c).1 (claim s c).2
  | .reserved => .refuse .plicReservedOffset

/-- What a write of a row's register does (42_plic.md R146). -/
def rowWrite (s : State) (v : Word) : PlicReg → Res Unit
  | .priority src => .ok () (if src = 0 then s else s.setPlic (s.plic.setPrio src (v &&& s.cfg.prioMax)))
  | .pending _ => .ok () s
  | .enable c w => .ok () (s.setPlic (s.plic.setEnableWord c w (v &&& sourceMask s.cfg w)))
  | .threshold c => .ok () (s.setPlic (s.plic.setThresh c (v &&& s.cfg.prioMax)))
  | .claim c => .ok () (completion s c v)
  | .reserved => .refuse .plicReservedOffset

theorem plicRegRead_eq (s : State) (o : Nat) : plicRegRead s o = rowRead s (plicSelect s.cfg o) := by
  unfold plicRegRead rowRead
  cases plicSelect s.cfg o <;> rfl

theorem plicRegWrite_eq (s : State) (o : Nat) (v : Word) :
    plicRegWrite s o v = rowWrite s v (plicSelect s.cfg o) := by
  unfold plicRegWrite rowWrite
  cases plicSelect s.cfg o <;> rfl

theorem memRead_row (s : State) (hc : s.cfg.wf = true) (r : PlicReg) (hr : regExists s.cfg r)
    (hm : s.mayAccess (plicReg s (plicOffset s.cfg r)) .word .read = true) :
    memRead s (plicReg s (plicOffset s.cfg r)) .word = rowRead s r := by
  have hb := plicOffset_bounds hc r hr
  rw [memRead_plicReg s _ hc hb.2 hb.1 hm, plicRegRead_eq, plicSelect_plicOffset hc r hr]

theorem memWrite_row (s : State) (v : Word) (hc : s.cfg.wf = true) (r : PlicReg) (hr : regExists s.cfg r)
    (hm : s.mayAccess (plicReg s (plicOffset s.cfg r)) .word .write = true) :
    memWrite s (plicReg s (plicOffset s.cfg r)) .word v = rowWrite s v r := by
  have hb := plicOffset_bounds hc r hr
  rw [memWrite_plicReg s _ v hc hb.2 hb.1 hm, plicRegWrite_eq, plicSelect_plicOffset hc r hr]

/-- The claim word's address, as the dispatch FSM and the commands compute it. -/
theorem claim_reg (s : State) (c : Fin 2) :
    s.cfg.plicBase + s.cfg.claimOffset + BitVec.ofNat 32 c.val * s.cfg.claimStride =
      plicReg s (plicOffset s.cfg (.claim c)) := claimAddress_eq s.cfg c

theorem threshold_reg (s : State) (c : Fin 2) :
    s.cfg.plicBase + s.cfg.thresholdOffset + BitVec.ofNat 32 c.val * s.cfg.thresholdStride =
      plicReg s (plicOffset s.cfg (.threshold c)) := thresholdAddress_eq s.cfg c

theorem priority_reg (s : State) (src : Nat) :
    s.cfg.plicBase + s.cfg.priorityOffset + BitVec.ofNat 32 (4 * src) =
      plicReg s (plicOffset s.cfg (.priority src)) := by
  simp only [plicReg, plicOffset, BitVec.add_assoc]

theorem pending_reg (s : State) (w : Nat) :
    s.cfg.plicBase + s.cfg.pendingOffset + BitVec.ofNat 32 (4 * w) =
      plicReg s (plicOffset s.cfg (.pending w)) := by
  simp only [plicReg, plicOffset, BitVec.add_assoc]

theorem enable_reg (s : State) (c : Fin 2) (w : Nat) :
    s.cfg.plicBase + (s.cfg.enableOffset + BitVec.ofNat 32 c.val * s.cfg.enableStride) + BitVec.ofNat 32 (4 * w) =
      plicReg s (plicOffset s.cfg (.enable c w)) := by
  rcases fin2_cases c with rfl | rfl <;> simp [plicReg, plicOffset, ctxOffset, BitVec.add_assoc]

/-- A gate that passes is a permitted access. -/
theorem gate_pass {s : State} {a : Word} {n : Width} {k : AccKind} {w : Window} (h : accessGate s a n k = .pass w) :
    s.mayAccess a n k = true := by
  unfold accessGate at h
  unfold State.mayAccess
  cases hw : windowOf s.cfg a n with
  | none => rw [hw] at h; cases h
  | some w' =>
    rw [hw] at h
    simp only at h
    split at h
    · cases h
    · next hn =>
      cases hp : pmpAllows s.csr s.priv a n k with
      | reserved => rw [hp] at h; cases h
      | deny => rw [hp] at h; cases h
      | allow =>
        cases hv : s.priv with
        | M => simp
        | S =>
          rw [hv] at hn
          simp only [true_and, Bool.not_eq_true] at hn
          rw [hv] at hp
          rw [hn]
          rfl

/-- A read that answers was permitted. -/
theorem memRead_mayAccess {s u : State} {a : Word} {n : Width} {x : Word} (h : memRead s a n = .ok x u) :
    s.mayAccess a n .read = true := by
  unfold memRead at h
  split at h
  · cases h
  · cases h
  · next hg => exact gate_pass hg
  · next hg => exact gate_pass hg

/-- A write that answers was permitted. -/
theorem memWrite_mayAccess {s u : State} {a : Word} {n : Width} {v : Word} (h : memWrite s a n v = .ok () u) :
    s.mayAccess a n .write = true := by
  unfold memWrite at h
  split at h
  · cases h
  · cases h
  · next hg => exact gate_pass hg
  · next hg => exact gate_pass hg

end Sys2Proof.Machine
end

