-- ==== Sys2Proof/Laws/Bits.lean ====
section
/-! SUPPORT. The bits of the words the model builds: one lemma per operation that says every bit of its result. -/

namespace Sys2Proof.Machine

open Sys2Proof

theorem getLsbD_setBit (w : Word) (i : Nat) (b : Bool) (j : Nat) (hj : j < 32) :
    (setBit w i b).getLsbD j = if j = i then b else w.getLsbD j := by
  have h1 : (1#32 <<< i).getLsbD j = decide (j = i) := by
    simp only [BitVec.getLsbD_shiftLeft, BitVec.getLsbD_one, hj, decide_true, Bool.true_and]
    grind
  cases b <;>
    simp only [setBit, if_true, if_false, Bool.false_eq_true, BitVec.getLsbD_or, BitVec.getLsbD_and,
      BitVec.getLsbD_not, h1, hj, decide_true, Bool.true_and] <;>
    by_cases h : j = i <;> simp [h]

theorem getLsbD_maskWrite (old m v : Word) (j : Nat) (hj : j < 32) :
    (maskWrite old m v).getLsbD j = if m.getLsbD j then v.getLsbD j else old.getLsbD j := by
  simp only [maskWrite, BitVec.getLsbD_or, BitVec.getLsbD_and, BitVec.getLsbD_not, hj, decide_true, Bool.true_and]
  cases m.getLsbD j <;> simp

theorem getLsbD_setMpp (w : Word) (v : BitVec 2) (j : Nat) (hj : j < 32) :
    (setMpp w v).getLsbD j = if j = 11 ∨ j = 12 then v.getLsbD (j - 11) else w.getLsbD j := by
  have h1 : (0x1800#32).getLsbD j = decide (j = 11 ∨ j = 12) := by
    interval_cases j <;> rfl
  simp only [setMpp, BitVec.getLsbD_or, BitVec.getLsbD_and, BitVec.getLsbD_not, hj, h1, decide_true, Bool.true_and,
    BitVec.getLsbD_shiftLeft, BitVec.getLsbD_setWidth]
  by_cases h : j = 11 ∨ j = 12
  · rcases h with rfl | rfl <;> simp
  · simp only [h, decide_false, Bool.not_false, Bool.and_true, if_false]
    by_cases h2 : j < 11
    · simp [h2]
    · have : v.getLsbD (j - 11) = false := BitVec.getLsbD_of_ge _ _ (by omega)
      simp [this]

theorem getLsbD_mppField (w : Word) (j : Nat) (hj : j < 2) : (mppField w).getLsbD j = w.getLsbD (11 + j) := by
  simp [mppField, hj]

@[simp] theorem mppField_setMpp (w : Word) (v : BitVec 2) : mppField (setMpp w v) = v := by
  apply BitVec.eq_of_getLsbD_eq
  intro j hj
  rw [getLsbD_mppField _ _ hj, getLsbD_setMpp _ _ _ (by omega)]
  rw [if_pos (by omega), Nat.add_sub_cancel_left]

theorem mppField_setBit (w : Word) (i : Nat) (b : Bool) (h : i ≠ 11) (h' : i ≠ 12) :
    mppField (setBit w i b) = mppField w := by
  apply BitVec.eq_of_getLsbD_eq
  intro j hj
  rw [getLsbD_mppField _ _ hj, getLsbD_mppField _ _ hj, getLsbD_setBit _ _ _ _ (by omega)]
  have : 11 + j ≠ i := by omega
  simp [this]

/-- Two words are equal if their 32 bits are. -/
theorem word_ext (a b : Word) (h : ∀ j, j < 32 → a.getLsbD j = b.getLsbD j) : a = b :=
  BitVec.eq_of_getLsbD_eq h

theorem getLsbD_wordOf (f : Nat → Bool) (j : Nat) (hj : j < 32) : (wordOf f).getLsbD j = f j := by
  have key : ∀ (l : List Nat) (acc : Word), (∀ b ∈ l, b < 32) →
      (l.foldl (fun acc b => if f b then acc ||| (1#32 <<< b) else acc) acc).getLsbD j =
        (acc.getLsbD j || (decide (j ∈ l) && f j)) := by
    intro l
    induction l with
    | nil => simp
    | cons b t ih =>
      intro acc hl
      have hb : b < 32 := hl b (by simp)
      rw [List.foldl_cons, ih _ (fun x hx => hl x (by simp [hx]))]
      have h1 : (1#32 <<< b).getLsbD j = decide (j = b) := by
        simp only [BitVec.getLsbD_shiftLeft, BitVec.getLsbD_one, hj, decide_true, Bool.true_and]
        grind
      by_cases hf : f b
      · by_cases hjb : j = b
        · subst hjb; simp [hf, h1]
        · simp [hf, h1, hjb]
      · by_cases hjb : j = b
        · subst hjb; simp [hf]
        · simp [hf, hjb]
  have := key (List.range 32) 0 (by simp)
  simpa [wordOf, hj] using this

/-- `setBit` writes one bit and keeps the others. -/
theorem setBit_self (w : Word) (i : Nat) (b : Bool) (hi : i < 32) : (setBit w i b).getLsbD i = b := by
  simp [getLsbD_setBit _ _ _ _ hi]

@[simp] theorem decodeCause_encodeCause (tc : TrapCause) : decodeCause (encodeCause tc) = tc := by
  obtain ⟨code, i⟩ := tc
  have h1 : (encodeCause ⟨code, i⟩).setWidth 31 = code := by
    apply BitVec.eq_of_getLsbD_eq
    intro j hj
    simp only [encodeCause, flag, BitVec.getLsbD_setWidth, hj, decide_true, Bool.true_and, BitVec.getLsbD_or,
      BitVec.getLsbD_shiftLeft]
    have : j < 32 := by omega
    simp [this, hj]
  have h2 : (encodeCause ⟨code, i⟩).getLsbD 31 = i := by
    simp [encodeCause, flag]
  simp only [decodeCause, h1, h2]

theorem encodeCause_decodeCause (w : Word) : encodeCause (decodeCause w) = w := by
  apply word_ext
  intro j hj
  simp only [encodeCause, decodeCause, flag, BitVec.getLsbD_or, BitVec.getLsbD_shiftLeft, BitVec.getLsbD_setWidth, hj,
    decide_true, Bool.true_and]
  by_cases h : j < 31
  · simp [h]
  · obtain rfl : j = 31 := by omega
    simp

theorem and_not_eq_zero_iff (w m : Word) :
    w &&& ~~~m = 0 ↔ ∀ j, j < 32 → w.getLsbD j = true → m.getLsbD j = true := by
  constructor
  · intro h j hj hw
    have := congrArg (fun x => x.getLsbD j) h
    simp [hj, hw] at this
    exact this
  · intro h
    apply word_ext
    intro j hj
    have := h j hj
    cases hw : w.getLsbD j <;> simp_all

/-- `w` holds no bit outside `m`, bit by bit. -/
theorem maskWrite_within (old m v k : Word) (h : old &&& ~~~k = 0) (hm : m &&& ~~~k = 0) :
    maskWrite old m v &&& ~~~k = 0 := by
  rw [and_not_eq_zero_iff] at *
  intro j hj hw
  rw [getLsbD_maskWrite _ _ _ _ hj] at hw
  by_cases hmj : m.getLsbD j
  · exact hm j hj hmj
  · simp [hmj] at hw
    exact h j hj hw

end Sys2Proof.Machine
end

