-- ==== Sys2Proof/Laws/Ops.lean ====
section
/-! SUPPORT. The shared operations of Machine/Ops.lean and Machine/CsrFile.lean: one lemma each that says what the
operation can do, for a proof to cite instead of unfolding it. -/

namespace Sys2Proof.Machine

open Sys2Proof

/-! ## The frames of a step -/

theorem hostReady_iff (s : State) : hostReady s = true ↔ s.boot = .done ∧ s.disp = .idle ∧ s.hseq = none := by
  simp [hostReady, and_assoc]

/-- A command HOST may issue performs its body. -/
theorem hostCommand_ready {s : State} (h : hostReady s = true) (body : State → Res Answer) :
    hostCommand s body = hostFinish s (body s) := by
  simp [hostCommand, h]

/-- A command HOST may not issue changes nothing (46_host_port.md R260, log 3). -/
theorem hostCommand_blocked {s : State} (h : hostReady s = false) (body : State → Res Answer) :
    hostCommand s body = .next s := by
  simp [hostCommand, h]

/-- Two commands with the same body on the state do the same. -/
theorem hostCommand_congr (s : State) {body body' : State → Res Answer} (h : body s = body' s) :
    hostCommand s body = hostCommand s body' := by
  simp [hostCommand, h]

@[simp] theorem hostFinish_ok (s t : State) (a : Answer) : hostFinish s (.ok a t) = .next (t.answer a.1 a.2) := rfl
@[simp] theorem hostFinish_raise (s : State) (e : BitVec 31) : hostFinish s (.raise e) = raiseException s e := rfl
@[simp] theorem hostFinish_refuse (s : State) (r : Refusal) : hostFinish s (.refuse r) = .refused r := rfl

@[simp] theorem andThen_ok {α β : Type} (a : α) (s : State) (f : α → State → Res β) :
    (Res.ok a s).andThen f = f a s := rfl
@[simp] theorem andThen_raise {α β : Type} (e : BitVec 31) (f : α → State → Res β) :
    (Res.raise e).andThen f = .raise e := rfl
@[simp] theorem andThen_refuse {α β : Type} (r : Refusal) (f : α → State → Res β) :
    (Res.refuse r).andThen f = .refuse r := rfl

/-- Where a sequence of two bodies succeeds, both did. -/
theorem andThen_eq_ok {α β : Type} {r : Res α} {f : α → State → Res β} {b : β} {t : State}
    (h : r.andThen f = .ok b t) : ∃ a u, r = .ok a u ∧ f a u = .ok b t := by
  cases r with
  | ok a u => exact ⟨a, u, rfl, h⟩
  | raise e => cases h
  | refuse x => cases h

/-- What a host command can lead to. -/
theorem hostCommand_cases {s t : State} {body : State → Res Answer} (h : hostCommand s body = .next t) :
    t = s ∨ (hostReady s = true ∧ ∃ a u, body s = .ok a u ∧ t = u.answer a.1 a.2) ∨
      (hostReady s = true ∧ ∃ e, body s = .raise e ∧ raiseException s e = .next t) := by
  by_cases hr : hostReady s = true
  · rw [hostCommand_ready hr] at h
    cases hb : body s with
    | ok a u => rw [hb] at h; right; left; refine ⟨hr, a, u, rfl, ?_⟩; simpa using h.symm
    | raise e => rw [hb] at h; right; right; exact ⟨hr, e, rfl, h⟩
    | refuse r => rw [hb] at h; cases h
  · rw [hostCommand_blocked (by simpa using hr)] at h
    left; simpa using h.symm

/-- What a BOOT step whose body neither raises nor refuses does. -/
theorem bootStep_eq {s : State} {label next : Boot} {body : State → Res Unit} {t : State} (h : s.boot = label)
    (hd : s.disp = .idle) (hb : body s = .ok () t) : bootStep s label next body = .next (t.setBoot next) := by
  simp [bootStep, h, hd, hb]

/-- A BOOT step outside its guard changes nothing. -/
theorem bootStep_blocked {s : State} {label next : Boot} {body : State → Res Unit}
    (h : s.boot ≠ label ∨ s.disp ≠ .idle) : bootStep s label next body = .next s := by
  unfold bootStep
  rw [if_neg (by tauto)]

/-- What a dispatch step can lead to. -/
theorem dispStep_cases {s t : State} {guard : Bool} {body : State → Res Unit} (h : dispStep s guard body = .next t) :
    (guard = false ∧ t = s) ∨ (guard = true ∧ body s = .ok () t) ∨
      (guard = true ∧ t = doubleTrap s ∧ ∃ e, body s = .raise e) := by
  unfold dispStep at h
  cases guard with
  | false => left; simpa using h.symm
  | true =>
    cases hb : body s with
    | ok a u => right; left; simpa [hb] using h
    | raise e => right; right; exact ⟨rfl, by simpa [hb] using h.symm, e, rfl⟩
    | refuse r => simp [hb] at h

@[simp] theorem dispStep_blocked (s : State) (body : State → Res Unit) : dispStep s false body = .next s := rfl

/-- The sequence step of HOST is its body, in normal context. -/
theorem inService_iff (s : State) (l : Ih) : inService s l = true ↔ s.disp = .interruptHandling ∧ s.dregs.ih = l := by
  simp [inService]

/-! ## Taking a trap and returning from one -/

/-- TAKING A TRAP, in one lemma: what `TrapEnter` leads to, if anything (60_exceptions.md R294). -/
theorem trapEnter_cases {s t : State} {isInt : Bool} {code : BitVec 31} (h : trapEnter s isInt code = .next t) :
    (trapDest s isInt code = .M ∧ s.csr.mtvec = s.cfg.trapEntry ∧ t = { s with
      pc := s.csr.mtvec, priv := .M, disp := .decoding,
      csr := { s.csr with
        mepc := s.pc, mcause := encodeCause ⟨code, isInt⟩, mstatus := mstatusTrapM s.csr.mstatus s.priv },
      dregs := { s.dregs with trapMode := .M, tc := ⟨code, isInt⟩ } }) ∨
    (trapDest s isInt code = .S ∧ s.csr.stvec = s.cfg.trapEntry ∧ t = { s with
      pc := s.csr.stvec, priv := .S, disp := .decoding,
      csr := { s.csr with
        sepc := s.pc, scause := encodeCause ⟨code, isInt⟩, mstatus := mstatusTrapS s.csr.mstatus },
      dregs := { s.dregs with trapMode := .S, tc := ⟨code, isInt⟩ } }) := by
  unfold trapEnter at h
  cases hd : trapDest s isInt code with
  | M =>
    simp only [hd, trapSave] at h
    split at h
    · next hv => left; refine ⟨rfl, hv, ?_⟩; simpa [trapDecode] using h.symm
    · cases h
  | S =>
    simp only [hd, trapSave] at h
    split at h
    · next hv => right; refine ⟨rfl, hv, ?_⟩; simpa [trapDecode] using h.symm
    · cases h

/-- A trap never ends in a fault. -/
theorem trapEnter_no_fault (s : State) (isInt : Bool) (code : BitVec 31) (f : Fault) :
    trapEnter s isInt code ≠ .fault f := by
  unfold trapEnter
  simp only
  split <;> simp

/-- Every bit of `mstatus` after a trap into M (60_exceptions.md R294). -/
theorem getLsbD_mstatusTrapM (w : Word) (p : Priv) (j : Nat) (hj : j < 32) :
    (mstatusTrapM w p).getLsbD j =
      if j = 7 then w.getLsbD 3 else if j = 3 then false else if j = 11 then true
      else if j = 12 then decide (p = .M) else w.getLsbD j := by
  unfold mstatusTrapM mieBit
  rw [getLsbD_setMpp _ _ _ hj, getLsbD_setBit _ _ _ _ hj, getLsbD_setBit _ _ _ _ hj]
  by_cases h11 : j = 11
  · subst h11; cases p <;> simp [Priv.code]
  by_cases h12 : j = 12
  · subst h12; cases p <;> simp [Priv.code]
  by_cases h7 : j = 7
  · subst h7; simp
  · simp [h11, h12, h7]

/-- Every bit of `mstatus` after a trap into S (60_exceptions.md R294). -/
theorem getLsbD_mstatusTrapS (w : Word) (j : Nat) (hj : j < 32) :
    (mstatusTrapS w).getLsbD j =
      if j = 5 then w.getLsbD 1 else if j = 1 then false else if j = 8 then true else w.getLsbD j := by
  unfold mstatusTrapS sieBit
  rw [getLsbD_setBit _ _ _ _ hj, getLsbD_setBit _ _ _ _ hj, getLsbD_setBit _ _ _ _ hj]
  by_cases h5 : j = 5
  · subst h5; simp
  by_cases h1 : j = 1
  · subst h1; simp
  · simp [h5, h1]

/-- Every bit of `mstatus` after a return from M (60_exceptions.md R299). -/
theorem getLsbD_mstatusMret (w : Word) (j : Nat) (hj : j < 32) :
    (mstatusMret w).getLsbD j =
      if j = 3 then w.getLsbD 7 else if j = 7 then true else if j = 11 ∨ j = 12 then false else w.getLsbD j := by
  unfold mstatusMret mpieBit
  rw [getLsbD_setMpp _ _ _ hj, getLsbD_setBit _ _ _ _ hj, getLsbD_setBit _ _ _ _ hj]
  by_cases h11 : j = 11
  · subst h11; simp
  by_cases h12 : j = 12
  · subst h12; simp
  by_cases h3 : j = 3
  · subst h3; simp
  · simp [h11, h12, h3]

/-- Every bit of `mstatus` after a return from S (60_exceptions.md R300). -/
theorem getLsbD_mstatusSret (w : Word) (j : Nat) (hj : j < 32) :
    (mstatusSret w).getLsbD j =
      if j = 1 then w.getLsbD 5 else if j = 5 then true else if j = 8 then false else w.getLsbD j := by
  unfold mstatusSret spieBit
  rw [getLsbD_setBit _ _ _ _ hj, getLsbD_setBit _ _ _ _ hj, getLsbD_setBit _ _ _ _ hj]
  by_cases h1 : j = 1
  · subst h1; simp
  by_cases h8 : j = 8
  · subst h8; simp
  · simp [h8, h1]

/-- RETURNING FROM A TRAP IN M, in one lemma (60_exceptions.md R299). -/
theorem mretEffects_cases {s t : State} (h : mretEffects s = .ok () t) :
    mppField s.csr.mstatus ≠ 0b00 ∧ t = { s with
      priv := mretPriv s.csr.mstatus, csr := { s.csr with mstatus := mstatusMret s.csr.mstatus }, pc := s.csr.mepc } := by
  unfold mretEffects at h
  split at h
  · cases h
  · next hm => exact ⟨hm, by simpa using h.symm⟩

/-- RETURNING FROM A TRAP IN S, in one lemma (60_exceptions.md R300). -/
theorem sretEffects_cases {s t : State} (h : sretEffects s = .ok () t) :
    sppBit s.csr.mstatus = true ∧ t = { s with
      priv := .S, csr := { s.csr with mstatus := mstatusSret s.csr.mstatus }, pc := s.csr.sepc } := by
  unfold sretEffects at h
  split at h
  · cases h
  · next hm => exact ⟨by simpa using hm, by simpa using h.symm⟩

/-- HART.EXCEPTION 2 is what an illegal command does. -/
theorem execHartException_two (s : State) :
    execHartException 2 s = hostCommand s fun _ => .raise excIllegal := by
  simp [execHartException, excIllegal]

/-! ## The CSR file -/

/-- The writable mask of the saved program counters (10_state.md R33). -/
theorem epcMask_eq (c : Config) : epcMask c = if c.ialign = .bits32 then 0xFFFFFFFC else 0xFFFFFFFE := by
  unfold epcMask; cases c.ialign <;> rfl

/-- A write of `mstatus` is a write through a mask that leaves MPP out where 0b10 is written (10_state.md R25). -/
theorem mstatusWrite_eq (old v : Word) :
    mstatusWrite old v = maskWrite old (if mppField v = 0b10 then 0x01AA else 0x19AA) v := by
  unfold mstatusWrite
  by_cases hm : mppField v = 0b10
  · simp only
    rw [if_pos hm, if_pos hm]
    apply word_ext
    intro j hj
    rw [getLsbD_setMpp _ _ _ hj, getLsbD_maskWrite _ _ _ _ hj, getLsbD_maskWrite _ _ _ _ hj]
    by_cases h : j = 11 ∨ j = 12
    · rcases h with rfl | rfl <;> simp [mppField]
    · simp only [h, if_false]
      have : (0x19AA#32).getLsbD j = (0x01AA#32).getLsbD j := by interval_cases j <;> simp_all
      rw [show (6570 : Word) = 0x19AA#32 from rfl, show (426 : Word) = 0x01AA#32 from rfl, this]
  · simp only
    rw [if_neg hm, if_neg hm]

/-- A CSR access that the check permits answers, and changes at most the CSR file. -/
theorem csrAccess_cases {s t : State} {id : BitVec 12} {a : CsrAccess} {r : Answer}
    (h : csrAccess id a s = .ok r t) : t = s ∨ ∃ n v, t = csrWriteState s n v := by
  unfold csrAccess at h
  cases a <;> simp only at h <;> split at h <;> cases h
  · exact .inl rfl
  · exact .inr ⟨_, _, rfl⟩
  · exact .inr ⟨_, _, rfl⟩
  · exact .inr ⟨_, _, rfl⟩

/-- A CSR access raises no exception but the illegal instruction. -/
theorem csrAccess_raise {s : State} {id : BitVec 12} {a : CsrAccess} {e : BitVec 31}
    (h : csrAccess id a s = .raise e) : e = excIllegal := by
  unfold csrAccess at h
  cases a <;> simp only at h <;> split at h <;> cases h <;> rfl

/-- A CSR access never refuses. -/
theorem csrAccess_no_refuse (s : State) (id : BitVec 12) (a : CsrAccess) (r : Refusal) :
    csrAccess id a s ≠ .refuse r := by
  unfold csrAccess
  cases a <;> simp only <;> split <;> simp

end Sys2Proof.Machine
end

