-- ==== Sys2Proof/Laws/Tables.lean ====
section
/-! SUPPORT. The sparse tables: reading after a write, the canonical form, which entries a write leaves, and the same
for the PLIC's register banks. -/

namespace Sys2Proof.Machine

open Sys2Proof

variable {β : Type}

theorem tab_get_insert_same (d : β) (k : Nat) (v : β) (t : Tab β) (h : ∀ e ∈ t, e.1 ≠ k) :
    Tab.get d (Tab.insert k v t) k = v := by
  induction t with
  | nil => simp [Tab.insert, Tab.get]
  | cons e t ih =>
    obtain ⟨k', v'⟩ := e
    have hk : k' ≠ k := h (k', v') (by simp)
    simp only [Tab.insert]
    split
    · simp [Tab.get]
    · simp [Tab.get, hk, ih (fun e he => h e (by simp [he]))]

theorem tab_get_insert_ne (d : β) (k j : Nat) (v : β) (t : Tab β) (h : j ≠ k) :
    Tab.get d (Tab.insert k v t) j = Tab.get d t j := by
  induction t with
  | nil => simp [Tab.insert, Tab.get, Ne.symm h]
  | cons e t ih =>
    obtain ⟨k', v'⟩ := e
    simp only [Tab.insert]
    split
    · simp [Tab.get, Ne.symm h]
    · simp [Tab.get, ih]

theorem tab_get_filter_ne (d : β) (k j : Nat) (t : Tab β) (h : j ≠ k) :
    Tab.get d (t.filter (fun e => e.1 != k)) j = Tab.get d t j := by
  induction t with
  | nil => rfl
  | cons e t ih =>
    obtain ⟨k', v'⟩ := e
    by_cases hk : k' = k
    · subst hk
      simp [List.filter, Tab.get, Ne.symm h, ih]
    · have : (k' != k) = true := by simpa using hk
      simp [List.filter, this, Tab.get, ih]

theorem tab_get_of_no_key (d : β) (k : Nat) (t : Tab β) (h : ∀ e ∈ t, e.1 ≠ k) : Tab.get d t k = d := by
  induction t with
  | nil => rfl
  | cons e t ih =>
    obtain ⟨k', v'⟩ := e
    have hk : k' ≠ k := h (k', v') (by simp)
    simp [Tab.get, hk, ih (fun e he => h e (by simp [he]))]

theorem filter_no_key (k : Nat) (t : Tab β) : ∀ e ∈ t.filter (fun e => e.1 != k), e.1 ≠ k := by
  intro e he
  simpa using (List.mem_filter.1 he).2

/-- A write is read back. -/
@[simp] theorem tab_get_set_same [DecidableEq β] (d : β) (t : Tab β) (k : Nat) (v : β) :
    Tab.get d (Tab.set d t k v) k = v := by
  unfold Tab.set
  split
  · next h => rw [h, tab_get_of_no_key d k _ (filter_no_key k t)]
  · exact tab_get_insert_same d k v _ (filter_no_key k t)

/-- A write leaves every other index alone. -/
theorem tab_get_set_ne [DecidableEq β] (d : β) (t : Tab β) (k j : Nat) (v : β) (h : j ≠ k) :
    Tab.get d (Tab.set d t k v) j = Tab.get d t j := by
  unfold Tab.set
  split
  · exact tab_get_filter_ne d k j t h
  · rw [tab_get_insert_ne d k j v _ h, tab_get_filter_ne d k j t h]

theorem tab_get_set [DecidableEq β] (d : β) (t : Tab β) (k j : Nat) (v : β) :
    Tab.get d (Tab.set d t k v) j = if j = k then v else Tab.get d t j := by
  split
  · next h => rw [h, tab_get_set_same]
  · next h => exact tab_get_set_ne d t k j v h

theorem mem_tab_insert (k : Nat) (v : β) (t : Tab β) (e : Nat × β) :
    e ∈ Tab.insert k v t ↔ e = (k, v) ∨ e ∈ t := by
  induction t with
  | nil => simp [Tab.insert]
  | cons e' t ih =>
    obtain ⟨k', v'⟩ := e'
    simp only [Tab.insert]
    split
    · simp
    · simp [ih, or_left_comm]

/-- The entries after a write: the one written, unless it is the default, and the others. -/
theorem mem_tab_set [DecidableEq β] (d : β) (t : Tab β) (k : Nat) (v : β) (e : Nat × β) :
    e ∈ Tab.set d t k v ↔ (e = (k, v) ∧ v ≠ d) ∨ (e ∈ t ∧ e.1 ≠ k) := by
  unfold Tab.set
  by_cases h : v = d <;> simp [h, mem_tab_insert]

theorem tab_insert_sorted (k : Nat) (v : β) (t : Tab β) (hs : t.Pairwise (fun a b => a.1 < b.1))
    (hk : ∀ e ∈ t, e.1 ≠ k) : (Tab.insert k v t).Pairwise (fun a b => a.1 < b.1) := by
  induction t with
  | nil => simp [Tab.insert]
  | cons e' t ih =>
    obtain ⟨k', v'⟩ := e'
    rw [List.pairwise_cons] at hs
    have hne : k' ≠ k := hk (k', v') (by simp)
    simp only [Tab.insert]
    split
    · next hlt =>
      rw [List.pairwise_cons, List.pairwise_cons]
      refine ⟨?_, hs⟩
      intro e he
      rcases List.mem_cons.1 he with rfl | he
      · exact hlt
      · have := hs.1 e he
        simp at this ⊢
        omega
    · next hge =>
      rw [List.pairwise_cons]
      refine ⟨?_, ih hs.2 (fun e he => hk e (by simp [he]))⟩
      intro e he
      rcases (mem_tab_insert k v t e).1 he with rfl | he
      · simp; omega
      · exact hs.1 e he

/-- A write keeps the canonical form. -/
theorem tab_set_wf [DecidableEq β] (d : β) (t : Tab β) (k : Nat) (v : β) (h : Tab.wf d t = true) :
    Tab.wf d (Tab.set d t k v) = true := by
  simp only [Tab.wf, Bool.and_eq_true, decide_eq_true_eq, List.all_eq_true] at h ⊢
  have hf : (t.filter (fun e => e.1 != k)).Pairwise (fun a b => a.1 < b.1) := h.1.filter _
  constructor
  · unfold Tab.set
    split
    · exact hf
    · exact tab_insert_sorted k v _ hf (filter_no_key k t)
  · intro e he
    rcases (mem_tab_set d t k v e).1 he with ⟨rfl, hv⟩ | ⟨he, -⟩
    · exact hv
    · exact h.2 e he

/-- What an index holds is the default or stands in an entry. -/
theorem tab_get_cases (d : β) (t : Tab β) (k : Nat) : Tab.get d t k = d ∨ (k, Tab.get d t k) ∈ t := by
  induction t with
  | nil => exact .inl rfl
  | cons e t ih =>
    obtain ⟨k', v'⟩ := e
    by_cases hk : k' = k
    · subst hk; simp [Tab.get]
    · rcases ih with h | h
      · left; simpa [Tab.get, hk] using h
      · right; simp [Tab.get, hk, h]

/-! ## The PLIC's banks -/

variable (p : Plic)

@[simp] theorem setCtx_priority (c : Fin 2) (x : PlicCtx) : (p.setCtx c x).priority = p.priority := by
  unfold Plic.setCtx; split <;> rfl
@[simp] theorem setCtx_gw (c : Fin 2) (x : PlicCtx) : (p.setCtx c x).gw = p.gw := by
  unfold Plic.setCtx; split <;> rfl
@[simp] theorem setCtx_extLine (c : Fin 2) (x : PlicCtx) : (p.setCtx c x).extLine = p.extLine := by
  unfold Plic.setCtx; split <;> rfl
@[simp] theorem setCtx_ctx_same (c : Fin 2) (x : PlicCtx) : (p.setCtx c x).ctx c = x := by
  unfold Plic.setCtx Plic.ctx; split <;> rfl
theorem setCtx_ctx_ne (c c' : Fin 2) (x : PlicCtx) (h : c' ≠ c) : (p.setCtx c x).ctx c' = p.ctx c' := by
  unfold Plic.setCtx Plic.ctx; split <;> split <;> grind

@[simp] theorem setPrio_gate (k : Nat) (v : Word) (j : Nat) : (p.setPrio k v).gate j = p.gate j := rfl
@[simp] theorem setPrio_ext (k : Nat) (v : Word) (j : Nat) : (p.setPrio k v).ext j = p.ext j := rfl
@[simp] theorem setPrio_ctx (k : Nat) (v : Word) (c : Fin 2) : (p.setPrio k v).ctx c = p.ctx c := rfl
theorem setPrio_prio (k : Nat) (v : Word) (j : Nat) :
    (p.setPrio k v).prio j = if j = k then v else p.prio j := tab_get_set ..

@[simp] theorem setGate_prio (k : Nat) (g : Gw) (j : Nat) : (p.setGate k g).prio j = p.prio j := rfl
@[simp] theorem setGate_ext (k : Nat) (g : Gw) (j : Nat) : (p.setGate k g).ext j = p.ext j := rfl
@[simp] theorem setGate_ctx (k : Nat) (g : Gw) (c : Fin 2) : (p.setGate k g).ctx c = p.ctx c := rfl
theorem setGate_gate (k : Nat) (g : Gw) (j : Nat) :
    (p.setGate k g).gate j = if j = k then g else p.gate j := tab_get_set ..

@[simp] theorem setExt_prio (k : Nat) (v : Bool) (j : Nat) : (p.setExt k v).prio j = p.prio j := rfl
@[simp] theorem setExt_gate (k : Nat) (v : Bool) (j : Nat) : (p.setExt k v).gate j = p.gate j := rfl
@[simp] theorem setExt_ctx (k : Nat) (v : Bool) (c : Fin 2) : (p.setExt k v).ctx c = p.ctx c := rfl
theorem setExt_ext (k : Nat) (v : Bool) (j : Nat) :
    (p.setExt k v).ext j = if j = k then v else p.ext j := tab_get_set ..

@[simp] theorem setThresh_prio (c : Fin 2) (v : Word) (j : Nat) : (p.setThresh c v).prio j = p.prio j := by
  simp [Plic.setThresh, Plic.prio]
@[simp] theorem setThresh_gate (c : Fin 2) (v : Word) (j : Nat) : (p.setThresh c v).gate j = p.gate j := by
  simp [Plic.setThresh, Plic.gate]
@[simp] theorem setThresh_ext (c : Fin 2) (v : Word) (j : Nat) : (p.setThresh c v).ext j = p.ext j := by
  simp [Plic.setThresh, Plic.ext]
theorem setThresh_thresh (c c' : Fin 2) (v : Word) :
    (p.setThresh c v).thresh c' = if c' = c then v else p.thresh c' := by
  unfold Plic.setThresh Plic.thresh
  split
  · next h => rw [h, setCtx_ctx_same]
  · next h => rw [setCtx_ctx_ne _ _ _ _ h]
@[simp] theorem setThresh_enableWord (c c' : Fin 2) (v : Word) (w : Nat) :
    (p.setThresh c v).enableWord c' w = p.enableWord c' w := by
  unfold Plic.setThresh Plic.enableWord
  by_cases h : c' = c
  · rw [h, setCtx_ctx_same]
  · rw [setCtx_ctx_ne _ _ _ _ h]

@[simp] theorem setEnableWord_prio (c : Fin 2) (w : Nat) (v : Word) (j : Nat) :
    (p.setEnableWord c w v).prio j = p.prio j := by
  simp [Plic.setEnableWord, Plic.prio]
@[simp] theorem setEnableWord_gate (c : Fin 2) (w : Nat) (v : Word) (j : Nat) :
    (p.setEnableWord c w v).gate j = p.gate j := by
  simp [Plic.setEnableWord, Plic.gate]
@[simp] theorem setEnableWord_ext (c : Fin 2) (w : Nat) (v : Word) (j : Nat) :
    (p.setEnableWord c w v).ext j = p.ext j := by
  simp [Plic.setEnableWord, Plic.ext]
@[simp] theorem setEnableWord_thresh (c c' : Fin 2) (w : Nat) (v : Word) :
    (p.setEnableWord c w v).thresh c' = p.thresh c' := by
  unfold Plic.setEnableWord Plic.thresh
  by_cases h : c' = c
  · rw [h, setCtx_ctx_same]
  · rw [setCtx_ctx_ne _ _ _ _ h]
theorem setEnableWord_enableWord (c c' : Fin 2) (w w' : Nat) (v : Word) :
    (p.setEnableWord c w v).enableWord c' w' = if c' = c ∧ w' = w then v else p.enableWord c' w' := by
  unfold Plic.setEnableWord Plic.enableWord
  by_cases h : c' = c
  · subst h
    rw [setCtx_ctx_same, tab_get_set]
    simp
  · rw [setCtx_ctx_ne _ _ _ _ h]
    simp [h]

end Sys2Proof.Machine
end

