-- ==== Sys2Proof/Laws/Plic.lean ====
section
/-! SUPPORT. Arbitration and the assembled interrupt bits: who is a candidate, what `best` picks, every bit of `mip` and
of the PLIC's words. -/

namespace Sys2Proof.Machine

open Sys2Proof

/-- The candidates are exactly the sources that `isCand` accepts: a pending gateway is a listed one. -/
theorem mem_cand (s : State) (c : Fin 2) (src : Nat) : src ∈ cand s c ↔ isCand s c src = true := by
  unfold cand
  rw [List.mem_filter]
  constructor
  · exact And.right
  · intro h
    refine ⟨?_, h⟩
    have hg : s.plic.gate src = .pending := by
      simp only [isCand, Bool.and_eq_true, decide_eq_true_eq] at h
      exact h.1.1.2
    unfold Plic.gate at hg
    rcases tab_get_cases Gw.open s.plic.gw src with h' | h'
    · rw [h'] at hg; cases hg
    · exact List.mem_map.2 ⟨_, h', rfl⟩

/-- What makes a candidate (10_state.md R44). -/
theorem isCand_iff (s : State) (c : Fin 2) (src : Nat) :
    isCand s c src = true ↔ (1 ≤ src ∧ src < s.cfg.nsrc ∧ s.plic.gate src = .pending ∧
      s.plic.enabled c src = true ∧ s.plic.prio src ≠ 0 ∧
      (if s.cfg.threshStrict then s.plic.thresh c < s.plic.prio src else s.plic.thresh c ≤ s.plic.prio src)) := by
  simp only [isCand, eligible, Config.isSource, Bool.and_eq_true, decide_eq_true_eq]
  split <;> simp only [decide_eq_true_eq] <;> tauto

/-- `a` is at least as good as `b` in arbitration (42_plic.md R154). -/
def atLeast (s : State) (a b : Nat) : Prop :=
  s.plic.prio b < s.plic.prio a ∨ (s.plic.prio b = s.plic.prio a ∧ a ≤ b)

theorem atLeast_refl (s : State) (a : Nat) : atLeast s a a := .inr ⟨rfl, Nat.le_refl a⟩

theorem atLeast_trans {s : State} {a b c : Nat} (h : atLeast s a b) (h' : atLeast s b c) : atLeast s a c := by
  unfold atLeast at *
  rcases h with h | ⟨h, h1⟩ <;> rcases h' with h' | ⟨h', h2⟩
  · exact .inl (BitVec.lt_trans h' h)
  · exact .inl (h' ▸ h)
  · exact .inl (h ▸ h')
  · exact .inr ⟨h'.trans h, Nat.le_trans h1 h2⟩

theorem atLeast_of_not_beats {s : State} {a b : Nat} (h : beats s b a = false) : atLeast s a b := by
  simp only [beats, Bool.or_eq_false_iff, Bool.and_eq_false_iff, decide_eq_false_iff_not, BitVec.lt_def] at h
  unfold atLeast
  rw [BitVec.lt_def]
  by_cases he : s.plic.prio b = s.plic.prio a
  · right
    refine ⟨he, ?_⟩
    rcases h.2 with h2 | h2
    · exact absurd he h2
    · omega
  · left
    have : (s.plic.prio b).toNat ≠ (s.plic.prio a).toNat := fun h' => he (BitVec.eq_of_toNat_eq h')
    omega

theorem atLeast_of_beats {s : State} {a b : Nat} (h : beats s b a = true) : atLeast s b a := by
  simp only [beats, Bool.or_eq_true, Bool.and_eq_true, decide_eq_true_eq] at h
  rcases h with h | ⟨h, h'⟩
  · exact .inl h
  · exact .inr ⟨h.symm, Nat.le_of_lt h'⟩

theorem atLeast_antisymm {s : State} {a b : Nat} (h : atLeast s a b) (h' : atLeast s b a) : a = b := by
  unfold atLeast at *
  simp only [BitVec.lt_def] at *
  rcases h with h | ⟨h, h1⟩ <;> rcases h' with h' | ⟨h', h2⟩
  · omega
  · rw [h'] at h; omega
  · rw [h] at h'; omega
  · omega

/-- The fold over a list picks the best of the list and what it starts from. -/
theorem foldl_pick (s : State) (l : List Nat) (acc : Option Nat) :
    (l.foldl (pick s) acc = none ↔ acc = none ∧ l = []) ∧
    ∀ x, l.foldl (pick s) acc = some x →
      (acc = some x ∨ x ∈ l) ∧ (∀ a, acc = some a → atLeast s x a) ∧ ∀ b ∈ l, atLeast s x b := by
  induction l generalizing acc with
  | nil =>
    refine ⟨by simp, ?_⟩
    intro x hx
    simp only [List.foldl_nil] at hx
    subst hx
    exact ⟨.inl rfl, fun a ha => by cases ha; exact atLeast_refl _ _, by simp⟩
  | cons b t ih =>
    obtain ⟨ih1, ih2⟩ := ih (pick s acc b)
    have hsome : pick s acc b ≠ none := by
      unfold pick; split
      · simp
      · split <;> simp
    refine ⟨?_, ?_⟩
    · rw [List.foldl_cons, ih1]
      simp [hsome]
    · intro x hx
      rw [List.foldl_cons] at hx
      obtain ⟨h1, h2, h3⟩ := ih2 x hx
      cases acc with
      | none =>
        have hp : pick s none b = some b := rfl
        rw [hp] at h1 h2
        refine ⟨.inr ?_, by simp, ?_⟩
        · rcases h1 with h1 | h1
          · cases h1; simp
          · simp [h1]
        · intro y hy
          rcases List.mem_cons.1 hy with rfl | hy
          · exact h2 _ rfl
          · exact h3 y hy
      | some a =>
        by_cases hb : beats s b a = true
        · have hp : pick s (some a) b = some b := by simp [pick, hb]
          rw [hp] at h1 h2
          refine ⟨.inr ?_, ?_, ?_⟩
          · rcases h1 with h1 | h1
            · cases h1; simp
            · simp [h1]
          · rintro _ ⟨⟩
            exact atLeast_trans (h2 _ rfl) (atLeast_of_beats hb)
          · intro y hy
            rcases List.mem_cons.1 hy with rfl | hy
            · exact h2 _ rfl
            · exact h3 y hy
        · have hb : beats s b a = false := by simpa using hb
          have hp : pick s (some a) b = some a := by simp [pick, hb]
          rw [hp] at h1 h2
          refine ⟨?_, ?_, ?_⟩
          · rcases h1 with h1 | h1
            · exact .inl h1
            · exact .inr (by simp [h1])
          · rintro _ ⟨⟩
            exact h2 _ rfl
          · intro y hy
            rcases List.mem_cons.1 hy with rfl | hy
            · exact atLeast_trans (h2 _ rfl) (atLeast_of_not_beats hb)
            · exact h3 y hy

/-- What `best` answers is a candidate, at least as good as every candidate. -/
theorem best_some {s : State} {c : Fin 2} {src : Nat} (h : best s c = some src) :
    isCand s c src = true ∧ ∀ b, isCand s c b = true → atLeast s src b := by
  obtain ⟨h1, -, h3⟩ := (foldl_pick s (cand s c) none).2 src h
  refine ⟨(mem_cand s c src).1 (h1.resolve_left (by simp)), fun b hb => h3 b ((mem_cand s c b).2 hb)⟩

/-- `best` answers nothing exactly when there is no candidate. -/
theorem best_none {s : State} {c : Fin 2} : best s c = none ↔ ∀ b, isCand s c b = false := by
  unfold best
  rw [(foldl_pick s (cand s c) none).1]
  simp only [true_and, List.eq_nil_iff_forall_not_mem, mem_cand]
  simp

/-- The source a claim takes exists and is pending. -/
theorem best_source {s : State} {c : Fin 2} {src : Nat} (h : best s c = some src) :
    1 ≤ src ∧ src < s.cfg.nsrc ∧ s.plic.gate src = .pending := by
  have := (isCand_iff s c src).1 (best_some h).1
  exact ⟨this.1, this.2.1, this.2.2.1⟩

/-! ## Bits -/

theorem getLsbD_flag_shift (b : Bool) (k j : Nat) (hj : j < 32) :
    (flag b <<< k).getLsbD j = (decide (j = k) && b) := by
  have h0 : ∀ n, (flag b).getLsbD n = (decide (n = 0) && b) := by
    intro n
    rcases n with _ | n
    · cases b <;> rfl
    · simp [flag]
  rw [BitVec.getLsbD_shiftLeft, h0]
  by_cases h : j = k
  · subst h; simp [hj]
  · by_cases h' : j < k
    · simp [h, h']
    · have h2 : j - k ≠ 0 := by omega
      simp [h, h2]

/-- Every bit of the assembled `mip` (10_state.md R28). -/
theorem getLsbD_mip (s : State) (i : Nat) (hi : i < 32) :
    (mip s).getLsbD i =
      if i = 1 then s.csr.mipSw.getLsbD 1 else if i = 3 then s.pins.msip else if i = 5 then s.csr.mipSw.getLsbD 5
      else if i = 7 then s.pins.mtip else if i = 9 then eip s 1 else if i = 11 then eip s 0 else false := by
  have hm : (s.csr.mipSw &&& 34#32).getLsbD i = (s.csr.mipSw.getLsbD i && decide (i = 1 ∨ i = 5)) := by
    rw [BitVec.getLsbD_and]
    congr 1
    interval_cases i <;> rfl
  have hs : mip s = (s.csr.mipSw &&& 34#32) ||| flag s.pins.msip <<< 3 ||| flag s.pins.mtip <<< 7 |||
      flag (eip s 1) <<< 9 ||| flag (eip s 0) <<< 11 := rfl
  rw [hs, BitVec.getLsbD_or, BitVec.getLsbD_or, BitVec.getLsbD_or, BitVec.getLsbD_or, hm]
  simp only [getLsbD_flag_shift _ _ _ hi]
  by_cases h1 : i = 1
  · subst h1; simp
  by_cases h3 : i = 3
  · subst h3; simp
  by_cases h5 : i = 5
  · subst h5; simp
  by_cases h7 : i = 7
  · subst h7; simp
  by_cases h9 : i = 9
  · subst h9; simp
  by_cases h11 : i = 11
  · subst h11; simp
  · simp [h1, h3, h5, h7, h9, h11]

theorem getLsbD_sourceMask (c : Config) (w b : Nat) (hb : b < 32) :
    (sourceMask c w).getLsbD b = c.isSource (32 * w + b) := getLsbD_wordOf _ b hb

theorem getLsbD_pendingWord (s : State) (w b : Nat) (hb : b < 32) :
    (pendingWord s w).getLsbD b =
      (s.cfg.isSource (32 * w + b) && decide (s.plic.gate (32 * w + b) = .pending)) := getLsbD_wordOf _ b hb

/-- Bit `b` of enable word `w` is source `32 w + b` (20_memory.md R63). -/
theorem getLsbD_enableWord (p : Plic) (c : Fin 2) (w b : Nat) (hb : b < 32) :
    (p.enableWord c w).getLsbD b = p.enabled c (32 * w + b) := by
  unfold Plic.enabled
  rw [show (32 * w + b) / 32 = w by omega, show (32 * w + b) % 32 = b by omega]

end Sys2Proof.Machine
end

