-- ==== Sys2Proof/Laws/State.lean ====
section
/-! SUPPORT. One lemma per field per named update of State, true by rfl, so that no later proof unfolds a record
update. -/

namespace Sys2Proof.Machine.State

open Sys2Proof

variable (s : State)

@[simp] theorem setPc_pc (x : Word) : (s.setPc x).pc = x := rfl
@[simp] theorem setPc_priv (x : Word) : (s.setPc x).priv = s.priv := rfl
@[simp] theorem setPc_csr (x : Word) : (s.setPc x).csr = s.csr := rfl
@[simp] theorem setPc_plic (x : Word) : (s.setPc x).plic = s.plic := rfl
@[simp] theorem setPc_uart (x : Word) : (s.setPc x).uart = s.uart := rfl
@[simp] theorem setPc_disp (x : Word) : (s.setPc x).disp = s.disp := rfl
@[simp] theorem setPc_dregs (x : Word) : (s.setPc x).dregs = s.dregs := rfl
@[simp] theorem setPc_boot (x : Word) : (s.setPc x).boot = s.boot := rfl
@[simp] theorem setPc_hseq (x : Word) : (s.setPc x).hseq = s.hseq := rfl
@[simp] theorem setPc_flags (x : Word) : (s.setPc x).flags = s.flags := rfl
@[simp] theorem setPc_sinkLog (x : Word) : (s.setPc x).sinkLog = s.sinkLog := rfl
@[simp] theorem setPc_txLog (x : Word) : (s.setPc x).txLog = s.txLog := rfl
@[simp] theorem setPc_pins (x : Word) : (s.setPc x).pins = s.pins := rfl
@[simp] theorem setPc_cfg (x : Word) : (s.setPc x).cfg = s.cfg := rfl
@[simp] theorem setPc_draws (x : Word) : (s.setPc x).draws = s.draws := rfl
@[simp] theorem setPc_r0 (x : Word) : (s.setPc x).r0 = s.r0 := rfl
@[simp] theorem setPc_r1 (x : Word) : (s.setPc x).r1 = s.r1 := rfl
@[simp] theorem setPc_sched (x : Word) : (s.setPc x).sched = s.sched := rfl

@[simp] theorem setPriv_pc (x : Priv) : (s.setPriv x).pc = s.pc := rfl
@[simp] theorem setPriv_priv (x : Priv) : (s.setPriv x).priv = x := rfl
@[simp] theorem setPriv_csr (x : Priv) : (s.setPriv x).csr = s.csr := rfl
@[simp] theorem setPriv_plic (x : Priv) : (s.setPriv x).plic = s.plic := rfl
@[simp] theorem setPriv_uart (x : Priv) : (s.setPriv x).uart = s.uart := rfl
@[simp] theorem setPriv_disp (x : Priv) : (s.setPriv x).disp = s.disp := rfl
@[simp] theorem setPriv_dregs (x : Priv) : (s.setPriv x).dregs = s.dregs := rfl
@[simp] theorem setPriv_boot (x : Priv) : (s.setPriv x).boot = s.boot := rfl
@[simp] theorem setPriv_hseq (x : Priv) : (s.setPriv x).hseq = s.hseq := rfl
@[simp] theorem setPriv_flags (x : Priv) : (s.setPriv x).flags = s.flags := rfl
@[simp] theorem setPriv_sinkLog (x : Priv) : (s.setPriv x).sinkLog = s.sinkLog := rfl
@[simp] theorem setPriv_txLog (x : Priv) : (s.setPriv x).txLog = s.txLog := rfl
@[simp] theorem setPriv_pins (x : Priv) : (s.setPriv x).pins = s.pins := rfl
@[simp] theorem setPriv_cfg (x : Priv) : (s.setPriv x).cfg = s.cfg := rfl
@[simp] theorem setPriv_draws (x : Priv) : (s.setPriv x).draws = s.draws := rfl
@[simp] theorem setPriv_r0 (x : Priv) : (s.setPriv x).r0 = s.r0 := rfl
@[simp] theorem setPriv_r1 (x : Priv) : (s.setPriv x).r1 = s.r1 := rfl
@[simp] theorem setPriv_sched (x : Priv) : (s.setPriv x).sched = s.sched := rfl

@[simp] theorem setCsr_pc (x : Csrs) : (s.setCsr x).pc = s.pc := rfl
@[simp] theorem setCsr_priv (x : Csrs) : (s.setCsr x).priv = s.priv := rfl
@[simp] theorem setCsr_csr (x : Csrs) : (s.setCsr x).csr = x := rfl
@[simp] theorem setCsr_plic (x : Csrs) : (s.setCsr x).plic = s.plic := rfl
@[simp] theorem setCsr_uart (x : Csrs) : (s.setCsr x).uart = s.uart := rfl
@[simp] theorem setCsr_disp (x : Csrs) : (s.setCsr x).disp = s.disp := rfl
@[simp] theorem setCsr_dregs (x : Csrs) : (s.setCsr x).dregs = s.dregs := rfl
@[simp] theorem setCsr_boot (x : Csrs) : (s.setCsr x).boot = s.boot := rfl
@[simp] theorem setCsr_hseq (x : Csrs) : (s.setCsr x).hseq = s.hseq := rfl
@[simp] theorem setCsr_flags (x : Csrs) : (s.setCsr x).flags = s.flags := rfl
@[simp] theorem setCsr_sinkLog (x : Csrs) : (s.setCsr x).sinkLog = s.sinkLog := rfl
@[simp] theorem setCsr_txLog (x : Csrs) : (s.setCsr x).txLog = s.txLog := rfl
@[simp] theorem setCsr_pins (x : Csrs) : (s.setCsr x).pins = s.pins := rfl
@[simp] theorem setCsr_cfg (x : Csrs) : (s.setCsr x).cfg = s.cfg := rfl
@[simp] theorem setCsr_draws (x : Csrs) : (s.setCsr x).draws = s.draws := rfl
@[simp] theorem setCsr_r0 (x : Csrs) : (s.setCsr x).r0 = s.r0 := rfl
@[simp] theorem setCsr_r1 (x : Csrs) : (s.setCsr x).r1 = s.r1 := rfl
@[simp] theorem setCsr_sched (x : Csrs) : (s.setCsr x).sched = s.sched := rfl

@[simp] theorem setPlic_pc (x : Plic) : (s.setPlic x).pc = s.pc := rfl
@[simp] theorem setPlic_priv (x : Plic) : (s.setPlic x).priv = s.priv := rfl
@[simp] theorem setPlic_csr (x : Plic) : (s.setPlic x).csr = s.csr := rfl
@[simp] theorem setPlic_plic (x : Plic) : (s.setPlic x).plic = x := rfl
@[simp] theorem setPlic_uart (x : Plic) : (s.setPlic x).uart = s.uart := rfl
@[simp] theorem setPlic_disp (x : Plic) : (s.setPlic x).disp = s.disp := rfl
@[simp] theorem setPlic_dregs (x : Plic) : (s.setPlic x).dregs = s.dregs := rfl
@[simp] theorem setPlic_boot (x : Plic) : (s.setPlic x).boot = s.boot := rfl
@[simp] theorem setPlic_hseq (x : Plic) : (s.setPlic x).hseq = s.hseq := rfl
@[simp] theorem setPlic_flags (x : Plic) : (s.setPlic x).flags = s.flags := rfl
@[simp] theorem setPlic_sinkLog (x : Plic) : (s.setPlic x).sinkLog = s.sinkLog := rfl
@[simp] theorem setPlic_txLog (x : Plic) : (s.setPlic x).txLog = s.txLog := rfl
@[simp] theorem setPlic_pins (x : Plic) : (s.setPlic x).pins = s.pins := rfl
@[simp] theorem setPlic_cfg (x : Plic) : (s.setPlic x).cfg = s.cfg := rfl
@[simp] theorem setPlic_draws (x : Plic) : (s.setPlic x).draws = s.draws := rfl
@[simp] theorem setPlic_r0 (x : Plic) : (s.setPlic x).r0 = s.r0 := rfl
@[simp] theorem setPlic_r1 (x : Plic) : (s.setPlic x).r1 = s.r1 := rfl
@[simp] theorem setPlic_sched (x : Plic) : (s.setPlic x).sched = s.sched := rfl

@[simp] theorem setUart_pc (x : Uart) : (s.setUart x).pc = s.pc := rfl
@[simp] theorem setUart_priv (x : Uart) : (s.setUart x).priv = s.priv := rfl
@[simp] theorem setUart_csr (x : Uart) : (s.setUart x).csr = s.csr := rfl
@[simp] theorem setUart_plic (x : Uart) : (s.setUart x).plic = s.plic := rfl
@[simp] theorem setUart_uart (x : Uart) : (s.setUart x).uart = x := rfl
@[simp] theorem setUart_disp (x : Uart) : (s.setUart x).disp = s.disp := rfl
@[simp] theorem setUart_dregs (x : Uart) : (s.setUart x).dregs = s.dregs := rfl
@[simp] theorem setUart_boot (x : Uart) : (s.setUart x).boot = s.boot := rfl
@[simp] theorem setUart_hseq (x : Uart) : (s.setUart x).hseq = s.hseq := rfl
@[simp] theorem setUart_flags (x : Uart) : (s.setUart x).flags = s.flags := rfl
@[simp] theorem setUart_sinkLog (x : Uart) : (s.setUart x).sinkLog = s.sinkLog := rfl
@[simp] theorem setUart_txLog (x : Uart) : (s.setUart x).txLog = s.txLog := rfl
@[simp] theorem setUart_pins (x : Uart) : (s.setUart x).pins = s.pins := rfl
@[simp] theorem setUart_cfg (x : Uart) : (s.setUart x).cfg = s.cfg := rfl
@[simp] theorem setUart_draws (x : Uart) : (s.setUart x).draws = s.draws := rfl
@[simp] theorem setUart_r0 (x : Uart) : (s.setUart x).r0 = s.r0 := rfl
@[simp] theorem setUart_r1 (x : Uart) : (s.setUart x).r1 = s.r1 := rfl
@[simp] theorem setUart_sched (x : Uart) : (s.setUart x).sched = s.sched := rfl

@[simp] theorem setDisp_pc (x : Disp) : (s.setDisp x).pc = s.pc := rfl
@[simp] theorem setDisp_priv (x : Disp) : (s.setDisp x).priv = s.priv := rfl
@[simp] theorem setDisp_csr (x : Disp) : (s.setDisp x).csr = s.csr := rfl
@[simp] theorem setDisp_plic (x : Disp) : (s.setDisp x).plic = s.plic := rfl
@[simp] theorem setDisp_uart (x : Disp) : (s.setDisp x).uart = s.uart := rfl
@[simp] theorem setDisp_disp (x : Disp) : (s.setDisp x).disp = x := rfl
@[simp] theorem setDisp_dregs (x : Disp) : (s.setDisp x).dregs = s.dregs := rfl
@[simp] theorem setDisp_boot (x : Disp) : (s.setDisp x).boot = s.boot := rfl
@[simp] theorem setDisp_hseq (x : Disp) : (s.setDisp x).hseq = s.hseq := rfl
@[simp] theorem setDisp_flags (x : Disp) : (s.setDisp x).flags = s.flags := rfl
@[simp] theorem setDisp_sinkLog (x : Disp) : (s.setDisp x).sinkLog = s.sinkLog := rfl
@[simp] theorem setDisp_txLog (x : Disp) : (s.setDisp x).txLog = s.txLog := rfl
@[simp] theorem setDisp_pins (x : Disp) : (s.setDisp x).pins = s.pins := rfl
@[simp] theorem setDisp_cfg (x : Disp) : (s.setDisp x).cfg = s.cfg := rfl
@[simp] theorem setDisp_draws (x : Disp) : (s.setDisp x).draws = s.draws := rfl
@[simp] theorem setDisp_r0 (x : Disp) : (s.setDisp x).r0 = s.r0 := rfl
@[simp] theorem setDisp_r1 (x : Disp) : (s.setDisp x).r1 = s.r1 := rfl
@[simp] theorem setDisp_sched (x : Disp) : (s.setDisp x).sched = s.sched := rfl

@[simp] theorem setDregs_pc (x : DispRegs) : (s.setDregs x).pc = s.pc := rfl
@[simp] theorem setDregs_priv (x : DispRegs) : (s.setDregs x).priv = s.priv := rfl
@[simp] theorem setDregs_csr (x : DispRegs) : (s.setDregs x).csr = s.csr := rfl
@[simp] theorem setDregs_plic (x : DispRegs) : (s.setDregs x).plic = s.plic := rfl
@[simp] theorem setDregs_uart (x : DispRegs) : (s.setDregs x).uart = s.uart := rfl
@[simp] theorem setDregs_disp (x : DispRegs) : (s.setDregs x).disp = s.disp := rfl
@[simp] theorem setDregs_dregs (x : DispRegs) : (s.setDregs x).dregs = x := rfl
@[simp] theorem setDregs_boot (x : DispRegs) : (s.setDregs x).boot = s.boot := rfl
@[simp] theorem setDregs_hseq (x : DispRegs) : (s.setDregs x).hseq = s.hseq := rfl
@[simp] theorem setDregs_flags (x : DispRegs) : (s.setDregs x).flags = s.flags := rfl
@[simp] theorem setDregs_sinkLog (x : DispRegs) : (s.setDregs x).sinkLog = s.sinkLog := rfl
@[simp] theorem setDregs_txLog (x : DispRegs) : (s.setDregs x).txLog = s.txLog := rfl
@[simp] theorem setDregs_pins (x : DispRegs) : (s.setDregs x).pins = s.pins := rfl
@[simp] theorem setDregs_cfg (x : DispRegs) : (s.setDregs x).cfg = s.cfg := rfl
@[simp] theorem setDregs_draws (x : DispRegs) : (s.setDregs x).draws = s.draws := rfl
@[simp] theorem setDregs_r0 (x : DispRegs) : (s.setDregs x).r0 = s.r0 := rfl
@[simp] theorem setDregs_r1 (x : DispRegs) : (s.setDregs x).r1 = s.r1 := rfl
@[simp] theorem setDregs_sched (x : DispRegs) : (s.setDregs x).sched = s.sched := rfl

@[simp] theorem setBoot_pc (x : Boot) : (s.setBoot x).pc = s.pc := rfl
@[simp] theorem setBoot_priv (x : Boot) : (s.setBoot x).priv = s.priv := rfl
@[simp] theorem setBoot_csr (x : Boot) : (s.setBoot x).csr = s.csr := rfl
@[simp] theorem setBoot_plic (x : Boot) : (s.setBoot x).plic = s.plic := rfl
@[simp] theorem setBoot_uart (x : Boot) : (s.setBoot x).uart = s.uart := rfl
@[simp] theorem setBoot_disp (x : Boot) : (s.setBoot x).disp = s.disp := rfl
@[simp] theorem setBoot_dregs (x : Boot) : (s.setBoot x).dregs = s.dregs := rfl
@[simp] theorem setBoot_boot (x : Boot) : (s.setBoot x).boot = x := rfl
@[simp] theorem setBoot_hseq (x : Boot) : (s.setBoot x).hseq = s.hseq := rfl
@[simp] theorem setBoot_flags (x : Boot) : (s.setBoot x).flags = s.flags := rfl
@[simp] theorem setBoot_sinkLog (x : Boot) : (s.setBoot x).sinkLog = s.sinkLog := rfl
@[simp] theorem setBoot_txLog (x : Boot) : (s.setBoot x).txLog = s.txLog := rfl
@[simp] theorem setBoot_pins (x : Boot) : (s.setBoot x).pins = s.pins := rfl
@[simp] theorem setBoot_cfg (x : Boot) : (s.setBoot x).cfg = s.cfg := rfl
@[simp] theorem setBoot_draws (x : Boot) : (s.setBoot x).draws = s.draws := rfl
@[simp] theorem setBoot_r0 (x : Boot) : (s.setBoot x).r0 = s.r0 := rfl
@[simp] theorem setBoot_r1 (x : Boot) : (s.setBoot x).r1 = s.r1 := rfl
@[simp] theorem setBoot_sched (x : Boot) : (s.setBoot x).sched = s.sched := rfl

@[simp] theorem setHseq_pc (x : Option HostSeq) : (s.setHseq x).pc = s.pc := rfl
@[simp] theorem setHseq_priv (x : Option HostSeq) : (s.setHseq x).priv = s.priv := rfl
@[simp] theorem setHseq_csr (x : Option HostSeq) : (s.setHseq x).csr = s.csr := rfl
@[simp] theorem setHseq_plic (x : Option HostSeq) : (s.setHseq x).plic = s.plic := rfl
@[simp] theorem setHseq_uart (x : Option HostSeq) : (s.setHseq x).uart = s.uart := rfl
@[simp] theorem setHseq_disp (x : Option HostSeq) : (s.setHseq x).disp = s.disp := rfl
@[simp] theorem setHseq_dregs (x : Option HostSeq) : (s.setHseq x).dregs = s.dregs := rfl
@[simp] theorem setHseq_boot (x : Option HostSeq) : (s.setHseq x).boot = s.boot := rfl
@[simp] theorem setHseq_hseq (x : Option HostSeq) : (s.setHseq x).hseq = x := rfl
@[simp] theorem setHseq_flags (x : Option HostSeq) : (s.setHseq x).flags = s.flags := rfl
@[simp] theorem setHseq_sinkLog (x : Option HostSeq) : (s.setHseq x).sinkLog = s.sinkLog := rfl
@[simp] theorem setHseq_txLog (x : Option HostSeq) : (s.setHseq x).txLog = s.txLog := rfl
@[simp] theorem setHseq_pins (x : Option HostSeq) : (s.setHseq x).pins = s.pins := rfl
@[simp] theorem setHseq_cfg (x : Option HostSeq) : (s.setHseq x).cfg = s.cfg := rfl
@[simp] theorem setHseq_draws (x : Option HostSeq) : (s.setHseq x).draws = s.draws := rfl
@[simp] theorem setHseq_r0 (x : Option HostSeq) : (s.setHseq x).r0 = s.r0 := rfl
@[simp] theorem setHseq_r1 (x : Option HostSeq) : (s.setHseq x).r1 = s.r1 := rfl
@[simp] theorem setHseq_sched (x : Option HostSeq) : (s.setHseq x).sched = s.sched := rfl

@[simp] theorem setFlags_pc (x : FaultFlags) : (s.setFlags x).pc = s.pc := rfl
@[simp] theorem setFlags_priv (x : FaultFlags) : (s.setFlags x).priv = s.priv := rfl
@[simp] theorem setFlags_csr (x : FaultFlags) : (s.setFlags x).csr = s.csr := rfl
@[simp] theorem setFlags_plic (x : FaultFlags) : (s.setFlags x).plic = s.plic := rfl
@[simp] theorem setFlags_uart (x : FaultFlags) : (s.setFlags x).uart = s.uart := rfl
@[simp] theorem setFlags_disp (x : FaultFlags) : (s.setFlags x).disp = s.disp := rfl
@[simp] theorem setFlags_dregs (x : FaultFlags) : (s.setFlags x).dregs = s.dregs := rfl
@[simp] theorem setFlags_boot (x : FaultFlags) : (s.setFlags x).boot = s.boot := rfl
@[simp] theorem setFlags_hseq (x : FaultFlags) : (s.setFlags x).hseq = s.hseq := rfl
@[simp] theorem setFlags_flags (x : FaultFlags) : (s.setFlags x).flags = x := rfl
@[simp] theorem setFlags_sinkLog (x : FaultFlags) : (s.setFlags x).sinkLog = s.sinkLog := rfl
@[simp] theorem setFlags_txLog (x : FaultFlags) : (s.setFlags x).txLog = s.txLog := rfl
@[simp] theorem setFlags_pins (x : FaultFlags) : (s.setFlags x).pins = s.pins := rfl
@[simp] theorem setFlags_cfg (x : FaultFlags) : (s.setFlags x).cfg = s.cfg := rfl
@[simp] theorem setFlags_draws (x : FaultFlags) : (s.setFlags x).draws = s.draws := rfl
@[simp] theorem setFlags_r0 (x : FaultFlags) : (s.setFlags x).r0 = s.r0 := rfl
@[simp] theorem setFlags_r1 (x : FaultFlags) : (s.setFlags x).r1 = s.r1 := rfl
@[simp] theorem setFlags_sched (x : FaultFlags) : (s.setFlags x).sched = s.sched := rfl

@[simp] theorem setSinkLog_pc (x : List Byte) : (s.setSinkLog x).pc = s.pc := rfl
@[simp] theorem setSinkLog_priv (x : List Byte) : (s.setSinkLog x).priv = s.priv := rfl
@[simp] theorem setSinkLog_csr (x : List Byte) : (s.setSinkLog x).csr = s.csr := rfl
@[simp] theorem setSinkLog_plic (x : List Byte) : (s.setSinkLog x).plic = s.plic := rfl
@[simp] theorem setSinkLog_uart (x : List Byte) : (s.setSinkLog x).uart = s.uart := rfl
@[simp] theorem setSinkLog_disp (x : List Byte) : (s.setSinkLog x).disp = s.disp := rfl
@[simp] theorem setSinkLog_dregs (x : List Byte) : (s.setSinkLog x).dregs = s.dregs := rfl
@[simp] theorem setSinkLog_boot (x : List Byte) : (s.setSinkLog x).boot = s.boot := rfl
@[simp] theorem setSinkLog_hseq (x : List Byte) : (s.setSinkLog x).hseq = s.hseq := rfl
@[simp] theorem setSinkLog_flags (x : List Byte) : (s.setSinkLog x).flags = s.flags := rfl
@[simp] theorem setSinkLog_sinkLog (x : List Byte) : (s.setSinkLog x).sinkLog = x := rfl
@[simp] theorem setSinkLog_txLog (x : List Byte) : (s.setSinkLog x).txLog = s.txLog := rfl
@[simp] theorem setSinkLog_pins (x : List Byte) : (s.setSinkLog x).pins = s.pins := rfl
@[simp] theorem setSinkLog_cfg (x : List Byte) : (s.setSinkLog x).cfg = s.cfg := rfl
@[simp] theorem setSinkLog_draws (x : List Byte) : (s.setSinkLog x).draws = s.draws := rfl
@[simp] theorem setSinkLog_r0 (x : List Byte) : (s.setSinkLog x).r0 = s.r0 := rfl
@[simp] theorem setSinkLog_r1 (x : List Byte) : (s.setSinkLog x).r1 = s.r1 := rfl
@[simp] theorem setSinkLog_sched (x : List Byte) : (s.setSinkLog x).sched = s.sched := rfl

@[simp] theorem setTxLog_pc (x : List Byte) : (s.setTxLog x).pc = s.pc := rfl
@[simp] theorem setTxLog_priv (x : List Byte) : (s.setTxLog x).priv = s.priv := rfl
@[simp] theorem setTxLog_csr (x : List Byte) : (s.setTxLog x).csr = s.csr := rfl
@[simp] theorem setTxLog_plic (x : List Byte) : (s.setTxLog x).plic = s.plic := rfl
@[simp] theorem setTxLog_uart (x : List Byte) : (s.setTxLog x).uart = s.uart := rfl
@[simp] theorem setTxLog_disp (x : List Byte) : (s.setTxLog x).disp = s.disp := rfl
@[simp] theorem setTxLog_dregs (x : List Byte) : (s.setTxLog x).dregs = s.dregs := rfl
@[simp] theorem setTxLog_boot (x : List Byte) : (s.setTxLog x).boot = s.boot := rfl
@[simp] theorem setTxLog_hseq (x : List Byte) : (s.setTxLog x).hseq = s.hseq := rfl
@[simp] theorem setTxLog_flags (x : List Byte) : (s.setTxLog x).flags = s.flags := rfl
@[simp] theorem setTxLog_sinkLog (x : List Byte) : (s.setTxLog x).sinkLog = s.sinkLog := rfl
@[simp] theorem setTxLog_txLog (x : List Byte) : (s.setTxLog x).txLog = x := rfl
@[simp] theorem setTxLog_pins (x : List Byte) : (s.setTxLog x).pins = s.pins := rfl
@[simp] theorem setTxLog_cfg (x : List Byte) : (s.setTxLog x).cfg = s.cfg := rfl
@[simp] theorem setTxLog_draws (x : List Byte) : (s.setTxLog x).draws = s.draws := rfl
@[simp] theorem setTxLog_r0 (x : List Byte) : (s.setTxLog x).r0 = s.r0 := rfl
@[simp] theorem setTxLog_r1 (x : List Byte) : (s.setTxLog x).r1 = s.r1 := rfl
@[simp] theorem setTxLog_sched (x : List Byte) : (s.setTxLog x).sched = s.sched := rfl

@[simp] theorem setPins_pc (x : Pins) : (s.setPins x).pc = s.pc := rfl
@[simp] theorem setPins_priv (x : Pins) : (s.setPins x).priv = s.priv := rfl
@[simp] theorem setPins_csr (x : Pins) : (s.setPins x).csr = s.csr := rfl
@[simp] theorem setPins_plic (x : Pins) : (s.setPins x).plic = s.plic := rfl
@[simp] theorem setPins_uart (x : Pins) : (s.setPins x).uart = s.uart := rfl
@[simp] theorem setPins_disp (x : Pins) : (s.setPins x).disp = s.disp := rfl
@[simp] theorem setPins_dregs (x : Pins) : (s.setPins x).dregs = s.dregs := rfl
@[simp] theorem setPins_boot (x : Pins) : (s.setPins x).boot = s.boot := rfl
@[simp] theorem setPins_hseq (x : Pins) : (s.setPins x).hseq = s.hseq := rfl
@[simp] theorem setPins_flags (x : Pins) : (s.setPins x).flags = s.flags := rfl
@[simp] theorem setPins_sinkLog (x : Pins) : (s.setPins x).sinkLog = s.sinkLog := rfl
@[simp] theorem setPins_txLog (x : Pins) : (s.setPins x).txLog = s.txLog := rfl
@[simp] theorem setPins_pins (x : Pins) : (s.setPins x).pins = x := rfl
@[simp] theorem setPins_cfg (x : Pins) : (s.setPins x).cfg = s.cfg := rfl
@[simp] theorem setPins_draws (x : Pins) : (s.setPins x).draws = s.draws := rfl
@[simp] theorem setPins_r0 (x : Pins) : (s.setPins x).r0 = s.r0 := rfl
@[simp] theorem setPins_r1 (x : Pins) : (s.setPins x).r1 = s.r1 := rfl
@[simp] theorem setPins_sched (x : Pins) : (s.setPins x).sched = s.sched := rfl

@[simp] theorem setDraws_pc (x : Nat) : (s.setDraws x).pc = s.pc := rfl
@[simp] theorem setDraws_priv (x : Nat) : (s.setDraws x).priv = s.priv := rfl
@[simp] theorem setDraws_csr (x : Nat) : (s.setDraws x).csr = s.csr := rfl
@[simp] theorem setDraws_plic (x : Nat) : (s.setDraws x).plic = s.plic := rfl
@[simp] theorem setDraws_uart (x : Nat) : (s.setDraws x).uart = s.uart := rfl
@[simp] theorem setDraws_disp (x : Nat) : (s.setDraws x).disp = s.disp := rfl
@[simp] theorem setDraws_dregs (x : Nat) : (s.setDraws x).dregs = s.dregs := rfl
@[simp] theorem setDraws_boot (x : Nat) : (s.setDraws x).boot = s.boot := rfl
@[simp] theorem setDraws_hseq (x : Nat) : (s.setDraws x).hseq = s.hseq := rfl
@[simp] theorem setDraws_flags (x : Nat) : (s.setDraws x).flags = s.flags := rfl
@[simp] theorem setDraws_sinkLog (x : Nat) : (s.setDraws x).sinkLog = s.sinkLog := rfl
@[simp] theorem setDraws_txLog (x : Nat) : (s.setDraws x).txLog = s.txLog := rfl
@[simp] theorem setDraws_pins (x : Nat) : (s.setDraws x).pins = s.pins := rfl
@[simp] theorem setDraws_cfg (x : Nat) : (s.setDraws x).cfg = s.cfg := rfl
@[simp] theorem setDraws_draws (x : Nat) : (s.setDraws x).draws = x := rfl
@[simp] theorem setDraws_r0 (x : Nat) : (s.setDraws x).r0 = s.r0 := rfl
@[simp] theorem setDraws_r1 (x : Nat) : (s.setDraws x).r1 = s.r1 := rfl
@[simp] theorem setDraws_sched (x : Nat) : (s.setDraws x).sched = s.sched := rfl

@[simp] theorem setSched_pc (x : List Turn) : (s.setSched x).pc = s.pc := rfl
@[simp] theorem setSched_priv (x : List Turn) : (s.setSched x).priv = s.priv := rfl
@[simp] theorem setSched_csr (x : List Turn) : (s.setSched x).csr = s.csr := rfl
@[simp] theorem setSched_plic (x : List Turn) : (s.setSched x).plic = s.plic := rfl
@[simp] theorem setSched_uart (x : List Turn) : (s.setSched x).uart = s.uart := rfl
@[simp] theorem setSched_disp (x : List Turn) : (s.setSched x).disp = s.disp := rfl
@[simp] theorem setSched_dregs (x : List Turn) : (s.setSched x).dregs = s.dregs := rfl
@[simp] theorem setSched_boot (x : List Turn) : (s.setSched x).boot = s.boot := rfl
@[simp] theorem setSched_hseq (x : List Turn) : (s.setSched x).hseq = s.hseq := rfl
@[simp] theorem setSched_flags (x : List Turn) : (s.setSched x).flags = s.flags := rfl
@[simp] theorem setSched_sinkLog (x : List Turn) : (s.setSched x).sinkLog = s.sinkLog := rfl
@[simp] theorem setSched_txLog (x : List Turn) : (s.setSched x).txLog = s.txLog := rfl
@[simp] theorem setSched_pins (x : List Turn) : (s.setSched x).pins = s.pins := rfl
@[simp] theorem setSched_cfg (x : List Turn) : (s.setSched x).cfg = s.cfg := rfl
@[simp] theorem setSched_draws (x : List Turn) : (s.setSched x).draws = s.draws := rfl
@[simp] theorem setSched_r0 (x : List Turn) : (s.setSched x).r0 = s.r0 := rfl
@[simp] theorem setSched_r1 (x : List Turn) : (s.setSched x).r1 = s.r1 := rfl
@[simp] theorem setSched_sched (x : List Turn) : (s.setSched x).sched = x := rfl

@[simp] theorem answer_pc (a b : Option Word) : (s.answer a b).pc = s.pc := rfl
@[simp] theorem answer_priv (a b : Option Word) : (s.answer a b).priv = s.priv := rfl
@[simp] theorem answer_csr (a b : Option Word) : (s.answer a b).csr = s.csr := rfl
@[simp] theorem answer_plic (a b : Option Word) : (s.answer a b).plic = s.plic := rfl
@[simp] theorem answer_uart (a b : Option Word) : (s.answer a b).uart = s.uart := rfl
@[simp] theorem answer_disp (a b : Option Word) : (s.answer a b).disp = s.disp := rfl
@[simp] theorem answer_dregs (a b : Option Word) : (s.answer a b).dregs = s.dregs := rfl
@[simp] theorem answer_boot (a b : Option Word) : (s.answer a b).boot = s.boot := rfl
@[simp] theorem answer_hseq (a b : Option Word) : (s.answer a b).hseq = s.hseq := rfl
@[simp] theorem answer_flags (a b : Option Word) : (s.answer a b).flags = s.flags := rfl
@[simp] theorem answer_sinkLog (a b : Option Word) : (s.answer a b).sinkLog = s.sinkLog := rfl
@[simp] theorem answer_txLog (a b : Option Word) : (s.answer a b).txLog = s.txLog := rfl
@[simp] theorem answer_pins (a b : Option Word) : (s.answer a b).pins = s.pins := rfl
@[simp] theorem answer_cfg (a b : Option Word) : (s.answer a b).cfg = s.cfg := rfl
@[simp] theorem answer_draws (a b : Option Word) : (s.answer a b).draws = s.draws := rfl
@[simp] theorem answer_r0 (a b : Option Word) : (s.answer a b).r0 = a := rfl
@[simp] theorem answer_r1 (a b : Option Word) : (s.answer a b).r1 = b := rfl
@[simp] theorem answer_sched (a b : Option Word) : (s.answer a b).sched = s.sched := rfl

end Sys2Proof.Machine.State
end

