-- ==== Sys2Proof/Laws/Effects.lean ====
section
/-! SUPPORT. What one step can do to the state, said once: the effects of a register access (`MemEffect`), of the body
of a host step (`HostEffect`) and, per agent, what a step that goes on leads to. A statement about every step is a case
analysis over these. -/

namespace Sys2Proof.Machine

open Sys2Proof

/-- What an access of a device register can do to the state (42_plic.md R147 to R153; 43_uart.md R183 to R190). -/
inductive MemEffect (s : State) : State → Prop where
  | same : MemEffect s s
  | claim (c : Fin 2) (src : Nat) (h : best s c = some src) :
      MemEffect s (s.setPlic (s.plic.setGate src (.claimed c)))
  | release (c : Fin 2) (id : Nat) (hs : s.cfg.isSource id = true) (hg : s.plic.gate id = .claimed c) :
      MemEffect s (s.setPlic (s.plic.setGate id .open))
  | badComplete (c : Fin 2) (v : Word) (h : ¬(s.cfg.isSource v.toNat = true ∧ s.plic.gate v.toNat = .claimed c)) :
      MemEffect s (s.setFlags { s.flags with plicComplete := true })
  | prio (src : Nat) (v : Word) (h : s.cfg.isSource src = true) :
      MemEffect s (s.setPlic (s.plic.setPrio src (v &&& s.cfg.prioMax)))
  | enable (c : Fin 2) (w : Nat) (v : Word) (h : w < s.cfg.numWords) :
      MemEffect s (s.setPlic (s.plic.setEnableWord c w (v &&& sourceMask s.cfg w)))
  | thresh (c : Fin 2) (v : Word) : MemEffect s (s.setPlic (s.plic.setThresh c (v &&& s.cfg.prioMax)))
  | take (b : Byte) (rest : List Byte) (h : s.uart.rxFifo = b :: rest) :
      MemEffect s (s.setUart { s.uart with rxFifo := rest })
  | takeEmpty (h : s.uart.rxFifo = []) :
      MemEffect s ((s.setFlags { s.flags with uartRx := true }).setDraws (s.draws + 1))
  | put (v : Byte) (h : s.uart.txFifo.length < s.uart.cap s.cfg) :
      MemEffect s (s.setUart { s.uart with txFifo := s.uart.txFifo ++ [v], threIp := false })
  | putFull (h : ¬s.uart.txFifo.length < s.uart.cap s.cfg) :
      MemEffect s (s.setFlags { s.flags with uartTx := true })
  | ier (v : Byte) : MemEffect s (s.setUart (ierWrite s.uart v))
  | iirAck : MemEffect s (s.setUart { s.uart with threIp := false })
  | fcr (v : Byte) (u : Uart) (h : fcrWrite s.uart v = some u) : MemEffect s (s.setUart u)
  | lcr (v : Byte) : MemEffect s (s.setUart { s.uart with lcr := v })
  | lsr : MemEffect s (s.setUart { s.uart with err := 0 })
  | msr : MemEffect s (s.setUart { s.uart with msrDelta := 0 })

theorem setUart_self (s : State) : s.setUart s.uart = s := rfl

theorem plicSelect_index {c : Config} {o : Nat} :
    (∀ src, plicSelect c o = .priority src → src < c.nsrc) ∧
    (∀ x w, plicSelect c o = .enable x w → w < c.numWords) := by
  constructor
  · intro src h
    unfold plicSelect at h
    repeat' split at h
    all_goals first | (injection h with h; omega) | cases h
  · intro x w h
    unfold plicSelect at h
    repeat' split at h
    all_goals first | (injection h with _ h; omega) | cases h

theorem plicRegRead_effect {s t : State} {o : Nat} {w : Word} (h : plicRegRead s o = .ok w t) : MemEffect s t := by
  rw [plicRegRead_eq] at h
  cases hp : plicSelect s.cfg o with
  | claim c =>
    rw [hp] at h
    cases hb : best s c with
    | none => simp only [rowRead, claim, hb, Res.ok.injEq] at h; rw [← h.2]; exact .same
    | some src => simp only [rowRead, claim, hb, Res.ok.injEq] at h; rw [← h.2]; exact .claim c src hb
  | priority src => rw [hp] at h; simp only [rowRead, Res.ok.injEq] at h; rw [← h.2]; exact .same
  | pending w' => rw [hp] at h; simp only [rowRead, Res.ok.injEq] at h; rw [← h.2]; exact .same
  | enable c w' => rw [hp] at h; simp only [rowRead, Res.ok.injEq] at h; rw [← h.2]; exact .same
  | threshold c => rw [hp] at h; simp only [rowRead, Res.ok.injEq] at h; rw [← h.2]; exact .same
  | reserved => rw [hp] at h; cases h

theorem completion_effect (s : State) (c : Fin 2) (v : Word) : MemEffect s (completion s c v) := by
  unfold completion
  split
  · next h => exact .release c _ h.1 h.2
  · next h => exact .badComplete c v h

theorem plicRegWrite_effect {s t : State} {o : Nat} {v : Word} (h : plicRegWrite s o v = .ok () t) :
    MemEffect s t := by
  rw [plicRegWrite_eq] at h
  cases hp : plicSelect s.cfg o with
  | priority src =>
    rw [hp] at h
    by_cases h0 : src = 0
    · simp only [rowWrite, h0, if_true, Res.ok.injEq, true_and] at h; rw [← h]; exact .same
    · simp only [rowWrite, h0, if_false, Res.ok.injEq, true_and] at h; rw [← h]
      refine .prio src v ?_
      have := plicSelect_index.1 src hp
      simp only [Config.isSource, decide_eq_true_eq]
      omega
  | pending w' => rw [hp] at h; simp only [rowWrite, Res.ok.injEq, true_and] at h; rw [← h]; exact .same
  | enable c w' =>
    rw [hp] at h; simp only [rowWrite, Res.ok.injEq, true_and] at h; rw [← h]
    exact .enable c w' v (plicSelect_index.2 c w' hp)
  | threshold c => rw [hp] at h; simp only [rowWrite, Res.ok.injEq, true_and] at h; rw [← h]; exact .thresh c v
  | claim c => rw [hp] at h; simp only [rowWrite, Res.ok.injEq, true_and] at h; rw [← h]; exact completion_effect s c v
  | reserved => rw [hp] at h; cases h

theorem rbrRead_effect (s : State) : MemEffect s (rbrRead s).2 := by
  unfold rbrRead
  split
  · next b rest h => exact .take b rest h
  · next h => exact .takeEmpty h

theorem thrWrite_effect (s : State) (v : Byte) : MemEffect s (thrWrite s v) := by
  unfold thrWrite
  split
  · next h => exact .put v h
  · next h => exact .putFull h

theorem iirRead_effect (s : State) : MemEffect s (s.setUart (iirRead s.uart).2) := by
  unfold iirRead
  simp only
  split
  · exact .iirAck
  · exact .same

theorem uartRegRead_effect {s t : State} {o : BitVec 3} {b : Byte} (h : uartRegRead s o = .ok b t) :
    MemEffect s t := by
  unfold uartRegRead at h
  split at h
  · cases h
  · split at h <;> simp only [Res.ok.injEq, reduceCtorEq] at h <;> rw [← h.2]
    · exact rbrRead_effect s
    · exact .same
    · exact iirRead_effect s
    · exact .same
    · exact .lsr
    · exact .msr

theorem uartRegWrite_effect {s t : State} {o : BitVec 3} {v : Byte} (h : uartRegWrite s o v = .ok () t) :
    MemEffect s t := by
  unfold uartRegWrite at h
  split at h
  · cases h
  · split at h
    · simp only [Res.ok.injEq, true_and] at h; rw [← h]; exact thrWrite_effect s v
    · simp only [Res.ok.injEq, true_and] at h; rw [← h]; exact .ier v
    · split at h
      · next u hu => simp only [Res.ok.injEq, true_and] at h; rw [← h]; exact .fcr v u hu
      · cases h
    · simp only [Res.ok.injEq, true_and] at h; rw [← h]; exact .lcr v
    · simp only [Res.ok.injEq, true_and] at h; rw [← h]; exact .same
    · simp only [Res.ok.injEq, true_and] at h; rw [← h]; exact .same
    · cases h

/-- What a read of the MMIO space can do (20_memory.md R72). -/
theorem memRead_effect {s t : State} {addr w : Word} {n : Width} (h : memRead s addr n = .ok w t) :
    MemEffect s t := by
  unfold memRead at h
  split at h
  · cases h
  · cases h
  · obtain ⟨b, u, h1, h2⟩ := andThen_eq_ok h
    simp only [Res.ok.injEq] at h2
    rw [← h2.2]
    exact uartRegRead_effect h1
  · exact plicRegRead_effect h

/-- What a write of the MMIO space can do (20_memory.md R73). -/
theorem memWrite_effect {s t : State} {addr v : Word} {n : Width} (h : memWrite s addr n v = .ok () t) :
    MemEffect s t := by
  unfold memWrite at h
  split at h
  · cases h
  · cases h
  · exact uartRegWrite_effect h
  · exact plicRegWrite_effect h

/-- An access leaves everything but the devices, the flags and the draw counter alone. -/
theorem MemEffect_frame {s t : State} (h : MemEffect s t) : t = { s with
    plic := t.plic, uart := t.uart, flags := t.flags, draws := t.draws } := by
  cases h <;> rfl

/-! ## The steps of HOST -/

/-- What the body of the host step `i` can do, where it succeeds. -/
inductive HostEffect (i : Instr) (s : State) : State → Prop where
  | pure : HostEffect i s s
  | csr (r : CsrName) (v : Word) : HostEffect i s (csrWriteState s r v)
  | mem (u : State) (h : MemEffect s u) : HostEffect i s u
  | memSeq (u : State) (q : Option HostSeq) (h : MemEffect s u) : HostEffect i s (u.setHseq q)
  | mret (t : State) (hi : i = .mret) (hp : s.priv = .M) (h : mretEffects s = .ok () t) : HostEffect i s t
  | sret (t : State) (hi : i = .sret) (h : sretEffects s = .ok () t) : HostEffect i s t
  | pc (a : Word) (hi : i = .hartSetpc a) (h : pcAligned s.cfg a = true) : HostEffect i s (s.setPc a)

theorem csrAccess_effect {i : Instr} {s t : State} {n : BitVec 12} {a : CsrAccess} {r : Answer}
    (h : csrAccess n a s = .ok r t) : HostEffect i s t := by
  rcases csrAccess_cases h with rfl | ⟨r, v, rfl⟩
  · exact .pure
  · exact .csr r v

theorem load_effect {i : Instr} {s t : State} {addr : Word} {n : Width} {f : Word → Answer} {a : Answer}
    (h : ((memRead s addr n).andThen fun w u => .ok (f w) u) = .ok a t) : HostEffect i s t := by
  obtain ⟨w, u, h1, h2⟩ := andThen_eq_ok h
  simp only [Res.ok.injEq] at h2
  rw [← h2.2]
  exact .mem u (memRead_effect h1)

theorem store_effect {i : Instr} {s t : State} {addr v : Word} {n : Width} {f : Unit → Answer} {a : Answer}
    (h : ((memWrite s addr n v).andThen fun x u => .ok (f x) u) = .ok a t) : HostEffect i s t := by
  obtain ⟨w, u, h1, h2⟩ := andThen_eq_ok h
  simp only [Res.ok.injEq] at h2
  rw [← h2.2]
  exact .mem u (memWrite_effect h1)

theorem load_seq {s t : State} {addr : Word} {n : Width} {f : Word → Option HostSeq} {g : Word → Answer} {a : Answer}
    (h : ((memRead s addr n).andThen fun w u => .ok (g w) (u.setHseq (f w))) = .ok a t) :
    ∃ u q, MemEffect s u ∧ t = u.setHseq q := by
  obtain ⟨w, u, h1, h2⟩ := andThen_eq_ok h
  simp only [Res.ok.injEq] at h2
  exact ⟨u, f w, memRead_effect h1, h2.2.symm⟩

theorem store_seq {s t : State} {addr v : Word} {n : Width} {q : Option HostSeq} {a : Answer}
    (h : ((memWrite s addr n v).andThen fun _ u => setSeq u q) = .ok a t) :
    ∃ u q, MemEffect s u ∧ t = u.setHseq q := by
  obtain ⟨w, u, h1, h2⟩ := andThen_eq_ok h
  simp only [setSeq, Res.ok.injEq] at h2
  exact ⟨u, q, memWrite_effect h1, h2.2.symm⟩

/-- What the next step of a sequence can do: one access, and the label that follows. -/
theorem seqStep_effect {q : HostSeq} {s t : State} {a : Answer} (h : seqStep q s = .ok a t) :
    ∃ u q', MemEffect s u ∧ t = u.setHseq q' := by
  cases q with
  | putcP1 b rest => exact load_seq h
  | putcP2 b rest => exact store_seq h
  | getcG1 => exact load_seq h
  | getcG2 => exact load_seq h
  | flushF1 => exact load_seq h
  | iesetS2 m v => exact store_seq h
  | ieclrC2 m v => exact store_seq h
  | enableE2 c i w => exact store_seq h
  | initI2 c i th => exact load_seq h
  | initI3 c i th w => exact store_seq h
  | initI4 c th => exact store_seq h

theorem seq_effect {i : Instr} {s t : State} (h : ∃ u q, MemEffect s u ∧ t = u.setHseq q) : HostEffect i s t := by
  obtain ⟨u, q, h1, rfl⟩ := h
  exact .memSeq u q h1

/-- Every step of HOST is a host command whose body does what `HostEffect` says. -/
theorem host_step (i : Instr) (hi : agentOf i = .host) : ∃ body : State → Res Answer,
    (∀ s, exec i s = hostCommand s body) ∧ ∀ s a t, body s = .ok a t → HostEffect i s t := by
  cases i
  case csrRead n => exact ⟨_, fun _ => rfl, fun _ _ _ h => csrAccess_effect h⟩
  case csrWrite n v => exact ⟨_, fun _ => rfl, fun _ _ _ h => csrAccess_effect h⟩
  case csrSet n v => exact ⟨_, fun _ => rfl, fun _ _ _ h => csrAccess_effect h⟩
  case csrClear n v => exact ⟨_, fun _ => rfl, fun _ _ _ h => csrAccess_effect h⟩
  case plicSetprio a v => exact ⟨_, fun _ => rfl, fun _ _ _ h => store_effect (f := fun _ => noAnswer) h⟩
  case plicSetthr a v => exact ⟨_, fun _ => rfl, fun _ _ _ h => store_effect (f := fun _ => noAnswer) h⟩
  case plicComplete a v => exact ⟨_, fun _ => rfl, fun _ _ _ h => store_effect (f := fun _ => noAnswer) h⟩
  case plicClaim a => exact ⟨_, fun _ => rfl, fun _ _ _ h => load_effect (f := answerOne) h⟩
  case plicEnable a v => exact ⟨_, fun _ => rfl, fun _ _ _ h => seq_effect (load_seq h)⟩
  case plicInit a v p t => exact ⟨_, fun _ => rfl, fun _ _ _ h => seq_effect (store_seq h)⟩
  case uartPutc c => exact ⟨_, fun _ => rfl, fun _ _ _ h => seq_effect (load_seq h)⟩
  case uartGetc => exact ⟨_, fun _ => rfl, fun _ _ _ h => seq_effect (load_seq h)⟩
  case uartFlush => exact ⟨_, fun _ => rfl, fun _ _ _ h => seq_effect (load_seq h)⟩
  case uartIeset m => exact ⟨_, fun _ => rfl, fun _ _ _ h => seq_effect (load_seq h)⟩
  case uartIeclr m => exact ⟨_, fun _ => rfl, fun _ _ _ h => seq_effect (load_seq h)⟩
  case uartFifocfg => exact ⟨_, fun _ => rfl, fun _ _ _ h => store_effect (f := fun _ => noAnswer) h⟩
  case uartIpend => exact ⟨_, fun _ => rfl, fun _ _ _ h => load_effect (f := fun i => answerOne (flag (!i.getLsbD 0))) h⟩
  case mmioLoad a n =>
    refine ⟨_, fun _ => rfl, fun s b t h => ?_⟩
    split at h
    · cases h
    · exact load_effect (f := answerOne) h
  case mmioStore a n v =>
    refine ⟨_, fun _ => rfl, fun s b t h => ?_⟩
    split at h
    · cases h
    · exact store_effect (f := fun _ => noAnswer) h
  case mret =>
    refine ⟨_, fun _ => rfl, fun s b t h => ?_⟩
    split at h
    · next hp =>
      obtain ⟨_, u, h1, h2⟩ := andThen_eq_ok h
      simp only [Res.ok.injEq] at h2
      rw [← h2.2]
      exact .mret u rfl hp h1
    · cases h
  case sret =>
    refine ⟨_, fun _ => rfl, fun s b t h => ?_⟩
    obtain ⟨_, u, h1, h2⟩ := andThen_eq_ok h
    simp only [Res.ok.injEq] at h2
    rw [← h2.2]
    exact .sret u rfl h1
  case hartSetpc a =>
    refine ⟨_, fun _ => rfl, fun s b t h => ?_⟩
    split at h
    · next ha => simp only [Res.ok.injEq] at h; rw [← h.2]; exact .pc a rfl ha
    · cases h
  case hartException c =>
    refine ⟨_, fun _ => rfl, fun s b t h => ?_⟩
    split at h <;> cases h
  all_goals first
    | (simp [agentOf] at hi; done)
    | exact ⟨_, fun _ => rfl, fun _ _ _ h => csrAccess_effect h⟩
    | skip
  case regPlicClaim c => exact ⟨_, fun _ => rfl, fun _ _ _ h => load_effect (f := answerOne) h⟩
  case regPlicComplete c v => exact ⟨_, fun _ => rfl, fun _ _ _ h => store_effect (f := fun _ => noAnswer) h⟩
  case regUartRbr => exact ⟨_, fun _ => rfl, fun _ _ _ h => load_effect (f := answerOne) h⟩
  case regUartIir => exact ⟨_, fun _ => rfl, fun _ _ _ h => load_effect (f := answerOne) h⟩
  case regUartThr v => exact ⟨_, fun _ => rfl, fun _ _ _ h => store_effect (f := fun _ => noAnswer) h⟩
  case regUartFcr v => exact ⟨_, fun _ => rfl, fun _ _ _ h => store_effect (f := fun _ => noAnswer) h⟩
  case regPlicPriority _ a | regPlicPending _ a | regPlicEnable _ _ a | regPlicThreshold _ a | regPlicReserved _ a
      | regUartIer a | regUartLcr a | regUartOffset4 a | regUartLsr a | regUartMsr a | regUartOffset7 a =>
    cases a <;> exact ⟨_, fun _ => rfl, fun _ _ _ h => by
      first | exact load_effect (f := answerOne) h | exact store_effect (f := fun _ => noAnswer) h⟩
  all_goals
    refine ⟨_, fun _ => rfl, fun s b t h => ?_⟩
    simp only [Res.ok.injEq] at h
    rw [← h.2]
    exact .pure

end Sys2Proof.Machine
end

