-- ==== Sys2Proof/Laws/Steps.lean ====
section
/-! SUPPORT. Every step that goes on, by the agent that makes it: `StepShape` lists what each can lead to, `exec_shape`
and `hostNext_shape` say that nothing else happens, `step_turn` reduces a step of the machine to one of them. -/

namespace Sys2Proof.Machine

open Sys2Proof

/-- What the instruction `i` can lead to from `s`. -/
inductive StepShape (i : Instr) (s : State) : State → Prop where
  | stay : StepShape i s s
  | host (hr : hostReady s = true) (hi : agentOf i = .host) (u : State) (a : Answer) (h : HostEffect i s u) :
      StepShape i s (u.answer a.1 a.2)
  | raised (hr : hostReady s = true) (hi : agentOf i = .host) (e : BitVec 31) (t : State)
      (h : raiseException s e = .next t) : StepShape i s t
  | boot0 (hi : i = .bootB0) (hb : s.boot = .b0) (hd : s.disp = .idle) : StepShape i s
      ((csrWriteState (csrWriteState s .mtvec s.cfg.trapEntry) .stvec s.cfg.trapEntry).setBoot .b1)
  | boot1 (hi : i = .bootB1) (hb : s.boot = .b1) (hd : s.disp = .idle) :
      StepShape i s ((csrWriteState s .satp 0).setBoot .b2)
  | boot2 (hi : i = .bootB2) (hb : s.boot = .b2) (hd : s.disp = .idle) : StepShape i s
      ((csrWriteState (csrWriteState s .pmpaddr0 s.cfg.pmpAddr0) .pmpcfg0 s.cfg.pmpCfg0).setBoot .b3)
  | boot3 (hi : i = .bootB3) (hb : s.boot = .b3) (hd : s.disp = .idle) : StepShape i s
      (((csrWriteState s .mepc s.cfg.mainEntry).setCsr
        { (csrWriteState s .mepc s.cfg.mainEntry).csr with
          mstatus := setMpp s.csr.mstatus s.cfg.bootTarget.code }).setBoot .b4)
  | boot4 (hi : i = .bootB4) (hb : s.boot = .b4) (hd : s.disp = .idle) : StepShape i s
      ((s.setCsr { s.csr with
        mstatus := setBit s.csr.mstatus (match s.cfg.bootTarget with | .S => 1 | .M => 7) true }).setBoot .b5)
  | boot5 (hi : i = .bootB5) (hb : s.boot = .b5) (hd : s.disp = .idle) : StepShape i s
      ((csrWriteState (csrWriteState s .medeleg s.cfg.edelegMask) .mideleg s.cfg.idelegMask).setBoot .b6)
  | boot6 (hi : i = .bootB6) (hb : s.boot = .b6) (hd : s.disp = .idle) (u : State) (h : mretEffects s = .ok () u) :
      StepShape i s (u.setBoot .done)
  | interrupt (hi : i = .trapInt) (hd : s.disp = .idle) (k : Nat) (hk : interruptChoice s = some k) (t : State)
      (h : trapEnter s true (BitVec.ofNat 31 k) = .next t) : StepShape i s t
  | routeInt (hi : i = .dispRoute) (hd : s.disp = .decoding) (ht : s.dregs.tc.isInterrupt = true) :
      StepShape i s (setIh (s.setDisp .interruptHandling) .report)
  | routeExc (hi : i = .dispRoute) (hd : s.disp = .decoding) (ht : s.dregs.tc.isInterrupt = false) :
      StepShape i s (s.setDisp .exceptionFatal)
  | fatal (hi : i = .dispFatal) (hd : s.disp = .exceptionFatal) : StepShape i s
      ((report s (exceptionTag s.dregs.tc) (s.dregs.tc.code.setWidth 32)).setDisp .halted)
  | ireport (hi : i = .dispIreport) (hs : inService s .report = true) (d : DispRegs)
      (h : d = { s.dregs with ctx := contextIndex 0 false, ih := .claim } ∨
        d = { s.dregs with ctx := contextIndex 0 true, ih := .claim } ∨ d = { s.dregs with ih := .ret }) :
      StepShape i s ((report s (interruptTag s.dregs.tc) (s.dregs.tc.code.setWidth 32)).setDregs d)
  | claim (hi : i = .dispClaim) (hs : inService s .claim = true) (id : Word) (u : State)
      (h : memRead s (claimAddress s.cfg s.cfg.plicBase s.dregs.ctx) .word = .ok id u) :
      StepShape i s (claimRoute u id)
  | rxpoll (hi : i = .dispRxpoll) (hs : inService s .svcRxPoll = true) (l : Word) (u : State)
      (h : uartLoad s 5 = .ok l u) :
      StepShape i s (setIh u (if l.getLsbD 0 then .svcRxRead else .svcRxPoll))
  | rxread (hi : i = .dispRxread) (hs : inService s .svcRxRead = true) (b : Word) (u : State)
      (h : uartLoad s 0 = .ok b u) : StepShape i s (u.setDregs { u.dregs with
        dTxq := (putcSeq (crToLf (b.setWidth 8))).1 :: (putcSeq (crToLf (b.setWidth 8))).2, ih := .svcTxPoll })
  | txpoll (hi : i = .dispTxpoll) (hs : inService s .svcTxPoll = true) (l : Word) (u : State)
      (h : uartLoad s 5 = .ok l u) :
      StepShape i s (setIh u (if l.getLsbD 5 then .svcTxWrite else .svcTxPoll))
  | txwrite (hi : i = .dispTxwrite) (hs : inService s .svcTxWrite = true) (b : Byte) (rest : List Byte)
      (hq : s.dregs.dTxq = b :: rest) (u : State) (h : uartStore s 0 b = .ok () u) :
      StepShape i s (u.setDregs { u.dregs with
        dTxq := rest, ih := if rest.isEmpty then .complete else .svcTxPoll })
  | complete (hi : i = .dispComplete) (hs : inService s .complete = true) (u : State)
      (h : memWrite s (claimAddress s.cfg s.cfg.plicBase s.dregs.ctx) .word s.dregs.claimedId = .ok () u) :
      StepShape i s (setIh u .ret)
  | ret (hi : i = .dispReturn) (hs : inService s .ret = true) (u : State)
      (h : (s.dregs.trapMode = .M ∧ mretEffects s = .ok () u) ∨ (s.dregs.trapMode = .S ∧ sretEffects s = .ok () u)) :
      StepShape i s (dispIdle u)
  | double (hi : agentOf i = .disp) (hd : s.disp = .interruptHandling) : StepShape i s (doubleTrap s)
  | gateway (w : Word) (hi : i = .plicGateway w) (h : gatewayReady s w.toNat = true) :
      StepShape i s (s.setPlic (s.plic.setGate w.toNat .pending))
  | txload (hi : i = .uartTxload) (b : Byte) (rest : List Byte) (ht : s.uart.tsr = none)
      (h : s.uart.txFifo = b :: rest) : StepShape i s (s.setUart { s.uart with
        tsr := some b, txFifo := rest, threIp := s.uart.threIp || rest.isEmpty })
  | txemit (hi : i = .uartTxemit) (b : Byte) (h : s.uart.tsr = some b) :
      StepShape i s ((s.setUart { s.uart with tsr := none }).setTxLog (s.txLog ++ [b]))
  | rxarrive (b : Byte) (pe fe bi : Bool) (hi : i = .uartRxarrive b pe fe bi) : StepShape i s
      (s.setUart { rxPush s.uart (s.uart.cap s.cfg) b with
        err := (rxPush s.uart (s.uart.cap s.cfg) b).err ||| rxErrors pe fe bi })
  | modem (v : BitVec 4) (hi : i = .uartModem v) : StepShape i s (s.setUart { s.uart with
      msrDelta := s.uart.msrDelta ||| modemDelta s.uart.modemIn v, modemIn := v })
  | mtip (v : Bool) (hi : i = .pinMtip v) : StepShape i s (s.setPins { s.pins with mtip := v })
  | msip (v : Bool) (hi : i = .pinMsip v) : StepShape i s (s.setPins { s.pins with msip := v })
  | line (src : Word) (v : Bool) (hi : i = .pinLine src v)
      (h : s.cfg.isSource src.toNat = true ∧ src.toNat ≠ s.cfg.uartSourceId) :
      StepShape i s (s.setPlic (s.plic.setExt src.toNat v))
  | reset (hi : i = .reset) : StepShape i s s.afterReset

theorem host_shape {i : Instr} {s t : State} (hi : agentOf i = .host) (h : exec i s = .next t) : StepShape i s t := by
  obtain ⟨body, h1, h2⟩ := host_step i hi
  rw [h1] at h
  rcases hostCommand_cases h with rfl | ⟨hr, a, u, hb, rfl⟩ | ⟨hr, e, -, he⟩
  · exact .stay
  · exact .host hr hi u a (h2 s a u hb)
  · exact .raised hr hi e t he

theorem boot_cases {s t : State} {label next : Boot} {body : State → Res Unit}
    (h : bootStep s label next body = .next t) (hn : ∀ e, body s ≠ .raise e) :
    t = s ∨ (s.boot = label ∧ s.disp = .idle ∧ ∃ u, body s = .ok () u ∧ t = u.setBoot next) := by
  unfold bootStep at h
  split at h
  · next hg =>
    cases hb : body s with
    | ok a u => rw [hb] at h; right; exact ⟨hg.1, hg.2, u, rfl, by simpa using h.symm⟩
    | raise e => exact absurd hb (hn e)
    | refuse r => rw [hb] at h; cases h
  · left; simpa using h.symm

theorem mretEffects_no_raise (s : State) (e : BitVec 31) : mretEffects s ≠ .raise e := by
  unfold mretEffects; split <;> simp

theorem sretEffects_no_raise (s : State) (e : BitVec 31) : sretEffects s ≠ .raise e := by
  unfold sretEffects; split <;> simp

theorem boot_shape {i : Instr} {s t : State} (hi : agentOf i = .boot) (h : exec i s = .next t) : StepShape i s t := by
  cases i <;> first | (simp [agentOf] at hi; done) | skip
  case bootB0 =>
    simp only [exec, execBootB0] at h
    rcases boot_cases h (by simp) with rfl | ⟨hb, hd, u, hu, rfl⟩
    · exact .stay
    · simp only [Res.ok.injEq, true_and] at hu; subst hu; exact .boot0 rfl hb hd
  case bootB1 =>
    simp only [exec, execBootB1] at h
    rcases boot_cases h (by simp) with rfl | ⟨hb, hd, u, hu, rfl⟩
    · exact .stay
    · simp only [Res.ok.injEq, true_and] at hu; subst hu; exact .boot1 rfl hb hd
  case bootB2 =>
    simp only [exec, execBootB2] at h
    rcases boot_cases h (by simp) with rfl | ⟨hb, hd, u, hu, rfl⟩
    · exact .stay
    · simp only [Res.ok.injEq, true_and] at hu; subst hu; exact .boot2 rfl hb hd
  case bootB3 =>
    simp only [exec, execBootB3] at h
    rcases boot_cases h (by simp) with rfl | ⟨hb, hd, u, hu, rfl⟩
    · exact .stay
    · simp only [Res.ok.injEq, true_and] at hu; subst hu; exact .boot3 rfl hb hd
  case bootB4 =>
    simp only [exec, execBootB4] at h
    rcases boot_cases h (by simp) with rfl | ⟨hb, hd, u, hu, rfl⟩
    · exact .stay
    · simp only [Res.ok.injEq, true_and] at hu; subst hu; exact .boot4 rfl hb hd
  case bootB5 =>
    simp only [exec, execBootB5] at h
    rcases boot_cases h (by simp) with rfl | ⟨hb, hd, u, hu, rfl⟩
    · exact .stay
    · simp only [Res.ok.injEq, true_and] at hu; subst hu; exact .boot5 rfl hb hd
  case bootB6 =>
    simp only [exec, execBootB6] at h
    rcases boot_cases h (mretEffects_no_raise s) with rfl | ⟨hb, hd, u, hu, rfl⟩
    · exact .stay
    · exact .boot6 rfl hb hd u hu

theorem disp_shape {i : Instr} {s t : State} (hi : agentOf i = .disp) (h : exec i s = .next t) : StepShape i s t := by
  cases i <;> first | (simp [agentOf] at hi; done) | skip
  case dispRoute =>
    simp only [exec, execDispRoute] at h
    rcases dispStep_cases h with ⟨-, rfl⟩ | ⟨hg, hb⟩ | ⟨-, -, e, hb⟩
    · exact .stay
    · simp only [decide_eq_true_eq] at hg
      cases ht : s.dregs.tc.isInterrupt <;>
        simp only [ht, if_true, if_false, Bool.false_eq_true, Res.ok.injEq, true_and] at hb <;> subst hb
      · exact .routeExc rfl hg ht
      · exact .routeInt rfl hg ht
    · cases hb
  case dispFatal =>
    simp only [exec, execDispFatal] at h
    rcases dispStep_cases h with ⟨-, rfl⟩ | ⟨hg, hb⟩ | ⟨-, -, e, hb⟩
    · exact .stay
    · simp only [Res.ok.injEq, true_and] at hb; subst hb
      exact .fatal rfl (by simpa using hg)
    · cases hb
  case dispIreport =>
    simp only [exec, execDispIreport] at h
    rcases dispStep_cases h with ⟨-, rfl⟩ | ⟨hg, hb⟩ | ⟨-, -, e, hb⟩
    · exact .stay
    · split at hb
      · split at hb
        · simp only [Res.ok.injEq, true_and] at hb; subst hb; exact .ireport rfl hg _ (.inl rfl)
        · split at hb
          · simp only [Res.ok.injEq, true_and] at hb; subst hb; exact .ireport rfl hg _ (.inr (.inl rfl))
          · simp only [Res.ok.injEq, true_and] at hb; subst hb; exact .ireport rfl hg _ (.inr (.inr rfl))
      · simp only [Res.ok.injEq, true_and] at hb; subst hb; exact .ireport rfl hg _ (.inr (.inr rfl))
    · split at hb
      · split at hb
        · cases hb
        · split at hb <;> cases hb
      · cases hb
  case dispClaim =>
    simp only [exec, execDispClaim] at h
    rcases dispStep_cases h with ⟨-, rfl⟩ | ⟨hg, hb⟩ | ⟨hg, rfl, -⟩
    · exact .stay
    · obtain ⟨id, u, h1, h2⟩ := andThen_eq_ok hb
      simp only [Res.ok.injEq, true_and] at h2; subst h2
      exact .claim rfl hg id u h1
    · exact .double rfl ((inService_iff s _).1 hg).1
  case dispRxpoll =>
    simp only [exec, execDispRxpoll] at h
    rcases dispStep_cases h with ⟨-, rfl⟩ | ⟨hg, hb⟩ | ⟨hg, rfl, -⟩
    · exact .stay
    · obtain ⟨id, u, h1, h2⟩ := andThen_eq_ok hb
      simp only [Res.ok.injEq, true_and] at h2; subst h2
      exact .rxpoll rfl hg id u h1
    · exact .double rfl ((inService_iff s _).1 hg).1
  case dispRxread =>
    simp only [exec, execDispRxread] at h
    rcases dispStep_cases h with ⟨-, rfl⟩ | ⟨hg, hb⟩ | ⟨hg, rfl, -⟩
    · exact .stay
    · obtain ⟨id, u, h1, h2⟩ := andThen_eq_ok hb
      simp only [Res.ok.injEq, true_and] at h2; subst h2
      exact .rxread rfl hg id u h1
    · exact .double rfl ((inService_iff s _).1 hg).1
  case dispTxpoll =>
    simp only [exec, execDispTxpoll] at h
    rcases dispStep_cases h with ⟨-, rfl⟩ | ⟨hg, hb⟩ | ⟨hg, rfl, -⟩
    · exact .stay
    · obtain ⟨id, u, h1, h2⟩ := andThen_eq_ok hb
      simp only [Res.ok.injEq, true_and] at h2; subst h2
      exact .txpoll rfl hg id u h1
    · exact .double rfl ((inService_iff s _).1 hg).1
  case dispTxwrite =>
    simp only [exec, execDispTxwrite] at h
    split at h
    · split at h
      · next b rest hq =>
        rcases dispStep_cases h with ⟨-, rfl⟩ | ⟨hg, hb⟩ | ⟨hg, rfl, -⟩
        · exact .stay
        · obtain ⟨_, u, h1, h2⟩ := andThen_eq_ok hb
          simp only [Res.ok.injEq, true_and] at h2; subst h2
          exact .txwrite rfl hg b rest hq u h1
        · exact .double rfl ((inService_iff s _).1 hg).1
      · cases h
    · simp only [Host.Outcome.next.injEq] at h; subst h; exact .stay
  case dispComplete =>
    simp only [exec, execDispComplete] at h
    rcases dispStep_cases h with ⟨-, rfl⟩ | ⟨hg, hb⟩ | ⟨hg, rfl, -⟩
    · exact .stay
    · obtain ⟨_, u, h1, h2⟩ := andThen_eq_ok hb
      simp only [Res.ok.injEq, true_and] at h2; subst h2
      exact .complete rfl hg u h1
    · exact .double rfl ((inService_iff s _).1 hg).1
  case dispReturn =>
    simp only [exec, execDispReturn] at h
    rcases dispStep_cases h with ⟨-, rfl⟩ | ⟨hg, hb⟩ | ⟨hg, rfl, -⟩
    · exact .stay
    · obtain ⟨_, u, h1, h2⟩ := andThen_eq_ok hb
      simp only [Res.ok.injEq, true_and] at h2; subst h2
      refine .ret rfl hg u ?_
      cases hm : s.dregs.trapMode <;> simp only [hm] at h1
      · exact .inl ⟨rfl, h1⟩
      · exact .inr ⟨rfl, h1⟩
    · exact .double rfl ((inService_iff s _).1 hg).1

/-- EVERY STEP, in one lemma: an instruction that goes on leads to one of the listed states. -/
theorem exec_shape {i : Instr} {s t : State} (h : exec i s = .next t) : StepShape i s t := by
  by_cases hh : agentOf i = .host
  · exact host_shape hh h
  by_cases hb : agentOf i = .boot
  · exact boot_shape hb h
  by_cases hd : agentOf i = .disp
  · exact disp_shape hd h
  cases i <;> first | (simp [agentOf] at hh hb hd; done) | skip
  case trapInt =>
    simp only [exec, execTrapInt] at h
    split at h
    · next hd =>
      split at h
      · next k hk => exact .interrupt rfl hd k hk t h
      · simp only [Host.Outcome.next.injEq] at h; subst h; exact .stay
    · simp only [Host.Outcome.next.injEq] at h; subst h; exact .stay
  case plicGateway w =>
    simp only [exec, execPlicGateway] at h
    split at h
    · next hg => simp only [Host.Outcome.next.injEq] at h; subst h; exact .gateway w rfl hg
    · simp only [Host.Outcome.next.injEq] at h; subst h; exact .stay
  case uartTxload =>
    simp only [exec, execUartTxload] at h
    split at h
    · next b rest ht hf => simp only [Host.Outcome.next.injEq] at h; subst h; exact .txload rfl b rest ht hf
    · simp only [Host.Outcome.next.injEq] at h; subst h; exact .stay
  case uartTxemit =>
    simp only [exec, execUartTxemit] at h
    split at h
    · next b ht => simp only [Host.Outcome.next.injEq] at h; subst h; exact .txemit rfl b ht
    · simp only [Host.Outcome.next.injEq] at h; subst h; exact .stay
  case uartRxarrive b pe fe bi =>
    simp only [exec, execUartRxarrive, Host.Outcome.next.injEq] at h; subst h; exact .rxarrive b pe fe bi rfl
  case uartModem v =>
    simp only [exec, execUartModem, Host.Outcome.next.injEq] at h; subst h; exact .modem v rfl
  case pinMtip v => simp only [exec, execPinMtip, Host.Outcome.next.injEq] at h; subst h; exact .mtip v rfl
  case pinMsip v => simp only [exec, execPinMsip, Host.Outcome.next.injEq] at h; subst h; exact .msip v rfl
  case pinLine src v =>
    simp only [exec, execPinLine] at h
    split at h
    · next hg => simp only [Host.Outcome.next.injEq] at h; subst h; exact .line src v rfl hg
    · simp only [Host.Outcome.next.injEq] at h; subst h; exact .stay
  case reset => simp only [exec, execReset, Host.Outcome.next.injEq] at h; subst h; exact .reset rfl

/-- What HOST's next sequence step can lead to. -/
theorem hostNext_cases {s t : State} (h : hostNext s = .next t) :
    t = s ∨ (s.boot = .done ∧ s.disp = .idle ∧
      ((∃ (u : State) (q : Option HostSeq) (a : Answer), MemEffect s u ∧ t = (u.setHseq q).answer a.1 a.2) ∨
        ∃ e, raiseException s e = .next t)) := by
  unfold hostNext at h
  split at h
  · left; simpa using h.symm
  · next q hq =>
    split at h
    · next hg =>
      right
      refine ⟨hg.1, hg.2, ?_⟩
      cases hb : seqStep q s with
      | ok a u =>
        rw [hb, hostFinish_ok] at h
        obtain ⟨v, q', h1, rfl⟩ := seqStep_effect hb
        left
        exact ⟨v, q', a, h1, by simpa using h.symm⟩
      | raise e => rw [hb] at h; right; exact ⟨e, h⟩
      | refuse r => rw [hb] at h; cases h
    · left; simpa using h.symm

/-- A step of the machine is a step of the turn it fetches, on the state without that turn; with no turn to make it
changes nothing. -/
theorem step_turn {s t : State} (h : step s = .next t) :
    t = s ∨ ∃ u : State, (∃ l, u = s.setSched l) ∧ ((∃ i, exec i u = .next t) ∨ hostNext u = .next t) := by
  have hs : s = s.setSched s.sched := rfl
  have hill : ∀ u : State, illegalCommand u = exec (.hartException 2) u := fun u => by
    simp only [exec, execHartException_two, illegalCommand]
  unfold step fetch at h
  split at h
  · next i u hf =>
    right
    split at hf
    · unfold autonomous at hf
      split at hf
      · injection hf with h1 h2; subst h1 h2; exact ⟨_, ⟨_, hs⟩, .inl ⟨_, h⟩⟩
      · split at hf <;> cases hf
    · cases hf
    · unfold fetchSlot at hf
      split at hf
      · injection hf with h1 h2; subst h1 h2; exact ⟨_, ⟨_, rfl⟩, .inl ⟨_, h⟩⟩
      · cases hf
  · next u hf =>
    right
    split at hf
    · unfold autonomous at hf
      split at hf
      · cases hf
      · split at hf
        · injection hf with h1; subst h1; exact ⟨_, ⟨_, hs⟩, .inr h⟩
        · cases hf
    · injection hf with h1; subst h1; exact ⟨_, ⟨_, rfl⟩, .inr h⟩
    · unfold fetchSlot at hf
      split at hf <;> cases hf
  · next e u hf =>
    right
    have hu : ∃ l, u = s.setSched l := by
      split at hf
      · unfold autonomous at hf
        split at hf
        · cases hf
        · split at hf <;> cases hf
      · cases hf
      · unfold fetchSlot at hf
        split at hf
        · cases hf
        · injection hf with h1 h2; exact ⟨_, h2.symm⟩
    refine ⟨u, hu, .inl ⟨.hartException 2, ?_⟩⟩
    cases e <;> simp only [rejectTurn, hill, reduceCtorEq] at h <;> exact h
  · left; simpa using h.symm

end Sys2Proof.Machine
end

