-- ==== Sys2Proof/Laws/Uart.lean ====
section
/-! SUPPORT. The UART's registers, at an access the current mode may make: one lemma per register and direction, and the
bits of the values they read as. -/

namespace Sys2Proof.Machine

open Sys2Proof

variable {s : State}

/-! ## Reads -/

theorem uartLoad_rbr (hc : s.cfg.wf = true) (hm : s.mayAccess (uartReg s 0) .byte .read = true)
    (hl : s.uart.lcr.getLsbD 7 = false) :
    uartLoad s 0 = .ok ((rbrRead s).1.setWidth 32) (rbrRead s).2 := by
  rw [uartLoad_eq s 0 hc (by decide) hm]
  simp only [uartRegRead, hl, Bool.false_eq_true, false_and, if_false]
  rfl

theorem uartLoad_ier (hc : s.cfg.wf = true) (hm : s.mayAccess (uartReg s 1) .byte .read = true)
    (hl : s.uart.lcr.getLsbD 7 = false) :
    uartLoad s 1 = .ok ((s.uart.ier.setWidth 8).setWidth 32) s := by
  rw [uartLoad_eq s 1 hc (by decide) hm]
  simp only [uartRegRead, hl, Bool.false_eq_true, false_and, if_false]
  rfl

theorem uartLoad_iir (hc : s.cfg.wf = true) (hm : s.mayAccess (uartReg s 2) .byte .read = true) :
    uartLoad s 2 = .ok (s.uart.iir.setWidth 32) (s.setUart (iirRead s.uart).2) := by
  rw [uartLoad_eq s 2 hc (by decide) hm, uartRegRead, if_neg (by simp)]
  rfl

theorem uartLoad_lcr (hc : s.cfg.wf = true) (hm : s.mayAccess (uartReg s 3) .byte .read = true) :
    uartLoad s 3 = .ok (s.uart.lcr.setWidth 32) s := by
  rw [uartLoad_eq s 3 hc (by decide) hm, uartRegRead, if_neg (by simp)]
  rfl

theorem uartLoad_lsr (hc : s.cfg.wf = true) (hm : s.mayAccess (uartReg s 5) .byte .read = true) :
    uartLoad s 5 = .ok (s.uart.lsr.setWidth 32) (s.setUart { s.uart with err := 0 }) := by
  rw [uartLoad_eq s 5 hc (by decide) hm, uartRegRead, if_neg (by simp)]
  rfl

theorem uartLoad_msr (hc : s.cfg.wf = true) (hm : s.mayAccess (uartReg s 6) .byte .read = true) :
    uartLoad s 6 = .ok (s.uart.msr.setWidth 32) (s.setUart { s.uart with msrDelta := 0 }) := by
  rw [uartLoad_eq s 6 hc (by decide) hm, uartRegRead, if_neg (by simp)]
  rfl

/-- Offsets 0 and 1 have no successor while divisor access is on (43_uart.md R181). -/
theorem uartLoad_divisor (o : Word) (ho : o.toNat < 2) (hc : s.cfg.wf = true)
    (hm : s.mayAccess (uartReg s o) .byte .read = true) (hl : s.uart.lcr.getLsbD 7 = true) :
    uartLoad s o = .refuse .uartDivisorLatch := by
  have h3 : (o.setWidth 3).toNat < 2 := by simp; omega
  rw [uartLoad_eq s o hc (by omega) hm, uartRegRead, if_pos ⟨hl, h3⟩]
  rfl

/-! ## Writes -/

theorem uartStore_thr (v : Byte) (hc : s.cfg.wf = true) (hm : s.mayAccess (uartReg s 0) .byte .write = true)
    (hl : s.uart.lcr.getLsbD 7 = false) : uartStore s 0 v = .ok () (thrWrite s v) := by
  rw [uartStore_eq s 0 v hc (by decide) hm]
  simp only [uartRegWrite, hl, Bool.false_eq_true, false_and, if_false]
  rfl

theorem uartStore_ier (v : Byte) (hc : s.cfg.wf = true) (hm : s.mayAccess (uartReg s 1) .byte .write = true)
    (hl : s.uart.lcr.getLsbD 7 = false) : uartStore s 1 v = .ok () (s.setUart (ierWrite s.uart v)) := by
  rw [uartStore_eq s 1 v hc (by decide) hm]
  simp only [uartRegWrite, hl, Bool.false_eq_true, false_and, if_false]
  rfl

theorem uartStore_fcr (v : Byte) (hc : s.cfg.wf = true) (hm : s.mayAccess (uartReg s 2) .byte .write = true) :
    uartStore s 2 v = match fcrWrite s.uart v with
      | some u => .ok () (s.setUart u)
      | none => .refuse .uartRxTrigger := by
  rw [uartStore_eq s 2 v hc (by decide) hm, uartRegWrite, if_neg (by simp)]
  rfl

theorem uartStore_lcr (v : Byte) (hc : s.cfg.wf = true) (hm : s.mayAccess (uartReg s 3) .byte .write = true) :
    uartStore s 3 v = .ok () (s.setUart { s.uart with lcr := v }) := by
  rw [uartStore_eq s 3 v hc (by decide) hm, uartRegWrite, if_neg (by simp)]
  rfl

theorem uartStore_lsr (v : Byte) (hc : s.cfg.wf = true) (hm : s.mayAccess (uartReg s 5) .byte .write = true) :
    uartStore s 5 v = .ok () s := by
  rw [uartStore_eq s 5 v hc (by decide) hm, uartRegWrite, if_neg (by simp)]
  rfl

theorem uartStore_msr (v : Byte) (hc : s.cfg.wf = true) (hm : s.mayAccess (uartReg s 6) .byte .write = true) :
    uartStore s 6 v = .ok () s := by
  rw [uartStore_eq s 6 v hc (by decide) hm, uartRegWrite, if_neg (by simp)]
  rfl

/-- The transmit-empty latch after an interrupt-enable write (43_uart.md R185). -/
theorem ierWrite_eq (u : Uart) (v : Byte) : ierWrite u v = { u with
    ier := v.setWidth 4,
    threIp := if u.ier.getLsbD 1 = false ∧ v.getLsbD 1 = true ∧ u.txFifo = [] then true else u.threIp } := by
  unfold ierWrite
  congr 1
  cases u.ier.getLsbD 1 <;> cases v.getLsbD 1 <;> cases u.txFifo <;> simp

/-- A FIFO-control write without a trigger level (43_uart.md R187). -/
theorem fcrWrite_eq (u : Uart) (v : Byte) (hv : v.toNat < 64) : fcrWrite u v = some { u with
    fifoEn := v.getLsbD 0
    rxFifo := if v.getLsbD 1 = true ∨ v.getLsbD 0 ≠ u.fifoEn then [] else u.rxFifo
    txFifo := if v.getLsbD 2 = true ∨ v.getLsbD 0 ≠ u.fifoEn then [] else u.txFifo
    threIp := if v.getLsbD 2 = true ∨ v.getLsbD 0 ≠ u.fifoEn then true else u.threIp } := by
  have h76 : ¬(v.extractLsb 7 6 ≠ 0) := by
    intro h1
    apply h1
    apply BitVec.eq_of_toNat_eq
    simp [BitVec.extractLsb, Nat.shiftRight_eq_div_pow]
    omega
  unfold fcrWrite
  rw [if_neg h76]
  cases v.getLsbD 0 <;> cases u.fifoEn <;> cases v.getLsbD 1 <;> cases v.getLsbD 2 <;> simp

/-- A FIFO-control write with a trigger level has no successor (43_uart.md R187). -/
theorem fcrWrite_trigger (u : Uart) (v : Byte) (hv : 64 ≤ v.toNat) : fcrWrite u v = none := by
  have h76 : v.extractLsb 7 6 ≠ 0 := by
    intro h1
    have h2 := congrArg BitVec.toNat h1
    have := v.isLt
    simp [BitVec.extractLsb, Nat.shiftRight_eq_div_pow] at h2
    omega
  unfold fcrWrite
  rw [if_pos h76]

/-! ## The values read -/

theorem lsr_data_ready (u : Uart) : (u.lsr.setWidth 32).getLsbD 0 = decide (u.rxFifo ≠ []) := by
  unfold Uart.lsr byteFlag
  cases u.rxFifo <;> cases u.txFifo <;> simp

theorem lsr_transmit_ready (u : Uart) : (u.lsr.setWidth 32).getLsbD 5 = decide (u.txFifo = []) := by
  unfold Uart.lsr byteFlag
  cases u.rxFifo <;> cases u.txFifo <;> simp

theorem lsr_transmit_empty (u : Uart) :
    (u.lsr.setWidth 32).getLsbD 6 = (decide (u.txFifo = []) && decide (u.tsr = none)) := by
  unfold Uart.lsr byteFlag
  cases u.rxFifo <;> cases u.txFifo <;> cases u.tsr <;> simp

/-- The line-status byte, bit group by bit group (10_state.md R47). -/
theorem lsr_eq (u : Uart) : u.lsr =
    BitVec.ofBool false ++ BitVec.ofBool (decide (u.txFifo = []) && decide (u.tsr = none)) ++
      BitVec.ofBool (decide (u.txFifo = [])) ++ u.err ++ BitVec.ofBool (decide (u.rxFifo ≠ [])) := by
  unfold Uart.lsr byteFlag
  generalize u.err = e
  cases u.rxFifo <;> cases u.txFifo <;> cases u.tsr <;> simp <;> (revert e; decide)

/-- The interrupt-identification byte (43_uart.md R186). -/
theorem iir_eq (u : Uart) :
    u.iir = BitVec.ofBool u.fifoEn ++ BitVec.ofBool u.fifoEn ++ (0 : BitVec 2) ++ u.iid := by
  unfold Uart.iir byteFlag
  generalize u.iid = e
  cases u.fifoEn <;> revert e <;> decide

/-- The not-pending bit, inverted, is the interrupt output (43_uart.md R206). -/
theorem iir_pending (u : Uart) : flag (!(u.iir.setWidth 32).getLsbD 0) = if u.irq then 1 else 0 := by
  have h : (u.iir.setWidth 32).getLsbD 0 = u.iid.getLsbD 0 := by
    unfold Uart.iir byteFlag
    cases u.fifoEn <;> simp
  rw [h]
  unfold Uart.irq
  cases u.iid.getLsbD 0 <;> rfl

theorem ier_byte_eq (e : BitVec 4) : e.setWidth 8 = (0 : BitVec 4) ++ e := by revert e; decide

/-- The bytes an echo sends for a received byte (45_trap_dispatch.md R246). -/
theorem echo_bytes (b : Byte) :
    (putcSeq (crToLf ((b.setWidth 32).setWidth 8))).1 :: (putcSeq (crToLf ((b.setWidth 32).setWidth 8))).2 =
      if b = 0x0D ∨ b = 0x0A then [0x0D, 0x0A] else [b] := by
  have h8 : (b.setWidth 32).setWidth 8 = b := by simp
  rw [h8]
  unfold putcSeq crToLf
  by_cases h : b = 0x0D
  · subst h; rfl
  · by_cases h' : b = 0x0A
    · subst h'; rfl
    · rw [if_neg h, if_neg h', if_neg (by tauto)]

theorem report_bytes_eq (tag : Byte) (v : Word) : reportBytes tag v =
    [tag, v.extractLsb' 0 8, v.extractLsb' 8 8, v.extractLsb' 16 8, v.extractLsb' 24 8] := by
  unfold reportBytes
  congr 1

end Sys2Proof.Machine
end

