-- ==== Sys2Proof/Laws/Frames.lean ====
section
/-! SUPPORT. What each step does to the PLIC, and what the device accesses of the dispatch FSM answer and leave. -/

namespace Sys2Proof.Machine

open Sys2Proof

/-- What a memory access does to a gateway: nothing, a claim of a pending source, or the release of a claimed one. -/
theorem mem_gate {s t : State} (h : MemEffect s t) (src : Nat) :
    t.plic.gate src = s.plic.gate src ∨
    (∃ c, t.plic.gate src = .claimed c ∧ s.plic.gate src = .pending ∧
      ∀ j, j ≠ src → t.plic.gate j = s.plic.gate j) ∨
    (t.plic.gate src = .open ∧ (∃ c, s.plic.gate src = .claimed c) ∧
      ∀ j, j ≠ src → t.plic.gate j = s.plic.gate j) := by
  cases h with
  | claim c x hb =>
    simp only [State.setPlic_plic, setGate_gate]
    by_cases h : src = x
    · subst h; right; left; refine ⟨c, by simp, (best_source hb).2.2, ?_⟩; intro j hj; simp [hj]
    · simp [h]
  | release c x hs hg =>
    simp only [State.setPlic_plic, setGate_gate]
    by_cases h : src = x
    · subst h; right; right; refine ⟨by simp, ⟨c, hg⟩, ?_⟩; intro j hj; simp [hj]
    · simp [h]
  | prio => left; simp [State.setPlic]
  | enable => left; simp [State.setPlic]
  | thresh => left; simp [State.setPlic]
  | _ => left; rfl

/-- A host command's PLIC is that of its one memory access. -/
theorem host_plic {i : Instr} {s t : State} (h : HostEffect i s t) : ∃ u, MemEffect s u ∧ t.plic = u.plic := by
  cases h with
  | mem u h => exact ⟨_, h, rfl⟩
  | memSeq u q h => exact ⟨_, h, rfl⟩
  | mret _ _ _ h => obtain ⟨-, rfl⟩ := mretEffects_cases h; exact ⟨s, .same, rfl⟩
  | sret _ _ h => obtain ⟨-, rfl⟩ := sretEffects_cases h; exact ⟨s, .same, rfl⟩
  | _ => exact ⟨s, .same, rfl⟩

/-- Taking an exception leaves the PLIC. -/
theorem raise_plic {s t : State} {e} (h : raiseException s e = .next t) : t.plic = s.plic := by
  rcases trapEnter_cases h with ⟨-, -, rfl⟩ | ⟨-, -, rfl⟩ <;> rfl

/-- A report leaves the PLIC. -/
theorem report_plic (s a b) : (report s a b).plic = s.plic := rfl

/-- The route after a claim leaves the PLIC. -/
theorem route_plic (s a) : (claimRoute s a).plic = s.plic := by
  unfold claimRoute; split
  · rfl
  · split <;> rfl

/-- What an instruction does to the PLIC: one memory access, a gateway, a line, or reset. -/
theorem exec_plic {i : Instr} {s t : State} (h : exec i s = .next t) :
    (∃ u, MemEffect s u ∧ t.plic = u.plic) ∨
    (∃ w, i = .plicGateway w ∧ gatewayReady s w.toNat = true ∧ t.plic = s.plic.setGate w.toNat .pending) ∨
    (∃ src v, s.cfg.isSource src = true ∧ src ≠ s.cfg.uartSourceId ∧ t.plic = s.plic.setExt src v) ∨
    t = s.afterReset := by
  have hsh := exec_shape h; clear h
  cases hsh with
  | host hr hi u a h => obtain ⟨v, h1, h2⟩ := host_plic h; exact .inl ⟨v, h1, h2⟩
  | raised hr hi e t h => exact .inl ⟨s, .same, raise_plic h⟩
  | boot6 hi hb hd u h => obtain ⟨-, rfl⟩ := mretEffects_cases h; exact .inl ⟨s, .same, rfl⟩
  | interrupt hi hd k hk t h =>
    left; refine ⟨s, .same, ?_⟩
    rcases trapEnter_cases h with ⟨-, -, rfl⟩ | ⟨-, -, rfl⟩ <;> rfl
  | claim hi hs id u h => exact .inl ⟨u, memRead_effect h, route_plic u id⟩
  | rxpoll hi hs l u h => exact .inl ⟨u, memRead_effect h, rfl⟩
  | rxread hi hs l u h => exact .inl ⟨u, memRead_effect h, rfl⟩
  | txpoll hi hs l u h => exact .inl ⟨u, memRead_effect h, rfl⟩
  | txwrite hi hs b rest hq u h => exact .inl ⟨u, memWrite_effect h, rfl⟩
  | complete hi hs u h => exact .inl ⟨u, memWrite_effect h, rfl⟩
  | ret hi hs u h => 
    left; refine ⟨s, .same, ?_⟩
    rcases h with ⟨-, h⟩ | ⟨-, h⟩
    · obtain ⟨-, rfl⟩ := mretEffects_cases h; rfl
    · obtain ⟨-, rfl⟩ := sretEffects_cases h; rfl
  | gateway w hi hg => exact .inr (.inl ⟨w, hi, hg, rfl⟩)
  | line src v hi h => exact .inr (.inr (.inl ⟨_, _, h.1, h.2, rfl⟩))
  | reset hi => exact .inr (.inr (.inr rfl))
  | _ => exact .inl ⟨s, .same, rfl⟩

/-- What a later step of HOST does to the PLIC. -/
theorem hostNext_plic {s t : State} (h : hostNext s = .next t) : ∃ u, MemEffect s u ∧ t.plic = u.plic := by
  rcases hostNext_cases h with rfl | ⟨-, -, ⟨u, q, a, hm, rfl⟩ | ⟨e, h⟩⟩
  · exact ⟨t, .same, rfl⟩
  · exact ⟨u, hm, rfl⟩
  · exact ⟨s, .same, raise_plic h⟩

/-- The interrupt TRAP.INT takes is a known one, and some interrupt is enabled. -/
theorem interruptChoice_known {s : State} {k : Nat} (hk : interruptChoice s = some k) :
    interruptKnown (BitVec.ofNat 31 k).toNat = true ∧ s.csr.mie ≠ 0 := by
  unfold interruptChoice at hk
  split at hk
  · next h =>
    constructor
    · have := List.mem_of_find?_eq_some hk; simp at this; rcases this with rfl|rfl|rfl|rfl|rfl|rfl <;> rfl
    · intro h0; apply h; unfold takeableM; split <;> simp [h0]
  · constructor
    · have := List.mem_of_find?_eq_some hk; simp at this; rcases this with rfl|rfl|rfl <;> rfl
    · intro h0
      have := List.find?_some hk
      have h1 : takeableS s = 0 := by unfold takeableS; split <;> simp [h0]
      rw [h1] at this; simp at this

/-- The dispatch FSM's read of its claim word is the claim. -/
theorem claim_word_read {s u : State} {id : Word} (hw : s.cfg.wf = true) (c : Fin 2)
    (hc : s.dregs.ctx = BitVec.ofNat 32 c.val)
    (h : memRead s (claimAddress s.cfg s.cfg.plicBase s.dregs.ctx) .word = .ok id u) :
    id = (claim s c).1 ∧ u = (claim s c).2 := by
  have hm := memRead_mayAccess h
  have ha : claimAddress s.cfg s.cfg.plicBase s.dregs.ctx = plicReg s (plicOffset s.cfg (.claim c)) := by
    rw [hc]; exact claimAddress_eq s.cfg c
  rw [ha] at h hm
  rw [memRead_row s hw (.claim c) trivial hm] at h
  simp only [rowRead, Res.ok.injEq] at h
  exact ⟨h.1.symm, h.2.symm⟩

/-- A read of LSR that answers. -/
theorem lsr_read {s u : State} {l : Word} (hw : s.cfg.wf = true) (h : uartLoad s 5 = .ok l u) :
    l = s.uart.lsr.setWidth 32 ∧ u = s.setUart { s.uart with err := 0 } := by
  rw [uartLoad_lsr hw (memRead_mayAccess h)] at h
  simp only [Res.ok.injEq] at h
  exact ⟨h.1.symm, h.2.symm⟩

/-- A read of RBR that answers. -/
theorem rbr_read {s u : State} {l : Word} (hw : s.cfg.wf = true) (h : uartLoad s 0 = .ok l u) :
    l = (rbrRead s).1.setWidth 32 ∧ u = (rbrRead s).2 := by
  have hm := memRead_mayAccess h
  cases hl : s.uart.lcr.getLsbD 7 with
  | true => rw [uartLoad_eq s 0 hw (by decide) hm, uartRegRead, if_pos ⟨hl, by decide⟩] at h; cases h
  | false =>
    rw [uartLoad_rbr hw hm hl] at h
    simp only [Res.ok.injEq] at h
    exact ⟨h.1.symm, h.2.symm⟩

/-- A write of THR that goes through. -/
theorem thr_write {s u : State} {b : Byte} (hw : s.cfg.wf = true) (h : uartStore s 0 b = .ok () u) : u = thrWrite s b := by
  have hm := memWrite_mayAccess h
  cases hl : s.uart.lcr.getLsbD 7 with
  | true => rw [uartStore_eq s 0 b hw (by decide) hm, uartRegWrite, if_pos ⟨hl, by decide⟩] at h; cases h
  | false =>
    rw [uartStore_thr b hw hm hl] at h
    simp only [Res.ok.injEq] at h
    exact h.2.symm

/-- A write of THR changes the transmit queue, its latch and the flag alone. -/
theorem thr_frame (s : State) (b : Byte) :
    (thrWrite s b).plic = s.plic ∧ (thrWrite s b).dregs = s.dregs ∧
    (thrWrite s b).uart.rxFifo = s.uart.rxFifo ∧ (thrWrite s b).disp = s.disp ∧ (thrWrite s b).cfg = s.cfg ∧
    (thrWrite s b).priv = s.priv ∧ (thrWrite s b).pc = s.pc ∧ (thrWrite s b).csr = s.csr ∧ (thrWrite s b).boot = s.boot := by
  unfold thrWrite; split <;> exact ⟨rfl, rfl, rfl, rfl, rfl, rfl, rfl, rfl, rfl⟩

/-- A read of RBR changes the receive queue, the flag and the draw counter alone. -/
theorem rbr_frame (s : State) :
    (rbrRead s).2.plic = s.plic ∧ (rbrRead s).2.dregs = s.dregs ∧ (rbrRead s).2.disp = s.disp ∧
    (rbrRead s).2.cfg = s.cfg ∧ (rbrRead s).2.priv = s.priv ∧ (rbrRead s).2.pc = s.pc ∧
    (rbrRead s).2.csr = s.csr ∧ (rbrRead s).2.boot = s.boot := by
  unfold rbrRead; split <;> exact ⟨rfl, rfl, rfl, rfl, rfl, rfl, rfl, rfl⟩

/-- A register read of the UART leaves the PLIC. -/
theorem uartRegRead_plic {s t : State} {o : BitVec 3} {b : Byte} (h : uartRegRead s o = .ok b t) : t.plic = s.plic := by
  unfold uartRegRead at h
  split at h
  · cases h
  · split at h <;> simp only [Res.ok.injEq, reduceCtorEq] at h <;> rw [← h.2]
    · exact (rbr_frame s).1
    all_goals rfl

/-- A register write of the UART leaves the PLIC. -/
theorem uartRegWrite_plic {s t : State} {o : BitVec 3} {v : Byte} (h : uartRegWrite s o v = .ok () t) :
    t.plic = s.plic := by
  unfold uartRegWrite at h
  split at h
  · cases h
  · split at h
    · simp only [Res.ok.injEq, true_and] at h; rw [← h]; exact (thr_frame s v).1
    · simp only [Res.ok.injEq, true_and] at h; rw [← h]; rfl
    · split at h
      · simp only [Res.ok.injEq, true_and] at h; rw [← h]; rfl
      · cases h
    · simp only [Res.ok.injEq, true_and] at h; rw [← h]; rfl
    · simp only [Res.ok.injEq, true_and] at h; rw [← h]
    · simp only [Res.ok.injEq, true_and] at h; rw [← h]
    · cases h

/-- No read releases a claim (42_plic.md R147 to R152). -/
theorem memRead_claimed {s t : State} {a w : Word} {n : Width} {src : Nat} {c : Fin 2} (h : memRead s a n = .ok w t)
    (hg : s.plic.gate src = .claimed c) : t.plic.gate src = .claimed c := by
  unfold memRead at h
  split at h
  · cases h
  · cases h
  · obtain ⟨b, u, h1, h2⟩ := andThen_eq_ok h
    simp only [Res.ok.injEq] at h2
    rw [← h2.2, uartRegRead_plic h1, hg]
  · rw [plicRegRead_eq] at h
    generalize plicSelect s.cfg _ = r at h
    cases r with
    | claim x =>
      cases hb : best s x with
      | none => simp only [rowRead, claim, hb, Res.ok.injEq] at h; rw [← h.2, hg]
      | some y =>
        simp only [rowRead, claim, hb, Res.ok.injEq] at h
        have hne : src ≠ y := by rintro rfl; rw [(best_source hb).2.2] at hg; cases hg
        rw [← h.2, State.setPlic_plic, setGate_gate, if_neg hne, hg]
    | reserved => cases h
    | _ => simp only [rowRead, Res.ok.injEq] at h; rw [← h.2, hg]

/-- The claim word's row lies at the address `claimAddress` gives. -/
theorem claim_offset {cfg : Config} {a : Word} {x : Fin 2} (h : plicSelect cfg (a - cfg.plicBase).toNat = .claim x) :
    a = claimAddress cfg cfg.plicBase (BitVec.ofNat 32 x.val) := by
  have hb := (a - cfg.plicBase).isLt
  have key : (a - cfg.plicBase).toNat = (plicOffset cfg (.claim x)).toNat := by
    unfold plicSelect at h
    repeat' split at h
    all_goals first | cases h; done | skip
    · next ho => cases h; simpa [plicOffset, ctxOffset] using ho
    · next ho =>
      cases h
      simp only [plicOffset, ctxOffset, Fin.one_eq_zero_iff, if_false, OfNat.ofNat_ne_one]
      rw [BitVec.toNat_add, Nat.mod_eq_of_lt (by omega)]
      exact ho
  rw [claimAddress_eq, ← BitVec.eq_of_toNat_eq key, BitVec.add_comm, BitVec.sub_add_cancel]

/-- A write that ends a claim is the matching completion (42_plic.md R153, R163 (c)). -/
theorem memWrite_release {s t : State} {a v : Word} {n : Width} {src : Nat} {c : Fin 2}
    (h : memWrite s a n v = .ok () t) (hg : s.plic.gate src = .claimed c) (hne : t.plic.gate src ≠ .claimed c) :
    a = claimAddress s.cfg s.cfg.plicBase (BitVec.ofNat 32 c.val) ∧ v.toNat = src ∧
      t = s.setPlic (s.plic.setGate src .open) := by
  unfold memWrite at h
  split at h
  · cases h
  · cases h
  · rw [uartRegWrite_plic h] at hne; exact absurd hg hne
  · rw [plicRegWrite_eq] at h
    generalize hr : plicSelect s.cfg _ = r at h
    cases r with
    | claim x =>
      simp only [rowWrite, Res.ok.injEq, true_and, completion] at h
      split at h
      · next hc =>
        subst h
        rw [State.setPlic_plic, setGate_gate] at hne
        by_cases hs : src = v.toNat
        · subst hs
          have : x = c := by have := hc.2.symm.trans hg; injection this
          subst this
          exact ⟨claim_offset hr, rfl, rfl⟩
        · rw [if_neg hs] at hne; exact absurd hg hne
      · subst h; exact absurd hg hne
    | reserved => cases h
    | priority y =>
      simp only [rowWrite, Res.ok.injEq, true_and] at h
      subst h
      split at hne
      · exact absurd hg hne
      · exact absurd (by simpa [State.setPlic] using hg) hne
    | pending y => simp only [rowWrite, Res.ok.injEq, true_and] at h; subst h; exact absurd hg hne
    | enable x y =>
      simp only [rowWrite, Res.ok.injEq, true_and] at h
      subst h; exact absurd (by simpa [State.setPlic] using hg) hne
    | threshold x =>
      simp only [rowWrite, Res.ok.injEq, true_and] at h
      subst h; exact absurd (by simpa [State.setPlic] using hg) hne

end Sys2Proof.Machine
end

