-- ==== Sys2Proof/Tests/Slice0.lean ====
section
/-! SUPPORT. Tests: expected values come from the encoding tables of 30_encoding.md, 10_state.md R24 and 20_memory.md
R63, R64, and from the vectors of 95_test_vectors.md (V<n> in a docstring), each of one step; then, for each statement
of Certificates/Slice0/Obligations.lean with hypotheses, a state and operands that meet them. -/

namespace Sys2Proof.Tests

open Sys2Proof Sys2Proof.Machine

/-! ## States and readings -/

/-- Post-boot M of 44_privilege_bootstrap.md R228, delegation masks 0. -/
def postM : State :=
  { State.reset with
    pc := 0x80000200, priv := .M, boot := .done
    cfg := { Config.default with bootTarget := .M, idelegMask := 0 }
    csr := { Csrs.reset with mstatus := 0x88, mtvec := 0x80000100, stvec := 0x80000100, mepc := 0x80000200,
                             pmpaddr0 := 0xFFFFFFFF, pmpcfg0 := 0x0F } }

/-- Post-boot S of 44_privilege_bootstrap.md R228. -/
def postS : State :=
  { postM with
    priv := .S, cfg := Config.default
    csr := { postM.csr with mstatus := 0x82, mideleg := 0x222 } }

/-- The next state, if there is one. -/
def res (i : Instr) (s : State) : Option State :=
  match exec i s with
  | .next t => some t
  | .fault _ => none
  | .refused _ => none

/-- The name of a refusal, if the step is refused. -/
def stop (i : Instr) (s : State) : Option Refusal :=
  match exec i s with
  | .next _ => none
  | .fault _ => none
  | .refused r => some r

/-- A step that traps: the mode entered, the cause and the word saved in `mcause` or `scause`. -/
def trapped (i : Instr) (s : State) : Option (Priv × TrapCause × Word × Word) :=
  (res i s).map fun t => (t.priv, t.dregs.tc, (if t.priv = .M then t.csr.mcause else t.csr.scause), t.csr.mstatus)

/-- The next step of HOST's sequence. -/
def resNext (s : State) : Option State :=
  match hostNext s with
  | .next t => some t
  | .fault _ => none
  | .refused _ => none

/-- `s` with a source pending, enabled for a context at priority 1. -/
def pend (src : Nat) (c : Fin 2) (s : State) : State :=
  s.setPlic (((s.plic.setPrio src 1).setEnableWord c (src / 32)
    (s.plic.enableWord c (src / 32) ||| 1#32 <<< (src % 32))).setGate src .pending)

/-- `s` with another `mstatus`, `mie`, `mideleg`. -/
def ints (ms mie mid : Word) (s : State) : State :=
  s.setCsr { s.csr with mstatus := ms, mie := mie, mideleg := mid }

/-- The dispatch FSM in service at a label, as an interrupt of code `n` taken in machine mode left it. -/
def handling (n : Nat) (l : Ih) (s : State) : State :=
  { s with
    disp := .interruptHandling
    dregs := { s.dregs with ih := l, trapMode := .M, tc := ⟨BitVec.ofNat 31 n, true⟩ }
    csr := { s.csr with mstatus := 0x1880 } }

/-! ## Well-formedness: each check refuses an ill-formed term -/

theorem test_wf_gateway : Instr.wf Config.default (.plicGateway 0) = false ∧
    Instr.wf Config.default (.plicGateway 1024) = false ∧ Instr.wf Config.default (.plicGateway 1023) = true := by decide

theorem test_wf_line : Instr.wf Config.default (.pinLine 10 true) = false ∧
    Instr.wf Config.default (.pinLine 0 true) = false ∧ Instr.wf Config.default (.pinLine 7 true) = true := by decide

theorem test_wf_priority : Instr.wf Config.default (.regPlicPriority 1024 .read) = false := by decide

theorem test_wf_pending : Instr.wf Config.default (.regPlicPending 32 .read) = false := by decide

theorem test_wf_enable : Instr.wf Config.default (.regPlicEnable 1 32 .read) = false := by decide

theorem test_wf_reserved : Instr.wf Config.default (.regPlicReserved 0x28 .read) = false ∧
    Instr.wf Config.default (.regPlicReserved 0x04000000 .read) = false ∧
    Instr.wf Config.default (.regPlicReserved 0x1080 .read) = true := by decide

/-! ## Decoding: wires written out from the tables -/

/-- 30_encoding.md R92: the CSR and trap cause commands. -/
theorem test_decode_csr_commands :
    decode Config.default ⟨.command, 0x01, 0x300, 0, 0⟩ = .ok (.csrRead 0x300) ∧
    decode Config.default ⟨.command, 0x02, 0x305, 0x80000103, 0⟩ = .ok (.csrWrite 0x305 0x80000103) ∧
    decode Config.default ⟨.command, 0x03, 0x104, 0x200, 0⟩ = .ok (.csrSet 0x104 0x200) ∧
    decode Config.default ⟨.command, 0x04, 0x304, 0x200, 0⟩ = .ok (.csrClear 0x304 0x200) ∧
    decode Config.default ⟨.command, 0x10, 0x8000000B, 0, 0⟩ = .ok (.tcDecode 0x8000000B) ∧
    decode Config.default ⟨.command, 0x11, 0x80000002, 0xFFFFFFFE, 0⟩ = .ok (.tcClassify 2 false) := by
  and_intros <;> rfl

/-- 30_encoding.md R92: the PLIC commands. -/
theorem test_decode_plic_commands :
    decode Config.default ⟨.command, 0x20, 0x80000000, 3, 0⟩ = .ok (.plicCtx 0x80000000 true) ∧
    decode Config.default ⟨.command, 0x21, 0x0C000000, 10, 0⟩ = .ok (.plicPrioaddr 0x0C000000 10) ∧
    decode Config.default ⟨.command, 0x22, 0x0C000000, 1, 10⟩ = .ok (.plicEnaddr 0x0C000000 1 10) ∧
    decode Config.default ⟨.command, 0x23, 0x0C000000, 1, 0⟩ = .ok (.plicThraddr 0x0C000000 1) ∧
    decode Config.default ⟨.command, 0x24, 0x0C000000, 2, 0⟩ = .ok (.plicCcaddr 0x0C000000 2) ∧
    decode Config.default ⟨.command, 0x25, 0x0C000000, 33, 0⟩ = .ok (.plicPendaddr 0x0C000000 33) ∧
    decode Config.default ⟨.command, 0x28, 10, 1, 0⟩ = .ok (.plicSetprio 10 1) ∧
    decode Config.default ⟨.command, 0x29, 1, 10, 0⟩ = .ok (.plicEnable 1 10) ∧
    decode Config.default ⟨.command, 0x2A, 1, 7, 0⟩ = .ok (.plicSetthr 1 7) ∧
    decode Config.default ⟨.command, 0x2B, 0, 10, 0x00050001⟩ = .ok (.plicInit 0 10 1 5) ∧
    decode Config.default ⟨.command, 0x2C, 1, 0, 0⟩ = .ok (.plicClaim 1) ∧
    decode Config.default ⟨.command, 0x2D, 0, 10, 0⟩ = .ok (.plicComplete 0 10) := by
  and_intros <;> rfl

/-- 30_encoding.md R92: the UART, MMIO and hart commands. -/
theorem test_decode_other_commands :
    decode Config.default ⟨.command, 0x30, 0xFFFFFF41, 0, 0⟩ = .ok (.uartPutc 0x41) ∧
    decode Config.default ⟨.command, 0x31, 9, 9, 9⟩ = .ok .uartGetc ∧
    decode Config.default ⟨.command, 0x32, 0, 0, 0⟩ = .ok .uartFlush ∧
    decode Config.default ⟨.command, 0x33, 0, 0, 0⟩ = .ok .uartFifocfg ∧
    decode Config.default ⟨.command, 0x34, 0xFFFFFFF1, 0, 0⟩ = .ok (.uartIeset 1) ∧
    decode Config.default ⟨.command, 0x35, 2, 0, 0⟩ = .ok (.uartIeclr 2) ∧
    decode Config.default ⟨.command, 0x36, 0, 0, 0⟩ = .ok .uartIpend ∧
    decode Config.default ⟨.command, 0x40, 0x10000005, 1, 0⟩ = .ok (.mmioLoad 0x10000005 1) ∧
    decode Config.default ⟨.command, 0x41, 0x0C000028, 4, 1⟩ = .ok (.mmioStore 0x0C000028 4 1) ∧
    decode Config.default ⟨.command, 0x50, 0, 0, 0⟩ = .ok .mret ∧
    decode Config.default ⟨.command, 0x51, 0, 0, 0⟩ = .ok .sret ∧
    decode Config.default ⟨.command, 0x60, 0x80000204, 0, 0⟩ = .ok (.hartSetpc 0x80000204) ∧
    decode Config.default ⟨.command, 0x61, 3, 0, 0⟩ = .ok (.hartException 3) := by
  and_intros <;> rfl

/-- 30_encoding.md R93: the internal steps without operands. -/
theorem test_decode_steps :
    [0x80, 0x81, 0x82, 0x83, 0x84, 0x85, 0x86, 0x90, 0x98, 0x99, 0x9A, 0x9B, 0x9C, 0x9D, 0x9E, 0x9F, 0xA0, 0xA1, 0xB0,
        0xB1, 0xBF].map (fun op => decode Config.default ⟨.agent, op, 0, 0, 0⟩) =
      [.ok .bootB0, .ok .bootB1, .ok .bootB2, .ok .bootB3, .ok .bootB4, .ok .bootB5, .ok .bootB6, .ok .trapInt,
        .ok .dispRoute, .ok .dispFatal, .ok .dispIreport, .ok .dispClaim, .ok .dispRxpoll, .ok .dispRxread,
        .ok .dispTxpoll, .ok .dispTxwrite, .ok .dispComplete, .ok .dispReturn, .ok .uartTxload, .ok .uartTxemit,
        .ok .reset] := rfl

/-- 30_encoding.md R93: the internal steps with operands. -/
theorem test_decode_steps_with_operands :
    decode Config.default ⟨.agent, 0xA8, 10, 0, 0⟩ = .ok (.plicGateway 10) ∧
    decode Config.default ⟨.agent, 0xB2, 0x61, 0b101, 0⟩ = .ok (.uartRxarrive 0x61 true false true) ∧
    decode Config.default ⟨.agent, 0xB3, 0x4, 0, 0⟩ = .ok (.uartModem 4) ∧
    decode Config.default ⟨.agent, 0xB8, 1, 0, 0⟩ = .ok (.pinMtip true) ∧
    decode Config.default ⟨.agent, 0xB9, 1, 0, 0⟩ = .ok (.pinMsip true) ∧
    decode Config.default ⟨.agent, 0xBA, 7, 1, 0⟩ = .ok (.pinLine 7 true) := by
  and_intros <;> rfl

/-- 10_state.md R24: the CSR numbers, and the four kinds of access (log 4). -/
theorem test_decode_csr_rows :
    [0x100, 0x104, 0x105, 0x141, 0x142, 0x144, 0x180, 0x300, 0x302, 0x303, 0x304, 0x305, 0x341, 0x342, 0x344, 0x3A0,
        0x3B0, 0xF14].map (fun n => decode Config.default ⟨.csr, 0, n, 0, 0⟩) =
      [.ok (.regSstatus .read), .ok (.regSie .read), .ok (.regStvec .read), .ok (.regSepc .read),
        .ok (.regScause .read), .ok (.regSip .read), .ok (.regSatp .read), .ok (.regMstatus .read),
        .ok (.regMedeleg .read), .ok (.regMideleg .read), .ok (.regMie .read), .ok (.regMtvec .read),
        .ok (.regMepc .read), .ok (.regMcause .read), .ok (.regMip .read), .ok (.regPmpcfg0 .read),
        .ok (.regPmpaddr0 .read), .ok (.regMhartid .read)] ∧
    [1, 2, 3].map (fun k => decode Config.default ⟨.csr, k, 0x304, 8, 0⟩) =
      [.ok (.regMie (.write 8)), .ok (.regMie (.set 8)), .ok (.regMie (.clear 8))] := by
  constructor <;> rfl

/-- 20_memory.md R63: offsets of the PLIC rows, first and last of each block. -/
theorem test_decode_plic_rows :
    [0, 0xFFC, 0x1000, 0x107C, 0x2000, 0x20FC, 0x200000, 0x201000, 0x200004, 0x201004, 0x1080, 0x2A].map
        (fun o => decode Config.default ⟨.plic, 0, o, 0, 0⟩) =
      [.ok (.regPlicPriority 0 .read), .ok (.regPlicPriority 1023 .read), .ok (.regPlicPending 0 .read),
        .ok (.regPlicPending 31 .read), .ok (.regPlicEnable 0 0 .read), .ok (.regPlicEnable 1 31 .read),
        .ok (.regPlicThreshold 0 .read), .ok (.regPlicThreshold 1 .read), .ok (.regPlicClaim 0), .ok (.regPlicClaim 1),
        .ok (.regPlicReserved 0x1080 .read), .ok (.regPlicReserved 0x2A .read)] ∧
    decode Config.default ⟨.plic, 1, 0x201004, 10, 0⟩ = .ok (.regPlicComplete 1 10) := by
  constructor <;> rfl

/-- 20_memory.md R64: the eight UART offsets, read and written. -/
theorem test_decode_uart_rows :
    [0, 1, 2, 3, 4, 5, 6, 7].map (fun o => decode Config.default ⟨.uart, 0, o, 0, 0⟩) =
      [.ok .regUartRbr, .ok (.regUartIer .read), .ok .regUartIir, .ok (.regUartLcr .read), .ok (.regUartOffset4 .read),
        .ok (.regUartLsr .read), .ok (.regUartMsr .read), .ok (.regUartOffset7 .read)] ∧
    [0, 1, 2, 3, 4, 5, 6, 7].map (fun o => decode Config.default ⟨.uart, 1, o, 0x41, 0⟩) =
      [.ok (.regUartThr 0x41), .ok (.regUartIer (.write 0x41)), .ok (.regUartFcr 0x41), .ok (.regUartLcr (.write 0x41)),
        .ok (.regUartOffset4 (.write 0x41)), .ok (.regUartLsr (.write 0x41)), .ok (.regUartMsr (.write 0x41)),
        .ok (.regUartOffset7 (.write 0x41))] := by
  constructor <;> rfl

/-- 30_encoding.md R95 and 10_state.md R38: what names no instruction. -/
theorem test_decode_rejects :
    [0x00, 0x05, 0x26, 0x7F, 0x98, 0xFF].map (fun op => decode Config.default ⟨.command, op, 0, 0, 0⟩) =
      List.replicate 6 (.error .illegalCommand) ∧
    decode Config.default ⟨.command, 0x01, 0x10300, 0, 0⟩ = .error .illegalCsrNumber ∧
    decode Config.default ⟨.csr, 0, 0x340, 0, 0⟩ = .error .noSuchCsr := by
  refine ⟨?_, ?_, ?_⟩ <;> rfl

/-- Words of opcode_table.json, one per width. -/
theorem test_table_words :
    decodeTableWord 8 0x36 = some .uartIpend ∧ decodeTableWord 8 0x86 = some .bootB6 ∧
    decodeTableWord 16 0x341 = some (.regMepc .read) ∧ decodeTableWord 32 0x200000 = some (.regPlicThreshold 0 .read) ∧
    decodeTableWord 8 5 = some (.regUartLsr .read) := by
  and_intros <;> rfl

/-! ## One step of each instruction, from 95_test_vectors.md -/

/-- V1, V2, V8. -/
theorem test_csr_read :
    (res (.csrRead 0x300) postM).map (·.r0) = some (some 0x88) ∧
    (res (.csrRead 0xF14) postM).map (·.r0) = some (some 0) ∧
    (res (.csrRead 0x100) postS).map (·.r0) = some (some 2) := by decide

/-- V9, V11, V13. -/
theorem test_csr_write :
    (res (.csrWrite 0x305 0x80000103) postM).map (·.csr.mtvec) = some 0x80000100 ∧
    (res (.csrWrite 0x304 0xFFFFFFFF) postM).map (·.csr.mie) = some 0xAAA ∧
    (res (.csrWrite 0x300 0x1000) postM).map (·.csr.mstatus) = some 0 := by decide

/-- V15, V24. -/
theorem test_csr_set :
    (res (.csrSet 0x300 2) (ints 0x80 0 0 postM)).map (·.csr.mstatus) = some 0x82 ∧
    (res (.csrSet 0x104 0x200) (ints 0x82 0x800 0x222 postS)).map (·.csr.mie) = some 0xA00 := by decide

/-- V14, V16. -/
theorem test_csr_clear :
    (res (.csrClear 0x300 0x800) (ints 0x1800 0 0 postM)).map (·.csr.mstatus) = some 0x1800 ∧
    (res (.csrClear 0x304 0x200) (ints 0x88 0xAAA 0 postM)).map (·.csr.mie) = some 0x8AA := by decide

/-- V3, V5, V7: the trap of a forbidden access. -/
theorem test_csr_traps :
    trapped (.csrWrite 0xF14 0) postM = some (.M, ⟨2, false⟩, 2, 0x1880) ∧
    trapped (.csrRead 0x340) postM = some (.M, ⟨2, false⟩, 2, 0x1880) ∧
    trapped (.csrRead 0x300) postS = some (.M, ⟨2, false⟩, 2, 0x802) := by decide

/-- The CSR rows read their registers: 40_csr_access.md R121 on post-boot S and M. -/
theorem test_csr_rows_read :
    [Instr.regSstatus .read, .regSie .read, .regStvec .read, .regSepc .read, .regScause .read, .regSip .read,
        .regSatp .read].map (fun i => (res i postS).map (·.r0)) =
      [some (some 2), some (some 0), some (some 0x80000100), some (some 0), some (some 0), some (some 0),
        some (some 0)] ∧
    [Instr.regMstatus .read, .regMedeleg .read, .regMideleg .read, .regMie .read, .regMtvec .read, .regMepc .read,
        .regMcause .read, .regMip .read, .regPmpcfg0 .read, .regPmpaddr0 .read, .regMhartid .read].map
        (fun i => (res i postM).map (·.r0)) =
      [some (some 0x88), some (some 0), some (some 0), some (some 0), some (some 0x80000100), some (some 0x80000200),
        some (some 0), some (some 0), some (some 0xF), some (some 0xFFFFFFFF), some (some 0)] := by
  constructor <;> decide

/-- V10, V18 to V21, V25, V26, and the other rows' masks (40_csr_access.md R122). -/
theorem test_csr_rows_write :
    (res (.regSstatus (.write 0)) (ints 0x19AA 0 0 postM)).map (·.csr.mstatus) = some 0x1888 ∧
    (res (.regSie (.write 0x222)) (ints 0x82 0 0 postS)).map (·.csr.mie) = some 0 ∧
    (res (.regSip (.write 0xFFFFFFFF)) postS).map (·.csr.mipSw) = some 2 ∧
    (res (.regMedeleg (.write 0xFFFFFFFF)) postM).map (·.csr.medeleg) = some 0xB3FF ∧
    (res (.regMideleg (.write 0xFFFFFFFF)) postM).map (·.csr.mideleg) = some 0x222 ∧
    (res (.regMepc (.write 0x80000203)) postM).map (·.csr.mepc) = some 0x80000200 ∧
    (res (.regPmpcfg0 (.write 0xFF)) postM).map (·.csr.pmpcfg0) = some 0x1F ∧
    (res (.regMip (.write 0xFFFFFFFF)) postM).map (·.csr.mipSw) = some 0x22 := by decide

/-- 41_trap_cause_decoder.md R131, R132 and their corner cases. -/
theorem test_trap_cause :
    (res (.tcDecode 0x8000000B) postM).map (fun t => (t.r0, t.r1)) = some (some 11, some 1) ∧
    (res (.tcDecode 0xFFFFFFFF) postM).map (fun t => (t.r0, t.r1)) = some (some 0x7FFFFFFF, some 1) ∧
    [(0, false), (10, false), (15, false), (16, false)].map
      (fun k => (res (.tcClassify k.1 k.2) postM).map (fun t => (t.r0, t.r1))) =
      [some (some 1, some 0), some (some 0, some 0), some (some 1, some 15), some (some 0, some 0)] ∧
    [(0, true), (11, true), (12, true), (0x7FFFFFFF, true)].map
      (fun k => (res (.tcClassify k.1 k.2) postM).map (fun t => (t.r0, t.r1))) =
      [some (some 0, some 0), some (some 2, some 11), some (some 0, some 0), some (some 0, some 0)] := by
  refine ⟨?_, ?_, ?_, ?_⟩ <;> decide

/-- V30, V37, V38 to V43. -/
theorem test_plic_addresses :
    [Instr.plicCtx 0x80000000 true, .plicPrioaddr 0xFFFFFFFC 1, .plicEnaddr 0x0C000000 1 10,
        .plicEnaddr 0x0C000000 0 1023, .plicThraddr 0x0C000000 1, .plicCcaddr 0x0C000000 2,
        .plicPendaddr 0x0C000000 33].map (fun i => (res i postM).map (fun t => (t.r0, t.r1))) =
      [some (some 1, none), some (some 0, none), some (some 0x0C002080, some 10), some (some 0x0C00207C, some 31),
        some (some 0x0C201000, none), some (some 0x0C202004, none), some (some 0x0C001004, some 1)] := by decide

/-- V50 to V54 by the rows; 42_plic.md R147 (source 0), R150. -/
theorem test_plic_rows :
    (res (.regPlicPriority 10 (.write 0xFFFFFFFF)) postM).map (·.plic.prio 10) = some 7 ∧
    (res (.regPlicPriority 0 (.write 5)) postM).map (·.plic) = some postM.plic ∧
    (res (.regPlicEnable 0 0 (.write 0xFFFFFFFF)) postM).map (·.plic.enableWord 0 0) = some 0xFFFFFFFE ∧
    (res (.regPlicThreshold 0 (.write 9)) postM).map (·.plic.thresh 0) = some 1 ∧
    (res (.regPlicPending 0 .read) (pend 10 0 postM)).map (·.r0) = some (some 0x400) ∧
    stop (.regPlicReserved 0x1080 .read) postM = some .plicReservedOffset := by decide

/-- 42_plic.md R156, R158: the examples of their rules. -/
theorem test_plic_setprio_setthr :
    (res (.plicSetprio 10 8) postM).map (·.plic.prio 10) = some 0 ∧
    (res (.plicSetprio 10 1) postM).map (·.plic.prio 10) = some 1 ∧
    (res (.plicSetthr 1 3) postM).map (fun t => (t.plic.thresh 1, t.plic.thresh 0)) = some (3, 0) := by decide

/-- P1 step 3, P4 step 1: PLIC.INIT begins with the priority, PLIC.ENABLE with the read of the enable word. -/
theorem test_plic_init_enable :
    (res (.plicInit 0 10 1 5) postM).map (fun t => (t.plic.prio 10, t.hseq)) = some (1, some (.initI2 0 10 5)) ∧
    (res (.plicEnable 1 10) postM).map (·.hseq) = some (some (.enableE2 1 10 0)) ∧
    (resNext (postM.setHseq (some (.enableE2 1 10 0)))).map (fun t => (t.plic.enableWord 1 0, t.hseq)) =
      some (0x400, none) := by decide

/-- V64, V66, V67: claims; the row reads the same word. -/
theorem test_plic_claim :
    (res (.plicClaim 0) (pend 10 0 postM)).map (fun t => (t.r0, t.plic.gate 10)) = some (some 10, .claimed 0) ∧
    (res (.plicClaim 0) (pend 10 1 postM)).map (fun t => (t.r0, t.plic.gate 10)) = some (some 0, .pending) ∧
    (res (.regPlicClaim 1) (pend 10 1 postM)).map (fun t => (t.r0, t.plic.gate 10)) = some (some 10, .claimed 1) := by
  decide

/-- V68 to V70: completions. -/
theorem test_plic_complete :
    (res (.plicComplete 0 10) (postM.setPlic (postM.plic.setGate 10 (.claimed 0)))).map
      (fun t => (t.plic.gate 10, t.flags.plicComplete)) = some (.open, false) ∧
    (res (.plicComplete 0 1024) postM).map (·.flags.plicComplete) = some true ∧
    (res (.regPlicComplete 1 10) (postM.setPlic (postM.plic.setGate 10 (.claimed 0)))).map
      (fun t => (t.plic.gate 10, t.flags.plicComplete)) = some (.claimed 0, true) := by decide

/-- V71 to V73. -/
theorem test_gateway :
    (res (.plicGateway 7) (postM.setPlic (postM.plic.setExt 7 true))).map (·.plic.gate 7) = some .pending ∧
    res (.plicGateway 7) postM = some postM := by decide

/-- V51, V55, V57, V62, V102, V101. -/
theorem test_mmio_load :
    (res (.mmioLoad 0x0C000000 4) postM).map (·.r0) = some (some 0) ∧
    trapped (.mmioLoad 0x0C000029 4) postM = some (.M, ⟨5, false⟩, 5, 0x1880) ∧
    trapped (.mmioLoad 0x0C000028 2) postM = some (.M, ⟨5, false⟩, 5, 0x1880) ∧
    stop (.mmioLoad 0x20000000 4) postM = some .outsideBlock ∧
    stop (.mmioLoad 0x10000005 4) postM = some .outsideBlock ∧
    trapped (.mmioLoad 0x10000000 4) postM = some (.M, ⟨5, false⟩, 5, 0x1880) := by decide

/-- V50, V58. -/
theorem test_mmio_store :
    (res (.mmioStore 0x0C000028 4 0xFFFFFFFF) postM).map (·.plic.prio 10) = some 7 ∧
    trapped (.mmioStore 0x0C000028 1 1) postM = some (.M, ⟨7, false⟩, 7, 0x1880) := by decide

/-- V80: what the registers read as after reset. -/
theorem test_uart_reads :
    [Instr.regUartLsr .read, .regUartIir, .regUartIer .read, .regUartLcr .read, .regUartMsr .read].map
      (fun i => (res i postM).map (·.r0)) =
      [some (some 0x60), some (some 1), some (some 0), some (some 0), some (some 0)] := by decide

/-- V84, V85: the receive buffer, with a byte and empty (where only the flag is certain). -/
theorem test_uart_rbr :
    (res .regUartRbr (postM.setUart { postM.uart with rxFifo := [0x61] })).map (fun t => (t.r0, t.uart.rxFifo)) =
      some (some 0x61, []) ∧
    (res .regUartRbr postM).map (·.flags.uartRx) = some true := by decide

/-- V82: the transmit holding register, with room and full. -/
theorem test_uart_thr :
    (res (.regUartThr 0x41) postM).map (·.uart.txFifo) = some [0x41] ∧
    (res (.regUartThr 0x42) (postM.setUart { postM.uart with txFifo := [0x41] })).map
      (fun t => (t.uart.txFifo, t.flags.uartTx)) = some ([0x41], true) := by decide

/-- V91, V92, V94, V95, V97, V100: IER, IIR, FCR, MSR, LSR. -/
theorem test_uart_writes :
    (res (.regUartIer (.write 0xFF)) postM).map (fun t => (t.uart.ier, t.uart.threIp)) = some (0xF, true) ∧
    (res .regUartIir (postM.setUart { postM.uart with ier := 2, threIp := true })).map
      (fun t => (t.r0, t.uart.threIp)) = some (some 2, false) ∧
    (res (.regUartFcr 7) postM).map (fun t => (t.uart.fifoEn, t.uart.threIp)) = some (true, true) ∧
    stop (.regUartFcr 0x40) postM = some .uartRxTrigger ∧
    (res (.regUartLcr (.write 0x80)) postM).map (·.uart.lcr) = some 0x80 ∧
    (res (.regUartLsr (.write 0xFF)) postM).map (·.uart) = some postM.uart ∧
    (res (.regUartMsr .read) (postM.setUart { postM.uart with msrDelta := 4 })).map
      (fun t => (t.r0, t.uart.msrDelta)) = some (some 4, 0) := by decide

/-- V98, V99. -/
theorem test_uart_stops :
    stop .regUartRbr (postM.setUart { postM.uart with lcr := 0x80 }) = some .uartDivisorLatch ∧
    stop (.regUartOffset4 .read) postM = some .uartUnlistedRegister ∧
    stop (.regUartOffset7 (.write 0)) postM = some .uartUnlistedRegister := by decide

/-- V81. -/
theorem test_transmitter :
    (res .uartTxload (postM.setUart { postM.uart with txFifo := [0x41] })).map
      (fun t => (t.uart.tsr, t.uart.txFifo, t.uart.threIp)) = some (some 0x41, [], true) ∧
    (res .uartTxemit (postM.setUart { postM.uart with tsr := some 0x41 })).map (fun t => (t.txLog, t.uart.tsr)) =
      some ([0x41], none) := by decide

/-- V86, V88 to V90: arrival, overrun, error bits. -/
theorem test_receiver :
    (res (.uartRxarrive 0x61 false false false) postM).map (fun t => (t.uart.rxFifo, t.uart.err)) = some ([0x61], 0) ∧
    (res (.uartRxarrive 0x62 true false true) (postM.setUart { postM.uart with rxFifo := [0x61] })).map
      (fun t => (t.uart.rxFifo, t.uart.err)) = some ([0x62], 0b1011) := by decide

/-- V97: RI falls; 43_uart.md R199. -/
theorem test_modem :
    (res (.uartModem 4) postM).map (fun t => (t.uart.modemIn, t.uart.msrDelta)) = some (4, 0) ∧
    (res (.uartModem 1) (postM.setUart { postM.uart with modemIn := 4 })).map
      (fun t => (t.uart.modemIn, t.uart.msrDelta)) = some (1, 0b0101) := by decide

/-- 46_host_port.md R266 to R268. -/
theorem test_pins :
    (res (.pinMtip true) postM).map (·.pins) = some ⟨true, false⟩ ∧
    (res (.pinMsip true) postM).map (·.pins) = some ⟨false, true⟩ ∧
    (res (.pinLine 7 true) postM).map (fun t => (t.plic.ext 7, t.plic.ext 8)) = some (true, false) := by decide

/-- V110 to V112, P2: the first byte of UART.PUTC, after the poll. -/
theorem test_putc :
    (res (.uartPutc 0x41) postM).map (·.hseq) = some (some (.putcP2 0x41 [])) ∧
    (res (.uartPutc 0x0A) postM).map (·.hseq) = some (some (.putcP2 0x0D [0x0A])) ∧
    (resNext (postM.setHseq (some (.putcP2 0x0D [0x0A])))).map (fun t => (t.uart.txFifo, t.hseq)) =
      some ([0x0D], some (.putcP1 0x0A [])) := by decide

/-- V113, V115, V116. -/
theorem test_getc_flush :
    (res .uartGetc postM).map (·.hseq) = some (some .getcG1) ∧
    (resNext { postM with hseq := some .getcG2, uart := { postM.uart with rxFifo := [0x0D] } }).map
      (fun t => (t.r0, t.hseq)) = some (some 0x0A, none) ∧
    (res .uartFlush postM).map (·.hseq) = some none ∧
    (res .uartFlush (postM.setUart { postM.uart with txFifo := [0x41] })).map (·.hseq) = some (some .flushF1) := by
  decide

/-- V117, V118, V120, V121, V123. -/
theorem test_uart_commands :
    (res .uartFifocfg (postM.setUart { postM.uart with rxFifo := [0x61], txFifo := [0x41] })).map
      (fun t => (t.uart.fifoEn, t.uart.rxFifo, t.uart.txFifo, t.uart.threIp)) = some (true, [], [], true) ∧
    (res (.uartIeset 1) (postM.setUart { postM.uart with ier := 4 })).map (·.hseq) = some (some (.iesetS2 1 4)) ∧
    (resNext (postM.setHseq (some (.iesetS2 1 4)))).map (·.uart.ier) = some 5 ∧
    (res (.uartIeclr 2) (postM.setUart { postM.uart with ier := 3 })).map (·.hseq) = some (some (.ieclrC2 2 3)) ∧
    (resNext (postM.setHseq (some (.ieclrC2 2 3)))).map (·.uart.ier) = some 1 ∧
    (res .uartIpend (postM.setUart { postM.uart with ier := 1, rxFifo := [0x41] })).map (·.r0) = some (some 1) ∧
    (res .uartIpend (postM.setUart { postM.uart with ier := 2, threIp := true })).map
      (fun t => (t.r0, t.uart.threIp)) = some (some 1, false) := by decide

/-- 95_test_vectors.md section 2.7: each bootstrap step on the state before it, target S. -/
theorem test_boot :
    (res .bootB0 State.reset).map (fun t => (t.csr.mtvec, t.csr.stvec, t.boot)) =
      some (0x80000100, 0x80000100, .b1) ∧
    (res .bootB1 { postS with boot := .b1, csr := { postS.csr with satp := 5 } }).map (fun t => (t.csr.satp, t.boot)) =
      some (0, .b2) ∧
    (res .bootB2 { State.reset with boot := .b2 }).map (fun t => (t.csr.pmpaddr0, t.csr.pmpcfg0)) =
      some (0xFFFFFFFF, 0xF) ∧
    (res .bootB3 { State.reset with boot := .b3 }).map (fun t => (t.csr.mstatus, t.csr.mepc)) =
      some (0x800, 0x80000200) ∧
    (res .bootB4 (ints 0x800 0 0 { State.reset with boot := .b4 })).map (·.csr.mstatus) = some 0x802 ∧
    (res .bootB5 { State.reset with boot := .b5 }).map (fun t => (t.csr.medeleg, t.csr.mideleg)) = some (0, 0x222) ∧
    (res .bootB6 (ints 0x802 0 0 { State.reset with boot := .b6 })).map (fun t => (t.csr.mstatus, t.priv, t.boot)) =
      some (0x82, .S, .done) := by decide

/-- V140, V141, V145: TRAP.INT. -/
theorem test_interrupt :
    trapped .trapInt (pend 10 0 (ints 0x88 0x800 0 postM)) = some (.M, ⟨11, true⟩, 0x8000000B, 0x1880) ∧
    trapped .trapInt (pend 10 1 (ints 0x82 0x200 0x222 postS)) = some (.S, ⟨9, true⟩, 0x80000009, 0x1A0) ∧
    trapped .trapInt { ints 0x80 0x80 0 postS with pins := ⟨true, false⟩ } =
      some (.M, ⟨7, true⟩, 0x80000007, 0x800) := by decide

/-- V143, V144, V146: interrupts that are not enabled. -/
theorem test_interrupt_masked :
    (res .trapInt (pend 10 1 (ints 0x88 0x200 0x222 postM))).map (·.disp) = some .idle ∧
    (res .trapInt (pend 10 0 (ints 0x80 0x800 0 postM))).map (·.disp) = some .idle ∧
    (res .trapInt (pend 10 1 (ints 0x80 0x200 0x222 postS))).map (·.disp) = some .idle := by decide

/-- V150, V193, V194, V160: exceptions. -/
theorem test_exception :
    trapped (.csrRead 0x300) (postS.setCsr { postS.csr with medeleg := 4 }) = some (.S, ⟨2, false⟩, 2, 0x1A0) ∧
    trapped (.hartException 3) postM = some (.M, ⟨3, false⟩, 3, 0x1880) ∧
    trapped (.hartException 0x80000003) postM = some (.M, ⟨2, false⟩, 2, 0x1880) ∧
    stop (.hartException 3) (postM.setCsr { postM.csr with mtvec := 0x80000400 }) = some .vectorNotInstalled := by
  decide

/-- V152 to V155. -/
theorem test_mret :
    (res .mret (ints 0x1880 0 0 postM)).map (fun t => (t.priv, t.csr.mstatus, t.pc)) = some (.M, 0x88, 0x80000200) ∧
    (res .mret (ints 0x800 0 0 postM)).map (fun t => (t.priv, t.csr.mstatus)) = some (.S, 0x80) ∧
    stop .mret postM = some .userModeNotModelled ∧
    trapped .mret postS = some (.M, ⟨2, false⟩, 2, 0x802) := by decide

/-- V156, V158, V159. -/
theorem test_sret :
    (res .sret (postS.setCsr { postS.csr with mstatus := 0x120, sepc := 0x80000300 })).map
      (fun t => (t.priv, t.csr.mstatus, t.pc)) = some (.S, 0x22, 0x80000300) ∧
    stop .sret (ints 0x22 0 0 postS) = some .userModeNotModelled ∧
    (res .sret (ints 0x188 0 0 postM)).map (fun t => (t.priv, t.csr.mstatus)) = some (.S, 0xA8) := by decide

/-- V191, V192. -/
theorem test_setpc :
    (res (.hartSetpc 0x80000204) postM).map (·.pc) = some 0x80000204 ∧
    trapped (.hartSetpc 0x80000202) postM = some (.M, ⟨0, false⟩, 0, 0x1880) ∧
    (res (.hartSetpc 0x80000202) { postM with cfg := { postM.cfg with ialign := .bits16 } }).map (·.pc) =
      some 0x80000202 := by decide

/-- V170, V171, V173. -/
theorem test_route_fatal :
    (res .dispRoute { postM with disp := .decoding, dregs := { postM.dregs with tc := ⟨2, false⟩ } }).map (·.disp) =
      some .exceptionFatal ∧
    (res .dispRoute { postM with disp := .decoding, dregs := { postM.dregs with tc := ⟨7, true⟩ } }).map
      (fun t => (t.disp, t.dregs.ih)) = some (.interruptHandling, .report) ∧
    (res .dispFatal { postM with disp := .exceptionFatal, dregs := { postM.dregs with tc := ⟨2, false⟩ } }).map
      (fun t => (t.sinkLog, t.disp)) = some ([0x45, 2, 0, 0, 0], .halted) ∧
    (res .dispFatal { postM with disp := .exceptionFatal, dregs := { postM.dregs with tc := ⟨0x7FFFFFFF, false⟩ } }).map
      (·.sinkLog) = some [0x58, 0xFF, 0xFF, 0xFF, 0x7F] := by decide

/-- V142, V173, V174. -/
theorem test_ireport :
    (res .dispIreport (handling 9 .report postM)).map (fun t => (t.sinkLog, t.dregs.ctx, t.dregs.ih)) =
      some ([0x49, 9, 0, 0, 0], 1, .claim) ∧
    (res .dispIreport (handling 12 .report postM)).map (fun t => (t.sinkLog, t.dregs.ih)) =
      some ([0x4A, 12, 0, 0, 0], .ret) := by decide

/-- V175, V176, P1 step 11. -/
theorem test_dispatch_claim :
    (res .dispClaim (handling 11 .claim postM)).map (fun t => (t.sinkLog, t.dregs.ih)) =
      some ([0x5A, 0, 0, 0, 0], .ret) ∧
    (res .dispClaim (handling 11 .claim (pend 7 0 postM))).map (fun t => (t.sinkLog, t.dregs.ih, t.plic.gate 7)) =
      some ([0x55, 7, 0, 0, 0], .complete, .claimed 0) ∧
    (res .dispClaim (handling 11 .claim (pend 10 0 postM))).map (fun t => (t.sinkLog, t.dregs.ih)) =
      some ([0x53, 10, 0, 0, 0], .svcRxPoll) := by decide

/-- V177, V178, V179, P1 steps 12 to 15. -/
theorem test_echo :
    (res .dispRxpoll (handling 11 .svcRxPoll postM)).map (·.dregs.ih) = some .svcRxPoll ∧
    (res .dispRxread (handling 11 .svcRxRead (postM.setUart { postM.uart with rxFifo := [0x0D] }))).map
      (fun t => (t.dregs.dTxq, t.dregs.ih)) = some ([0x0D, 0x0A], .svcTxPoll) ∧
    (res .dispTxpoll (handling 11 .svcTxPoll postM)).map (·.dregs.ih) = some .svcTxWrite ∧
    (res .dispTxwrite (handling 11 .svcTxWrite (postM.setDregs { postM.dregs with dTxq := [0x61] }))).map
      (fun t => (t.uart.txFifo, t.dregs.ih)) = some ([0x61], .complete) := by decide

/-- V176, V173, V180. -/
theorem test_complete_return :
    (res .dispComplete (handling 11 .complete { postM with
        plic := postM.plic.setGate 7 (.claimed 0), dregs := { postM.dregs with claimedId := 7 } })).map
      (fun t => (t.plic.gate 7, t.dregs.ih)) = some (.open, .ret) ∧
    (res .dispReturn (handling 7 .ret postM)).map (fun t => (t.priv, t.csr.mstatus, t.disp)) =
      some (.M, 0x88, .idle) ∧
    (res .dispClaim { postS with
        disp := .interruptHandling, dregs := { postS.dregs with ih := .claim, trapMode := .S }
        csr := { postS.csr with pmpcfg0 := 0 } }).map (fun t => (t.disp, t.flags.doubleTrap, t.sinkLog)) =
      some (.halted, true, []) := by decide

/-- V181, 70_reset_and_hazards.md R320: reset leaves `Halted` and keeps the pins. -/
theorem test_reset :
    (res .reset { postM with disp := .halted, pins := ⟨true, false⟩ }).map
      (fun t => (t.disp, t.boot, t.pc, t.pins)) = some (.idle, .b0, 0x80000000, ⟨true, false⟩) ∧
    res .mret { postM with disp := .halted } = some { postM with disp := .halted } := by decide

/-- 30_encoding.md R95: a slot that is no command traps; the placement of a table word runs it (log 6). -/
theorem test_step :
    (match step (postM.setSched [.slot ⟨.command, 0x7F, 0, 0, 0⟩]) with
      | .next t => decide (t.dregs.tc = ⟨2, false⟩ ∧ t.sched = [])
      | _ => false) = true ∧
    (match step (State.reset.withFetchWord 8 0x80) with
      | .next t => decide (t.boot = .b1)
      | _ => false) = true := by decide

/-! ## The hypotheses of the statements can be met -/

/-- A slot at the head of the schedule that decodes (StepRunsDecodedInstruction). -/
theorem witness_StepRunsDecodedInstruction :
    (postM.setSched [.slot ⟨.command, 0x20, 0, 1, 0⟩]).sched = .slot ⟨.command, 0x20, 0, 1, 0⟩ :: [] ∧
    decode postM.cfg ⟨.command, 0x20, 0, 1, 0⟩ = .ok (.plicCtx 0 true) := ⟨rfl, rfl⟩

/-- A HOST turn; no sequence, the bootstrap running, trap context (StepContinuesHostSequence). -/
theorem witness_StepContinuesHostSequence :
    (postM.setSched [.hostNext]).sched = .hostNext :: [] ∧ postM.hseq = none ∧ State.reset.boot ≠ .done ∧
    (handling 11 .claim postM).disp ≠ .idle := by decide

/-- Legal parameters, and instructions with operands at the ends of their ranges (DecodeOfEncodeIsIdentity). -/
theorem witness_DecodeOfEncodeIsIdentity :
    Config.default.wf = true ∧
    ∀ i ∈ [Instr.plicGateway 1, .plicGateway 1023, .pinLine 1023 false, .regPlicPriority 0 .read,
        .regPlicPriority 1023 (.write 0xFFFFFFFF), .regPlicPending 31 .read, .regPlicEnable 1 31 (.write 1),
        .regPlicReserved 0x03FFFFFF .read, .csrWrite 0xFFF 0xFFFFFFFF, .uartRxarrive 0xFF true true true],
      i.wf Config.default = true := by decide

/-- Commands outside the table, at its gaps, and a CSR number of 13 bits (IllegalCommandsTrap). -/
theorem witness_IllegalCommandsTrap :
    (∀ op ∈ [(0x00 : BitVec 8), 0x05, 0x62, 0x7F, 0x80, 0xFF],
      op.toNat ∉ [0x01, 0x02, 0x03, 0x04, 0x10, 0x11, 0x20, 0x21, 0x22, 0x23, 0x24, 0x25, 0x28, 0x29, 0x2A, 0x2B,
        0x2C, 0x2D, 0x30, 0x31, 0x32, 0x33, 0x34, 0x35, 0x36, 0x40, 0x41, 0x50, 0x51, 0x60, 0x61]) ∧
    (0x04#8).toNat ∈ [0x01, 0x02, 0x03, 0x04] ∧ (0x1000#32).toNat ≥ 2 ^ 12 := by decide

/-- Offsets at the ends of each block of the map (PlicMapSelectsTheRow). -/
theorem witness_PlicMapSelectsTheRow :
    Config.default.wf = true ∧
    [0, 0xFFC, 0x1000, 0x107C, 0x2000, 0x207C, 0x2080, 0x20FC, 0x200000, 0x201000, 0x200004, 0x201004, 0x3FFFFFF].all
      (fun o => decide (o < Config.default.plicSize.toNat)) = true ∧
    plicSelect Config.default 0x207C = .enable 0 31 ∧ plicSelect Config.default 0x2080 = .enable 1 0 := by decide

/-- HOST is ready in each mode (CsrReadsGiveRegisterValues, CsrWritesGoThroughTheMasks, TcDecodeSplitsTheCauseWord,
TcClassifyNamesKnownCodes, PlicAddressFunctionsCompute, SetpcTakesAlignedAddresses). -/
theorem witness_host_ready :
    hostReady postM = true ∧ postM.priv = .M ∧ hostReady postS = true ∧ postS.priv = .S ∧
    (0x80000204#32).toNat % 4 = 0 ∧ (0x80000202#32).toNat % 4 ≠ 0 ∧ (0x80000202#32).toNat % 2 = 0 := by decide

/-- An unimplemented number, and M-level registers at S (ForbiddenCsrAccessesTrap). -/
theorem witness_ForbiddenCsrAccessesTrap :
    (0x340 : BitVec 12) ∉ [(0x100 : BitVec 12), 0x104, 0x105, 0x141, 0x142, 0x144, 0x180] ++ [0x300, 0x302, 0x303,
        0x304, 0x305, 0x341, 0x342, 0x344, 0x3A0, 0x3B0, 0xF14] ∧
    postS.priv = .S ∧ (0xF14 : BitVec 12) ∈ [(0x300 : BitVec 12), 0x302, 0x303, 0x304, 0x305, 0x341, 0x342, 0x344,
        0x3A0, 0x3B0, 0xF14] := by decide

/-- A bit of `mip` and a context whose output is high (MipIsAssembledFromItsSources). -/
theorem witness_MipIsAssembledFromItsSources :
    31 < 32 ∧ eip (pend 1023 1 postM) 1 = true ∧ 1 ≤ 1023 ∧ 1023 < postM.cfg.nsrc ∧
    (pend 1023 1 postM).plic.gate 1023 = .pending := by decide

/-- Exceptions at M, at S not delegated, delegated, with bit 31, and with another vector (ExceptionTakenInMachineMode,
ExceptionTakenInSupervisorMode, TrapElsewhereIsRefused). -/
theorem witness_exceptions :
    (3#32).getLsbD 31 = false ∧ postM.csr.mtvec = postM.cfg.trapEntry ∧ postS.csr.mtvec = postS.cfg.trapEntry ∧
    postS.csr.medeleg.getLsbD (3#32).toNat = false ∧
    (postS.setCsr { postS.csr with medeleg := 8 }).csr.medeleg.getLsbD (3#32).toNat = true ∧
    postS.csr.stvec = postS.cfg.trapEntry ∧ (0x80000003#32).getLsbD 31 = true ∧
    (postM.setCsr { postM.csr with mtvec := 0x80000400 }).csr.mtvec ≠ postM.cfg.trapEntry ∧
    (postS.setCsr { postS.csr with medeleg := 8, stvec := 0 }).csr.stvec ≠ postS.cfg.trapEntry := by decide

/-- The first and the last interrupt of each order, with another vector (TrapElsewhereIsRefused). -/
theorem witness_TrapElsewhereIsRefused :
    (∀ i ∈ [11, 5], let s := ints 0x88 0xAAA 0 (pend 10 0 postM)
      let t := s.setCsr { s.csr with mipSw := 0x20, mtvec := 0x80000400 }
      t.disp = .idle ∧ t.csr.mstatus.getLsbD 3 = true ∧
        (mip t &&& t.csr.mie &&& ~~~t.csr.mideleg).getLsbD i = true ∧ t.csr.mtvec ≠ t.cfg.trapEntry) ∧
    (∀ i ∈ [9, 5], let s := ints 0x82 0x220 0x222 (pend 10 1 postS)
      let t := s.setCsr { s.csr with mipSw := 0x20, stvec := 0 }
      t.disp = .idle ∧ t.priv = .S ∧ t.csr.mstatus.getLsbD 1 = true ∧
        mip t &&& t.csr.mie &&& ~~~t.csr.mideleg = 0 ∧ (mip t &&& t.csr.mie &&& t.csr.mideleg).getLsbD i = true ∧
        t.csr.stvec ≠ t.cfg.trapEntry) := by decide

/-- The six interrupts bound for machine mode, each alone; the three delegated ones; and what masks them
(InterruptTakenInOrder). -/
theorem witness_InterruptTakenInOrder :
    (let s := ints 0x88 0xAAA 0 (pend 10 0 postM)
     s.disp = .idle ∧ [] ++ 11 :: [3, 7, 9, 1, 5] = [11, 3, 7, 9, 1, 5] ∧ s.csr.mstatus.getLsbD 3 = true ∧
      (mip s &&& s.csr.mie &&& ~~~s.csr.mideleg).getLsbD 11 = true ∧ s.csr.mtvec = s.cfg.trapEntry) ∧
    (let s := (ints 0x88 0xAAA 0 postM).setCsr { (ints 0x88 0xAAA 0 postM).csr with mipSw := 0x20 }
     [11, 3, 7, 9, 1] ++ 5 :: [] = [11, 3, 7, 9, 1, 5] ∧
      (∀ j ∈ [11, 3, 7, 9, 1], (mip s &&& s.csr.mie &&& ~~~s.csr.mideleg).getLsbD j = false) ∧
      (mip s &&& s.csr.mie &&& ~~~s.csr.mideleg).getLsbD 5 = true) ∧
    (let s := ints 0x82 0x200 0x222 (pend 10 1 postS)
     s.disp = .idle ∧ [] ++ 9 :: [1, 5] = [9, 1, 5] ∧ s.priv = .S ∧ s.csr.mstatus.getLsbD 1 = true ∧
      mip s &&& s.csr.mie &&& ~~~s.csr.mideleg = 0 ∧ (mip s &&& s.csr.mie &&& s.csr.mideleg).getLsbD 9 = true ∧
      s.csr.stvec = s.cfg.trapEntry) ∧
    (let s := (ints 0x82 0x222 0x222 postS).setCsr { (ints 0x82 0x222 0x222 postS).csr with mipSw := 0x20 }
     [9, 1] ++ 5 :: [] = [9, 1, 5] ∧ mip s &&& s.csr.mie &&& ~~~s.csr.mideleg = 0 ∧
      (∀ j ∈ [9, 1], (mip s &&& s.csr.mie &&& s.csr.mideleg).getLsbD j = false) ∧
      (mip s &&& s.csr.mie &&& s.csr.mideleg).getLsbD 5 = true) ∧
    (handling 11 .claim postM).disp ≠ .idle ∧ postM.csr.mstatus.getLsbD 3 = true ∧
    mip postM &&& postM.csr.mie &&& ~~~postM.csr.mideleg = 0 := by decide

/-- Each value of MPP at M, and S (MretRestoresThePreviousMode); SPP set and clear (SretRestoresSupervisorMode). -/
theorem witness_returns :
    ((ints 0x1880 0 0 postM).csr.mstatus >>> 11).setWidth 2 = 0b11#2 ∧
    ((ints 0x800 0 0 postM).csr.mstatus >>> 11).setWidth 2 = 0b01#2 ∧
    (postM.csr.mstatus >>> 11).setWidth 2 = 0b00#2 ∧ hostReady (ints 0x1880 0 0 postM) = true ∧
    (ints 0x120 0 0 postS).csr.mstatus.getLsbD 8 = true ∧ hostReady (ints 0x120 0 0 postS) = true ∧
    postS.csr.mstatus.getLsbD 8 = false := by decide

/-- The state an interrupt entered from `s` leads to, as the FSM stands before its return. -/
def served (s : State) : State := setIh ((Out.stateOr (exec .trapInt s) s).setDisp .interruptHandling) .ret

/-- A round trip at M and one at S (ReturnUndoesInterruptEntry). -/
theorem witness_ReturnUndoesInterruptEntry :
    let s := ints 0x88 0x800 0 (pend 10 0 postM)
    let s' := ints 0x82 0x200 0x222 (pend 10 1 postS)
    (s.disp = .idle ∧ exec .trapInt s = .next (Out.stateOr (exec .trapInt s) s) ∧
      (Out.stateOr (exec .trapInt s) s).disp ≠ s.disp ∧ (served s).dregs.ih = .ret ∧
      exec .dispReturn (served s) = .next (Out.stateOr (exec .dispReturn (served s)) s)) ∧
    (exec .trapInt s' = .next (Out.stateOr (exec .trapInt s') s') ∧
      (Out.stateOr (exec .trapInt s') s').priv = .S ∧
      exec .dispReturn (served s') = .next (Out.stateOr (exec .dispReturn (served s')) s')) :=
  ⟨⟨rfl, rfl, by decide, rfl, rfl⟩, rfl, rfl, rfl⟩

/-- The bootstrap at its first and last label, a field to return through, and states where it is disabled
(BootStepsConfigureTheHart, BootstrapLeavesTheMainRoutine). -/
theorem witness_BootStepsConfigureTheHart :
    State.reset.disp = .idle ∧ State.reset.boot = .b0 ∧ State.reset.cfg.wf = true ∧ postM.cfg.wf = true ∧
    (let s := ints 0x1880 0 0 { State.reset with boot := .b6 }
     s.boot = .b6 ∧ (s.csr.mstatus >>> 11).setWidth 2 ≠ 0b00#2) ∧
    postM.boot ≠ .b6 ∧ (handling 11 .claim postM).disp ≠ .idle := by decide

/-- Both routes, both reports (ExceptionsAreReportedAndHalt, InterruptsAreReportedAndRouted). -/
theorem witness_reports :
    ({ postM with disp := .decoding, dregs := { postM.dregs with tc := ⟨15, false⟩ } }).dregs.tc.isInterrupt = false ∧
    ({ postM with disp := .decoding, dregs := { postM.dregs with tc := ⟨11, true⟩ } }).dregs.tc.isInterrupt = true ∧
    ({ postM with disp := .exceptionFatal }).disp = .exceptionFatal ∧
    (∀ n ∈ [0, 9, 11, 12], (handling n .report postM).serving [.report] = true) := by decide

/-- A claim by each context at M and at S, with no candidate, an echo source and a source with no handler
(DispatchClaimsTheBestSource). -/
theorem witness_DispatchClaimsTheBestSource :
    let s := handling 11 .claim (pend 10 0 postM)
    let u := { postS with
      disp := .interruptHandling, dregs := { postS.dregs with ih := .claim, ctx := 1 }, plic := (pend 7 1 postS).plic }
    s.cfg.wf = true ∧ s.serving [.claim] = true ∧ s.dregs.ctx = BitVec.ofNat 32 (0 : Fin 2).val ∧
    s.mayAccess (s.cfg.plicBase + s.cfg.claimOffset + BitVec.ofNat 32 (0 : Fin 2).val * s.cfg.claimStride) .word
      .read = true ∧
    best s 0 = some 10 ∧ 10 ∈ s.cfg.echoSources ∧ best s 1 = none ∧
    u.serving [.claim] = true ∧ u.dregs.ctx = BitVec.ofNat 32 (1 : Fin 2).val ∧
    u.mayAccess (u.cfg.plicBase + u.cfg.claimOffset + BitVec.ofNat 32 (1 : Fin 2).val * u.cfg.claimStride) .word
      .read = true ∧
    best u 1 = some 7 ∧ 7 ∉ u.cfg.echoSources := by decide

/-- Every label of the echo service with its access permitted; queues empty and not, divisor access on and off
(EchoServiceReadsAndWrites). -/
theorem witness_EchoServiceReadsAndWrites :
    let s := handling 11 .svcRxRead (postM.setUart { postM.uart with rxFifo := [0x61] })
    let t := handling 11 .svcTxWrite (postM.setDregs { postM.dregs with dTxq := [0x0D, 0x0A] })
    s.cfg.wf = true ∧ s.mayAccess (s.cfg.uartBase + 5) .byte .read = true ∧
    (handling 11 .svcRxPoll postM).serving [.svcRxPoll] = true ∧
    (handling 11 .svcTxPoll postM).serving [.svcTxPoll] = true ∧
    s.serving [.svcRxRead] = true ∧ s.mayAccess (s.cfg.uartBase + 0) .byte .read = true ∧
    s.uart.lcr.getLsbD 7 = false ∧ s.uart.rxFifo = 0x61 :: [] ∧
    (handling 11 .svcRxRead postM).uart.rxFifo = [] ∧
    (s.setUart { s.uart with lcr := 0x80 }).uart.lcr.getLsbD 7 = true ∧
    t.serving [.svcTxWrite] = true ∧ t.mayAccess (t.cfg.uartBase + 0) .byte .write = true ∧
    t.uart.lcr.getLsbD 7 = false ∧ t.dregs.dTxq = 0x0D :: [0x0A] ∧ t.dregs.dTxq ≠ [] ∧
    (handling 11 .svcTxWrite postM).dregs.dTxq = [] := by decide

/-- A completion that releases and one that does not; the return of each mode and its refusals
(DispatchCompletesAndReturns). -/
theorem witness_DispatchCompletesAndReturns :
    let s := handling 11 .complete { postM with
      plic := postM.plic.setGate 1023 (.claimed 0), dregs := { postM.dregs with claimedId := 1023 } }
    let u := { postS with
      disp := .interruptHandling, csr := { postS.csr with mstatus := 0x1A0 }
      dregs := { postS.dregs with ih := .ret, trapMode := .S } }
    s.serving [.complete] = true ∧ s.dregs.ctx = BitVec.ofNat 32 (0 : Fin 2).val ∧
    s.mayAccess (s.cfg.plicBase + s.cfg.claimOffset + BitVec.ofNat 32 (0 : Fin 2).val * s.cfg.claimStride) .word
      .write = true ∧
    s.dregs.claimedId.toNat < s.cfg.nsrc ∧ s.plic.gate s.dregs.claimedId.toNat = .claimed 0 ∧
    (handling 11 .complete postM).plic.gate 0 ≠ .claimed 0 ∧
    (handling 11 .ret postM).serving [.ret] = true ∧
    ((handling 11 .ret postM).csr.mstatus >>> 11).setWidth 2 ≠ 0b00#2 ∧
    u.serving [.ret] = true ∧ u.dregs.trapMode = .S ∧ u.csr.mstatus.getLsbD 8 = true ∧
    (ints 0 0 0 u).csr.mstatus.getLsbD 8 = false ∧
    ((ints 0 0 0 (handling 11 .ret postM)).csr.mstatus >>> 11).setWidth 2 = 0b00#2 := by decide

/-- S with no access, at each label that accesses a device (DeniedDispatchAccessHalts). -/
theorem witness_DeniedDispatchAccessHalts :
    let s := { postS with
      disp := .interruptHandling, csr := { postS.csr with pmpcfg0 := 0 }
      dregs := { postS.dregs with ih := .svcTxWrite, dTxq := [0x61] } }
    s.cfg.wf = true ∧ s.priv = .S ∧ s.csr.satp.getLsbD 31 = false ∧ s.dregs.ctx = BitVec.ofNat 32 (0 : Fin 2).val ∧
    (∀ c : Fin 2, ∀ k ∈ [AccKind.read, .write], pmpAllows s.csr .S
      (s.cfg.plicBase + s.cfg.claimOffset + BitVec.ofNat 32 c.val * s.cfg.claimStride) .word k = .deny) ∧
    (∀ o ∈ [0, 5], ∀ k ∈ [AccKind.read, .write],
      pmpAllows s.csr .S (s.cfg.uartBase + BitVec.ofNat 32 o) .byte k = .deny) ∧ s.dregs.dTxq ≠ [] := by decide

/-- Halted, idle and trap states (HaltedIsLeftOnlyByReset, ContextsExcludeEachOther). -/
theorem witness_contexts :
    ({ postM with disp := .halted }).disp = .halted ∧ postM.disp = .idle ∧
    (handling 11 .claim postM).disp ≠ .idle ∧ (handling 11 .claim postM).disp ≠ .halted := by decide

/-- Both kinds of access of a word pass. -/
def open4 (s : State) (a : Word) : Bool := s.mayAccess a .word .read && s.mayAccess a .word .write

/-- Both kinds of access of a byte pass. -/
def open1 (s : State) (a : Word) : Bool := s.mayAccess a .byte .read && s.mayAccess a .byte .write

/-- The PLIC registers may be accessed at S, at the ends of each block (PriorityRegisterStoresMasked,
ThresholdRegisterStoresMasked, EnableAndPendingWordsHoldSourceBits, ClaimReturnsTheBestSource,
CompletionReleasesOnlyItsClaim, EnableAndInitRunStepByStep); M passes always. -/
theorem witness_plic_access :
    postS.cfg.wf = true ∧ hostReady postS = true ∧
    (∀ src ∈ [0, 1, 1023], src < postS.cfg.nsrc ∧
      open4 postS (postS.cfg.plicBase + postS.cfg.priorityOffset + BitVec.ofNat 32 (4 * src)) = true) ∧
    (∀ w ∈ [0, 31], w < (postS.cfg.nsrc + 31) / 32 ∧
      open4 postS (postS.cfg.plicBase + postS.cfg.pendingOffset + BitVec.ofNat 32 (4 * w)) = true) := by decide

theorem witness_plic_context_access :
    (∀ c : Fin 2, ∀ w ∈ [0, 31], open4 postS (postS.cfg.plicBase + (postS.cfg.enableOffset +
      BitVec.ofNat 32 c.val * postS.cfg.enableStride) + BitVec.ofNat 32 (4 * w)) = true) ∧
    ∀ c : Fin 2,
      open4 postS (postS.cfg.plicBase + postS.cfg.thresholdOffset + BitVec.ofNat 32 c.val * postS.cfg.thresholdStride) =
        true ∧
      open4 postS (postS.cfg.plicBase + postS.cfg.claimOffset + BitVec.ofNat 32 c.val * postS.cfg.claimStride) =
        true := by decide

/-- A best source and none; ids that complete and ids that do not (ClaimReturnsTheBestSource,
CompletionReleasesOnlyItsClaim, ArbitrationPicksHighestPriority). -/
theorem witness_claims :
    best (pend 1023 1 postM) 1 = some 1023 ∧ best (pend 1 1 postM) 1 = some 1 ∧ best postM 0 = none ∧
    (postM.plic.setGate 1023 (.claimed 1)).gate (1023#32).toNat = .claimed 1 ∧ (1023#32).toNat < postM.cfg.nsrc ∧
    postM.plic.gate (0#32).toNat ≠ .claimed 0 ∧ ¬(1024#32).toNat < postM.cfg.nsrc := by decide

/-- An enabled gateway of an external source and of the UART, a disabled one, and a source pending before
(SourcePendsOnlyByItsGateway, ClaimedSourceWaitsForItsCompletion, PinsKeepTheirLevels). -/
theorem witness_gateways :
    let s := postM.setPlic (postM.plic.setExt 1023 true)
    let u := postM.setUart { postM.uart with ier := 1, rxFifo := [0x61] }
    s.plic.gate (1023#32).toNat = .open ∧ s.plic.ext (1023#32).toNat = true ∧
    (10#32).toNat = u.cfg.uartSourceId ∧ u.uart.irq = true ∧ postM.plic.ext 7 = false ∧
    (res (.pinMtip true) (pend 7 0 postM)).map (·.plic.gate 7) = some .pending ∧
    (resNext { pend 7 0 postM with hseq := some .getcG1 }).map (·.plic.gate 7) = some .pending ∧
    (res (.pinMtip true) (postM.setPlic (postM.plic.setGate 7 (.claimed 1)))).map (·.plic.gate 7) =
      some (.claimed 1) := by decide

/-- A claim that its completion ends, by a command and by a sequence step whose address lands on the claim word, and one
that the other context's completion leaves (ClaimedSourceWaitsForItsCompletion). -/
theorem witness_ClaimedSourceWaitsForItsCompletion :
    let s := postM.setPlic (postM.plic.setGate 1023 (.claimed 1))
    let u := postM.setPlic (postM.plic.setGate 7 (.claimed 0))
    s.plic.gate 1023 = .claimed 1 ∧ wordWrite s (.plicComplete 1 1023) = some (0x0C201004, 1023) ∧
    (res (.plicComplete 1 1023) s).map (·.plic.gate 1023) = some .open ∧
    (res (.plicComplete 0 1023) s).map (·.plic.gate 1023) = some (.claimed 1) ∧
    seqWordWrite { u with hseq := some (.enableE2 0 0xFF0020 6) } = some (0x0C200004, 7) ∧
    (resNext { u with hseq := some (.enableE2 0 0xFF0020 6) }).map (·.plic.gate 7) = some .open := by decide

/-- Each label of the two sequences (EnableAndInitRunStepByStep). -/
theorem witness_EnableAndInitRunStepByStep :
    postM.boot = .done ∧ postM.disp = .idle ∧ (1 ≤ 1 ∧ 1 < postM.cfg.nsrc) ∧ (1 ≤ 1023 ∧ 1023 < postM.cfg.nsrc) ∧
    (postM.setHseq (some (.enableE2 0 1023 5))).hseq = some (.enableE2 0 1023 5) ∧
    (postM.setHseq (some (.initI2 1 1 7))).hseq = some (.initI2 1 1 7) ∧
    (postM.setHseq (some (.initI3 1 1 7 0))).hseq = some (.initI3 1 1 7 0) ∧
    (postM.setHseq (some (.initI4 1 7))).hseq = some (.initI4 1 7) := by decide

/-- The UART offsets may be accessed at S, with divisor access off and on, FCR values on both sides of the limit
(UnlistedRegistersStop, UartRegisterReads, UartRegisterWrites). -/
theorem witness_uart_access :
    postS.cfg.wf = true ∧ hostReady postS = true ∧ postS.uart.lcr.getLsbD 7 = false ∧
    (∀ o ∈ [0, 1, 2, 3, 4, 5, 6, 7], open1 postS (postS.cfg.uartBase + BitVec.ofNat 32 o) = true) ∧
    (postM.setUart { postM.uart with lcr := 0x80 }).uart.lcr.getLsbD 7 = true ∧
    (64#8).toNat ≥ 64 ∧ (63#8).toNat < 64 := by decide

/-- Reserved PLIC offsets after a block and at the window's end (UnlistedRegistersStop). -/
theorem witness_reserved_offsets :
    ∀ o ∈ [0x1080, 0x2100, 0x200008, 0x3FFFFFC], o + 4 ≤ postS.cfg.plicSize.toNat ∧ o % 4 = 0 ∧
      plicSelect postS.cfg o = .reserved ∧ open4 postS (postS.cfg.plicBase + BitVec.ofNat 32 o) = true := by decide

/-- Queues at and below their capacity, in both FIFO modes (UartRegisterReads, UartRegisterWrites,
ReceiverQueuesOrOverruns, TransmitterMovesBytesInOrder). -/
theorem witness_uart_queues :
    postM.uart.txFifo.length < (if postM.uart.fifoEn then postM.cfg.uartFifoDepth else 1) ∧
    (let u := { postM.uart with txFifo := [0x41] }
     ¬u.txFifo.length < (if u.fifoEn then postM.cfg.uartFifoDepth else 1)) ∧
    (let u := { postM.uart with rxFifo := [0x61] }
     u.rxFifo = 0x61 :: []) ∧
    (let u := { postM.uart with tsr := none, txFifo := [0x41, 0x42] }
     u.tsr = none ∧ u.txFifo = 0x41 :: [0x42]) ∧
    ({ postM.uart with tsr := some 0x41 }).tsr = some 0x41 := by decide

theorem witness_uart_full_fifo :
    let u := { postM.uart with fifoEn := true, txFifo := List.replicate 16 0 }
    ¬u.txFifo.length < (if u.fifoEn then postM.cfg.uartFifoDepth else 1) := by decide

/-- Every label of the UART sequences (PutcWaitsBeforeEachByte, GetcAndFlushWait, InterruptEnableAndFifoCommands). -/
theorem witness_uart_sequences :
    postM.boot = .done ∧ postM.disp = .idle ∧
    (∀ q ∈ [HostSeq.putcP1 0x0D [0x0A], .putcP2 0x0A [], .putcP2 0x0D [0x0A], .getcG1, .getcG2, .flushF1,
      .iesetS2 1 ((0xF : BitVec 4).setWidth 8), .ieclrC2 0xF ((0 : BitVec 4).setWidth 8)],
      (postM.setHseq (some q)).hseq = some q) := by decide

/-- Source ids at the ends of the range, the UART's left out (PinsKeepTheirLevels). -/
theorem witness_PinsKeepTheirLevels :
    ∀ n ∈ [1, 9, 11, 1023], let src : Word := BitVec.ofNat 32 n
      1 ≤ src.toNat ∧ src.toNat < postM.cfg.nsrc ∧ src.toNat ≠ postM.cfg.uartSourceId := by decide

/-- Each clause of the raw accesses: bad widths, outside, translation on, denied, the combination with no meaning, bad
shapes at both ends of the windows (RawAccessesAreChecked). -/
theorem witness_RawAccessesAreChecked :
    let lo (a b : Word) (w n : Nat) : Bool := decide (b.toNat ≤ a.toNat ∧ a.toNat + w ≤ b.toNat + n)
    let u := postM.cfg.uartBase
    let p := postM.cfg.plicBase
    (2 : Word) ≠ 1 ∧ (2 : Word) ≠ 4 ∧ lo 0x10000005 u 4 8 = false ∧
    lo 0x10000005 p 4 postM.cfg.plicSize.toNat = false ∧ lo 0x0C000000 p 4 postM.cfg.plicSize.toNat = true ∧
    lo 0x0FFFFFFC p 4 postM.cfg.plicSize.toNat = true ∧ lo 0x10000007 u 1 8 = true ∧ lo 0x10000004 u 4 8 = true ∧
    (postS.setCsr { postS.csr with satp := 0x80000000 }).csr.satp.getLsbD 31 = true ∧
    pmpAllows { postS.csr with pmpcfg0 := 0 } .S 0x10000005 .byte .read = .deny ∧
    pmpAllows { postS.csr with pmpcfg0 := 0xA } .S 0x10000005 .byte .read = .reserved ∧
    pmpAllows { postS.csr with pmpcfg0 := 0xA } .S 0x10000005 .byte .write = .reserved ∧
    pmpAllows { postS.csr with pmpcfg0 := 0xD } .S 0x10000005 .byte .write = .deny ∧
    postS.mayAccess 0x10000004 .word .read = true ∧ postM.mayAccess 0x0C000029 .word .write = true := by decide

/-- A PLIC register and a UART register reached by a raw access (RawAccessesReachTheRegisters). -/
theorem witness_RawAccessesReachTheRegisters :
    (0x201004#32).toNat + 4 ≤ postM.cfg.plicSize.toNat ∧ (0x201004#32).toNat % 4 = 0 ∧
    plicSelect postM.cfg (0x201004#32).toNat ≠ .reserved ∧
    postM.mayAccess (postM.cfg.plicBase + 0x201004) .word .read = true ∧
    postM.mayAccess (postM.cfg.plicBase + 0x201004) .word .write = true ∧ (7#32).toNat < 8 := by decide

/-- A naturally aligned region at the top of the address space (ProtectionEntryGuardsSupervisor). -/
theorem witness_ProtectionEntryGuardsSupervisor :
    3 * 2 ^ (28 + 1) + 2 ^ 28 ≤ 2 ^ 32 ∧ 2 ^ 32 - 1 < 2 ^ 32 ∧ 0 * 2 ^ (0 + 1) + 2 ^ 0 ≤ 2 ^ 32 := by decide

/-- Next states of an instruction and of a HOST turn (PcAndModeChangeOnlyByTheirEvents, HistoriesOnlyGrow). -/
theorem witness_steps :
    exec .mret (ints 0x1880 0 0 postM) = .next (Out.stateOr (exec .mret (ints 0x1880 0 0 postM)) postM) ∧
    hostNext (postM.setHseq (some .getcG1)) =
      .next (Out.stateOr (hostNext (postM.setHseq (some .getcG1))) postM) := ⟨rfl, rfl⟩

/-- States that meet the invariants, with a next step (EveryStepKeepsRegistersLegal, EveryStepKeepsDeviceStorageLegal,
ResetMeetsTheInvariants): post-boot states and one with a source pending and bytes queued. -/
theorem witness_legal :
    (∀ s ∈ [postM, postS, pend 1023 1 (postM.setUart { postM.uart with rxFifo := [0x61], txFifo := [0x41] })],
      s.legalRegs = true ∧ Plic.legal s.cfg s.plic = true ∧ Uart.legal s.cfg s.uart = true) ∧
    (match step (postM.setSched [.slot ⟨.command, 0x2C, 0, 0, 0⟩]) with
      | .next _ => true
      | _ => false) = true := by decide

/-- A coherent post-boot state (EveryStepKeepsControlCoherent, CoherentDispatchBreaksNoProtocol). -/
theorem witness_coherent_idle : postM.coherent :=
  ⟨by decide, ⟨by decide, by decide⟩, ⟨fun h => absurd h (by decide), by decide, by decide⟩, by decide, by decide,
    by decide, by decide, by decide⟩

/-- The FSM in service for source 10 at a label, as an external interrupt at M left it. -/
def serving10 (l : Ih) : State :=
  { handling 11 l postM with
    pc := 0x80000100, csr := { postM.csr with mstatus := 0x1880, mcause := 0x8000000B }
    plic := postM.plic.setGate 10 (.claimed 0)
    dregs := { (handling 11 l postM).dregs with claimedId := 10, dTxq := [0x61] } }

theorem served_returnable (l : Ih) : returnable (serving10 l).csr (serving10 l).dregs.trapMode := by
  change mppField 0x1880 ≠ 0
  decide

/-- Coherent states in service, at the write of the echo, the completion and the return
(EveryStepKeepsControlCoherent, CoherentDispatchBreaksNoProtocol). -/
theorem witness_coherent_service :
    (serving10 .svcTxWrite).coherent ∧ (serving10 .complete).coherent ∧ (serving10 .ret).coherent := by
  refine ⟨?_, ?_, ?_⟩ <;>
  exact ⟨by decide, ⟨by decide, by decide⟩,
    ⟨fun _ => ⟨rfl, rfl, served_returnable _, by decide, by decide⟩, by decide, by decide⟩, by decide, by decide,
    by decide, by decide, by decide⟩

/-- The return of a coherent state is in service, and its step has a next state (CoherentDispatchBreaksNoProtocol). -/
theorem witness_coherent_step :
    (serving10 .ret).serving [.ret] = true ∧
    step (serving10 .ret) = .next (Out.stateOr (step (serving10 .ret)) postM) := ⟨rfl, rfl⟩

end Sys2Proof.Tests
end

section
/-! SUPPORT. The external-interrupt outputs of the PLIC by the candidates behind them, and the assembled `mip`
(10_state.md R28, R44). -/

namespace Sys2Proof.Machine

open Sys2Proof

/-- A context's output is high exactly when it has a candidate (10_state.md R44). -/
theorem eip_iff_isCand (s : State) (c : Fin 2) : eip s c = true ↔ ∃ src, isCand s c src = true := by
  simp only [eip, Bool.not_eq_true', List.isEmpty_eq_false_iff_exists_mem, mem_cand]

/-- Settles O10: the bits are `getLsbD_mip`; an output is high by a candidate, whose conditions are `isCand_iff`. -/
theorem mipIsAssembledFromItsSources : Obligations.MipIsAssembledFromItsSources :=
  ⟨getLsbD_mip, fun s c => (eip_iff_isCand s c).trans (exists_congr (isCand_iff s c))⟩

end Sys2Proof.Machine
end

section
/-! SUPPORT. The input pins (10_state.md R54): which steps move a level, and that every other step keeps them all. -/

namespace Sys2Proof.Machine

open Sys2Proof

/-- The levels of the input pins (10_state.md R43, R54). -/
structure PinLevels where
  pins : Pins
  modemIn : BitVec 4
  extLine : Tab Bool

/-- The levels `s` stores. -/
def pinLevels (s : State) : PinLevels := ⟨s.pins, s.uart.modemIn, s.plic.extLine⟩

theorem pinLevels_eq_iff (s : State) (l : PinLevels) :
    pinLevels s = l ↔ s.pins = l.pins ∧ s.uart.modemIn = l.modemIn ∧ s.plic.extLine = l.extLine := by
  cases l
  simp [pinLevels]

/-! ## The operations that keep the levels -/

theorem fcrWrite_modemIn {u u' : Uart} {v : Byte} (h : fcrWrite u v = some u') : u'.modemIn = u.modemIn := by
  unfold fcrWrite at h
  split at h
  · cases h
  · cases h; rfl

theorem rxPush_modemIn (u : Uart) (cap : Nat) (b : Byte) : (rxPush u cap b).modemIn = u.modemIn := by
  unfold rxPush
  split <;> rfl

/-- No access of a device register moves a pin. -/
theorem mem_pinLevels {s t : State} (h : MemEffect s t) : pinLevels t = pinLevels s := by
  cases h with
  | enable => simp [pinLevels, Plic.setEnableWord]
  | thresh => simp [pinLevels, Plic.setThresh]
  | fcr v u h => simp [pinLevels, fcrWrite_modemIn h]
  | _ => rfl

theorem trapEnter_pinLevels {s t : State} {isInt : Bool} {code : BitVec 31} (h : trapEnter s isInt code = .next t) :
    pinLevels t = pinLevels s := by
  rcases trapEnter_cases h with ⟨-, -, rfl⟩ | ⟨-, -, rfl⟩ <;> rfl

theorem raise_pinLevels {s t : State} {e : BitVec 31} (h : raiseException s e = .next t) :
    pinLevels t = pinLevels s :=
  trapEnter_pinLevels (s := { s with hseq := none, r0 := none, r1 := none }) h

theorem mretEffects_pinLevels {s t : State} (h : mretEffects s = .ok () t) : pinLevels t = pinLevels s := by
  obtain ⟨-, rfl⟩ := mretEffects_cases h
  rfl

theorem sretEffects_pinLevels {s t : State} (h : sretEffects s = .ok () t) : pinLevels t = pinLevels s := by
  obtain ⟨-, rfl⟩ := sretEffects_cases h
  rfl

theorem claimRoute_pinLevels (s : State) (id : Word) : pinLevels (claimRoute s id) = pinLevels s := by
  unfold claimRoute
  split
  · rfl
  · split <;> rfl

/-- No body of a host command moves a pin. -/
theorem host_pinLevels {i : Instr} {s t : State} (h : HostEffect i s t) : pinLevels t = pinLevels s := by
  cases h with
  | mem u h => exact (mem_pinLevels h :)
  | memSeq u q h => exact (mem_pinLevels h :)
  | mret t hi hp h => exact mretEffects_pinLevels h
  | sret t hi h => exact sretEffects_pinLevels h
  | _ => rfl

/-- No later step of HOST moves a pin (10_state.md R51). -/
theorem hostNext_pinLevels {s t : State} (h : hostNext s = .next t) : pinLevels t = pinLevels s := by
  rcases hostNext_cases h with rfl | ⟨-, -, ⟨u, q, a, hm, rfl⟩ | ⟨e, he⟩⟩
  · rfl
  · exact (mem_pinLevels hm :)
  · exact raise_pinLevels he

/-! ## Every step -/

/-- WHAT A STEP DOES TO THE PINS, in one lemma: a step of ENV stores the one level it names, every other step, reset
among them, keeps them all. -/
theorem exec_pinLevels {i : Instr} {s t : State} (h : exec i s = .next t) :
    pinLevels t = pinLevels s ∨
    (∃ v, i = .uartModem v ∧ pinLevels t = { pinLevels s with modemIn := v }) ∨
    (∃ b, i = .pinMtip b ∧ pinLevels t = { pinLevels s with pins := { s.pins with mtip := b } }) ∨
    (∃ b, i = .pinMsip b ∧ pinLevels t = { pinLevels s with pins := { s.pins with msip := b } }) ∨
    (∃ src b, i = .pinLine src b ∧
      pinLevels t = { pinLevels s with extLine := Tab.set false s.plic.extLine src.toNat b }) := by
  cases exec_shape h with
  | modem v hi => exact .inr (.inl ⟨v, hi, rfl⟩)
  | mtip b hi => exact .inr (.inr (.inl ⟨b, hi, rfl⟩))
  | msip b hi => exact .inr (.inr (.inr (.inl ⟨b, hi, rfl⟩)))
  | line src b hi hs => exact .inr (.inr (.inr (.inr ⟨src, b, hi, rfl⟩)))
  | host hr hi u a hu => exact .inl (host_pinLevels hu :)
  | raised hr hi e t he => exact .inl (raise_pinLevels he)
  | boot6 hi hb hd u hu => exact .inl (mretEffects_pinLevels hu :)
  | interrupt hi hd k hk t ht => exact .inl (trapEnter_pinLevels ht)
  | claim hi hs id u hu => exact .inl ((claimRoute_pinLevels u id).trans (mem_pinLevels (memRead_effect hu)))
  | rxpoll hi hs l u hu => exact .inl (mem_pinLevels (memRead_effect hu) :)
  | rxread hi hs l u hu => exact .inl (mem_pinLevels (memRead_effect hu) :)
  | txpoll hi hs l u hu => exact .inl (mem_pinLevels (memRead_effect hu) :)
  | txwrite hi hs b rest hq u hu => exact .inl (mem_pinLevels (memWrite_effect hu) :)
  | complete hi hs u hu => exact .inl (mem_pinLevels (memWrite_effect hu) :)
  | ret hi hs u hu =>
    rcases hu with ⟨-, hu⟩ | ⟨-, hu⟩
    · exact .inl (mretEffects_pinLevels hu :)
    · exact .inl (sretEffects_pinLevels hu :)
  | rxarrive b pe fe bi hi => left; simp [pinLevels, rxPush_modemIn]
  | _ => exact .inl rfl

/-! ## The steps of ENV -/

/-- Every change bit new modem levels set: any edge, but only a falling one for RI (43_uart.md R199). -/
theorem getLsbD_modemDelta (old v : BitVec 4) (j : Nat) (hj : j < 4) : (modemDelta old v).getLsbD j =
    if j = 2 then old.getLsbD 2 && !v.getLsbD 2 else v.getLsbD j != old.getLsbD j := by
  simp only [modemDelta, BitVec.getLsbD_or, BitVec.getLsbD_and, BitVec.getLsbD_xor, BitVec.getLsbD_not, hj,
    decide_true, Bool.true_and]
  interval_cases j <;> simp [Bool.xor_comm]

/-- PIN.LINE for a source that is a pin stores its level (46_host_port.md R268). -/
theorem execPinLine_source {s : State} {src : Word} (b : Bool) (hs : s.cfg.isSource src.toNat = true)
    (hu : src.toNat ≠ s.cfg.uartSourceId) :
    execPinLine src b s = .next (s.setPlic (s.plic.setExt src.toNat b)) := by
  simp [execPinLine, hs, hu]

/-- A pin's level after a step is the one it had, or the one the step of ENV named. -/
theorem exec_keeps_or_drives {i : Instr} {s t : State} (h : exec i s = .next t) :
    (t.pins.mtip = s.pins.mtip ∨ i = .pinMtip t.pins.mtip) ∧
    (t.pins.msip = s.pins.msip ∨ i = .pinMsip t.pins.msip) ∧
    (t.uart.modemIn = s.uart.modemIn ∨ i = .uartModem t.uart.modemIn) ∧
    ∀ j, t.plic.ext j = s.plic.ext j ∨ ∃ src : Word, src.toNat = j ∧ i = .pinLine src (t.plic.ext j) := by
  unfold Plic.ext
  rcases exec_pinLevels h with hl | ⟨v, rfl, hl⟩ | ⟨b, rfl, hl⟩ | ⟨b, rfl, hl⟩ | ⟨src, b, rfl, hl⟩ <;>
    obtain ⟨hp, hm, he⟩ := (pinLevels_eq_iff t _).1 hl <;>
    rw [hp, hm, he]
  · exact ⟨.inl rfl, .inl rfl, .inl rfl, fun _ => .inl rfl⟩
  · exact ⟨.inl rfl, .inl rfl, .inr rfl, fun _ => .inl rfl⟩
  · exact ⟨.inr rfl, .inl rfl, .inl rfl, fun _ => .inl rfl⟩
  · exact ⟨.inl rfl, .inr rfl, .inl rfl, fun _ => .inl rfl⟩
  · refine ⟨.inl rfl, .inl rfl, .inl rfl, fun j => ?_⟩
    by_cases hj : j = src.toNat
    · subst hj
      exact .inr ⟨src, rfl, by rw [tab_get_set_same]⟩
    · exact .inl (tab_get_set_ne _ _ _ _ _ hj)

/-- Settles O48: ENV's four steps by their equations, every other step by what it does to the levels. -/
theorem pinsKeepTheirLevels : Obligations.PinsKeepTheirLevels := by
  refine ⟨fun s v b src => ⟨⟨_, rfl, ?_, ?_⟩, rfl, rfl, ?_⟩, fun s t => ⟨fun i => exec_keeps_or_drives, fun h => ?_⟩⟩
  · intro j hj h2
    rw [BitVec.getLsbD_or, getLsbD_modemDelta _ _ _ hj, if_neg h2]
  · rw [BitVec.getLsbD_or, getLsbD_modemDelta _ _ _ (by decide), if_pos rfl]
  · intro h1 hn hu
    have hs : s.cfg.isSource src.toNat = true := by simp [Config.isSource, h1, hn]
    exact ⟨_, execPinLine_source b hs hu, fun j => tab_get_set ..⟩
  · obtain ⟨hp, hm, he⟩ := (pinLevels_eq_iff t _).1 (hostNext_pinLevels h)
    exact ⟨hp, hm, fun j => congrArg (Tab.get false · j) he⟩

end Sys2Proof.Machine
end

section
/-! SUPPORT. The trap cause decoder (41_trap_cause_decoder.md R130, R131): its two fields as words, and that they make
up the cause word again. -/

namespace Sys2Proof.Machine

open Sys2Proof

/-- `zext_32(raw[30:0])` (R130): the code field is what is left under the mask of the low 31 bits. -/
theorem decodeCause_code_setWidth (raw : Word) : (decodeCause raw).code.setWidth 32 = raw &&& 0x7FFFFFFF := by
  apply BitVec.eq_of_toNat_eq
  have hmask : raw.toNat &&& 0x7FFFFFFF = raw.toNat % 2 ^ 31 := Nat.and_two_pow_sub_one_eq_mod raw.toNat 31
  simp only [decodeCause, BitVec.toNat_setWidth, BitVec.toNat_and, BitVec.reduceToNat, hmask]
  omega

/-- `zext_32(raw[31])` (R130): the interrupt flag is what a shift by 31 leaves. -/
theorem flag_decodeCause_isInterrupt (raw : Word) : flag (decodeCause raw).isInterrupt = raw >>> 31 := by
  apply word_ext
  intro j hj
  simp only [decodeCause, flag, BitVec.getLsbD_setWidth, BitVec.getLsbD_ofBool, BitVec.getLsbD_ushiftRight, hj,
    decide_true, Bool.true_and]
  by_cases h0 : j = 0
  · simp [h0]
  · simp [h0, BitVec.getLsbD_of_ge raw (31 + j) (by omega)]

/-- What TC.DECODE does when HOST is ready (R131). -/
theorem exec_tcDecode_ready {s : State} (h : hostReady s = true) (raw : Word) :
    exec (.tcDecode raw) s = .next (s.answer (some (raw &&& 0x7FFFFFFF)) (some (raw >>> 31))) := by
  change execTcDecode raw s = _
  rw [execTcDecode, hostCommand_ready h, decodeCause_code_setWidth, flag_decodeCause_isInterrupt]
  rfl

/-- Settles O11: the equation of TC.DECODE; the two results make up the word because they are the fields of
`decodeCause`, which `encodeCause` puts together again. -/
theorem tcDecodeSplitsTheCauseWord : Obligations.TcDecodeSplitsTheCauseWord := by
  intro s raw
  have hround : encodeCause (decodeCause raw) = raw := encodeCause_decodeCause raw
  refine ⟨fun h => exec_tcDecode_ready h raw, ?_, hround⟩
  rw [← flag_decodeCause_isInterrupt, ← decodeCause_code_setWidth]
  exact hround

end Sys2Proof.Machine
end

section
/-! SUPPORT. Arbitration (42_plic.md R154): the source `best` answers, by what singles it out among the candidates. -/

namespace Sys2Proof.Machine

open Sys2Proof

/-- The best source is the one candidate at least as good as every candidate: there is no other, because two such
candidates are at least as good as each other. -/
theorem best_eq_some_iff {s : State} {c : Fin 2} {src : Nat} : best s c = some src ↔
    isCand s c src = true ∧ ∀ other, isCand s c other = true → atLeast s src other := by
  refine ⟨best_some, fun ⟨hsrc, hmax⟩ => ?_⟩
  cases hb : best s c with
  | none =>
    have hnot : isCand s c src = false := best_none.1 hb src
    simp [hnot] at hsrc
  | some x =>
    obtain ⟨hx, hxmax⟩ := best_some hb
    rw [atLeast_antisymm (hxmax src hsrc) (hmax x hx)]

/-- Settles O36: `best` by `isCand` and `atLeast`, whose definitions the statement spells out. -/
theorem arbitrationPicksHighestPriority : Obligations.ArbitrationPicksHighestPriority := by
  intro s c
  dsimp only
  simp only [← isCand_iff, Bool.not_eq_true]
  exact ⟨best_none, fun _ => best_eq_some_iff⟩

end Sys2Proof.Machine
end

section
/-! SUPPORT. UART.RXARRIVE (43_uart.md R198): its step with room in the receive queue and without, and the error bits
a character sets, by position. -/

namespace Sys2Proof.Machine

open Sys2Proof

/-- A character's errors are the bits 1 (parity), 2 (framing) and 3 (break); the overrun bit is not among them. -/
theorem getElem_rxErrors (pe fe bi : Bool) :
    (rxErrors pe fe bi)[0] = false ∧ (rxErrors pe fe bi)[1] = pe ∧ (rxErrors pe fe bi)[2] = fe ∧
    (rxErrors pe fe bi)[3] = bi := by
  revert pe fe bi
  decide

/-- With room the byte joins the queue, and there is no overrun. -/
theorem exec_uartRxarrive_of_room {s : State} (h : s.uart.rxFifo.length < s.uart.cap s.cfg) (b : Byte)
    (pe fe bi : Bool) : exec (.uartRxarrive b pe fe bi) s = .next { s with uart := { s.uart with
      err := s.uart.err ||| rxErrors pe fe bi, rxFifo := s.uart.rxFifo ++ [b] } } := by
  change execUartRxarrive b pe fe bi s = _
  rw [execUartRxarrive, rxPush, if_pos h]
  rfl

/-- Without room the overrun bit is set; the byte overwrites the buffer in non-FIFO mode and is dropped in FIFO mode. -/
theorem exec_uartRxarrive_of_full {s : State} (h : ¬s.uart.rxFifo.length < s.uart.cap s.cfg) (b : Byte)
    (pe fe bi : Bool) : exec (.uartRxarrive b pe fe bi) s = .next { s with uart := { s.uart with
      err := s.uart.err ||| 0b0001 ||| rxErrors pe fe bi,
      rxFifo := if s.uart.fifoEn then s.uart.rxFifo else [b] } } := by
  change execUartRxarrive b pe fe bi s = _
  rw [execUartRxarrive, rxPush, if_neg h]
  rfl

/-- Settles O47: the step's equation with room and without; in both cases the character's errors join the error bits,
and the overrun bit is set only without room. -/
theorem receiverQueuesOrOverruns : Obligations.ReceiverQueuesOrOverruns := by
  intro s b pe fe bi
  dsimp only
  obtain ⟨hoverrun, hparity, hframing, hbreak⟩ := getElem_rxErrors pe fe bi
  by_cases hroom : s.uart.rxFifo.length < if s.uart.fifoEn then s.cfg.uartFifoDepth else 1
  · refine ⟨s.uart.err ||| rxErrors pe fe bi, ?_, ?_⟩
    · rw [exec_uartRxarrive_of_room hroom, if_pos hroom]
    · simp [hroom, hoverrun, hparity, hframing, hbreak]
  · refine ⟨s.uart.err ||| 0b0001 ||| rxErrors pe fe bi, ?_, ?_⟩
    · rw [exec_uartRxarrive_of_full hroom, if_neg hroom]
    · simp [hroom, hparity, hframing, hbreak]

end Sys2Proof.Machine
end

section
/-! SUPPORT. The bootstrap (44_privilege_bootstrap.md R220 to R228): what each BOOT step does at its label in normal
context, the words its masked writes leave in a register that was 0, and the seven steps in a row. -/

namespace Sys2Proof.Machine

open Sys2Proof

/-! ## The steps, each at its label -/

section

variable {s : State} (hd : s.disp = .idle)
include hd

/-- BOOT.B0 (R221). -/
theorem exec_bootB0_atLabel (hb : s.boot = .b0) : exec .bootB0 s = .next ((s.setCsr { s.csr with
    mtvec := maskWrite s.csr.mtvec 0xFFFFFFFC s.cfg.trapEntry
    stvec := maskWrite s.csr.stvec 0xFFFFFFFC s.cfg.trapEntry }).setBoot .b1) :=
  show execBootB0 s = _ from bootStep_eq hb hd rfl

/-- BOOT.B1 (R222). -/
theorem exec_bootB1_atLabel (hb : s.boot = .b1) :
    exec .bootB1 s = .next ((s.setCsr { s.csr with satp := 0 }).setBoot .b2) :=
  show execBootB1 s = _ from bootStep_eq hb hd rfl

/-- BOOT.B2 (R223). -/
theorem exec_bootB2_atLabel (hb : s.boot = .b2) : exec .bootB2 s = .next ((s.setCsr { s.csr with
    pmpaddr0 := s.cfg.pmpAddr0, pmpcfg0 := maskWrite s.csr.pmpcfg0 0x1F s.cfg.pmpCfg0 }).setBoot .b3) :=
  show execBootB2 s = _ from bootStep_eq hb hd rfl

/-- BOOT.B3 (R224). -/
theorem exec_bootB3_atLabel (hb : s.boot = .b3) : exec .bootB3 s = .next ((s.setCsr { s.csr with
    mepc := maskWrite s.csr.mepc (epcMask s.cfg) s.cfg.mainEntry
    mstatus := setMpp s.csr.mstatus s.cfg.bootTarget.code }).setBoot .b4) :=
  show execBootB3 s = _ from bootStep_eq hb hd rfl

/-- BOOT.B4 (R225): `SIE` is bit 1 of `mstatus`, `MPIE` bit 7. -/
theorem exec_bootB4_atLabel (hb : s.boot = .b4) : exec .bootB4 s = .next ((s.setCsr { s.csr with
    mstatus := setBit s.csr.mstatus (if s.cfg.bootTarget = .S then 1 else 7) true }).setBoot .b5) :=
  show execBootB4 s = _ from bootStep_eq hb hd (by cases s.cfg.bootTarget <;> rfl)

/-- BOOT.B5 (R226). -/
theorem exec_bootB5_atLabel (hb : s.boot = .b5) : exec .bootB5 s = .next ((s.setCsr { s.csr with
    medeleg := maskWrite s.csr.medeleg 0xB3FF s.cfg.edelegMask
    mideleg := maskWrite s.csr.mideleg 0x222 s.cfg.idelegMask }).setBoot .b6) :=
  show execBootB5 s = _ from bootStep_eq hb hd rfl

/-- BOOT.B6 (R227), where the field names a previous mode the model has. -/
theorem exec_bootB6_atLabel (hb : s.boot = .b6) (hm : mppField s.csr.mstatus ≠ 0b00) :
    exec .bootB6 s = .next ({ s with
      priv := mretPriv s.csr.mstatus, pc := s.csr.mepc
      csr := { s.csr with mstatus := mstatusMret s.csr.mstatus } }.setBoot .done) :=
  show execBootB6 s = _ from bootStep_eq hb hd (if_neg hm)

end

/-! ## Masked writes of a register that is 0 -/

theorem maskWrite_zero (m v : Word) : maskWrite 0 m v = v &&& m := by
  simp [maskWrite]

/-- The two low bits of a multiple of 4 are clear. -/
theorem getLsbD_of_aligned {w : Word} (hw : w.toNat % 4 = 0) {j : Nat} (hj : j < 2) : w.getLsbD j = false := by
  have hmod : w.toNat.testBit j = (w.toNat % 2 ^ 2).testBit j := by
    rw [Nat.testBit_mod_two_pow, decide_eq_true hj, Bool.true_and]
  rw [BitVec.getLsbD, hmod, show 2 ^ 2 = 4 from rfl, hw, Nat.zero_testBit]

/-- A mask that lets bits 2 to 31 through stores a multiple of 4 whole. -/
theorem maskWrite_zero_of_aligned {m w : Word} (hm : 0xFFFFFFFC &&& ~~~m = 0) (hw : w.toNat % 4 = 0) :
    maskWrite 0 m w = w := by
  rw [and_not_eq_zero_iff] at hm
  apply word_ext
  intro j hj
  rw [getLsbD_maskWrite _ _ _ _ hj]
  rcases Nat.lt_or_ge j 2 with h2 | h2
  · simp [getLsbD_of_aligned hw h2]
  · have hbit : (0xFFFFFFFC : Word).getLsbD j = true := by interval_cases j <;> rfl
    rw [if_pos (hm j hj hbit)]

/-- Both masks of a saved program counter let bits 2 to 31 through (10_state.md R33). -/
theorem aligned_within_epcMask (c : Config) : 0xFFFFFFFC &&& ~~~epcMask c = 0 := by
  rw [epcMask_eq]
  split <;> decide

/-- The vector and the main entry point are multiples of 4 (00_scope.md R5). -/
theorem entries_aligned {c : Config} (h : c.wf = true) : c.trapEntry.toNat % 4 = 0 ∧ c.mainEntry.toNat % 4 = 0 := by
  have := wf_facts h
  tauto

/-! ## `mstatus` on the way to the main routine -/

/-- `mstatus` as B3 and B4 make it from 0: `MPP` names the target, whose interrupts the return will enable. -/
def bootMstatus (target : Priv) : Word := setBit (setMpp 0 target.code) (if target = .S then 1 else 7) true

theorem mppField_bootMstatus_ne_zero (p : Priv) : mppField (bootMstatus p) ≠ 0b00 := by
  cases p <;> decide

@[simp] theorem mretPriv_bootMstatus (p : Priv) : mretPriv (bootMstatus p) = p := by
  cases p <;> decide

@[simp] theorem mstatusMret_bootMstatus (p : Priv) :
    mstatusMret (bootMstatus p) = if p = .S then 0x82 else 0x88 := by
  cases p <;> decide

/-! ## The seven steps in a row -/

/-- A run whose first instruction has a next state goes on from there. -/
theorem runAll_cons_of_next {i : Instr} {s t : State} {rest : List Instr} {o : Out} (h : exec i s = .next t)
    (hrest : runAll rest t = o) : runAll (i :: rest) s = o := by
  simp only [runAll, h, hrest]

/-- The bootstrap's first six steps after reset: every register written, the return still to come. -/
theorem runAll_boot_b0_to_b5 (s : State) (rest : List Instr) :
    runAll (.bootB0 :: .bootB1 :: .bootB2 :: .bootB3 :: .bootB4 :: .bootB5 :: rest) s.afterReset =
      runAll rest { s.afterReset with
        boot := .b6
        csr := { Csrs.reset with
          mstatus := bootMstatus s.cfg.bootTarget
          mtvec := maskWrite 0 0xFFFFFFFC s.cfg.trapEntry, stvec := maskWrite 0 0xFFFFFFFC s.cfg.trapEntry
          mepc := maskWrite 0 (epcMask s.cfg) s.cfg.mainEntry
          pmpaddr0 := s.cfg.pmpAddr0, pmpcfg0 := maskWrite 0 0x1F s.cfg.pmpCfg0
          medeleg := maskWrite 0 0xB3FF s.cfg.edelegMask, mideleg := maskWrite 0 0x222 s.cfg.idelegMask } } :=
  runAll_cons_of_next (exec_bootB0_atLabel rfl rfl) <|
  runAll_cons_of_next (exec_bootB1_atLabel rfl rfl) <|
  runAll_cons_of_next (exec_bootB2_atLabel rfl rfl) <|
  runAll_cons_of_next (exec_bootB3_atLabel rfl rfl) <|
  runAll_cons_of_next (exec_bootB4_atLabel rfl rfl) <|
  runAll_cons_of_next (exec_bootB5_atLabel rfl rfl) <|
  rfl

/-- Settles O22: the first six steps write the registers, B6 returns through the `MPP` of B3; the entry points pass
their write masks whole because they are multiples of 4. -/
theorem bootstrapLeavesTheMainRoutine : Obligations.BootstrapLeavesTheMainRoutine := by
  intro s hwf
  obtain ⟨htrap, hmain⟩ := entries_aligned hwf
  have hvec : maskWrite 0 0xFFFFFFFC s.cfg.trapEntry = s.cfg.trapEntry := maskWrite_zero_of_aligned (by decide) htrap
  have hepc : maskWrite 0 (epcMask s.cfg) s.cfg.mainEntry = s.cfg.mainEntry :=
    maskWrite_zero_of_aligned (aligned_within_epcMask s.cfg) hmain
  rw [runAll_boot_b0_to_b5, hvec, hepc, maskWrite_zero, maskWrite_zero, maskWrite_zero]
  refine runAll_cons_of_next (exec_bootB6_atLabel rfl rfl (mppField_bootMstatus_ne_zero s.cfg.bootTarget)) ?_
  simp [runAll, State.setBoot]

end Sys2Proof.Machine
end

section
/-! SUPPORT. The dispatch FSM's reports (45_trap_dispatch.md R241 to R243; 30_encoding.md R104): the known causes by
their codes, the bytes of a record, and the steps ROUTE, FATAL and IREPORT at their labels. -/

namespace Sys2Proof.Machine

open Sys2Proof

/-! ## The known causes, by code -/

theorem exceptionKnown_iff (n : Nat) :
    exceptionKnown n = true ↔ n ∈ [0, 1, 2, 3, 4, 5, 6, 7, 8, 9, 11, 12, 13, 15] := by
  simp only [exceptionKnown, decide_eq_true_eq, List.mem_cons, List.not_mem_nil, or_false]
  omega

theorem interruptKnown_iff (n : Nat) : interruptKnown n = true ↔ n ∈ [1, 3, 5, 7, 9, 11] := by
  simp only [interruptKnown, decide_eq_true_eq, List.mem_cons, List.not_mem_nil, or_false]
  omega

theorem classify_eq_exception_iff {tc : TrapCause} {e : BitVec 31} : classify tc = .exception e ↔
    (tc.isInterrupt = false ∧ tc.code.toNat ∈ [0, 1, 2, 3, 4, 5, 6, 7, 8, 9, 11, 12, 13, 15]) ∧ tc.code = e := by
  rw [← exceptionKnown_iff, classify]
  cases tc.isInterrupt <;> simp [ite_eq_iff]

theorem classify_eq_interrupt_iff {tc : TrapCause} {i : BitVec 31} : classify tc = .interrupt i ↔
    (tc.isInterrupt = true ∧ tc.code.toNat ∈ [1, 3, 5, 7, 9, 11]) ∧ tc.code = i := by
  rw [← interruptKnown_iff, classify]
  cases tc.isInterrupt <;> simp [ite_eq_iff]

/-- The tag of R242: `E` for a known exception, `X` for every other cause. -/
theorem exceptionTag_eq (tc : TrapCause) : exceptionTag tc =
    if tc.isInterrupt = false ∧ tc.code.toNat ∈ [0, 1, 2, 3, 4, 5, 6, 7, 8, 9, 11, 12, 13, 15] then 0x45 else 0x58 := by
  unfold exceptionTag
  split
  · next e he => exact (if_pos (classify_eq_exception_iff.1 he).1).symm
  · next hne => exact (if_neg fun hknown => hne _ (classify_eq_exception_iff.2 ⟨hknown, rfl⟩)).symm

/-- The tag of R243: `I` for a known interrupt, `J` for every other cause. -/
theorem interruptTag_eq (tc : TrapCause) : interruptTag tc =
    if tc.isInterrupt = true ∧ tc.code.toNat ∈ [1, 3, 5, 7, 9, 11] then 0x49 else 0x4A := by
  unfold interruptTag
  split
  · next i hi => exact (if_pos (classify_eq_interrupt_iff.1 hi).1).symm
  · next hne => exact (if_neg fun hknown => hne _ (classify_eq_interrupt_iff.2 ⟨hknown, rfl⟩)).symm

/-! ## The record -/

/-- One record of five bytes is appended, the word's low byte first (R104), and nothing else changes. -/
theorem report_eq (s : State) (tag : Byte) (v : Word) : report s tag v = { s with
    sinkLog := s.sinkLog ++ [tag, v.extractLsb' 0 8, v.extractLsb' 8 8, v.extractLsb' 16 8, v.extractLsb' 24 8] } := by
  have hbytes : reportBytes tag v =
      [tag, v.extractLsb' 0 8, v.extractLsb' 8 8, v.extractLsb' 16 8, v.extractLsb' 24 8] := rfl
  rw [report, hbytes]
  rfl

/-! ## The steps, each at its label -/

/-- What a dispatch step whose guard holds and whose body neither raises nor refuses does. -/
theorem dispStep_eq {s t : State} {guard : Bool} {body : State → Res Unit} (hg : guard = true)
    (hb : body s = .ok () t) : dispStep s guard body = .next t := by
  simp [dispStep, hg, hb]

/-- DISP.ROUTE (R241): the interrupt flag alone decides. -/
theorem exec_dispRoute_decoding {s : State} (hd : s.disp = .decoding) : exec .dispRoute s = .next
    (if s.dregs.tc.isInterrupt then setIh (s.setDisp .interruptHandling) .report else s.setDisp .exceptionFatal) :=
  show execDispRoute s = _ from dispStep_eq (decide_eq_true hd) rfl

/-- DISP.FATAL (R242). -/
theorem exec_dispFatal_exceptionFatal {s : State} (hd : s.disp = .exceptionFatal) : exec .dispFatal s = .next
    ((report s (exceptionTag s.dregs.tc) (s.dregs.tc.code.setWidth 32)).setDisp .halted) :=
  show execDispFatal s = _ from dispStep_eq (decide_eq_true hd) rfl

/-- The dispatch registers after DISP.IREPORT (R243): an external interrupt names its context and goes to the claim,
every other cause goes to the return. -/
def ireportRoute (d : DispRegs) : DispRegs :=
  if d.tc.isInterrupt = true ∧ d.tc.code.toNat = 11 then { d with ctx := 0, ih := .claim }
  else if d.tc.isInterrupt = true ∧ d.tc.code.toNat = 9 then { d with ctx := 1, ih := .claim }
  else { d with ih := .ret }

/-- DISP.IREPORT (R243). -/
theorem exec_dispIreport_report {s : State} (hs : inService s .report = true) : exec .dispIreport s = .next
    ((report s (interruptTag s.dregs.tc) (s.dregs.tc.code.setWidth 32)).setDregs (ireportRoute s.dregs)) := by
  refine show execDispIreport s = _ from dispStep_eq hs ?_
  dsimp only
  split
  · next i hc =>
    obtain ⟨⟨hi, -⟩, rfl⟩ := classify_eq_interrupt_iff.1 hc
    have h11 : s.dregs.tc.code = 11 ↔ s.dregs.tc.code.toNat = 11 := BitVec.toNat_inj.symm
    have h9 : s.dregs.tc.code = 9 ↔ s.dregs.tc.code.toNat = 9 := BitVec.toNat_inj.symm
    simp only [ireportRoute, hi, true_and, h11, h9]
    split
    · rfl
    · split <;> rfl
  · next hne =>
    have hunknown : ¬(s.dregs.tc.isInterrupt = true ∧ s.dregs.tc.code.toNat ∈ [1, 3, 5, 7, 9, 11]) :=
      fun hknown => hne _ (classify_eq_interrupt_iff.2 ⟨hknown, rfl⟩)
    rw [ireportRoute, if_neg fun h => hunknown ⟨h.1, by simp [h.2]⟩, if_neg fun h => hunknown ⟨h.1, by simp [h.2]⟩]
    rfl

/-- Settles O23: the route is one `if` on the flag; the report is `report_eq` with the tag of `exceptionTag_eq`. -/
theorem exceptionsAreReportedAndHalt : Obligations.ExceptionsAreReportedAndHalt := by
  intro s
  refine ⟨fun hd hi => ?_, fun hd hi => ?_, fun hd =>
    ⟨exceptionTag s.dregs.tc, fun hknown => ?_, fun hunknown => ?_, ?_⟩⟩
  · rw [exec_dispRoute_decoding hd, hi]
    rfl
  · rw [exec_dispRoute_decoding hd, hi]
    rfl
  · rw [exceptionTag_eq, if_pos hknown]
  · rw [exceptionTag_eq, if_neg hunknown]
  · rw [exec_dispFatal_exceptionFatal hd, report_eq]
    rfl

/-- Settles O24: the report is `report_eq` with the tag of `interruptTag_eq`, the route is `ireportRoute`. -/
theorem interruptsAreReportedAndRouted : Obligations.InterruptsAreReportedAndRouted := by
  intro s hs
  have hservice : inService s .report = true := by simpa [State.serving, inService] using hs
  rw [exec_dispIreport_report hservice, report_eq, interruptTag_eq]
  rfl

end Sys2Proof.Machine
end

section
/-! SUPPORT. The decoder on the encoder's wires (30_encoding.md R91 to R94): one lemma per family of slots, every operand
kept by its field. -/

namespace Sys2Proof.Machine

open Sys2Proof

/-! ## Operand fields -/

/-- An operand narrower than a word stands in its operand word's low bits and is read back from there (R91). -/
theorem setWidth_word {w : Nat} (x : BitVec w) (h : w ≤ 32) : (x.setWidth 32).setWidth w = x := by
  rw [BitVec.setWidth_setWidth_of_le _ h, BitVec.setWidth_eq]

/-- A CSR number fills the low 12 bits of its operand word and leaves the others 0 (R91). -/
theorem csrOperand_setWidth (n : BitVec 12) (k : BitVec 12 → Instr) : csrOperand (n.setWidth 32) k = .ok (k n) := by
  have hhigh : (n.setWidth 32).extractLsb 31 12 = 0 := by
    apply BitVec.eq_of_toNat_eq
    have := n.isLt
    simp [BitVec.extractLsb, Nat.shiftRight_eq_div_pow]
    omega
  rw [csrOperand, if_pos hhigh, setWidth_word n (by decide)]

@[simp] theorem getLsbD_flag_zero (b : Bool) : (flag b).getLsbD 0 = b := by cases b <;> rfl

/-- The three error flags of UART.RXARRIVE in one operand word (R93, log 4). -/
theorem getLsbD_errorFlags (pe fe bi : Bool) :
    (flag pe ||| flag fe <<< 1 ||| flag bi <<< 2).getLsbD 0 = pe ∧
    (flag pe ||| flag fe <<< 1 ||| flag bi <<< 2).getLsbD 1 = fe ∧
    (flag pe ||| flag fe <<< 1 ||| flag bi <<< 2).getLsbD 2 = bi := by
  cases pe <;> cases fe <;> cases bi <;> exact ⟨rfl, rfl, rfl⟩

/-- The two halves of PLIC.INIT's third operand word (R92). -/
theorem extractLsb_halves (thr prio : BitVec 16) :
    (thr ++ prio).extractLsb 15 0 = prio ∧ (thr ++ prio).extractLsb 31 16 = thr := by
  constructor <;> apply BitVec.eq_of_getLsbD_eq <;> intro j hj <;>
    rw [BitVec.getLsbD_extractLsb, BitVec.getLsbD_append]
  · have : j < 16 := by omega
    simp [this]
  · simp; omega

/-! ## The register spaces -/

@[simp] theorem csrOfNumber_csrNumber (r : CsrName) : csrOfNumber (csrNumber r) = some r := by
  cases r <;> rfl

theorem decode_csrSlot (cfg : Config) (r : CsrName) (a : CsrAccess) :
    decode cfg (csrSlot r a) = .ok (csrRow r a) := by
  have hnum : csrOfNumber (((csrNumber r).setWidth 32).setWidth 12) = some r := by cases r <;> rfl
  have hhigh : ((csrNumber r).setWidth 32).extractLsb 31 12 = 0 := by cases r <;> rfl
  cases a <;> simp only [decode, csrSlot, decodeCsr, hnum, hhigh, ne_eq, not_true_eq_false, if_false] <;> rfl

theorem decode_plicSlot {cfg : Config} {off : Word} (h : off.toNat < cfg.plicSize.toNat) (a : WordAccess) :
    decode cfg (plicSlot off a) = .ok (plicRow off (plicSelect cfg off.toNat) a) := by
  cases a <;> simp only [decode, plicSlot, decodePlic, h, if_true] <;> rfl

/-- A row of the PLIC window is read at its own offset (20_memory.md R63). -/
theorem decode_plicOffset {cfg : Config} (hwf : cfg.wf = true) {r : PlicReg} (hr : regExists cfg r) (a : WordAccess) :
    decode cfg (plicSlot (plicOffset cfg r) a) = .ok (plicRow (plicOffset cfg r) r a) := by
  obtain ⟨-, hlt⟩ := plicOffset_bounds hwf r hr
  rw [decode_plicSlot (by omega), plicSelect_plicOffset hwf r hr]

theorem decode_uartSlot {cfg : Config} {off : Word} (h : off.toNat < 8) (a : ByteAccess) :
    decode cfg (uartSlot off a) = .ok (match a with
      | .read => uartReadRow (off.setWidth 3)
      | .write v => uartWriteRow (off.setWidth 3) v) := by
  cases a with
  | read => simp only [decode, uartSlot, decodeUart, h, if_true]; rfl
  | write v =>
    simp only [decode, uartSlot, decodeUart, h, if_true, setWidth_word v (by decide : 8 ≤ 32)]; rfl

/-- A register row whose two accesses are a read and a write of one UART offset. -/
theorem decode_uartRow {cfg : Config} {off : Word} {row : ByteAccess → Instr} (h : off.toNat < 8)
    (hread : uartReadRow (off.setWidth 3) = row .read)
    (hwrite : ∀ v, uartWriteRow (off.setWidth 3) v = row (.write v)) (a : ByteAccess) :
    decode cfg (uartSlot off a) = .ok (row a) := by
  rw [decode_uartSlot h]
  cases a with
  | read => exact congrArg Except.ok hread
  | write v => exact congrArg Except.ok (hwrite v)

/-! ## Every instruction -/

/-- Settles O3, by the family of the instruction: a CSR number by `csrOperand_setWidth`, a narrow operand by its field, a
register row by the lemma of its space; the other wires carry their operands whole. -/
theorem decodeOfEncodeIsIdentity : Obligations.DecodeOfEncodeIsIdentity := by
  intro cfg i hwf hi
  cases i
  case csrRead n => exact csrOperand_setWidth n .csrRead
  case csrWrite n v => exact csrOperand_setWidth n (.csrWrite · v)
  case csrSet n m => exact csrOperand_setWidth n (.csrSet · m)
  case csrClear n m => exact csrOperand_setWidth n (.csrClear · m)
  case tcClassify code isInt =>
    exact congrArg₂ (Except.ok <| Instr.tcClassify · ·) (setWidth_word code (by decide)) (getLsbD_flag_zero isInt)
  case plicCtx hart mode => exact congrArg (Except.ok <| Instr.plicCtx hart ·) (getLsbD_flag_zero mode)
  case plicInit ctx src prio thr =>
    obtain ⟨hprio, hthr⟩ := extractLsb_halves thr prio
    exact congrArg₂ (Except.ok <| Instr.plicInit ctx src · ·) hprio hthr
  case uartPutc c => exact congrArg (Except.ok <| Instr.uartPutc ·) (setWidth_word c (by decide))
  case uartIeset m => exact congrArg (Except.ok <| Instr.uartIeset ·) (setWidth_word m (by decide))
  case uartIeclr m => exact congrArg (Except.ok <| Instr.uartIeclr ·) (setWidth_word m (by decide))
  case uartModem m => exact congrArg (Except.ok <| Instr.uartModem ·) (setWidth_word m (by decide))
  case uartRxarrive b pe fe bi =>
    obtain ⟨hpe, hfe, hbi⟩ := getLsbD_errorFlags pe fe bi
    change Except.ok (Instr.uartRxarrive ((b.setWidth 32).setWidth 8)
      ((flag pe ||| flag fe <<< 1 ||| flag bi <<< 2).getLsbD 0)
      ((flag pe ||| flag fe <<< 1 ||| flag bi <<< 2).getLsbD 1)
      ((flag pe ||| flag fe <<< 1 ||| flag bi <<< 2).getLsbD 2)) = _
    rw [hpe, hfe, hbi, setWidth_word b (by decide)]
  case pinMtip v => exact congrArg (Except.ok <| Instr.pinMtip ·) (getLsbD_flag_zero v)
  case pinMsip v => exact congrArg (Except.ok <| Instr.pinMsip ·) (getLsbD_flag_zero v)
  case pinLine src v => exact congrArg (Except.ok <| Instr.pinLine src ·) (getLsbD_flag_zero v)
  case regSstatus a | regSie a | regStvec a | regSepc a | regScause a | regSip a | regSatp a | regMstatus a
      | regMedeleg a | regMideleg a | regMie a | regMtvec a | regMepc a | regMcause a | regMip a | regPmpcfg0 a
      | regPmpaddr0 a | regMhartid a => exact decode_csrSlot cfg _ a
  case regPlicPriority n a => exact decode_plicOffset hwf (r := .priority n) (show _ < _ from of_decide_eq_true hi) a
  case regPlicPending w a => exact decode_plicOffset hwf (r := .pending w) (show _ < _ from of_decide_eq_true hi) a
  case regPlicEnable c w a => exact decode_plicOffset hwf (r := .enable c w) (show _ < _ from of_decide_eq_true hi) a
  case regPlicThreshold c a => exact decode_plicOffset hwf (r := .threshold c) trivial a
  case regPlicClaim c => exact decode_plicOffset hwf (r := .claim c) trivial .read
  case regPlicComplete c v => exact decode_plicOffset hwf (r := .claim c) trivial (.write v)
  case regPlicReserved off a =>
    obtain ⟨hlt, hsel⟩ : off.toNat < cfg.plicSize.toNat ∧ plicSelect cfg off.toNat = .reserved := by
      simpa [Instr.wf] using hi
    change decode cfg (plicSlot off a) = _
    rw [decode_plicSlot hlt, hsel]
    rfl
  case regUartRbr => exact decode_uartSlot (by decide) .read
  case regUartIir => exact decode_uartSlot (by decide) .read
  case regUartThr v => exact decode_uartSlot (by decide) (.write v)
  case regUartFcr v => exact decode_uartSlot (by decide) (.write v)
  case regUartIer a | regUartLcr a | regUartOffset4 a | regUartLsr a | regUartMsr a | regUartOffset7 a =>
    exact decode_uartRow (by decide) rfl (fun _ => rfl) a
  all_goals rfl

end Sys2Proof.Machine
end

section
/-! SUPPORT. Invariants of the machine's step: one induction-free reduction of `step` to its turns, the parameters that no
step changes, and the registers that every step keeps legal (10_state.md R22 to R36). -/

namespace Sys2Proof.Machine

open Sys2Proof

/-! ## From a turn to a step -/

/-- A property that does not read the schedule, that every instruction and every sequence step of HOST keeps, is kept by
the step of the machine. -/
theorem step_keeps {P : State → Prop} (hsched : ∀ s l, P s → P (s.setSched l))
    (hexec : ∀ i s t, P s → exec i s = .next t → P t) (hnext : ∀ s t, P s → hostNext s = .next t → P t)
    {s t : State} (hs : P s) (h : step s = .next t) : P t := by
  rcases step_turn h with rfl | ⟨u, ⟨l, rfl⟩, ⟨i, hi⟩ | hn⟩
  · exact hs
  · exact hexec i _ t (hsched s l hs) hi
  · exact hnext _ t (hsched s l hs) hn

/-! ## The parameters -/

theorem mem_cfg {s t : State} (h : MemEffect s t) : t.cfg = s.cfg := by
  rw [MemEffect_frame h]

theorem trapEnter_cfg {s t : State} {isInt : Bool} {code : BitVec 31} (h : trapEnter s isInt code = .next t) :
    t.cfg = s.cfg := by
  rcases trapEnter_cases h with ⟨-, -, rfl⟩ | ⟨-, -, rfl⟩ <;> rfl

theorem raise_cfg {s t : State} {e : BitVec 31} (h : raiseException s e = .next t) : t.cfg = s.cfg :=
  trapEnter_cfg (s := { s with hseq := none, r0 := none, r1 := none }) h

theorem mretEffects_cfg {s t : State} (h : mretEffects s = .ok () t) : t.cfg = s.cfg := by
  obtain ⟨-, rfl⟩ := mretEffects_cases h
  rfl

theorem sretEffects_cfg {s t : State} (h : sretEffects s = .ok () t) : t.cfg = s.cfg := by
  obtain ⟨-, rfl⟩ := sretEffects_cases h
  rfl

theorem host_cfg {i : Instr} {s t : State} (h : HostEffect i s t) : t.cfg = s.cfg := by
  cases h with
  | mem u h => exact (mem_cfg h :)
  | memSeq u q h => exact (mem_cfg h :)
  | mret t hi hp h => exact mretEffects_cfg h
  | sret t hi h => exact sretEffects_cfg h
  | _ => rfl

/-- The route after a claim writes the report and the dispatch registers alone. -/
theorem claimRoute_frame (s : State) (id : Word) :
    claimRoute s id = { s with sinkLog := (claimRoute s id).sinkLog, dregs := (claimRoute s id).dregs } := by
  unfold claimRoute
  split
  · rfl
  · split <;> rfl

theorem claimRoute_cfg (s : State) (id : Word) : (claimRoute s id).cfg = s.cfg := by
  rw [claimRoute_frame]

/-- No instruction changes a parameter (00_scope.md R5). -/
theorem exec_cfg {i : Instr} {s t : State} (h : exec i s = .next t) : t.cfg = s.cfg := by
  cases exec_shape h with
  | host hr hi u a hu => exact (host_cfg hu :)
  | raised hr hi e t he => exact raise_cfg he
  | boot6 hi hb hd u hu => exact (mretEffects_cfg hu :)
  | interrupt hi hd k hk t ht => exact trapEnter_cfg ht
  | claim hi hs id u hu => exact (claimRoute_cfg u id).trans (mem_cfg (memRead_effect hu))
  | rxpoll hi hs l u hu => exact (mem_cfg (memRead_effect hu) :)
  | rxread hi hs l u hu => exact (mem_cfg (memRead_effect hu) :)
  | txpoll hi hs l u hu => exact (mem_cfg (memRead_effect hu) :)
  | txwrite hi hs b rest hq u hu => exact (mem_cfg (memWrite_effect hu) :)
  | complete hi hs u hu => exact (mem_cfg (memWrite_effect hu) :)
  | ret hi hs u hu =>
    rcases hu with ⟨-, hu⟩ | ⟨-, hu⟩
    · exact (mretEffects_cfg hu :)
    · exact (sretEffects_cfg hu :)
  | _ => rfl

/-- No sequence step of HOST changes a parameter. -/
theorem hostNext_cfg {s t : State} (h : hostNext s = .next t) : t.cfg = s.cfg := by
  rcases hostNext_cases h with rfl | ⟨-, -, ⟨u, q, a, hm, rfl⟩ | ⟨e, he⟩⟩
  · rfl
  · exact (mem_cfg hm :)
  · exact raise_cfg he

/-! ## Words within a mask -/

theorem within_iff (m w : Word) : within m w = true ↔ ∀ j, j < 32 → w.getLsbD j = true → m.getLsbD j = true := by
  rw [within, decide_eq_true_eq, and_not_eq_zero_iff]

theorem within_zero (m : Word) : within m 0 = true := by
  simp [within]

theorem within_maskWrite {k old m v : Word} (h : within k old = true) (hm : m &&& ~~~k = 0) :
    within k (maskWrite old m v) = true :=
  decide_eq_true (maskWrite_within old m v k (of_decide_eq_true h) hm)

theorem within_setBit {m w : Word} {i : Nat} {b : Bool} (h : within m w = true) (hi : m.getLsbD i = true) :
    within m (setBit w i b) = true := by
  rw [within_iff] at *
  intro j hj hw
  rw [getLsbD_setBit _ _ _ _ hj] at hw
  split at hw
  · next hji => rw [hji]; exact hi
  · exact h j hj hw

theorem within_trans {m k w : Word} (h : within m w = true) (hm : m &&& ~~~k = 0) : within k w = true := by
  rw [and_not_eq_zero_iff] at hm
  rw [within_iff] at *
  exact fun j hj hw => hm j hj (h j hj hw)

/-- A multiple of 4 has no bit outside the mask of a program counter, for either alignment. -/
theorem within_epcMask_of_aligned {w : Word} (c : Config) (hw : w.toNat % 4 = 0) : within (epcMask c) w = true := by
  refine within_trans (m := 0xFFFFFFFC) ((within_iff _ _).2 fun j hj hbit => ?_) (aligned_within_epcMask c)
  rcases Nat.lt_or_ge j 2 with h2 | h2
  · rw [getLsbD_of_aligned hw h2] at hbit
    cases hbit
  · interval_cases j <;> rfl

/-- What HART.SETPC takes is aligned (46_host_port.md R264). -/
theorem within_epcMask_of_pcAligned {c : Config} {a : Word} (h : pcAligned c a = true) :
    within (epcMask c) a = true := by
  cases hc : c.ialign with
  | bits32 =>
    simp only [pcAligned, hc, decide_eq_true_eq] at h
    exact within_epcMask_of_aligned c h
  | bits16 =>
    simp only [pcAligned, hc, decide_eq_true_eq] at h
    rw [within_iff, epcMask, hc]
    intro j hj hbit
    rcases Nat.eq_zero_or_pos j with rfl | h0
    · simp [BitVec.getLsbD, Nat.testBit_zero, h] at hbit
    · interval_cases j <;> rfl

/-! ## `mstatus` -/

/-- `mstatus` holds implemented bits only, and a previous mode other than the reserved 0b10 (10_state.md R25). -/
structure LegalMstatus (w : Word) : Prop where
  bits : within 0x19AA w = true
  mpp : mppField w ≠ 0b10

theorem Priv.code_ne_reserved (p : Priv) : p.code ≠ 0b10 := by cases p <;> decide

theorem LegalMstatus.setBit {w : Word} {i : Nat} {b : Bool} (h : LegalMstatus w)
    (hi : (0x19AA : Word).getLsbD i = true := by rfl) (h11 : i ≠ 11 := by decide) (h12 : i ≠ 12 := by decide) :
    LegalMstatus (setBit w i b) where
  bits := within_setBit h.bits hi
  mpp := by rw [mppField_setBit _ _ _ h11 h12]; exact h.mpp

theorem LegalMstatus.setMpp {w : Word} {v : BitVec 2} (h : LegalMstatus w) (hv : v ≠ 0b10) :
    LegalMstatus (setMpp w v) where
  bits := by
    rw [within_iff]
    intro j hj hbit
    rw [getLsbD_setMpp _ _ _ hj] at hbit
    split at hbit
    · next hm => rcases hm with rfl | rfl <;> rfl
    · exact (within_iff _ _).1 h.bits j hj hbit
  mpp := by rwa [mppField_setMpp]

/-- A masked write takes the previous-privilege field whole where the mask has its two bits. -/
theorem mppField_maskWrite (old m v : Word) (h : m.getLsbD 11 = m.getLsbD 12) :
    mppField (maskWrite old m v) = if m.getLsbD 11 then mppField v else mppField old := by
  apply BitVec.eq_of_getLsbD_eq
  intro j hj
  have hm : m.getLsbD (11 + j) = m.getLsbD 11 := by
    interval_cases j
    · rfl
    · exact h.symm
  rw [getLsbD_mppField _ _ hj, getLsbD_maskWrite _ _ _ _ (by omega), hm]
  split <;> rw [getLsbD_mppField _ _ hj]

/-- A write of `sstatus` leaves the previous-privilege field (10_state.md R26). -/
theorem LegalMstatus.sstatus {w : Word} (v : Word) (h : LegalMstatus w) : LegalMstatus (maskWrite w 0x122 v) where
  bits := within_maskWrite h.bits (by decide)
  mpp := by rw [mppField_maskWrite w 0x122 v rfl]; exact h.mpp

theorem LegalMstatus.write {w : Word} (v : Word) (h : LegalMstatus w) : LegalMstatus (mstatusWrite w v) where
  bits := by
    rw [mstatusWrite_eq]
    exact within_maskWrite h.bits (by split <;> decide)
  mpp := by
    rw [mstatusWrite_eq]
    by_cases hv : mppField v = 0b10
    · rw [if_pos hv, mppField_maskWrite w 0x01AA v rfl]; exact h.mpp
    · rw [if_neg hv, mppField_maskWrite w 0x19AA v rfl]; exact hv

theorem LegalMstatus.trapM {w : Word} (p : Priv) (h : LegalMstatus w) : LegalMstatus (mstatusTrapM w p) :=
  h.setBit.setBit.setMpp (Priv.code_ne_reserved p)

theorem LegalMstatus.trapS {w : Word} (h : LegalMstatus w) : LegalMstatus (mstatusTrapS w) := h.setBit.setBit.setBit

theorem LegalMstatus.mret {w : Word} (h : LegalMstatus w) : LegalMstatus (mstatusMret w) :=
  h.setBit.setBit.setMpp (by decide)

theorem LegalMstatus.sret {w : Word} (h : LegalMstatus w) : LegalMstatus (mstatusSret w) := h.setBit.setBit.setBit

/-! ## The CSR file -/

/-- `Csrs.legal`, by register. -/
structure LegalCsrs (cfg : Config) (c : Csrs) : Prop where
  mstatus : LegalMstatus c.mstatus
  mie : within 0xAAA c.mie = true
  mipSw : within 0x22 c.mipSw = true
  medeleg : within 0xB3FF c.medeleg = true
  mideleg : within 0x222 c.mideleg = true
  mtvec : within 0xFFFFFFFC c.mtvec = true
  stvec : within 0xFFFFFFFC c.stvec = true
  mepc : within (epcMask cfg) c.mepc = true
  sepc : within (epcMask cfg) c.sepc = true
  pmpcfg0 : within 0x1F c.pmpcfg0 = true

theorem legalCsrs_iff (cfg : Config) (c : Csrs) : Csrs.legal cfg c = true ↔ LegalCsrs cfg c := by
  simp only [Csrs.legal, Bool.and_eq_true, decide_eq_true_eq]
  constructor
  · rintro ⟨⟨⟨⟨⟨⟨⟨⟨⟨⟨h1, h2⟩, h3⟩, h4⟩, h5⟩, h6⟩, h7⟩, h8⟩, h9⟩, h10⟩, h11⟩
    exact ⟨⟨h1, h2⟩, h3, h4, h5, h6, h7, h8, h9, h10, h11⟩
  · rintro ⟨⟨h1, h2⟩, h3, h4, h5, h6, h7, h8, h9, h10, h11⟩
    exact ⟨⟨⟨⟨⟨⟨⟨⟨⟨⟨h1, h2⟩, h3⟩, h4⟩, h5⟩, h6⟩, h7⟩, h8⟩, h9⟩, h10⟩, h11⟩

/-- No bit under both masks is one under the first. -/
theorem and_and_not_eq_zero {m k : Word} (x : Word) (h : x &&& ~~~k = 0) : (x &&& m) &&& ~~~k = 0 := by
  rw [and_not_eq_zero_iff] at *
  intro j hj hw
  rw [BitVec.getLsbD_and, Bool.and_eq_true] at hw
  exact h j hj hw.1

/-- A CSR write keeps the file legal: every mask lies within the register's bits (40_csr_access.md R122). -/
theorem LegalCsrs.write {cfg : Config} {c : Csrs} (h : LegalCsrs cfg c) (r : CsrName) (v : Word) :
    LegalCsrs cfg (csrWriteFile cfg c r v) := by
  have hmideleg : c.mideleg &&& ~~~0x222 = 0 := of_decide_eq_true h.mideleg
  cases r with
  | sstatus => exact { h with mstatus := h.mstatus.sstatus v }
  | sie =>
    have hmask : within 0xAAA c.mideleg = true := within_trans h.mideleg (by decide)
    exact { h with mie := within_maskWrite h.mie (of_decide_eq_true hmask) }
  | stvec => exact { h with stvec := within_maskWrite h.stvec (by decide) }
  | sepc => exact { h with sepc := within_maskWrite h.sepc (BitVec.and_not_self _) }
  | sip =>
    have hmask : (c.mideleg &&& 0x2) &&& ~~~0x22 = 0 := by
      rw [BitVec.and_comm c.mideleg]
      exact and_and_not_eq_zero 0x2 (by decide)
    exact { h with mipSw := within_maskWrite h.mipSw hmask }
  | mstatus => exact { h with mstatus := h.mstatus.write v }
  | medeleg => exact { h with medeleg := within_maskWrite h.medeleg (by decide) }
  | mideleg => exact { h with mideleg := within_maskWrite h.mideleg (by decide) }
  | mie => exact { h with mie := within_maskWrite h.mie (by decide) }
  | mtvec => exact { h with mtvec := within_maskWrite h.mtvec (by decide) }
  | mepc => exact { h with mepc := within_maskWrite h.mepc (BitVec.and_not_self _) }
  | mip => exact { h with mipSw := within_maskWrite h.mipSw (by decide) }
  | pmpcfg0 => exact { h with pmpcfg0 := within_maskWrite h.pmpcfg0 (by decide) }
  | scause | satp | mcause | pmpaddr0 | mhartid => exact { h with }

/-! ## The registers of a state -/

/-- `State.legalRegs`, by component. -/
structure LegalRegs (s : State) : Prop where
  wf : s.cfg.wf = true
  csr : LegalCsrs s.cfg s.csr
  pc : within (epcMask s.cfg) s.pc = true

theorem legalRegs_iff (s : State) : s.legalRegs = true ↔ LegalRegs s := by
  simp only [State.legalRegs, Bool.and_eq_true, legalCsrs_iff]
  exact ⟨fun ⟨⟨h1, h2⟩, h3⟩ => ⟨h1, h2, h3⟩, fun ⟨h1, h2, h3⟩ => ⟨⟨h1, h2⟩, h3⟩⟩

/-- The legality of the registers reads the parameters, the CSR file and the pc alone. -/
theorem LegalRegs.congr {s t : State} (h : LegalRegs s) (hcfg : t.cfg = s.cfg) (hcsr : t.csr = s.csr)
    (hpc : t.pc = s.pc) : LegalRegs t where
  wf := hcfg ▸ h.wf
  csr := by rw [hcfg, hcsr]; exact h.csr
  pc := by rw [hcfg, hpc]; exact h.pc

theorem LegalRegs.mem {s t : State} (h : LegalRegs s) (hm : MemEffect s t) : LegalRegs t := by
  rw [MemEffect_frame hm]
  exact h.congr rfl rfl rfl

theorem LegalRegs.csrWrite {s : State} (h : LegalRegs s) (r : CsrName) (v : Word) :
    LegalRegs (csrWriteState s r v) := ⟨h.wf, h.csr.write r v, h.pc⟩

theorem LegalRegs.withMstatus {s : State} {w : Word} (h : LegalRegs s) (hw : LegalMstatus w) :
    LegalRegs (s.setCsr { s.csr with mstatus := w }) := ⟨h.wf, { h.csr with mstatus := hw }, h.pc⟩

/-- Trap entry saves the pc and goes to an aligned vector (60_exceptions.md R294). -/
theorem LegalRegs.trap {s t : State} {isInt : Bool} {code : BitVec 31} (h : LegalRegs s)
    (ht : trapEnter s isInt code = .next t) : LegalRegs t := by
  have hmask := aligned_within_epcMask s.cfg
  rcases trapEnter_cases ht with ⟨-, -, rfl⟩ | ⟨-, -, rfl⟩
  · exact ⟨h.wf, { h.csr with mstatus := h.csr.mstatus.trapM s.priv, mepc := h.pc }, within_trans h.csr.mtvec hmask⟩
  · exact ⟨h.wf, { h.csr with mstatus := h.csr.mstatus.trapS, sepc := h.pc }, within_trans h.csr.stvec hmask⟩

theorem LegalRegs.raise {s t : State} {e : BitVec 31} (h : LegalRegs s) (ht : raiseException s e = .next t) :
    LegalRegs t :=
  (h.congr (t := { s with hseq := none, r0 := none, r1 := none }) rfl rfl rfl).trap ht

theorem LegalRegs.mret {s t : State} (h : LegalRegs s) (ht : mretEffects s = .ok () t) : LegalRegs t := by
  obtain ⟨-, rfl⟩ := mretEffects_cases ht
  exact ⟨h.wf, { h.csr with mstatus := h.csr.mstatus.mret }, h.csr.mepc⟩

theorem LegalRegs.sret {s t : State} (h : LegalRegs s) (ht : sretEffects s = .ok () t) : LegalRegs t := by
  obtain ⟨-, rfl⟩ := sretEffects_cases ht
  exact ⟨h.wf, { h.csr with mstatus := h.csr.mstatus.sret }, h.csr.sepc⟩

theorem LegalRegs.host {i : Instr} {s t : State} (h : LegalRegs s) (ht : HostEffect i s t) : LegalRegs t := by
  cases ht with
  | pure => exact h
  | csr r v => exact h.csrWrite r v
  | mem u hu => exact h.mem hu
  | memSeq u q hu => exact (h.mem hu).congr rfl rfl rfl
  | mret t hi hp ht => exact h.mret ht
  | sret t hi ht => exact h.sret ht
  | pc a hi ha => exact ⟨h.wf, h.csr, within_epcMask_of_pcAligned ha⟩

/-- The registers after reset: the CSR file is 0, the pc the reset entry point, a multiple of 4 (10_state.md R56). -/
theorem LegalRegs.afterReset {s : State} (hwf : s.cfg.wf = true) : LegalRegs s.afterReset := by
  have hentry : s.cfg.resetEntry.toNat % 4 = 0 := by have := wf_facts hwf; tauto
  have hz (m : Word) : within m 0 = true := within_zero m
  exact ⟨hwf, ⟨⟨hz _, show mppField 0 ≠ 0b10 by decide⟩, hz _, hz _, hz _, hz _, hz _, hz _, hz _, hz _, hz _⟩,
    within_epcMask_of_aligned s.cfg hentry⟩

/-- Every instruction keeps the registers legal: it writes CSRs through their masks, takes a trap, returns from one, or
leaves the CSR file and the pc. -/
theorem LegalRegs.exec {i : Instr} {s t : State} (h : LegalRegs s) (ht : exec i s = .next t) : LegalRegs t := by
  cases exec_shape ht with
  | host hr hi u a hu => exact (h.host hu).congr rfl rfl rfl
  | raised hr hi e t he => exact h.raise he
  | boot0 => exact ((h.csrWrite .mtvec s.cfg.trapEntry).csrWrite .stvec s.cfg.trapEntry).congr rfl rfl rfl
  | boot1 => exact (h.csrWrite .satp 0).congr rfl rfl rfl
  | boot2 => exact ((h.csrWrite .pmpaddr0 s.cfg.pmpAddr0).csrWrite .pmpcfg0 s.cfg.pmpCfg0).congr rfl rfl rfl
  | boot3 =>
    have hmpp := h.csr.mstatus.setMpp (Priv.code_ne_reserved s.cfg.bootTarget)
    exact ((h.csrWrite .mepc s.cfg.mainEntry).withMstatus hmpp).congr rfl rfl rfl
  | boot4 =>
    refine (h.withMstatus (?_ : LegalMstatus _)).congr rfl rfl rfl
    cases s.cfg.bootTarget <;> exact h.csr.mstatus.setBit
  | boot5 => exact ((h.csrWrite .medeleg s.cfg.edelegMask).csrWrite .mideleg s.cfg.idelegMask).congr rfl rfl rfl
  | boot6 hi hb hd u hu => exact (h.mret hu).congr rfl rfl rfl
  | interrupt hi hd k hk t hk => exact h.trap hk
  | claim hi hs id u hu =>
    rw [claimRoute_frame]
    exact (h.mem (memRead_effect hu)).congr rfl rfl rfl
  | rxpoll hi hs l u hu => exact (h.mem (memRead_effect hu)).congr rfl rfl rfl
  | rxread hi hs l u hu => exact (h.mem (memRead_effect hu)).congr rfl rfl rfl
  | txpoll hi hs l u hu => exact (h.mem (memRead_effect hu)).congr rfl rfl rfl
  | txwrite hi hs b rest hq u hu => exact (h.mem (memWrite_effect hu)).congr rfl rfl rfl
  | complete hi hs u hu => exact (h.mem (memWrite_effect hu)).congr rfl rfl rfl
  | ret hi hs u hu =>
    rcases hu with ⟨-, hu⟩ | ⟨-, hu⟩
    · exact (h.mret hu).congr rfl rfl rfl
    · exact (h.sret hu).congr rfl rfl rfl
  | reset => exact .afterReset h.wf
  | _ => exact h.congr rfl rfl rfl

/-- Every sequence step of HOST keeps the registers legal. -/
theorem LegalRegs.hostNext {s t : State} (h : LegalRegs s) (ht : hostNext s = .next t) : LegalRegs t := by
  rcases hostNext_cases ht with rfl | ⟨-, -, ⟨u, q, a, hm, rfl⟩ | ⟨e, he⟩⟩
  · exact h
  · exact (h.mem hm).congr rfl rfl rfl
  · exact h.raise he

/-- Settles O56: `LegalRegs` is kept by every instruction and every sequence step, and does not read the schedule. -/
theorem everyStepKeepsRegistersLegal : Obligations.EveryStepKeepsRegistersLegal := by
  intro s t hs h
  rw [legalRegs_iff] at *
  exact step_keeps (fun s l hs => hs.congr rfl rfl rfl) (fun i s t => LegalRegs.exec) (fun s t => LegalRegs.hostNext) hs h

end Sys2Proof.Machine
end

section
/-! SUPPORT. The devices' storage (10_state.md R39 to R46): a bank of the PLIC keeps its canonical form and its entries'
ranges under a write, the UART's queues stay within their capacity, in every step. -/

namespace Sys2Proof.Machine

open Sys2Proof

/-! ## The PLIC's banks -/

/-- A bank in canonical form all of whose entries are in range. -/
structure LegalBank {β : Type} [DecidableEq β] (d : β) (ok : Nat × β → Bool) (t : Tab β) : Prop where
  wf : Tab.wf d t = true
  all : t.all ok = true

theorem LegalBank.set {β : Type} [DecidableEq β] {d : β} {ok : Nat × β → Bool} {t : Tab β} {k : Nat} {v : β}
    (h : LegalBank d ok t) (hv : ok (k, v) = true) : LegalBank d ok (Tab.set d t k v) where
  wf := tab_set_wf d t k v h.wf
  all := by
    rw [List.all_eq_true]
    intro e he
    rcases (mem_tab_set d t k v e).1 he with ⟨rfl, -⟩ | ⟨he, -⟩
    · exact hv
    · exact List.all_eq_true.1 h.all e he

/-- `PlicCtx.legal`, by component. -/
structure LegalCtx (cfg : Config) (x : PlicCtx) : Prop where
  enable : LegalBank 0 (fun e => decide (e.1 < cfg.numWords) && within (sourceMask cfg e.1) e.2) x.enable
  threshold : within cfg.prioMax x.threshold = true

theorem legalCtx_iff (cfg : Config) (x : PlicCtx) : PlicCtx.legal cfg x = true ↔ LegalCtx cfg x := by
  simp only [PlicCtx.legal, Bool.and_eq_true]
  exact ⟨fun ⟨⟨h1, h2⟩, h3⟩ => ⟨⟨h1, h2⟩, h3⟩, fun ⟨⟨h1, h2⟩, h3⟩ => ⟨⟨h1, h2⟩, h3⟩⟩

/-- `Plic.legal`, by component. -/
structure LegalPlic (cfg : Config) (p : Plic) : Prop where
  priority : LegalBank 0 (fun e => cfg.isSource e.1 && within cfg.prioMax e.2) p.priority
  ctx : ∀ c, LegalCtx cfg (p.ctx c)
  gw : LegalBank .open (fun e => cfg.isSource e.1) p.gw
  extLine : LegalBank false (fun e => cfg.isSource e.1 && decide (e.1 ≠ cfg.uartSourceId)) p.extLine

theorem legalPlic_iff (cfg : Config) (p : Plic) : Plic.legal cfg p = true ↔ LegalPlic cfg p := by
  simp only [Plic.legal, Bool.and_eq_true, legalCtx_iff]
  constructor
  · rintro ⟨⟨⟨⟨⟨⟨⟨hp, hp'⟩, h0⟩, h1⟩, hg⟩, hg'⟩, he⟩, he'⟩
    refine ⟨⟨hp, hp'⟩, fun c => ?_, ⟨hg, hg'⟩, he, he'⟩
    rcases fin2_cases c with rfl | rfl
    · exact h0
    · exact h1
  · rintro ⟨⟨hp, hp'⟩, hc, ⟨hg, hg'⟩, he, he'⟩
    exact ⟨⟨⟨⟨⟨⟨⟨hp, hp'⟩, hc 0⟩, hc 1⟩, hg⟩, hg'⟩, he⟩, he'⟩

/-- A word under a mask has no bit outside it. -/
theorem within_and (m v : Word) : within m (v &&& m) = true :=
  (within_iff _ _).2 fun j _ h => by rw [BitVec.getLsbD_and, Bool.and_eq_true] at h; exact h.2

theorem LegalPlic.setPrio {cfg : Config} {p : Plic} {src : Nat} (h : LegalPlic cfg p) (hs : cfg.isSource src = true)
    (v : Word) : LegalPlic cfg (p.setPrio src (v &&& cfg.prioMax)) :=
  { h with priority := h.priority.set (by rw [Bool.and_eq_true]; exact ⟨hs, within_and _ v⟩), ctx := h.ctx }

theorem LegalPlic.setGate {cfg : Config} {p : Plic} {src : Nat} (h : LegalPlic cfg p) (hs : cfg.isSource src = true)
    (g : Gw) : LegalPlic cfg (p.setGate src g) := { h with gw := h.gw.set hs, ctx := h.ctx }

theorem LegalPlic.setExt {cfg : Config} {p : Plic} {src : Nat} (h : LegalPlic cfg p) (hs : cfg.isSource src = true)
    (hu : src ≠ cfg.uartSourceId) (v : Bool) : LegalPlic cfg (p.setExt src v) :=
  { h with extLine := h.extLine.set (by rw [Bool.and_eq_true]; exact ⟨hs, decide_eq_true hu⟩), ctx := h.ctx }

theorem LegalPlic.setCtx {cfg : Config} {p : Plic} (h : LegalPlic cfg p) (c : Fin 2) {x : PlicCtx}
    (hx : LegalCtx cfg x) : LegalPlic cfg (p.setCtx c x) where
  priority := by rw [setCtx_priority]; exact h.priority
  ctx c' := by
    by_cases hc : c' = c
    · subst hc; rw [setCtx_ctx_same]; exact hx
    · rw [setCtx_ctx_ne _ _ _ _ hc]; exact h.ctx c'
  gw := by rw [setCtx_gw]; exact h.gw
  extLine := by rw [setCtx_extLine]; exact h.extLine

theorem LegalPlic.setEnableWord {cfg : Config} {p : Plic} {w : Nat} (h : LegalPlic cfg p) (c : Fin 2)
    (hw : w < cfg.numWords) (v : Word) : LegalPlic cfg (p.setEnableWord c w (v &&& sourceMask cfg w)) :=
  h.setCtx c ⟨(h.ctx c).enable.set (by rw [Bool.and_eq_true]; exact ⟨decide_eq_true hw, within_and _ v⟩),
    (h.ctx c).threshold⟩

theorem LegalPlic.setThresh {cfg : Config} {p : Plic} (h : LegalPlic cfg p) (c : Fin 2) (v : Word) :
    LegalPlic cfg (p.setThresh c (v &&& cfg.prioMax)) := h.setCtx c ⟨(h.ctx c).enable, within_and _ v⟩

/-- An access writes priorities, thresholds and enable words through their masks, and moves gateways of sources. -/
theorem LegalPlic.mem {s t : State} (h : LegalPlic s.cfg s.plic) (hm : MemEffect s t) : LegalPlic s.cfg t.plic := by
  cases hm with
  | claim c src hb =>
    obtain ⟨h1, hn, -⟩ := best_source hb
    exact h.setGate (decide_eq_true ⟨h1, hn⟩) _
  | release c id hs hg => exact h.setGate hs _
  | prio src v hs => exact h.setPrio hs v
  | enable c w v hw => exact h.setEnableWord c hw v
  | thresh c v => exact h.setThresh c v
  | _ => exact h

/-- Reset clears every bank but the lines, which are pins (10_state.md R56). -/
theorem LegalPlic.reset {cfg : Config} {p : Plic} (h : LegalPlic cfg p) : LegalPlic cfg (Plic.reset p.extLine) where
  priority := ⟨rfl, rfl⟩
  ctx c := by rcases fin2_cases c with rfl | rfl <;> exact ⟨⟨rfl, rfl⟩, within_zero _⟩
  gw := ⟨rfl, rfl⟩
  extLine := h.extLine

theorem LegalPlic.exec {i : Instr} {s t : State} (h : LegalPlic s.cfg s.plic) (ht : exec i s = .next t) :
    LegalPlic t.cfg t.plic := by
  rw [exec_cfg ht]
  rcases exec_plic ht with ⟨u, hm, hp⟩ | ⟨w, -, hready, hp⟩ | ⟨src, v, hs, hu, hp⟩ | rfl
  · rw [hp]; exact h.mem hm
  · rw [hp]
    simp only [gatewayReady, Bool.and_eq_true] at hready
    exact h.setGate hready.1.1 _
  · rw [hp]; exact h.setExt hs hu v
  · exact h.reset

theorem LegalPlic.hostNext {s t : State} (h : LegalPlic s.cfg s.plic) (ht : hostNext s = .next t) :
    LegalPlic t.cfg t.plic := by
  rw [hostNext_cfg ht]
  obtain ⟨u, hm, hp⟩ := hostNext_plic ht
  rw [hp]
  exact h.mem hm

/-! ## The UART's queues -/

/-- Both queues are within the capacity the FIFO enable gives (10_state.md R46). -/
structure LegalQueues (s : State) : Prop where
  rx : s.uart.rxFifo.length ≤ s.uart.cap s.cfg
  tx : s.uart.txFifo.length ≤ s.uart.cap s.cfg

theorem legalQueues_iff (s : State) : Uart.legal s.cfg s.uart = true ↔ LegalQueues s := by
  simp only [Uart.legal, Bool.and_eq_true, decide_eq_true_eq]
  exact ⟨fun ⟨h1, h2⟩ => ⟨h1, h2⟩, fun ⟨h1, h2⟩ => ⟨h1, h2⟩⟩

theorem LegalQueues.congr {s t : State} (h : LegalQueues s) (hcfg : t.cfg = s.cfg) (hu : t.uart = s.uart) :
    LegalQueues t where
  rx := by rw [hcfg, hu]; exact h.rx
  tx := by rw [hcfg, hu]; exact h.tx

theorem cap_congr {u u' : Uart} (cfg : Config) (h : u'.fifoEn = u.fifoEn) : u'.cap cfg = u.cap cfg := by
  rw [Uart.cap, h, Uart.cap]

/-- A FIFO-control write empties both queues or keeps the capacity, and a queue it does not keep is empty
(43_uart.md R187). -/
theorem fcrWrite_queues {u u' : Uart} {v : Byte} (h : fcrWrite u v = some u') :
    (u'.rxFifo = [] ∧ u'.txFifo = []) ∨
    (u'.fifoEn = u.fifoEn ∧ (u'.rxFifo = [] ∨ u'.rxFifo = u.rxFifo) ∧ (u'.txFifo = [] ∨ u'.txFifo = u.txFifo)) := by
  unfold fcrWrite at h
  split at h
  · cases h
  · cases h
    by_cases hen : v.getLsbD 0 = u.fifoEn
    · exact .inr ⟨hen, by simp only [hen, bne_self_eq_false, Bool.or_false]; split <;> simp,
        by simp only [hen, bne_self_eq_false, Bool.or_false]; split <;> simp⟩
    · have hne : (v.getLsbD 0 != u.fifoEn) = true := bne_iff_ne.2 hen
      exact .inl ⟨by simp only [hne, Bool.or_true, if_true], by simp only [hne, Bool.or_true, if_true]⟩

theorem LegalQueues.fcr {s : State} {v : Byte} {u : Uart} (h : LegalQueues s) (hf : fcrWrite s.uart v = some u) :
    LegalQueues (s.setUart u) := by
  rcases fcrWrite_queues hf with ⟨hrx, htx⟩ | ⟨hen, hrx, htx⟩
  · exact ⟨by simp [hrx], by simp [htx]⟩
  · have hcap : u.cap s.cfg = s.uart.cap s.cfg := cap_congr s.cfg hen
    have hqueue {q old : List Byte} (hq : q = [] ∨ q = old) (hold : old.length ≤ s.uart.cap s.cfg) :
        q.length ≤ u.cap s.cfg := by
      rw [hcap]
      rcases hq with rfl | rfl
      · exact Nat.zero_le _
      · exact hold
    exact ⟨hqueue hrx h.rx, hqueue htx h.tx⟩

/-- An access takes from the receive queue, queues a byte where there is room, or clears queues. -/
theorem LegalQueues.mem {s t : State} (h : LegalQueues s) (hm : MemEffect s t) : LegalQueues t := by
  cases hm with
  | take b rest hr =>
    have hlen : rest.length < s.uart.rxFifo.length := by simp [hr]
    exact ⟨Nat.le_trans (Nat.le_of_lt hlen) h.rx, h.tx⟩
  | put v hroom =>
    have hlen : (s.uart.txFifo ++ [v]).length ≤ s.uart.cap s.cfg := by rw [List.length_append]; exact hroom
    exact ⟨h.rx, hlen⟩
  | fcr v u hf => exact h.fcr hf
  | ier | iirAck | lcr | lsr | msr => exact ⟨h.rx, h.tx⟩
  | _ => exact h.congr rfl rfl

/-- A received byte is queued where there is room; without room the queue keeps its length, or is the one byte of
non-FIFO mode (43_uart.md R198). -/
theorem rxPush_within (u : Uart) (cfg : Config) (b : Byte) (h : u.rxFifo.length ≤ u.cap cfg) :
    (rxPush u (u.cap cfg) b).rxFifo.length ≤ u.cap cfg := by
  unfold rxPush
  split
  · next hroom => simpa using hroom
  · dsimp only
    split
    · exact h
    · next hf => simp [Uart.cap, hf]

theorem rxPush_frame (u : Uart) (cap : Nat) (b : Byte) :
    (rxPush u cap b).fifoEn = u.fifoEn ∧ (rxPush u cap b).txFifo = u.txFifo := by
  unfold rxPush
  split <;> exact ⟨rfl, rfl⟩

theorem LegalQueues.rxarrive {s : State} (h : LegalQueues s) (b : Byte) (e : BitVec 4) :
    LegalQueues (s.setUart { rxPush s.uart (s.uart.cap s.cfg) b with err := e }) := by
  obtain ⟨hen, htx⟩ := rxPush_frame s.uart (s.uart.cap s.cfg) b
  have hcap : (s.setUart { rxPush s.uart (s.uart.cap s.cfg) b with err := e }).uart.cap s.cfg = s.uart.cap s.cfg :=
    cap_congr s.cfg hen
  constructor
  · rw [State.setUart_cfg, hcap]
    exact rxPush_within s.uart s.cfg b h.rx
  · rw [State.setUart_cfg, hcap, State.setUart_uart, htx]
    exact h.tx

theorem LegalQueues.trap {s t : State} {isInt : Bool} {code : BitVec 31} (h : LegalQueues s)
    (ht : trapEnter s isInt code = .next t) : LegalQueues t := by
  rcases trapEnter_cases ht with ⟨-, -, rfl⟩ | ⟨-, -, rfl⟩ <;> exact h.congr rfl rfl

theorem LegalQueues.raise {s t : State} {e : BitVec 31} (h : LegalQueues s) (ht : raiseException s e = .next t) :
    LegalQueues t :=
  (h.congr (t := { s with hseq := none, r0 := none, r1 := none }) rfl rfl).trap ht

theorem LegalQueues.mret {s t : State} (h : LegalQueues s) (ht : mretEffects s = .ok () t) : LegalQueues t := by
  obtain ⟨-, rfl⟩ := mretEffects_cases ht
  exact h.congr rfl rfl

theorem LegalQueues.sret {s t : State} (h : LegalQueues s) (ht : sretEffects s = .ok () t) : LegalQueues t := by
  obtain ⟨-, rfl⟩ := sretEffects_cases ht
  exact h.congr rfl rfl

theorem LegalQueues.host {i : Instr} {s t : State} (h : LegalQueues s) (ht : HostEffect i s t) : LegalQueues t := by
  cases ht with
  | mem u hu => exact h.mem hu
  | memSeq u q hu => exact (h.mem hu).congr rfl rfl
  | mret t hi hp ht => exact h.mret ht
  | sret t hi ht => exact h.sret ht
  | _ => exact h.congr rfl rfl

theorem LegalQueues.exec {i : Instr} {s t : State} (h : LegalQueues s) (ht : exec i s = .next t) :
    LegalQueues t := by
  cases exec_shape ht with
  | host hr hi u a hu => exact (h.host hu).congr rfl rfl
  | raised hr hi e t he => exact h.raise he
  | boot6 hi hb hd u hu => exact (h.mret hu).congr rfl rfl
  | interrupt hi hd k hk t hk => exact h.trap hk
  | claim hi hs id u hu =>
    rw [claimRoute_frame]
    exact (h.mem (memRead_effect hu)).congr rfl rfl
  | rxpoll hi hs l u hu => exact (h.mem (memRead_effect hu)).congr rfl rfl
  | rxread hi hs l u hu => exact (h.mem (memRead_effect hu)).congr rfl rfl
  | txpoll hi hs l u hu => exact (h.mem (memRead_effect hu)).congr rfl rfl
  | txwrite hi hs b rest hq u hu => exact (h.mem (memWrite_effect hu)).congr rfl rfl
  | complete hi hs u hu => exact (h.mem (memWrite_effect hu)).congr rfl rfl
  | ret hi hs u hu =>
    rcases hu with ⟨-, hu⟩ | ⟨-, hu⟩
    · exact (h.mret hu).congr rfl rfl
    · exact (h.sret hu).congr rfl rfl
  | txload hi b rest ht hq =>
    have hlen : rest.length < s.uart.txFifo.length := by simp [hq]
    exact ⟨h.rx, Nat.le_trans (Nat.le_of_lt hlen) h.tx⟩
  | txemit | modem => exact ⟨h.rx, h.tx⟩
  | rxarrive b pe fe bi => exact h.rxarrive b _
  | reset => exact ⟨Nat.zero_le _, Nat.zero_le _⟩
  | _ => exact h.congr rfl rfl

theorem LegalQueues.hostNext {s t : State} (h : LegalQueues s) (ht : hostNext s = .next t) : LegalQueues t := by
  rcases hostNext_cases ht with rfl | ⟨-, -, ⟨u, q, a, hm, rfl⟩ | ⟨e, he⟩⟩
  · exact h
  · exact (h.mem hm).congr rfl rfl
  · exact h.raise he

/-- Settles O57: the PLIC's banks by `exec_plic`, which lists what a step can do to them, the UART's queues by the shape of
the step; neither reads the schedule. -/
theorem everyStepKeepsDeviceStorageLegal : Obligations.EveryStepKeepsDeviceStorageLegal := by
  constructor
  · intro s t hs h
    rw [legalPlic_iff] at *
    exact step_keeps (P := fun s => LegalPlic s.cfg s.plic) (fun s l hs => hs) (fun i s t => LegalPlic.exec)
      (fun s t => LegalPlic.hostNext) hs h
  · intro s t hs h
    rw [legalQueues_iff] at *
    exact step_keeps (fun s l hs => hs.congr rfl rfl) (fun i s t => LegalQueues.exec) (fun s t => LegalQueues.hostNext)
      hs h

end Sys2Proof.Machine
end

section
/-! SUPPORT. The control state (10_state.md R49, R50): what the three parts of `State.coherent` come to in each state of
the dispatch FSM, and that every step keeps them. -/

namespace Sys2Proof.Machine

open Sys2Proof

/-! ## The control components -/

/-- The components the control invariant reads beside the devices' queues and gateways. -/
structure Control where
  pc : Word
  priv : Priv
  csr : Csrs
  disp : Disp
  dregs : DispRegs
  boot : Boot
  hseq : Option HostSeq
  cfg : Config

/-- The control components of `s`. -/
def controlOf (s : State) : Control := ⟨s.pc, s.priv, s.csr, s.disp, s.dregs, s.boot, s.hseq, s.cfg⟩

theorem controlOf_eq_iff (s t : State) : controlOf t = controlOf s ↔ t.pc = s.pc ∧ t.priv = s.priv ∧ t.csr = s.csr ∧
    t.disp = s.disp ∧ t.dregs = s.dregs ∧ t.boot = s.boot ∧ t.hseq = s.hseq ∧ t.cfg = s.cfg := by
  simp [controlOf]

/-- No access of a device register touches the control components. -/
theorem mem_controlOf {s t : State} (h : MemEffect s t) : controlOf t = controlOf s := by
  rw [MemEffect_frame h]
  rfl

/-- A host command leaves the dispatch FSM and the bootstrap. -/
theorem host_disp_boot {i : Instr} {s t : State} (h : HostEffect i s t) : t.disp = s.disp ∧ t.boot = s.boot := by
  cases h with
  | mem u h => rw [MemEffect_frame h]; exact ⟨rfl, rfl⟩
  | memSeq u q h => rw [MemEffect_frame h]; exact ⟨rfl, rfl⟩
  | mret t hi hp h => obtain ⟨-, rfl⟩ := mretEffects_cases h; exact ⟨rfl, rfl⟩
  | sret t hi h => obtain ⟨-, rfl⟩ := sretEffects_cases h; exact ⟨rfl, rfl⟩
  | _ => exact ⟨rfl, rfl⟩

/-! ## The bootstrap's part -/

theorem bootCoherent_of_done {s : State} (h : s.boot = .done) : s.bootCoherent :=
  ⟨fun hne => absurd h hne, fun hb => by rw [h] at hb; simp at hb⟩

/-- Where the dispatch FSM has left `Idle` the bootstrap is over (70_reset_and_hazards.md R321). -/
theorem boot_done_of_not_idle {s : State} (h : s.bootCoherent) (hd : s.disp ≠ .idle) : s.boot = .done := by
  by_contra hb
  exact hd (h.1 hb).1

/-- A bootstrap step keeps the components its invariant names, or writes the previous-privilege field. -/
theorem bootCoherent_of_running {s t : State} (h : s.bootCoherent) (hb : s.boot ≠ .done) (hd : t.disp = s.disp)
    (hq : t.hseq = s.hseq) (hp : t.priv = s.priv) (hm : t.csr.mie = s.csr.mie)
    (hmpp : t.boot = .b4 ∨ t.boot = .b5 ∨ t.boot = .b6 → mppField t.csr.mstatus = t.cfg.bootTarget.code) :
    t.bootCoherent := by
  refine ⟨fun _ => ?_, hmpp⟩
  rw [hd, hq, hp, hm]
  exact h.1 hb

/-! ## The dispatch FSM's part -/

/-- What trap entry leaves in the registers, until the return (60_exceptions.md R294). -/
structure TrapRegs (s : State) : Prop where
  priv : s.priv = s.dregs.trapMode
  pc : s.pc = s.cfg.trapEntry
  returnable : returnable s.csr s.dregs.trapMode
  cause : causeOf s.csr s.dregs.trapMode = encodeCause s.dregs.tc
  known : s.dregs.tc.isInterrupt = true → interruptKnown s.dregs.tc.code.toNat = true

theorem trapRegs_iff (s : State) : TrapRegs s ↔ (s.priv = s.dregs.trapMode ∧ s.pc = s.cfg.trapEntry ∧
    Machine.returnable s.csr s.dregs.trapMode ∧ causeOf s.csr s.dregs.trapMode = encodeCause s.dregs.tc ∧
    (s.dregs.tc.isInterrupt = true → interruptKnown s.dregs.tc.code.toNat = true)) :=
  ⟨fun ⟨h1, h2, h3, h4, h5⟩ => ⟨h1, h2, h3, h4, h5⟩, fun ⟨h1, h2, h3, h4, h5⟩ => ⟨h1, h2, h3, h4, h5⟩⟩

/-- The FSM's context is one of the two (10_state.md R49). -/
def ctxKnown (s : State) : Prop := s.dregs.ctx = 0 ∨ s.dregs.ctx = 1

/-- The gateway of `claimed_id` is claimed by the FSM's context (45_trap_dispatch.md R249). -/
def claimHeld (s : State) : Prop :=
  s.cfg.isSource s.dregs.claimedId.toNat = true ∧
    s.plic.gate s.dregs.claimedId.toNat = .claimed (if s.dregs.ctx = 0 then 0 else 1)

/-- Something is left to echo, at most CR and LF (45_trap_dispatch.md R248). -/
def echoQueued (s : State) : Prop := s.dregs.dTxq ≠ [] ∧ s.dregs.dTxq.length ≤ 2

/-- What holds at each label of `InterruptHandling` (45_trap_dispatch.md R243 to R250). -/
def serviceReady (s : State) : Ih → Prop
  | .report => True
  | .claim => ctxKnown s
  | .svcRxPoll => ctxKnown s ∧ claimHeld s
  | .svcRxRead => ctxKnown s ∧ claimHeld s ∧ s.uart.rxFifo ≠ []
  | .svcTxPoll => ctxKnown s ∧ claimHeld s ∧ echoQueued s
  | .svcTxWrite => ctxKnown s ∧ claimHeld s ∧ echoQueued s ∧ s.uart.txFifo = []
  | .complete => ctxKnown s ∧ claimHeld s
  | .ret => True

theorem serviceCoherent_iff (s : State) :
    s.serviceCoherent ↔ (s.disp = .interruptHandling → serviceReady s s.dregs.ih) := by
  by_cases hd : s.disp = .interruptHandling
  · cases hi : s.dregs.ih <;>
      simp [State.serviceCoherent, State.serving, serviceReady, ctxKnown, claimHeld, echoQueued, hd, hi]
  · simp [State.serviceCoherent, State.serving, hd]

/-- In `Idle` and in `Halted` the FSM's registers are free. -/
theorem coherent_of_no_trap {s : State} (hwf : s.cfg.wf = true) (hb : s.bootCoherent)
    (hd : s.disp = .idle ∨ s.disp = .halted) : s.coherent := by
  refine ⟨hwf, hb, ?_, (serviceCoherent_iff s).2 fun h => ?_⟩
  · rcases hd with hd | hd <;> simp [State.trapCoherent, State.inTrap, hd]
  · rcases hd with hd | hd <;> rw [hd] at h <;> cases h

/-- The trap context of a coherent state: everything the invariant says of it, outside `Idle` and `Halted`. -/
structure InTrap (s : State) : Prop where
  wf : s.cfg.wf = true
  boot : s.boot = .done
  regs : TrapRegs s
  fatal : s.disp = .exceptionFatal → s.dregs.tc.isInterrupt = false
  handling : s.disp = .interruptHandling → s.dregs.tc.isInterrupt = true
  ready : s.disp = .interruptHandling → serviceReady s s.dregs.ih

theorem State.coherent.inTrap {s : State} (h : s.coherent) (hd : s.inTrap = true) : InTrap s := by
  obtain ⟨hwf, hb, ⟨hregs, hfatal, hint⟩, hs⟩ := h
  refine ⟨hwf, boot_done_of_not_idle hb ?_, (trapRegs_iff s).2 (hregs hd), hfatal, hint, (serviceCoherent_iff s).1 hs⟩
  intro hidle
  simp [State.inTrap, hidle] at hd

theorem InTrap.coherent {s : State} (h : InTrap s) : s.coherent :=
  ⟨h.wf, bootCoherent_of_done h.boot, ⟨fun _ => (trapRegs_iff s).1 h.regs, h.fatal, h.handling⟩,
    (serviceCoherent_iff s).2 h.ready⟩

/-- The trap context at a label of the service. -/
theorem State.coherent.inService {s : State} {l : Ih} (h : s.coherent) (hs : inService s l = true) :
    InTrap s ∧ s.disp = .interruptHandling ∧ serviceReady s l := by
  obtain ⟨hd, hi⟩ := (inService_iff s l).1 hs
  have ht : InTrap s := h.inTrap (by simp [State.inTrap, hd])
  exact ⟨ht, hd, hi ▸ ht.ready hd⟩

/-- The FSM's registers after a step of the service: the access left the control components, the step wrote data
registers but neither the trap mode nor the cause. -/
theorem InTrap.setDregs {s u : State} (h : InTrap s) (hd : s.disp = .interruptHandling) (hu : controlOf u = controlOf s)
    {d : DispRegs} (hm : d.trapMode = s.dregs.trapMode) (htc : d.tc = s.dregs.tc)
    (hr : serviceReady (u.setDregs d) d.ih) : InTrap (u.setDregs d) := by
  obtain ⟨hpc, hpriv, hcsr, hdisp, -, hboot, -, hcfg⟩ := (controlOf_eq_iff s u).1 hu
  have hint : d.tc.isInterrupt = true := htc ▸ h.handling hd
  have hdisp' : u.disp = .interruptHandling := hdisp.trans hd
  refine ⟨hcfg ▸ h.wf, hboot.trans h.boot, ⟨?_, ?_, ?_, ?_, ?_⟩, fun hf => ?_, fun _ => hint, fun _ => hr⟩
  · rw [State.setDregs_priv, State.setDregs_dregs, hpriv, hm]; exact h.regs.priv
  · rw [State.setDregs_pc, State.setDregs_cfg, hpc, hcfg]; exact h.regs.pc
  · rw [State.setDregs_csr, State.setDregs_dregs, hcsr, hm]; exact h.regs.returnable
  · rw [State.setDregs_csr, State.setDregs_dregs, hcsr, hm, htc]; exact h.regs.cause
  · rw [State.setDregs_dregs, htc]; exact h.regs.known
  · rw [State.setDregs_disp, hdisp'] at hf; cases hf

/-! ## Trap entry and return -/

/-- The return from M finds the mode trap entry saved: its code is never 0b00. -/
theorem returnable_trapM (w : Word) (p : Priv) : mppField (mstatusTrapM w p) ≠ 0b00 := by
  rw [mstatusTrapM, mppField_setMpp]
  cases p <;> decide

/-- The return from S finds the bit trap entry set. -/
theorem returnable_trapS (w : Word) : sppBit (mstatusTrapS w) = true := by
  rw [sppBit, getLsbD_mstatusTrapS _ _ (by decide)]
  rfl

/-- Trap entry makes the trap context. -/
theorem InTrap.of_trapEnter {s t : State} {isInt : Bool} {code : BitVec 31} (hwf : s.cfg.wf = true)
    (hb : s.boot = .done) (hk : isInt = true → interruptKnown code.toNat = true)
    (h : trapEnter s isInt code = .next t) : InTrap t := by
  rcases trapEnter_cases h with ⟨-, hv, rfl⟩ | ⟨-, hv, rfl⟩
  · exact ⟨hwf, hb, ⟨rfl, hv, returnable_trapM _ _, rfl, hk⟩, by simp, by simp, by simp⟩
  · exact ⟨hwf, hb, ⟨rfl, hv, returnable_trapS _, rfl, hk⟩, by simp, by simp, by simp⟩

theorem InTrap.of_raise {s t : State} {e : BitVec 31} (hwf : s.cfg.wf = true) (hb : s.boot = .done)
    (h : raiseException s e = .next t) : InTrap t :=
  InTrap.of_trapEnter (s := { s with hseq := none, r0 := none, r1 := none }) hwf hb (by simp) h

/-! ## The steps of the service -/

/-- A claim of the FSM leaves it at the return, or at a label of the service with the gateway claimed. -/
theorem claimRoute_eq (s : State) (id : Word) : ∃ (tag : Byte) (v : Word) (l : Ih),
    claimRoute s id = (report s tag v).setDregs { s.dregs with claimedId := id, ih := l } ∧
    (l = .ret ∨ (id ≠ 0 ∧ (l = .svcRxPoll ∨ l = .complete))) := by
  unfold claimRoute
  split
  · exact ⟨_, _, .ret, rfl, .inl rfl⟩
  · next h0 =>
    split
    · exact ⟨_, _, .svcRxPoll, rfl, .inr ⟨h0, .inl rfl⟩⟩
    · exact ⟨_, _, .complete, rfl, .inr ⟨h0, .inr rfl⟩⟩

/-- The context register as an index. -/
theorem ctxKnown.index {s : State} (h : ctxKnown s) :
    s.dregs.ctx = BitVec.ofNat 32 (if s.dregs.ctx = 0 then (0 : Fin 2) else 1).val := by
  rcases h with h | h <;> rw [h] <;> rfl

/-- What the FSM's claim returns: 0, or a source whose gateway its context now holds. -/
theorem claim_word_held {s u : State} {id : Word} (hwf : s.cfg.wf = true) (hc : ctxKnown s)
    (h : memRead s (claimAddress s.cfg s.cfg.plicBase s.dregs.ctx) .word = .ok id u) (h0 : id ≠ 0) :
    s.cfg.isSource id.toNat = true ∧ u.plic.gate id.toNat = .claimed (if s.dregs.ctx = 0 then 0 else 1) := by
  obtain ⟨hid, hu⟩ := claim_word_read hwf _ hc.index h
  generalize (if s.dregs.ctx = 0 then (0 : Fin 2) else 1) = c at hid hu ⊢
  cases hb : best s c with
  | none => rw [claim, hb] at hid; exact absurd hid h0
  | some src =>
    rw [claim, hb] at hid hu
    obtain ⟨h1, hn, -⟩ := best_source hb
    have hsrc : id.toNat = src := by
      rw [hid, BitVec.toNat_ofNat]
      exact Nat.mod_eq_of_lt (Nat.lt_trans hn (nsrc_lt hwf))
    rw [hsrc, hu]
    exact ⟨decide_eq_true ⟨h1, hn⟩, by rw [State.setPlic_plic, setGate_gate, if_pos rfl]⟩

/-- A byte's echo is one byte, or CR and LF (43_uart.md R192). -/
theorem putcSeq_length (b : Byte) : ((putcSeq b).1 :: (putcSeq b).2).length ≤ 2 := by
  unfold putcSeq
  split <;> simp

theorem InTrap.claimRoute {s u : State} {id : Word} (h : InTrap s) (hd : s.disp = .interruptHandling)
    (hc : ctxKnown s) (hm : memRead s (claimAddress s.cfg s.cfg.plicBase s.dregs.ctx) .word = .ok id u) :
    InTrap (claimRoute u id) := by
  have hu : controlOf u = controlOf s := mem_controlOf (memRead_effect hm)
  obtain ⟨-, -, -, -, hdregs, -, -, hcfg⟩ := (controlOf_eq_iff s u).1 hu
  obtain ⟨tag, v, l, hroute, hl⟩ := claimRoute_eq u id
  rw [hroute, hdregs]
  refine h.setDregs hd (u := report u tag v) hu rfl rfl ?_
  rcases hl with rfl | ⟨h0, hl⟩
  · exact trivial
  · have hheld := claim_word_held h.wf hc hm h0
    have hready : ctxKnown s ∧ claimHeld ((report u tag v).setDregs { s.dregs with claimedId := id, ih := l }) :=
      ⟨hc, show u.cfg.isSource _ = true by rw [hcfg]; exact hheld.1, hheld.2⟩
    rcases hl with rfl | rfl <;> exact hready

theorem InTrap.rxpoll {s u : State} {l : Word} (h : InTrap s) (hd : s.disp = .interruptHandling)
    (hr : ctxKnown s ∧ claimHeld s) (hm : uartLoad s 5 = .ok l u) :
    InTrap (setIh u (if l.getLsbD 0 then .svcRxRead else .svcRxPoll)) := by
  obtain ⟨rfl, rfl⟩ := lsr_read h.wf hm
  refine h.setDregs hd (u := s.setUart { s.uart with err := 0 }) rfl rfl rfl ?_
  dsimp only
  rw [lsr_data_ready]
  cases hq : decide (s.uart.rxFifo ≠ []) with
  | false => exact hr
  | true => exact ⟨hr.1, hr.2, of_decide_eq_true hq⟩

theorem InTrap.rxread {s u : State} {b : Word} (h : InTrap s) (hd : s.disp = .interruptHandling)
    (hr : ctxKnown s ∧ claimHeld s) (hm : uartLoad s 0 = .ok b u) :
    InTrap (u.setDregs { u.dregs with
      dTxq := (putcSeq (crToLf (b.setWidth 8))).1 :: (putcSeq (crToLf (b.setWidth 8))).2, ih := .svcTxPoll }) := by
  have hu : controlOf u = controlOf s := mem_controlOf (memRead_effect hm)
  obtain ⟨-, -, -, -, hdregs, -, -, hcfg⟩ := (controlOf_eq_iff s u).1 hu
  obtain ⟨-, rfl⟩ := rbr_read h.wf hm
  obtain ⟨hplic, -⟩ := rbr_frame s
  rw [hdregs]
  refine h.setDregs hd hu rfl rfl ⟨hr.1, ⟨?_, ?_⟩, by simp, putcSeq_length _⟩
  · rw [State.setDregs_cfg, hcfg]; exact hr.2.1
  · rw [State.setDregs_plic, hplic]; exact hr.2.2

theorem InTrap.txpoll {s u : State} {l : Word} (h : InTrap s) (hd : s.disp = .interruptHandling)
    (hr : ctxKnown s ∧ claimHeld s ∧ echoQueued s) (hm : uartLoad s 5 = .ok l u) :
    InTrap (setIh u (if l.getLsbD 5 then .svcTxWrite else .svcTxPoll)) := by
  obtain ⟨rfl, rfl⟩ := lsr_read h.wf hm
  refine h.setDregs hd (u := s.setUart { s.uart with err := 0 }) rfl rfl rfl ?_
  dsimp only
  rw [lsr_transmit_ready]
  cases hq : decide (s.uart.txFifo = []) with
  | false => exact hr
  | true => exact ⟨hr.1, hr.2.1, hr.2.2, of_decide_eq_true hq⟩

theorem InTrap.txwrite {s u : State} {b : Byte} {rest : List Byte} (h : InTrap s) (hd : s.disp = .interruptHandling)
    (hr : ctxKnown s ∧ claimHeld s ∧ echoQueued s) (hq : s.dregs.dTxq = b :: rest)
    (hm : uartStore s 0 b = .ok () u) :
    InTrap (u.setDregs { u.dregs with dTxq := rest, ih := if rest.isEmpty then .complete else .svcTxPoll }) := by
  have hu : controlOf u = controlOf s := mem_controlOf (memWrite_effect hm)
  obtain ⟨-, -, -, -, hdregs, -, -, hcfg⟩ := (controlOf_eq_iff s u).1 hu
  obtain rfl := thr_write h.wf hm
  obtain ⟨hplic, -⟩ := thr_frame s b
  obtain ⟨hctx, ⟨hsource, hgate⟩, -, hlen⟩ := hr
  rw [hdregs]
  have hheld (d : DispRegs) (hid : d.claimedId = s.dregs.claimedId) (hc : d.ctx = s.dregs.ctx) :
      claimHeld ((thrWrite s b).setDregs d) := by
    rw [claimHeld, State.setDregs_cfg, State.setDregs_plic, State.setDregs_dregs, hid, hc, hcfg, hplic]
    exact ⟨hsource, hgate⟩
  refine h.setDregs hd hu rfl rfl ?_
  cases rest with
  | nil => exact ⟨hctx, hheld _ rfl rfl⟩
  | cons b' rest' =>
    rw [hq, List.length_cons] at hlen
    exact ⟨hctx, hheld _ rfl rfl, by simp, Nat.le_of_succ_le hlen⟩

/-! ## The steps of the devices and the pins -/

/-- What a label needs of the devices is kept by a step that keeps claims, received bytes and an empty transmit queue. -/
theorem serviceReady_of_devices {s t : State} {l : Ih} (h : serviceReady s l) (hd : t.dregs = s.dregs)
    (hc : t.cfg = s.cfg) (hg : ∀ src c, s.plic.gate src = .claimed c → t.plic.gate src = .claimed c)
    (hrx : s.uart.rxFifo ≠ [] → t.uart.rxFifo ≠ []) (htx : s.uart.txFifo = [] → t.uart.txFifo = []) :
    serviceReady t l := by
  have hctx : ctxKnown s → ctxKnown t := by rw [ctxKnown, ctxKnown, hd]; exact id
  have hheld : claimHeld s → claimHeld t := by
    rw [claimHeld, claimHeld, hd, hc]
    exact fun ⟨h1, h2⟩ => ⟨h1, hg _ _ h2⟩
  have hecho : echoQueued s → echoQueued t := by rw [echoQueued, echoQueued, hd]; exact id
  cases l with
  | report | ret => exact trivial
  | claim => exact hctx h
  | svcRxPoll | complete => exact ⟨hctx h.1, hheld h.2⟩
  | svcRxRead => exact ⟨hctx h.1, hheld h.2.1, hrx h.2.2⟩
  | svcTxPoll => exact ⟨hctx h.1, hheld h.2.1, hecho h.2.2⟩
  | svcTxWrite => exact ⟨hctx h.1, hheld h.2.1, hecho h.2.2.1, htx h.2.2.2⟩

/-- A step of GW, UTX or ENV other than reset keeps the invariant. -/
theorem State.coherent.devices {s t : State} (h : s.coherent) (hu : controlOf t = controlOf s)
    (hg : ∀ src c, s.plic.gate src = .claimed c → t.plic.gate src = .claimed c := by exact fun _ _ h => h)
    (hrx : s.uart.rxFifo ≠ [] → t.uart.rxFifo ≠ [] := by exact id)
    (htx : s.uart.txFifo = [] → t.uart.txFifo = [] := by exact id) : t.coherent := by
  obtain ⟨hpc, hpriv, hcsr, hdisp, hdregs, hboot, hseq, hcfg⟩ := (controlOf_eq_iff s t).1 hu
  obtain ⟨hwf, hb, ht, hs⟩ := h
  refine ⟨hcfg ▸ hwf, ?_, ?_, (serviceCoherent_iff t).2 ?_⟩
  · rw [State.bootCoherent, hboot, hdisp, hseq, hpriv, hcsr, hcfg]; exact hb
  · rw [State.trapCoherent, State.inTrap, hdisp, hpriv, hdregs, hpc, hcfg, hcsr]; exact ht
  · rw [hdisp, hdregs]
    exact fun hd => serviceReady_of_devices ((serviceCoherent_iff s).1 hs hd) hdregs hcfg hg hrx htx

theorem rxPush_ne_nil (u : Uart) (cap : Nat) (b : Byte) (h : u.rxFifo ≠ []) : (rxPush u cap b).rxFifo ≠ [] := by
  unfold rxPush
  split
  · simp
  · dsimp only
    split
    · exact h
    · simp

/-! ## Every step -/

/-- Reset goes to the bootstrap's first label (10_state.md R56). -/
theorem coherent_afterReset {s : State} (hwf : s.cfg.wf = true) : s.afterReset.coherent :=
  coherent_of_no_trap hwf ⟨fun _ => ⟨rfl, rfl, rfl, rfl⟩, fun hb => by simp [State.afterReset] at hb⟩ (.inl rfl)

/-- Every instruction keeps the control state coherent: HOST's and TRAP's act in `Idle` after the bootstrap, BOOT's move
its label, DISP's go from label to label with what each found, the others touch devices only. -/
theorem State.coherent.exec {i : Instr} {s t : State} (h : s.coherent) (ht : exec i s = .next t) : t.coherent := by
  have ⟨hwf, hb, _, _⟩ := h
  cases exec_shape ht with
  | stay => exact h
  | host hr hi u a hu =>
    obtain ⟨hdone, hidle, -⟩ := (hostReady_iff s).1 hr
    obtain ⟨hdisp, hboot⟩ := host_disp_boot hu
    have hcfg : u.cfg = s.cfg := host_cfg hu
    exact coherent_of_no_trap (hcfg ▸ hwf) (bootCoherent_of_done (hboot.trans hdone)) (.inl (hdisp.trans hidle))
  | raised hr hi e t he => exact (InTrap.of_raise hwf ((hostReady_iff s).1 hr).1 he).coherent
  | boot0 hi hl hd =>
    exact coherent_of_no_trap hwf (bootCoherent_of_running hb (by simp [hl]) rfl rfl rfl rfl (by simp)) (.inl hd)
  | boot1 hi hl hd =>
    exact coherent_of_no_trap hwf (bootCoherent_of_running hb (by simp [hl]) rfl rfl rfl rfl (by simp)) (.inl hd)
  | boot2 hi hl hd =>
    exact coherent_of_no_trap hwf (bootCoherent_of_running hb (by simp [hl]) rfl rfl rfl rfl (by simp)) (.inl hd)
  | boot3 hi hl hd =>
    exact coherent_of_no_trap hwf
      (bootCoherent_of_running hb (by simp [hl]) rfl rfl rfl rfl fun _ => mppField_setMpp _ _) (.inl hd)
  | boot4 hi hl hd =>
    refine coherent_of_no_trap hwf (bootCoherent_of_running hb (by simp [hl]) rfl rfl rfl rfl fun _ => ?_) (.inl hd)
    refine (mppField_setBit _ _ _ ?_ ?_).trans (hb.2 (.inl hl)) <;> cases s.cfg.bootTarget <;> decide
  | boot5 hi hl hd =>
    exact coherent_of_no_trap hwf
      (bootCoherent_of_running hb (by simp [hl]) rfl rfl rfl rfl fun _ => hb.2 (.inr (.inl hl))) (.inl hd)
  | boot6 hi hl hd u hu =>
    obtain ⟨-, rfl⟩ := mretEffects_cases hu
    exact coherent_of_no_trap hwf (bootCoherent_of_done rfl) (.inl hd)
  | interrupt hi hd k hk t ht =>
    obtain ⟨hknown, hmie⟩ := interruptChoice_known hk
    have hdone : s.boot = .done := by
      by_contra hne
      exact hmie (hb.1 hne).2.2.2
    exact (InTrap.of_trapEnter hwf hdone (fun _ => hknown) ht).coherent
  | routeInt hi hd hint =>
    have hs := h.inTrap (by simp [State.inTrap, hd])
    exact InTrap.coherent ⟨hwf, hs.boot, ⟨hs.regs.priv, hs.regs.pc, hs.regs.returnable, hs.regs.cause, hs.regs.known⟩,
      by simp [setIh], fun _ => hint, fun _ => trivial⟩
  | routeExc hi hd hint =>
    have hs := h.inTrap (by simp [State.inTrap, hd])
    exact InTrap.coherent ⟨hwf, hs.boot, ⟨hs.regs.priv, hs.regs.pc, hs.regs.returnable, hs.regs.cause, hs.regs.known⟩,
      fun _ => hint, by simp, by simp⟩
  | fatal hi hd =>
    have hdone : s.boot = .done := boot_done_of_not_idle hb (by simp [hd])
    exact coherent_of_no_trap hwf (bootCoherent_of_done hdone) (.inr rfl)
  | ireport hi hs d hroute =>
    obtain ⟨hs, hd, -⟩ := h.inService hs
    refine (hs.setDregs hd (u := report s _ _) rfl ?_ ?_ ?_).coherent <;> rcases hroute with rfl | rfl | rfl
    all_goals first | rfl | exact .inl rfl | exact .inr rfl | exact trivial
  | claim hi hs id u hu =>
    obtain ⟨hs, hd, hr⟩ := h.inService hs
    exact (hs.claimRoute hd hr hu).coherent
  | rxpoll hi hs l u hu =>
    obtain ⟨hs, hd, hr⟩ := h.inService hs
    exact (hs.rxpoll hd hr hu).coherent
  | rxread hi hs l u hu =>
    obtain ⟨hs, hd, hctx, hheld, -⟩ := h.inService hs
    exact (hs.rxread hd ⟨hctx, hheld⟩ hu).coherent
  | txpoll hi hs l u hu =>
    obtain ⟨hs, hd, hr⟩ := h.inService hs
    exact (hs.txpoll hd hr hu).coherent
  | txwrite hi hs b rest hq u hu =>
    obtain ⟨hs, hd, hctx, hheld, hecho, -⟩ := h.inService hs
    exact (hs.txwrite hd ⟨hctx, hheld, hecho⟩ hq hu).coherent
  | complete hi hs u hu =>
    obtain ⟨hs, hd, -⟩ := h.inService hs
    have hcontrol : controlOf u = controlOf s := mem_controlOf (memWrite_effect hu)
    obtain ⟨-, -, -, -, hdregs, -⟩ := (controlOf_eq_iff s u).1 hcontrol
    rw [setIh, hdregs]
    exact (hs.setDregs hd hcontrol (d := { s.dregs with ih := .ret }) rfl rfl trivial).coherent
  | ret hi hs u hu =>
    obtain ⟨hs, hd, -⟩ := h.inService hs
    rcases hu with ⟨-, hu⟩ | ⟨-, hu⟩
    · obtain ⟨-, rfl⟩ := mretEffects_cases hu
      exact coherent_of_no_trap hwf (bootCoherent_of_done hs.boot) (.inl rfl)
    · obtain ⟨-, rfl⟩ := sretEffects_cases hu
      exact coherent_of_no_trap hwf (bootCoherent_of_done hs.boot) (.inl rfl)
  | double hi hd =>
    have hdone : s.boot = .done := boot_done_of_not_idle hb (by simp [hd])
    exact coherent_of_no_trap hwf (bootCoherent_of_done hdone) (.inr rfl)
  | gateway w hi hready =>
    simp only [gatewayReady, Bool.and_eq_true, decide_eq_true_eq] at hready
    refine h.devices rfl (hg := fun src c hc => ?_)
    have hne : src ≠ w.toNat := by rintro rfl; rw [hready.1.2] at hc; cases hc
    rwa [State.setPlic_plic, setGate_gate, if_neg hne]
  | txload hi b rest hsr hq => exact h.devices rfl (htx := fun hnil => by rw [hq] at hnil; cases hnil)
  | txemit | modem | mtip | msip => exact h.devices rfl
  | rxarrive b pe fe bi hi =>
    obtain ⟨-, htx⟩ := rxPush_frame s.uart (s.uart.cap s.cfg) b
    exact h.devices rfl (hrx := rxPush_ne_nil _ _ _) (htx := htx.trans)
  | line src v hi hl => exact h.devices rfl
  | reset hi => exact coherent_afterReset hwf

/-- Every sequence step of HOST keeps the control state coherent. -/
theorem State.coherent.hostNext {s t : State} (h : s.coherent) (ht : hostNext s = .next t) : t.coherent := by
  rcases hostNext_cases ht with rfl | ⟨hdone, hidle, ⟨u, q, a, hm, rfl⟩ | ⟨e, he⟩⟩
  · exact h
  · obtain ⟨-, -, -, hdisp, -, hboot, -, hcfg⟩ := (controlOf_eq_iff s u).1 (mem_controlOf hm)
    exact coherent_of_no_trap (hcfg ▸ h.1 :) (bootCoherent_of_done (hboot.trans hdone)) (.inl (hdisp.trans hidle))
  · exact (InTrap.of_raise h.1 hdone he).coherent

/-- Settles O58: `State.coherent` is kept by every instruction and every sequence step, and does not read the schedule. -/
theorem everyStepKeepsControlCoherent : Obligations.EveryStepKeepsControlCoherent := fun _ _ hs h =>
  step_keeps (fun _ _ hs => hs.devices rfl) (fun _ _ _ => State.coherent.exec) (fun _ _ => State.coherent.hostNext) hs h

end Sys2Proof.Machine
end

section
/-! SUPPORT. The schedule (00_scope.md R8): what a listed turn's step is, the turns HOST's sequence takes, and the slots
that name no command (30_encoding.md R95). -/

namespace Sys2Proof.Machine

open Sys2Proof

/-- The step of a listed slot is that of what the decoder reads (R8, log 1). -/
theorem step_slot {s : State} {w : Slot} {rest : List Turn} (h : s.sched = .slot w :: rest) :
    step s = match decode s.cfg w with
      | .ok i => exec i (s.setSched rest)
      | .error e => rejectTurn e (s.setSched rest) := by
  have hfetch : fetch s = fetchSlot w (s.setSched rest) := by rw [fetch, h]
  rw [step, hfetch, fetchSlot, State.setSched_cfg]
  cases decode s.cfg w <;> rfl

/-- Settles O1. -/
theorem stepRunsDecodedInstruction : Obligations.StepRunsDecodedInstruction := by
  intro s w rest i hs hdec
  rw [step_slot hs, hdec]

/-- A turn of HOST with no sequence begun, or outside normal context, changes nothing (logs 3 and 23). -/
theorem hostNext_blocked {s : State} (h : s.hseq = none ∨ s.boot ≠ .done ∨ s.disp ≠ .idle) : hostNext s = .next s := by
  unfold hostNext
  split
  · rfl
  · next q hq =>
    rw [if_neg]
    rintro ⟨hb, hd⟩
    simp [hq, hb, hd] at h

/-- Settles O2. -/
theorem stepContinuesHostSequence : Obligations.StepContinuesHostSequence :=
  ⟨fun s rest h => by rw [step, fetch, h], fun _ => hostNext_blocked⟩

/-- Settles O4: each slot is closed, and the decoder computes on it. -/
theorem writtenOutWordsDecode : Obligations.WrittenOutWordsDecode := by
  and_intros <;> rfl

/-! ## Illegal commands -/

/-- An op that no row of R92 has is rejected. -/
theorem decodeCommand_unlisted {w : Slot} (h : w.op.toNat ∉ [0x01, 0x02, 0x03, 0x04, 0x10, 0x11, 0x20, 0x21, 0x22, 0x23,
    0x24, 0x25, 0x28, 0x29, 0x2A, 0x2B, 0x2C, 0x2D, 0x30, 0x31, 0x32, 0x33, 0x34, 0x35, 0x36, 0x40, 0x41, 0x50, 0x51,
    0x60, 0x61]) : decodeCommand w = .error .illegalCommand := by
  unfold decodeCommand
  split
  case h_32 => rfl
  all_goals next hop => simp [hop] at h

/-- An operand word above 12 bits is no CSR number (R91). -/
theorem csrOperand_large {a0 : Word} (h : 2 ^ 12 ≤ a0.toNat) (k : BitVec 12 → Instr) :
    csrOperand a0 k = .error .illegalCsrNumber := by
  have hhigh : a0.extractLsb 31 12 ≠ 0 := by
    intro h0
    have hzero := congrArg BitVec.toNat h0
    have := a0.isLt
    simp [BitVec.extractLsb, Nat.shiftRight_eq_div_pow] at hzero
    omega
  rw [csrOperand, if_neg hhigh]

/-- A CSR command with a number above 12 bits is rejected (R95). -/
theorem decodeCommand_csrNumber {w : Slot} (h : w.op.toNat ∈ [0x01, 0x02, 0x03, 0x04]) (ha : 2 ^ 12 ≤ w.a0.toNat) :
    decodeCommand w = .error .illegalCsrNumber := by
  simp only [List.mem_cons, List.not_mem_nil, or_false] at h
  unfold decodeCommand
  rcases h with h | h | h | h <;> rw [h] <;> exact csrOperand_large ha _

theorem illegalCommand_eq (s : State) : illegalCommand s = exec (.hartException 2) s := (execHartException_two s).symm

/-- Settles O5: both kinds are rejected by the decoder, and a rejected command is HART.EXCEPTION 2. -/
theorem illegalCommandsTrap : Obligations.IllegalCommandsTrap := by
  intro s w rest hs hspace h
  have hdec : decode s.cfg w = decodeCommand w := by rw [decode, hspace]
  rw [step_slot hs, hdec]
  rcases h with hop | ⟨hop, ha⟩
  · rw [decodeCommand_unlisted hop]
    exact illegalCommand_eq _
  · rw [decodeCommand_csrNumber hop ha]
    exact illegalCommand_eq _

end Sys2Proof.Machine
end

section
/-! SUPPORT. The PLIC's register map by its rows (20_memory.md R63), and the pure commands: TC.CLASSIFY
(41_trap_cause_decoder.md R132) and the PLIC address functions (42_plic.md R140 to R145). -/

namespace Sys2Proof.Machine

open Sys2Proof

/-! ## The register map -/

/-- An offset lies on a row exactly where the row exists and its formula gives the offset. -/
theorem plicSelect_eq_iff {c : Config} (hwf : c.wf = true) {o : Nat} (ho : o < 2 ^ 32) {r : PlicReg}
    (hr : r ≠ .reserved) : plicSelect c o = r ↔ regExists c r ∧ o = (plicOffset c r).toNat := by
  constructor
  · rintro rfl
    obtain ⟨hex, hoff⟩ := plicSelect_exists hwf o ho hr
    exact ⟨hex, hoff.symm⟩
  · rintro ⟨hex, rfl⟩
    exact plicSelect_plicOffset hwf r hex

/-- Settles O6: `plicSelect_eq_iff`, with each row's offset as a number. -/
theorem plicMapSelectsTheRow : Obligations.PlicMapSelectsTheRow := by
  intro c o hwf ho
  have ho : o < 2 ^ 32 := Nat.lt_trans ho c.plicSize.isLt
  have key (r : PlicReg) (hr : r ≠ .reserved) :
      plicSelect c o = r ↔ regExists c r ∧ o = (plicOffset c r).toNat := plicSelect_eq_iff hwf ho hr
  have hoff {r : PlicReg} {n : Nat} (h : regExists c r → (plicOffset c r).toNat = n) :
      regExists c r ∧ o = (plicOffset c r).toNat ↔ regExists c r ∧ o = n :=
    and_congr_right fun hr => by rw [h hr]
  refine ⟨fun s => ?_, fun w => ?_, fun x w => ?_, fun x => ?_, fun x => ?_⟩
  · exact (key (.priority s) (by simp)).trans (hoff (plicOffset_toNat hwf _))
  · exact (key (.pending w) (by simp)).trans (hoff (plicOffset_toNat hwf _))
  · exact (key (.enable x w) (by simp)).trans (hoff (plicOffset_toNat hwf _))
  · exact (key (.threshold x) (by simp)).trans ((hoff (plicOffset_toNat hwf _)).trans (iff_of_eq (true_and _)))
  · exact (key (.claim x) (by simp)).trans ((hoff (plicOffset_toNat hwf _)).trans (iff_of_eq (true_and _)))

/-! ## TC.CLASSIFY -/

/-- What TC.CLASSIFY does when HOST is ready (R132). -/
theorem exec_tcClassify_ready {s : State} (h : hostReady s = true) (code : BitVec 31) (isInt : Bool) :
    exec (.tcClassify code isInt) s =
      .next (s.answer (some (classify ⟨code, isInt⟩).words.1) (some (classify ⟨code, isInt⟩).words.2)) :=
  show execTcClassify code isInt s = _ by rw [execTcClassify, hostCommand_ready h]; rfl

/-- The result words of an exception code (R130, R132): class 1 for a known one, `Unknown` for every other. -/
theorem classify_exception_words (code : BitVec 31) : (classify ⟨code, false⟩).words =
    if code.toNat ∈ [0, 1, 2, 3, 4, 5, 6, 7, 8, 9, 11, 12, 13, 15] then (1, BitVec.ofNat 32 code.toNat)
    else (0, 0) := by
  simp only [classify, Bool.false_eq_true, if_false, exceptionKnown_iff, BitVec.ofNat_toNat]
  split <;> rfl

/-- The result words of an interrupt code: class 2 for a known one, `Unknown` for every other. -/
theorem classify_interrupt_words (code : BitVec 31) : (classify ⟨code, true⟩).words =
    if code.toNat ∈ [1, 3, 5, 7, 9, 11] then (2, BitVec.ofNat 32 code.toNat) else (0, 0) := by
  simp only [classify, if_true, interruptKnown_iff, BitVec.ofNat_toNat]
  split <;> rfl

/-- Settles O12. -/
theorem tcClassifyNamesKnownCodes : Obligations.TcClassifyNamesKnownCodes := by
  intro s code h
  constructor
  · rw [exec_tcClassify_ready h, classify_exception_words]
    dsimp only
    split <;> rfl
  · rw [exec_tcClassify_ready h, classify_interrupt_words]
    dsimp only
    split <;> rfl

/-! ## The address functions -/

theorem contextIndex_eq (hart : Word) (mode : Bool) : contextIndex hart mode = hart * 2 ||| if mode then 1 else 0 := by
  have hshift : hart <<< 1 = hart * 2 := BitVec.shiftLeft_eq_mul_twoPow hart 1
  rw [contextIndex, hshift]
  cases mode <;> rfl

theorem shiftRight_five (src : Word) : src >>> 5 = src / 32 := by
  apply BitVec.eq_of_toNat_eq
  simp [Nat.shiftRight_eq_div_pow]

theorem sourceBit_setWidth (src : Word) : (sourceBit src).setWidth 32 = src % 32 := by
  apply BitVec.eq_of_toNat_eq
  simp [sourceBit]
  omega

/-- Settles O13: each function is one command whose answer is the formula. -/
theorem plicAddressFunctionsCompute : Obligations.PlicAddressFunctionsCompute := by
  intro s base hart ctx src mode h
  refine ⟨?_, hostCommand_ready h _, ?_, hostCommand_ready h _, hostCommand_ready h _, ?_⟩
  · rw [← contextIndex_eq]
    exact hostCommand_ready h _
  · rw [← shiftRight_five, ← sourceBit_setWidth]
    exact hostCommand_ready h _
  · rw [← shiftRight_five, ← sourceBit_setWidth]
    exact hostCommand_ready h _

end Sys2Proof.Machine
end

section
/-! SUPPORT. The CSR commands and the CSR rows (40_csr_access.md R120 to R126): which accesses `CsrCheck` permits, and what
a permitted and a forbidden access does, by command and by row. -/

namespace Sys2Proof.Machine

open Sys2Proof

/-! ## The access check -/

/-- The privilege level in a CSR's number (R120): 1 for the S-level registers, 3 for the M-level ones. -/
def csrLevel (r : CsrName) : Nat := ((csrNumber r).extractLsb 9 8).toNat

/-- The check, by register: the mode must have the level, and `mhartid` is the one read-only register. -/
theorem csrCheck_csrNumber (s : State) (r : CsrName) (isWrite : Bool) : csrCheck s (csrNumber r) isWrite =
    if Priv.rank s.priv < csrLevel r then none else if isWrite = true ∧ r = .mhartid then none else some r := by
  have hnum : csrOfNumber (csrNumber r) = some r := csrOfNumber_csrNumber r
  have hreadOnly : (csrNumber r).extractLsb 11 10 = 0b11 ↔ r = .mhartid := by cases r <;> decide
  simp only [csrCheck, hnum]
  exact if_congr Iff.rfl rfl (if_congr (and_congr_right fun _ => hreadOnly) rfl rfl)

/-- An S-level register is open to both modes, for reads and writes. -/
theorem csrCheck_supervisor (s : State) {r : CsrName} (hl : csrLevel r = 1 := by rfl) (isWrite : Bool) :
    csrCheck s (csrNumber r) isWrite = some r := by
  have hrank : ¬Priv.rank s.priv < csrLevel r := by rw [hl]; cases s.priv <;> decide
  have hr : r ≠ .mhartid := by rintro rfl; exact absurd hl (by decide)
  rw [csrCheck_csrNumber, if_neg hrank, if_neg (by simp [hr])]

/-- In M every register may be read. -/
theorem csrCheck_machine_read {s : State} (hp : s.priv = .M) (r : CsrName) :
    csrCheck s (csrNumber r) false = some r := by
  have hrank : ¬Priv.rank s.priv < csrLevel r := by rw [hp]; cases r <;> decide
  rw [csrCheck_csrNumber, if_neg hrank, if_neg (by simp)]

/-- In M every register but `mhartid` may be written. -/
theorem csrCheck_machine_write {s : State} (hp : s.priv = .M) {r : CsrName} (hr : r ≠ .mhartid) :
    csrCheck s (csrNumber r) true = some r := by
  have hrank : ¬Priv.rank s.priv < csrLevel r := by rw [hp]; cases r <;> decide
  rw [csrCheck_csrNumber, if_neg hrank, if_neg (by simp [hr])]

/-- At S an M-level register is closed. -/
theorem csrCheck_machine_at_supervisor {s : State} (hp : s.priv = .S) {r : CsrName} (hl : csrLevel r = 3)
    (isWrite : Bool) : csrCheck s (csrNumber r) isWrite = none := by
  have hrank : Priv.rank s.priv < csrLevel r := by rw [hp, hl]; decide
  rw [csrCheck_csrNumber, if_pos hrank]

/-- `mhartid` is never written. -/
theorem csrCheck_mhartid_write (s : State) : csrCheck s (csrNumber .mhartid) true = none := by
  rw [csrCheck_csrNumber]
  split
  · rfl
  · rw [if_pos ⟨rfl, rfl⟩]

/-- A number the CSR file does not implement is closed (10_state.md R38). -/
theorem csrCheck_unimplemented (s : State) {n : BitVec 12} (hn : n ∉ [0x100, 0x104, 0x105, 0x141, 0x142, 0x144, 0x180] ++
    [0x300, 0x302, 0x303, 0x304, 0x305, 0x341, 0x342, 0x344, 0x3A0, 0x3B0, 0xF14]) (isWrite : Bool) :
    csrCheck s n isWrite = none := by
  have hnone : csrOfNumber n = none := by
    simp only [List.cons_append, List.nil_append, List.mem_cons, List.not_mem_nil, or_false, not_or] at hn
    simp only [csrOfNumber, hn, if_false]
  rw [csrCheck, hnone]

/-! ## By command and by row -/

/-- A CSR row is the access of its register's number (log 14). -/
theorem exec_csrRow (r : CsrName) (a : CsrAccess) (s : State) :
    exec (csrRow r a) s = hostCommand s (csrAccess (csrNumber r) a) := by
  cases r <;> rfl

/-- A permitted read answers the register's value and changes nothing (R121, R123). -/
theorem exec_csr_read {s : State} (h : hostReady s = true) {r : CsrName}
    (hc : csrCheck s (csrNumber r) false = some r) :
    exec (.csrRead (csrNumber r)) s = .next (s.answer (some (csrReadValue s r)) none) ∧
    exec (csrRow r .read) s = .next (s.answer (some (csrReadValue s r)) none) := by
  have hbody : hostCommand s (csrAccess (csrNumber r) .read) = .next (s.answer (some (csrReadValue s r)) none) := by
    rw [hostCommand_ready h, csrAccess, hc]
    rfl
  exact ⟨hbody, (exec_csrRow r .read s).trans hbody⟩

/-- A permitted write, set or clear stores a word in the CSR file: the operand, or the operand's bits set or cleared in
the value read (R122, R124 to R126). -/
theorem exec_csr_modify {s : State} (h : hostReady s = true) (v : Word) {r : CsrName}
    (hc : csrCheck s (csrNumber r) true = some r) {file : Word → Csrs}
    (hfile : ∀ w, csrWriteFile s.cfg s.csr r w = file w) :
    (exec (.csrWrite (csrNumber r) v) s = .next ((s.setCsr (file v)).answer none none) ∧
      exec (csrRow r (.write v)) s = .next ((s.setCsr (file v)).answer none none)) ∧
    (exec (.csrSet (csrNumber r) v) s = .next ((s.setCsr (file (csrReadValue s r ||| v))).answer none none) ∧
      exec (csrRow r (.set v)) s = .next ((s.setCsr (file (csrReadValue s r ||| v))).answer none none)) ∧
    (exec (.csrClear (csrNumber r) v) s = .next ((s.setCsr (file (csrReadValue s r &&& ~~~v))).answer none none) ∧
      exec (csrRow r (.clear v)) s = .next ((s.setCsr (file (csrReadValue s r &&& ~~~v))).answer none none)) := by
  have hbody (a : CsrAccess) (w : Word) (ha : csrAccess (csrNumber r) a s = .ok noAnswer (csrWriteState s r w)) :
      hostCommand s (csrAccess (csrNumber r) a) = .next ((s.setCsr (file w)).answer none none) := by
    rw [hostCommand_ready h, ha, csrWriteState, hfile]
    rfl
  have hwrite := hbody (.write v) v (by rw [csrAccess, hc])
  have hset := hbody (.set v) (csrReadValue s r ||| v) (by rw [csrAccess, hc])
  have hclear := hbody (.clear v) (csrReadValue s r &&& ~~~v) (by rw [csrAccess, hc])
  exact ⟨⟨hwrite, (exec_csrRow r _ s).trans hwrite⟩, ⟨hset, (exec_csrRow r _ s).trans hset⟩,
    hclear, (exec_csrRow r _ s).trans hclear⟩

/-- A forbidden access is an illegal instruction (R120). -/
theorem hostCommand_csr_forbidden {s : State} {n : BitVec 12} {a : CsrAccess}
    (hc : csrCheck s n (decide (a ≠ .read)) = none) :
    hostCommand s (csrAccess n a) = exec (.hartException 2) s := by
  have hraise : csrAccess n a s = .raise excIllegal := by
    cases a <;> simp only [ne_eq, not_true_eq_false, reduceCtorEq, not_false_eq_true, decide_true, decide_false] at hc <;>
      simp only [csrAccess, hc]
  exact (hostCommand_congr s hraise).trans (execHartException_two s).symm

/-- Settles O7: the S-level registers pass the check in both modes, the M-level ones in M. -/
theorem csrReadsGiveRegisterValues : Obligations.CsrReadsGiveRegisterValues := by
  intro s h
  simp only [List.forall_mem_cons, List.not_mem_nil, false_implies, implies_true, and_true]
  have hs (r : CsrName) (hl : csrLevel r = 1) := exec_csr_read h (csrCheck_supervisor s hl false)
  refine ⟨⟨hs .sstatus rfl, hs .sie rfl, hs .stvec rfl, hs .sepc rfl, hs .scause rfl, hs .sip rfl, hs .satp rfl⟩,
    fun hp => ?_⟩
  have hm (r : CsrName) := exec_csr_read h (csrCheck_machine_read hp r)
  exact ⟨hm .mstatus, hm .medeleg, hm .mideleg, hm .mie, hm .mtvec, hm .mepc, hm .mcause, hm .mip, hm .pmpcfg0,
    hm .pmpaddr0, hm .mhartid⟩

/-- Settles O8: a permitted access stores through `csrWriteFile`, whose masks are the statement's. -/
theorem csrWritesGoThroughTheMasks : Obligations.CsrWritesGoThroughTheMasks := by
  intro s v h put epc does
  have hepc : epcMask s.cfg = epc := epcMask_eq s.cfg
  have hs (r : CsrName) (hl : csrLevel r = 1) {file : Word → Csrs} :=
    exec_csr_modify h v (file := file) (csrCheck_supervisor s hl true)
  refine ⟨⟨hs .sstatus rfl fun _ => rfl, hs .sie rfl fun _ => rfl, hs .stvec rfl fun _ => rfl,
    hs .sepc rfl (file := fun w => { s.csr with sepc := put s.csr.sepc epc w }) fun w => ?_,
    hs .scause rfl fun _ => rfl, hs .sip rfl fun _ => rfl, hs .satp rfl fun _ => rfl⟩, fun hp => ?_⟩
  · rw [← hepc]
    rfl
  have hm (r : CsrName) (hr : r ≠ .mhartid) {file : Word → Csrs} :=
    exec_csr_modify h v (file := file) (csrCheck_machine_write hp hr)
  refine ⟨hm .mstatus (by decide) (file := fun w => { s.csr with
      mstatus := put s.csr.mstatus (if mppField w = 0b10 then 0x01AA else 0x19AA) w }) fun w => ?_,
    hm .medeleg (by decide) fun _ => rfl, hm .mideleg (by decide) fun _ => rfl, hm .mie (by decide) fun _ => rfl,
    hm .mtvec (by decide) fun _ => rfl,
    hm .mepc (by decide) (file := fun w => { s.csr with mepc := put s.csr.mepc epc w }) fun w => ?_,
    hm .mcause (by decide) fun _ => rfl, hm .mip (by decide) fun _ => rfl, hm .pmpcfg0 (by decide) fun _ => rfl,
    hm .pmpaddr0 (by decide) fun _ => rfl⟩
  · rw [csrWriteFile, mstatusWrite_eq]
    rfl
  · rw [← hepc]
    rfl

/-- The M-level registers, in the order of their numbers (10_state.md R24). -/
def machineCsrs : List CsrName :=
  [.mstatus, .medeleg, .mideleg, .mie, .mtvec, .mepc, .mcause, .mip, .pmpcfg0, .pmpaddr0, .mhartid]

theorem csrLevel_of_mem_machineCsrs : ∀ r ∈ machineCsrs, csrLevel r = 3 := by decide

/-- Settles O9: in each of the three cases the check answers none, and the access is HART.EXCEPTION 2. -/
theorem forbiddenCsrAccessesTrap : Obligations.ForbiddenCsrAccessesTrap := by
  intro s n v
  refine ⟨fun hn => ?_, ?_, fun hp => ?_⟩
  · have hclosed (w : Bool) : csrCheck s n w = none := by
      rcases hn with hn | ⟨hp, hn⟩
      · exact csrCheck_unimplemented s hn w
      · obtain ⟨r, hr, rfl⟩ := List.mem_map.1 (show n ∈ machineCsrs.map csrNumber from hn)
        exact csrCheck_machine_at_supervisor hp (csrLevel_of_mem_machineCsrs r hr) w
    exact ⟨hostCommand_csr_forbidden (hclosed _), hostCommand_csr_forbidden (hclosed _),
      hostCommand_csr_forbidden (hclosed _), hostCommand_csr_forbidden (hclosed _)⟩
  · have hwrite {a : CsrAccess} (ha : a ≠ .read) :
        hostCommand s (csrAccess (csrNumber .mhartid) a) = exec (.hartException 2) s :=
      hostCommand_csr_forbidden (by rw [decide_eq_true ha]; exact csrCheck_mhartid_write s)
    exact ⟨hwrite (a := .write v) (by simp), hwrite (a := .set v) (by simp), hwrite (a := .clear v) (by simp),
      hwrite (a := .write v) (by simp), hwrite (a := .set v) (by simp), hwrite (a := .clear v) (by simp)⟩
  · intro row hrow a _
    obtain ⟨r, hr, rfl⟩ := List.mem_map.1 (show row ∈ machineCsrs.map csrRow from hrow)
    rw [exec_csrRow]
    exact hostCommand_csr_forbidden (csrCheck_machine_at_supervisor hp (csrLevel_of_mem_machineCsrs r hr) _)

end Sys2Proof.Machine
end

section
/-! SUPPORT. Taking a trap and returning from one, as equations (60_exceptions.md R294 to R300): where the trap goes, what
it saves, when it has no successor, and the interrupt TRAP.INT takes. -/

namespace Sys2Proof.Machine

open Sys2Proof

/-! ## Trap entry -/

/-- A trap taken in M whose vector is the FSM's entry point (R294). -/
theorem trapEnter_machine {s : State} {isInt : Bool} {code : BitVec 31} (hd : trapDest s isInt code = .M)
    (hv : s.csr.mtvec = s.cfg.trapEntry) : trapEnter s isInt code = .next { s with
      pc := s.csr.mtvec, priv := .M, disp := .decoding,
      csr := { s.csr with
        mepc := s.pc, mcause := encodeCause ⟨code, isInt⟩, mstatus := mstatusTrapM s.csr.mstatus s.priv },
      dregs := { s.dregs with trapMode := .M, tc := ⟨code, isInt⟩ } } := by
  simp only [trapEnter, hd, trapSave, hv, if_true, trapDecode, decodeCause_encodeCause]

/-- A trap taken in S whose vector is the FSM's entry point (R294). -/
theorem trapEnter_supervisor {s : State} {isInt : Bool} {code : BitVec 31} (hd : trapDest s isInt code = .S)
    (hv : s.csr.stvec = s.cfg.trapEntry) : trapEnter s isInt code = .next { s with
      pc := s.csr.stvec, priv := .S, disp := .decoding,
      csr := { s.csr with
        sepc := s.pc, scause := encodeCause ⟨code, isInt⟩, mstatus := mstatusTrapS s.csr.mstatus },
      dregs := { s.dregs with trapMode := .S, tc := ⟨code, isInt⟩ } } := by
  simp only [trapEnter, hd, trapSave, hv, if_true, trapDecode, decodeCause_encodeCause]

/-- The vector register of a mode. -/
def vectorOf (c : Csrs) (p : Priv) : Word :=
  match p with
  | .M => c.mtvec
  | .S => c.stvec

/-- A trap whose vector is not the FSM's entry point has no successor (R294 line 4). -/
theorem trapEnter_refused {s : State} {isInt : Bool} {code : BitVec 31} {p : Priv} (hd : trapDest s isInt code = p)
    (hv : vectorOf s.csr p ≠ s.cfg.trapEntry) : trapEnter s isInt code = .refused .vectorNotInstalled := by
  cases p <;> simp only [trapEnter, hd, trapSave] <;> exact if_neg hv

/-! ## Exceptions HOST reports -/

/-- What an exception drops of HOST's (R296): the sequence begun and the results on the port. -/
def dropSequence (s : State) : State := { s with hseq := none, r0 := none, r1 := none }

/-- HART.EXCEPTION raises the code of its operand (46_host_port.md R265). -/
theorem exec_hartException_ready {s : State} {code : Word} (h : hostReady s = true) (hc : code.getLsbD 31 = false) :
    exec (.hartException code) s =
      trapEnter (dropSequence s) false (code.setWidth 31) :=
  show execHartException code s = _ by
    rw [execHartException, hostCommand_ready h, hc]
    rfl

/-- An operand with bit 31 set is an illegal instruction (R265). -/
theorem exec_hartException_illegal {s : State} {code : Word} (hc : code.getLsbD 31 = true) :
    exec (.hartException code) s = exec (.hartException 2) s := by
  show execHartException code s = _
  simp only [execHartException, hc, if_true]
  exact illegalCommand_eq s

/-- The cause word of an exception is its code. -/
theorem encodeCause_exception {code : Word} (hc : code.getLsbD 31 = false) :
    encodeCause ⟨code.setWidth 31, false⟩ = code := by
  have h := encodeCause_decodeCause code
  rwa [decodeCause, hc] at h

theorem setWidth_code_toNat {code : Word} (hc : code.getLsbD 31 = false) : (code.setWidth 31).toNat = code.toNat := by
  have hlt : code.toNat < 2 ^ 31 := BitVec.toNat_lt_of_msb_false hc
  rw [BitVec.toNat_setWidth, Nat.mod_eq_of_lt hlt]

/-- An exception goes to S exactly from S, where its delegation bit is set (R304). -/
theorem trapDest_exception (s : State) {code : Word} (hc : code.getLsbD 31 = false) :
    trapDest s false (code.setWidth 31) =
      if s.priv = .S ∧ s.csr.medeleg.getLsbD code.toNat = true then .S else .M := by
  rw [trapDest, setWidth_code_toNat hc]
  rfl

/-- Settles O14: the destination is M, where `trapEnter_machine` is the step and `getLsbD_mstatusTrapM` its `mstatus`. -/
theorem exceptionTakenInMachineMode : Obligations.ExceptionTakenInMachineMode := by
  intro s code h hc hm hv
  have hdest : ¬(s.priv = .S ∧ s.csr.medeleg.getLsbD code.toNat = true) := by
    rintro ⟨hp, hd⟩
    simp [hp, hd] at hm
  refine ⟨mstatusTrapM s.csr.mstatus s.priv, ?_, fun j hj => getLsbD_mstatusTrapM _ _ j hj⟩
  rw [exec_hartException_ready h hc, trapEnter_machine (s := dropSequence s)
    ((trapDest_exception _ hc).trans (if_neg hdest)) hv, encodeCause_exception hc]
  rfl

/-- Settles O15. -/
theorem exceptionTakenInSupervisorMode : Obligations.ExceptionTakenInSupervisorMode := by
  refine ⟨fun s code h hc hp hm hv => ?_, fun s code => exec_hartException_illegal⟩
  refine ⟨mstatusTrapS s.csr.mstatus, ?_, fun j hj => getLsbD_mstatusTrapS _ j hj⟩
  rw [exec_hartException_ready h hc, trapEnter_supervisor (s := dropSequence s)
    ((trapDest_exception _ hc).trans (if_pos ⟨hp, hm⟩)) hv, encodeCause_exception hc]
  rfl

/-! ## Interrupts -/

/-- The machine-bound interrupts that may be taken, where the mode and MIE let any through (R295). -/
theorem takeableM_open {s : State} (h : s.priv = .S ∨ s.csr.mstatus.getLsbD 3 = true) :
    takeableM s = mip s &&& s.csr.mie &&& ~~~s.csr.mideleg := if_pos h

/-- The delegated interrupts that may be taken, where the mode and SIE let any through (R295). -/
theorem takeableS_open {s : State} (hp : s.priv = .S) (hs : s.csr.mstatus.getLsbD 1 = true) :
    takeableS s = mip s &&& s.csr.mie &&& s.csr.mideleg := if_pos ⟨hp, hs⟩

/-- A takeable machine-bound interrupt is not delegated. -/
theorem mideleg_of_takeableM {s : State} {k : Nat} (h : (takeableM s).getLsbD k = true) :
    s.csr.mideleg.getLsbD k = false := by
  unfold takeableM at h
  split at h
  · simp only [BitVec.getLsbD_and, BitVec.getLsbD_not, Bool.and_eq_true, Bool.not_eq_true'] at h
    exact h.2.2
  · simp at h

/-- A takeable delegated interrupt is delegated, and the mode is S. -/
theorem mideleg_of_takeableS {s : State} {k : Nat} (h : (takeableS s).getLsbD k = true) :
    s.csr.mideleg.getLsbD k = true ∧ s.priv = .S := by
  unfold takeableS at h
  split at h
  · next hp =>
    rw [BitVec.getLsbD_and, Bool.and_eq_true] at h
    exact ⟨h.2, hp.1⟩
  · simp at h

/-- What TRAP.INT takes: the first takeable machine-bound interrupt, or with none the first takeable delegated one. -/
theorem interruptChoice_cases {s : State} {k : Nat} (h : interruptChoice s = some k) :
    k ∈ [11, 3, 7, 9, 1, 5] ∧ ((takeableM s).getLsbD k = true ∨ (takeableS s).getLsbD k = true) := by
  unfold interruptChoice at h
  split at h
  · exact ⟨List.mem_of_find?_eq_some h, .inl (List.find?_some h)⟩
  · refine ⟨?_, .inr (List.find?_some h)⟩
    have hmem := List.mem_of_find?_eq_some h
    simp only [List.mem_cons, List.not_mem_nil, or_false] at hmem ⊢
    tauto

theorem interruptCode_toNat {k : Nat} (hk : k ∈ [11, 3, 7, 9, 1, 5]) : (BitVec.ofNat 31 k).toNat = k := by
  simp only [List.mem_cons, List.not_mem_nil, or_false] at hk
  rw [BitVec.toNat_ofNat]
  omega

/-- The cause word of an interrupt: bit 31 and the code. -/
theorem encodeCause_interrupt {k : Nat} (hk : k ∈ [11, 3, 7, 9, 1, 5]) :
    encodeCause ⟨BitVec.ofNat 31 k, true⟩ = BitVec.ofNat 32 (2 ^ 31 + k) := by
  simp only [List.mem_cons, List.not_mem_nil, or_false] at hk
  rcases hk with rfl | rfl | rfl | rfl | rfl | rfl <;> rfl

/-- An interrupt's destination is its delegation (R304). -/
theorem trapDest_interrupt (s : State) {k : Nat} (hk : k ∈ [11, 3, 7, 9, 1, 5]) :
    trapDest s true (BitVec.ofNat 31 k) = if s.csr.mideleg.getLsbD k = true then .S else .M := by
  rw [trapDest, interruptCode_toNat hk]
  rfl

theorem trapDest_of_takeableM {s : State} {k : Nat} (hk : k ∈ [11, 3, 7, 9, 1, 5])
    (h : (takeableM s).getLsbD k = true) : trapDest s true (BitVec.ofNat 31 k) = .M := by
  rw [trapDest_interrupt s hk, mideleg_of_takeableM h]
  rfl

theorem trapDest_of_takeableS {s : State} {k : Nat} (hk : k ∈ [11, 3, 7, 9, 1, 5])
    (h : (takeableS s).getLsbD k = true) : trapDest s true (BitVec.ofNat 31 k) = .S := by
  rw [trapDest_interrupt s hk, (mideleg_of_takeableS h).1]
  rfl

/-- TRAP.INT in normal context takes the chosen interrupt (R295). -/
theorem exec_trapInt_choice {s : State} {k : Nat} (hd : s.disp = .idle) (hk : interruptChoice s = some k) :
    exec .trapInt s = trapEnter s true (BitVec.ofNat 31 k) :=
  show execTrapInt s = _ by simp only [execTrapInt, hd, if_true, hk]

/-- TRAP.INT outside normal context changes nothing (R301, R303). -/
theorem exec_trapInt_busy {s : State} (hd : s.disp ≠ .idle) : exec .trapInt s = .next s :=
  show execTrapInt s = _ by rw [execTrapInt, if_neg hd]

/-- TRAP.INT with no takeable interrupt changes nothing. -/
theorem exec_trapInt_none {s : State} (hk : interruptChoice s = none) : exec .trapInt s = .next s :=
  show execTrapInt s = _ by
    rw [execTrapInt, hk]
    split <;> rfl

theorem ne_zero_of_bit {w : Word} {k : Nat} (h : w.getLsbD k = true) : w ≠ 0 := by
  rintro rfl
  simp at h

/-- A machine-bound interrupt is chosen before every delegated one. -/
theorem interruptChoice_machine {s : State} {i : Nat} (hi : (takeableM s).getLsbD i = true) :
    interruptChoice s = [11, 3, 7, 9, 1, 5].find? (fun k => (takeableM s).getLsbD k) :=
  if_pos (ne_zero_of_bit hi)

/-- Without a machine-bound interrupt the delegated ones are looked at. -/
theorem interruptChoice_supervisor {s : State} (hm : takeableM s = 0) :
    interruptChoice s = [9, 1, 5].find? (fun k => (takeableS s).getLsbD k) := if_neg (by simp [hm])

/-- `T_M` is empty wherever nothing pending and enabled is machine-bound. -/
theorem takeableM_eq_zero {s : State}
    (h : s.priv = .S ∨ s.csr.mstatus.getLsbD 3 = true → mip s &&& s.csr.mie &&& ~~~s.csr.mideleg = 0) :
    takeableM s = 0 := by
  unfold takeableM
  split
  · next hopen => exact h hopen
  · rfl

theorem takeableS_eq_zero {s : State}
    (h : s.priv = .S ∧ s.csr.mstatus.getLsbD 1 = true → mip s &&& s.csr.mie &&& s.csr.mideleg = 0) :
    takeableS s = 0 := by
  unfold takeableS
  split
  · next hopen => exact h hopen
  · rfl

/-- Settles O16: the destination is the mode the statement names, and its vector is not the entry point. -/
theorem trapElsewhereIsRefused : Obligations.TrapElsewhereIsRefused := by
  refine ⟨fun s code h hc => ⟨fun hm hv => ?_, fun hp hm hv => ?_⟩,
    fun s hd => ⟨fun i hi hopen hbit hv => ?_, fun i hi hp hs hzero hbit hv => ?_⟩⟩
  · have hdest : ¬(s.priv = .S ∧ s.csr.medeleg.getLsbD code.toNat = true) := by
      rintro ⟨hp, hd⟩
      simp [hp, hd] at hm
    rw [exec_hartException_ready h hc]
    exact trapEnter_refused ((trapDest_exception _ hc).trans (if_neg hdest)) hv
  · rw [exec_hartException_ready h hc]
    exact trapEnter_refused ((trapDest_exception _ hc).trans (if_pos ⟨hp, hm⟩)) hv
  · rw [← takeableM_open hopen] at hbit
    obtain ⟨k, hk⟩ := Option.isSome_iff_exists.1 (List.find?_isSome.2 ⟨i, hi, hbit⟩)
    rw [exec_trapInt_choice hd ((interruptChoice_machine hbit).trans hk)]
    exact trapEnter_refused (trapDest_of_takeableM (List.mem_of_find?_eq_some hk) (List.find?_some hk)) hv
  · rw [← takeableS_open hp hs] at hbit
    obtain ⟨k, hk⟩ := Option.isSome_iff_exists.1 (List.find?_isSome.2 ⟨i, hi, hbit⟩)
    have hchoice := (interruptChoice_supervisor (takeableM_eq_zero fun _ => hzero)).trans hk
    rw [exec_trapInt_choice hd hchoice]
    exact trapEnter_refused (trapDest_of_takeableS (interruptChoice_cases hchoice).1 (List.find?_some hk)) hv

/-- Settles O17: the first takeable one of an order is what `find?` answers on it; with both sets empty it answers none. -/
theorem interruptTakenInOrder : Obligations.InterruptTakenInOrder := by
  refine ⟨fun s pre post i hd => ⟨fun horder hopen hpre hbit hv => ?_, fun horder hp hs hzero hpre hbit hv => ?_⟩,
    fun s => ⟨exec_trapInt_busy, fun hM hS => exec_trapInt_none ?_⟩⟩
  · rw [← takeableM_open hopen] at hpre hbit
    have hfind : [11, 3, 7, 9, 1, 5].find? (fun k => (takeableM s).getLsbD k) = some i :=
      List.find?_eq_some_iff_append.2 ⟨hbit, pre, post, horder.symm, fun j hj => by simp [hpre j hj]⟩
    have hi := List.mem_of_find?_eq_some hfind
    refine ⟨mstatusTrapM s.csr.mstatus s.priv, ?_, fun j hj => getLsbD_mstatusTrapM _ _ j hj⟩
    rw [exec_trapInt_choice hd ((interruptChoice_machine hbit).trans hfind),
      trapEnter_machine (trapDest_of_takeableM hi hbit) hv, encodeCause_interrupt hi]
  · rw [← takeableS_open hp hs] at hpre hbit
    have hfind : [9, 1, 5].find? (fun k => (takeableS s).getLsbD k) = some i :=
      List.find?_eq_some_iff_append.2 ⟨hbit, pre, post, horder.symm, fun j hj => by simp [hpre j hj]⟩
    have hchoice := (interruptChoice_supervisor (takeableM_eq_zero fun _ => hzero)).trans hfind
    have hi := (interruptChoice_cases hchoice).1
    refine ⟨mstatusTrapS s.csr.mstatus, ?_, fun j hj => getLsbD_mstatusTrapS _ j hj⟩
    rw [exec_trapInt_choice hd hchoice, trapEnter_supervisor (trapDest_of_takeableS hi hbit) hv,
      encodeCause_interrupt hi]
  · rw [interruptChoice_supervisor (takeableM_eq_zero hM), takeableS_eq_zero hS]
    rfl

/-! ## Returns -/

theorem mretEffects_ok {s : State} (h : mppField s.csr.mstatus ≠ 0b00) : mretEffects s = .ok () { s with
    priv := mretPriv s.csr.mstatus, csr := { s.csr with mstatus := mstatusMret s.csr.mstatus }, pc := s.csr.mepc } :=
  if_neg h

theorem mretEffects_refuse {s : State} (h : mppField s.csr.mstatus = 0b00) :
    mretEffects s = .refuse .userModeNotModelled := if_pos h

theorem sretEffects_ok {s : State} (h : sppBit s.csr.mstatus = true) : sretEffects s = .ok () { s with
    priv := .S, csr := { s.csr with mstatus := mstatusSret s.csr.mstatus }, pc := s.csr.sepc } := by
  rw [sretEffects, if_neg (by simp [h])]

theorem sretEffects_refuse {s : State} (h : sppBit s.csr.mstatus = false) :
    sretEffects s = .refuse .userModeNotModelled := if_pos h

/-- Settles O18: the effects are `mretEffects`, the bits `getLsbD_mstatusMret`; at S the body raises. -/
theorem mretRestoresThePreviousMode : Obligations.MretRestoresThePreviousMode := by
  intro s mpp
  have hbody (h : hostReady s = true) (hp : s.priv = .M) :
      exec .mret s = hostFinish s ((mretEffects s).andThen fun _ t => .ok noAnswer t) :=
    show execMret s = _ by rw [execMret, hostCommand_ready h, if_pos hp]
  refine ⟨fun h hp hmpp => ⟨_, ?_, fun j hj => getLsbD_mstatusMret s.csr.mstatus j hj⟩, fun h hp hmpp => ?_, fun hp => ?_⟩
  · rw [hbody h hp, mretEffects_ok hmpp]
    rfl
  · rw [hbody h hp, mretEffects_refuse hmpp]
    rfl
  · show execMret s = _
    rw [execMret, ← illegalCommand_eq s]
    exact hostCommand_congr s (if_neg (by simp [hp]))

/-- Settles O19. -/
theorem sretRestoresSupervisorMode : Obligations.SretRestoresSupervisorMode := by
  intro s h
  have hbody : exec .sret s = hostFinish s ((sretEffects s).andThen fun _ t => .ok noAnswer t) :=
    show execSret s = _ from hostCommand_ready h _
  refine ⟨fun hspp => ⟨_, ?_, fun j hj => getLsbD_mstatusSret s.csr.mstatus j hj⟩, fun hspp => ?_⟩
  · rw [hbody, sretEffects_ok hspp]
    rfl
  · rw [hbody, sretEffects_refuse hspp]
    rfl

/-- The return of a trap taken in a mode (45_trap_dispatch.md R250). -/
def trapReturn (s : State) : Priv → Res Unit
  | .M => mretEffects s
  | .S => sretEffects s

/-- DISP.RETURN at its label is the return of the trap's mode, then `Idle`. -/
theorem exec_dispReturn_eq {s : State} (hs : inService s .ret = true) : exec .dispReturn s =
    match trapReturn s s.dregs.trapMode with
    | .ok _ u => .next (dispIdle u)
    | .raise _ => .next (doubleTrap s)
    | .refuse r => .refused r := by
  show execDispReturn s = _
  rw [execDispReturn, hs, dispStep, if_pos rfl]
  cases s.dregs.trapMode with
  | M => simp only [trapReturn]; cases mretEffects s <;> rfl
  | S => simp only [trapReturn]; cases sretEffects s <;> rfl

theorem exec_dispReturn_machine {s : State} (hs : inService s .ret = true) (hm : s.dregs.trapMode = .M)
    (hmpp : mppField s.csr.mstatus ≠ 0b00) : exec .dispReturn s = .next (dispIdle { s with
      priv := mretPriv s.csr.mstatus, csr := { s.csr with mstatus := mstatusMret s.csr.mstatus },
      pc := s.csr.mepc }) :=
  (exec_dispReturn_eq hs).trans (by rw [hm, trapReturn, mretEffects_ok hmpp])

theorem exec_dispReturn_supervisor {s : State} (hs : inService s .ret = true) (hm : s.dregs.trapMode = .S)
    (hspp : sppBit s.csr.mstatus = true) : exec .dispReturn s = .next (dispIdle { s with
      priv := .S, csr := { s.csr with mstatus := mstatusSret s.csr.mstatus }, pc := s.csr.sepc }) :=
  (exec_dispReturn_eq hs).trans (by rw [hm, trapReturn, sretEffects_ok hspp])

/-- A trap into M leaves the mode it came from in the previous-privilege field, for the return. -/
theorem mretPriv_mstatusTrapM (w : Word) (p : Priv) : mretPriv (mstatusTrapM w p) = p := by
  rw [mretPriv, mstatusTrapM, mppField_setMpp]
  cases p <;> rfl

/-- An interrupt taken in S comes from S: a delegated one is takeable there alone (R295). -/
theorem from_supervisor_of_trapDest {s : State} {k : Nat} (hk : interruptChoice s = some k)
    (hdest : trapDest s true (BitVec.ofNat 31 k) = .S) : s.priv = .S := by
  obtain ⟨hmem, hbit⟩ := interruptChoice_cases hk
  have hS : (takeableS s).getLsbD k = true := by
    refine hbit.resolve_left fun hM => ?_
    rw [trapDest_of_takeableM hmem hM] at hdest
    cases hdest
  exact (mideleg_of_takeableS hS).2

/-- Settles O20: entry saves the pc, the mode and the enable of its mode, and the return of the same mode restores each;
a trap into S comes from S, because a delegated interrupt is taken there alone. -/
theorem returnUndoesInterruptEntry : Obligations.ReturnUndoesInterruptEntry := by
  intro s t u v hidle ht hne hcsr hpriv hmode hdisp hih hv
  have hs : inService u .ret = true := (inService_iff u .ret).2 ⟨hdisp, hih⟩
  cases hk : interruptChoice s with
  | none =>
    rw [exec_trapInt_none hk] at ht
    exact absurd (Host.Outcome.next.inj ht).symm hne
  | some k =>
    rw [exec_trapInt_choice hidle hk] at ht
    rcases trapEnter_cases ht with ⟨hdest, -, rfl⟩ | ⟨hdest, -, rfl⟩
    · have hms : u.csr.mstatus = mstatusTrapM s.csr.mstatus s.priv := congrArg Csrs.mstatus hcsr
      have hpc : u.csr.mepc = s.pc := congrArg Csrs.mepc hcsr
      have hmpp : mppField u.csr.mstatus ≠ 0b00 := by rw [hms]; exact returnable_trapM _ _
      rw [exec_dispReturn_machine hs hmode hmpp, hms, hpc, mretPriv_mstatusTrapM] at hv
      obtain rfl := Host.Outcome.next.inj hv
      refine ⟨rfl, rfl, rfl, fun _ => ?_, fun hp => by cases hp⟩
      exact (getLsbD_mstatusMret _ 3 (by decide)).trans (getLsbD_mstatusTrapM _ _ 7 (by decide))
    · have hms : u.csr.mstatus = mstatusTrapS s.csr.mstatus := congrArg Csrs.mstatus hcsr
      have hpc : u.csr.sepc = s.pc := congrArg Csrs.sepc hcsr
      have hspp : sppBit u.csr.mstatus = true := by rw [hms]; exact returnable_trapS _
      have hfrom : s.priv = .S := from_supervisor_of_trapDest hk hdest
      rw [exec_dispReturn_supervisor hs hmode hspp, hms, hpc] at hv
      obtain rfl := Host.Outcome.next.inj hv
      refine ⟨hfrom.symm, rfl, rfl, nofun, fun _ => ?_⟩
      exact (getLsbD_mstatusSret _ 1 (by decide)).trans (getLsbD_mstatusTrapS _ 5 (by decide))

end Sys2Proof.Machine
end

section
/-! SUPPORT. Reset, the bootstrap's steps, HART.SETPC and the transmitter: O21, O46, O49, O53, O59. -/

namespace Sys2Proof.Machine

open Sys2Proof

/-! ## The bootstrap -/

/-- The previous-privilege field of the bootstrap's target (44_privilege_bootstrap.md R224). -/
theorem setMpp_target (w : Word) (p : Priv) :
    setMpp w p.code = maskWrite w 0x1800 (if p = .S then 0x0800 else 0x1800) := by
  cases p <;> rfl

/-- The global interrupt enable of the bootstrap's target (44_privilege_bootstrap.md R225). -/
theorem setBit_target (w : Word) (p : Priv) :
    setBit w (if p = .S then 1 else 7) true = w ||| (if p = .S then 0x2 else 0x80) := by
  cases p <;> rfl

/-- The labels of the bootstrap and their steps (44_privilege_bootstrap.md R220). -/
def bootLabels : List (Boot × Instr) :=
  [(.b0, .bootB0), (.b1, .bootB1), (.b2, .bootB2), (.b3, .bootB3), (.b4, .bootB4), (.b5, .bootB5), (.b6, .bootB6)]

/-- Each BOOT step is `bootStep` at its own label. -/
theorem exec_boot_eq {e : Boot × Instr} (he : e ∈ bootLabels) (s : State) :
    ∃ next body, exec e.2 s = bootStep s e.1 next body := by
  simp only [bootLabels, List.mem_cons, List.not_mem_nil, or_false] at he
  rcases he with rfl | rfl | rfl | rfl | rfl | rfl | rfl
  · exact ⟨_, _, show execBootB0 s = _ from rfl⟩
  · exact ⟨_, _, show execBootB1 s = _ from rfl⟩
  · exact ⟨_, _, show execBootB2 s = _ from rfl⟩
  · exact ⟨_, _, show execBootB3 s = _ from rfl⟩
  · exact ⟨_, _, show execBootB4 s = _ from rfl⟩
  · exact ⟨_, _, show execBootB5 s = _ from rfl⟩
  · exact ⟨_, _, show execBootB6 s = _ from rfl⟩

/-- Every BOOT step has a label. -/
theorem boot_label {i : Instr} (hi : agentOf i = .boot) : ∃ e ∈ bootLabels, e.2 = i := by
  cases i with
  | bootB0 | bootB1 | bootB2 | bootB3 | bootB4 | bootB5 | bootB6 => simp [bootLabels]
  | _ => cases hi

/-- A BOOT step off its label, or outside normal context, changes nothing. -/
theorem exec_boot_blocked {e : Boot × Instr} (he : e ∈ bootLabels) {s : State} (h : s.boot ≠ e.1 ∨ s.disp ≠ .idle) :
    exec e.2 s = .next s := by
  obtain ⟨next, body, heq⟩ := exec_boot_eq he s
  exact heq.trans (bootStep_blocked h)

/-- Settles O21: each step at its label is `exec_bootB*_atLabel`; off its label it is `exec_boot_blocked`. -/
theorem bootStepsConfigureTheHart : Obligations.BootStepsConfigureTheHart := by
  intro s put epc mpp
  refine ⟨fun hd => ⟨exec_bootB0_atLabel hd, exec_bootB1_atLabel hd, exec_bootB2_atLabel hd, fun hb => ?_, fun hb => ?_,
    exec_bootB5_atLabel hd, fun hb hm => ?_⟩, fun e he h => exec_boot_blocked he h⟩
  · rw [exec_bootB3_atLabel hd hb, epcMask_eq, setMpp_target]
    rfl
  · rw [exec_bootB4_atLabel hd hb, setBit_target]
    rfl
  · exact ⟨_, exec_bootB6_atLabel hd hb hm, fun j hj => getLsbD_mstatusMret s.csr.mstatus j hj⟩

/-! ## The transmitter -/

theorem exec_uartTxload_ready {s : State} {b : Byte} {rest : List Byte} (ht : s.uart.tsr = none)
    (hq : s.uart.txFifo = b :: rest) : exec .uartTxload s = .next { s with
      uart := { s.uart with tsr := some b, txFifo := rest, threIp := s.uart.threIp || rest.isEmpty } } := by
  show execUartTxload s = _
  simp only [execUartTxload, ht, hq]
  rfl

theorem exec_uartTxload_blocked {s : State} (h : s.uart.tsr ≠ none ∨ s.uart.txFifo = []) :
    exec .uartTxload s = .next s := by
  show execUartTxload s = _
  unfold execUartTxload
  split
  · next ht hq => simp [ht, hq] at h
  · rfl

/-- Settles O46: each step is its equation under its guard. -/
theorem transmitterMovesBytesInOrder : Obligations.TransmitterMovesBytesInOrder := by
  refine fun s => ⟨fun b rest ht hq => ?_, exec_uartTxload_blocked, fun b ht => ?_, fun ht => ?_⟩
  · rw [exec_uartTxload_ready ht hq]
    cases rest <;> simp
  · show execUartTxemit s = _
    rw [execUartTxemit, ht]
    rfl
  · show execUartTxemit s = _
    rw [execUartTxemit, ht]

/-! ## HART.SETPC -/

theorem pcAligned_iff (cfg : Config) (a : Word) :
    pcAligned cfg a = true ↔ a.toNat % (if cfg.ialign = .bits32 then 4 else 2) = 0 := by
  unfold pcAligned
  cases cfg.ialign <;> simp

theorem execHartException_zero (s : State) : exec (.hartException 0) s = hostCommand s fun _ => .raise excInstrMisaligned :=
  rfl

/-- Settles O53: the two branches of the alignment test. -/
theorem setpcTakesAlignedAddresses : Obligations.SetpcTakesAlignedAddresses := by
  intro s a step
  refine ⟨fun ha h => ?_, fun ha => ?_⟩ <;> show execHartSetpc a s = _
  · rw [execHartSetpc, hostCommand_ready h, if_pos ((pcAligned_iff _ _).2 ha)]
    rfl
  · rw [execHartException_zero]
    exact hostCommand_congr s (if_neg fun h => ha ((pcAligned_iff _ _).1 h))

/-! ## Reset -/

theorem lsr_reset (modemIn : BitVec 4) : (Uart.reset modemIn).lsr = 0x60 := by
  revert modemIn
  decide

/-- Settles O49: reset is `State.afterReset`, whose tables are empty. -/
theorem resetSetsEveryComponent : Obligations.ResetSetsEveryComponent := by
  refine fun s => ⟨s.afterReset, resetDispRegs, rfl, rfl, fun src => ⟨rfl, rfl, fun c => ?_⟩, lsr_reset _⟩
  rcases fin2_cases c with rfl | rfl <;> exact BitVec.getLsbD_zero

theorem default_wf : Config.default.wf = true := by decide

theorem legalQueues_afterReset (s : State) : Uart.legal s.afterReset.cfg s.afterReset.uart = true :=
  (legalQueues_iff _).2 ⟨Nat.zero_le _, Nat.zero_le _⟩

/-- The PLIC before the first reset holds nothing. -/
theorem legalPlic_empty : Plic.legal Config.default (Plic.reset []) = true := by decide

/-- Settles O59: the reset state is one reset of itself, so both halves are the reset lemmas of the three invariants. -/
theorem resetMeetsTheInvariants : Obligations.ResetMeetsTheInvariants := by
  have main (s : State) (hwf : s.cfg.wf = true) (hp : Plic.legal s.cfg s.plic = true) :
      s.afterReset.legalRegs = true ∧ Plic.legal s.afterReset.cfg s.afterReset.plic = true ∧
        Uart.legal s.afterReset.cfg s.afterReset.uart = true ∧ s.afterReset.coherent :=
    ⟨(legalRegs_iff _).2 (.afterReset hwf), (legalPlic_iff _ _).2 ((legalPlic_iff _ _).1 hp).reset,
      legalQueues_afterReset s, coherent_afterReset hwf⟩
  exact ⟨main State.reset default_wf legalPlic_empty, main⟩

end Sys2Proof.Machine
end

section
/-! SUPPORT. The PLIC's registers by command and by row: O31 to O35. -/

namespace Sys2Proof.Machine

open Sys2Proof

/-! ## Rows and commands

A PLIC command at the block's own base is the row access of the register its address names. -/

theorem exec_plicSetprio_eq (s : State) (src : Nat) (v : Word) :
    exec (.plicSetprio (BitVec.ofNat 32 src) v) s = exec (.regPlicPriority src (.write v)) s := by
  show execPlicSetprio _ v s = execRegPlicPriority src (.write v) s
  rw [execPlicSetprio, execRegPlicPriority, plicRowAccess]
  exact hostCommand_congr s (by rw [priorityAddress_eq]; rfl)

theorem exec_plicSetthr_eq (s : State) (c : Fin 2) (v : Word) :
    exec (.plicSetthr (BitVec.ofNat 32 c.val) v) s = exec (.regPlicThreshold c (.write v)) s := by
  show execPlicSetthr _ v s = execRegPlicThreshold c (.write v) s
  rw [execPlicSetthr, execRegPlicThreshold, plicRowAccess]
  exact hostCommand_congr s (by rw [thresholdAddress_eq]; rfl)

theorem exec_plicClaim_eq (s : State) (c : Fin 2) :
    exec (.plicClaim (BitVec.ofNat 32 c.val)) s = exec (.regPlicClaim c) s := by
  show execPlicClaim _ s = execRegPlicClaim c s
  rw [execPlicClaim, execRegPlicClaim, plicRowAccess]
  exact hostCommand_congr s (by rw [claimAddress_eq]; rfl)

theorem exec_plicComplete_eq (s : State) (c : Fin 2) (v : Word) :
    exec (.plicComplete (BitVec.ofNat 32 c.val) v) s = exec (.regPlicComplete c v) s := by
  show execPlicComplete _ v s = execRegPlicComplete c v s
  rw [execPlicComplete, execRegPlicComplete, plicRowAccess]
  exact hostCommand_congr s (by rw [claimAddress_eq]; rfl)

section

variable {s t : State} (hwf : s.cfg.wf = true) (h : hostReady s = true) {r : PlicReg} (hr : regExists s.cfg r)
include hwf h hr

/-- A permitted read of a row answers what the register reads as. -/
theorem plicRowAccess_read (hm : s.mayAccess (plicReg s (plicOffset s.cfg r)) .word .read = true) {x : Word}
    (hrow : rowRead s r = .ok x t) :
    plicRowAccess (fun cfg => plicOffset cfg r) .read s = .next (t.answer (some x) none) := by
  rw [plicRowAccess, hostCommand_ready h]
  simp only
  rw [memRead_row s hwf r hr hm, hrow]
  rfl

/-- A permitted write of a row does what a write of the register does. -/
theorem plicRowAccess_write (hm : s.mayAccess (plicReg s (plicOffset s.cfg r)) .word .write = true) {v : Word}
    (hrow : rowWrite s v r = .ok () t) :
    plicRowAccess (fun cfg => plicOffset cfg r) (.write v) s = .next (t.answer none none) := by
  rw [plicRowAccess, hostCommand_ready h]
  simp only
  rw [memWrite_row s v hwf r hr hm, hrow]
  rfl

end

/-! ## What the registers' events do -/

theorem setEnableWord_eq (p : Plic) (c : Fin 2) (w : Nat) (v : Word) : p.setEnableWord c w v =
    if c = 0 then { p with ctx0 := { p.ctx0 with enable := Tab.set 0 (p.ctx c).enable w v } }
    else { p with ctx1 := { p.ctx1 with enable := Tab.set 0 (p.ctx c).enable w v } } := by
  rcases fin2_cases c with rfl | rfl <;> rfl

theorem tab_enable_get (p : Plic) (c : Fin 2) (w : Nat) (v : Word) (j : Nat) :
    Tab.get 0 (Tab.set 0 (p.ctx c).enable w v) j = if j = w then v else p.enableWord c j := tab_get_set ..

theorem claim_of_none {s : State} {c : Fin 2} (h : best s c = none) : claim s c = (0, s) := by rw [claim, h]

theorem claim_of_some {s : State} {c : Fin 2} {src : Nat} (h : best s c = some src) :
    claim s c = (BitVec.ofNat 32 src, s.setPlic (s.plic.setGate src (.claimed c))) := by rw [claim, h]

theorem isSource_iff (cfg : Config) (n : Nat) : cfg.isSource n = true ↔ 1 ≤ n ∧ n < cfg.nsrc := by
  simp [Config.isSource]

/-- A completion of the context's own claim opens the gateway (R153). -/
theorem completion_of_claim {s : State} {c : Fin 2} {id : Word}
    (h : 1 ≤ id.toNat ∧ id.toNat < s.cfg.nsrc ∧ s.plic.gate id.toNat = .claimed c) :
    completion s c id = s.setPlic (s.plic.setGate id.toNat .open) :=
  if_pos ⟨(isSource_iff _ _).2 ⟨h.1, h.2.1⟩, h.2.2⟩

/-- Any other completion sets the flag (R153). -/
theorem completion_of_other {s : State} {c : Fin 2} {id : Word}
    (h : ¬(1 ≤ id.toNat ∧ id.toNat < s.cfg.nsrc ∧ s.plic.gate id.toNat = .claimed c)) :
    completion s c id = s.setFlags { s.flags with plicComplete := true } :=
  if_neg fun ⟨hsource, hgate⟩ => h ⟨((isSource_iff _ _).1 hsource).1, ((isSource_iff _ _).1 hsource).2, hgate⟩

/-! ## The obligations -/

/-- Settles O31: the row's write is `Plic.setPrio`, which leaves source 0 out. -/
theorem priorityRegisterStoresMasked : Obligations.PriorityRegisterStoresMasked := by
  intro s src v hwf h hsrc addr
  refine ⟨fun hm => ?_, fun hm => ?_⟩ <;> rw [show addr = _ from priority_reg s src] at hm
  · rw [exec_plicSetprio_eq]
    by_cases h0 : src = 0
    · have hexec := plicRowAccess_write hwf h (r := .priority src) hsrc hm (v := v) (congrArg (Res.ok ()) (if_pos h0))
      exact ⟨s.plic.priority, hexec, hexec, fun j => (if_neg fun hj => hj.2 h0).symm⟩
    · have hexec := plicRowAccess_write hwf h (r := .priority src) hsrc hm (v := v) (congrArg (Res.ok ()) (if_neg h0))
      refine ⟨_, hexec, hexec, fun j => ?_⟩
      simp only [h0, ne_eq, not_false_eq_true, and_true]
      exact tab_get_set ..
  · exact plicRowAccess_read hwf h (r := .priority src) hsrc hm rfl

/-- Settles O32. -/
theorem thresholdRegisterStoresMasked : Obligations.ThresholdRegisterStoresMasked := by
  intro s c v hwf h addr x p
  refine ⟨fun hm => ?_, fun hm => ?_⟩ <;> rw [show addr = _ from threshold_reg s c] at hm
  · rw [exec_plicSetthr_eq]
    have hexec := plicRowAccess_write hwf h (r := .threshold c) trivial hm (v := v) rfl
    exact ⟨hexec, hexec⟩
  · exact plicRowAccess_read hwf h (r := .threshold c) trivial hm rfl

/-- Settles O33: the words are read and written through the mask of the sources that exist. -/
theorem enableAndPendingWordsHoldSourceBits : Obligations.EnableAndPendingWordsHoldSourceBits := by
  intro s c w v hwf h hw pend en
  have hpend : pend = plicReg s (plicOffset s.cfg (.pending w)) := pending_reg s w
  have hen : en = plicReg s (plicOffset s.cfg (.enable c w)) := enable_reg s c w
  rw [hpend, hen]
  refine ⟨fun hm => ⟨pendingWord s w, ?_, getLsbD_pendingWord s w⟩, fun hm => ?_,
    fun hm => ⟨s.plic.enableWord c w &&& sourceMask s.cfg w, ?_, fun b hb => ?_⟩,
    fun hm => ⟨Tab.set 0 (s.plic.ctx c).enable w (v &&& sourceMask s.cfg w), ?_, fun w' hne => ?_, fun b hb => ?_⟩⟩
  · exact plicRowAccess_read hwf h (r := .pending w) hw hm rfl
  · exact plicRowAccess_write hwf h (r := .pending w) hw hm rfl
  · exact plicRowAccess_read hwf h (r := .enable c w) hw hm rfl
  · rw [BitVec.getLsbD_and, getLsbD_enableWord _ _ _ _ hb, getLsbD_sourceMask _ _ _ hb, Bool.and_comm]
  · rw [← setEnableWord_eq]
    exact plicRowAccess_write hwf h (r := .enable c w) hw hm rfl
  · rw [tab_enable_get, if_neg hne]
  · rw [tab_enable_get, if_pos rfl, BitVec.getLsbD_and, getLsbD_sourceMask _ _ _ hb, Bool.and_comm]

/-- Settles O34: both forms are the claim event. -/
theorem claimReturnsTheBestSource : Obligations.ClaimReturnsTheBestSource := by
  intro s c hwf h hm
  rw [claim_reg] at hm
  rw [exec_plicClaim_eq]
  have hexec := plicRowAccess_read hwf h (r := .claim c) trivial hm rfl
  refine ⟨fun hbest => ?_, fun src hbest => ?_⟩
  · rw [claim_of_none hbest] at hexec
    exact ⟨hexec, hexec⟩
  · rw [claim_of_some hbest] at hexec
    exact ⟨_, hexec, hexec, setGate_gate s.plic src (.claimed c)⟩

/-- Settles O35: both forms are the completion event. -/
theorem completionReleasesOnlyItsClaim : Obligations.CompletionReleasesOnlyItsClaim := by
  intro s c id hwf h hm
  rw [claim_reg] at hm
  rw [exec_plicComplete_eq]
  have hexec := plicRowAccess_write hwf h (r := .claim c) trivial hm (v := id) rfl
  refine ⟨fun hclaim => ?_, fun hother => ?_⟩
  · rw [completion_of_claim hclaim] at hexec
    exact ⟨_, hexec, hexec, setGate_gate s.plic id.toNat .open⟩
  · rw [completion_of_other hother] at hexec
    exact ⟨hexec, hexec⟩

end Sys2Proof.Machine
end

section
/-! SUPPORT. The dispatch FSM's service of an interrupt: the claim, the echo, the completion and the return, and its
denied accesses: O25, O26, O27, O28. -/

namespace Sys2Proof.Machine

open Sys2Proof

theorem inService_of_serving {s : State} {l : Ih} (h : s.serving [l] = true) : inService s l = true := by
  simpa [State.serving, inService] using h

/-- The dispatch FSM's claim word is the row of its context (R244, R249). -/
theorem claimAddress_dispCtx {s : State} {c : Fin 2} (hctx : s.dregs.ctx = BitVec.ofNat 32 c.val) :
    claimAddress s.cfg s.cfg.plicBase s.dregs.ctx = plicReg s (plicOffset s.cfg (.claim c)) := by
  rw [hctx]
  exact claimAddress_eq s.cfg c

/-! ## The claim -/

/-- A claim of nothing is reported `Z` and returns (R244). -/
theorem claimRoute_zero (s : State) : claimRoute s 0 = { s with
    sinkLog := s.sinkLog ++ [0x5A, 0, 0, 0, 0], dregs := { s.dregs with claimedId := 0, ih := .ret } } := by
  rw [claimRoute, if_pos rfl, report_eq]
  rfl

/-- A claimed source is reported `S` and served if it has a handler, reported `U` and completed if it has none (R244). -/
theorem claimRoute_source (s : State) {id : Word} (h0 : id ≠ 0) : claimRoute s id = { s with
    sinkLog := s.sinkLog ++ [if id.toNat ∈ s.cfg.echoSources then 0x53 else 0x55,
      id.extractLsb' 0 8, id.extractLsb' 8 8, id.extractLsb' 16 8, id.extractLsb' 24 8]
    dregs := { s.dregs with
      claimedId := id, ih := if id.toNat ∈ s.cfg.echoSources then .svcRxPoll else .complete } } := by
  rw [claimRoute, if_neg h0]
  simp only [Config.handler]
  by_cases hecho : id.toNat ∈ s.cfg.echoSources
  · rw [if_pos hecho]
    simp only [report_eq, if_pos hecho]
    rfl
  · rw [if_neg hecho]
    simp only [report_eq, if_neg hecho]
    rfl

section

variable {s : State} {c : Fin 2} (hwf : s.cfg.wf = true) (hctx : s.dregs.ctx = BitVec.ofNat 32 c.val)
include hwf hctx

/-- DISP.CLAIM with the access permitted (R244). -/
theorem exec_dispClaim_eq (hs : inService s .claim = true)
    (hm : s.mayAccess (plicReg s (plicOffset s.cfg (.claim c))) .word .read = true) :
    exec .dispClaim s = .next (claimRoute (claim s c).2 (claim s c).1) := by
  refine show execDispClaim s = _ from dispStep_eq hs ?_
  rw [claimAddress_dispCtx hctx, memRead_row s hwf (.claim c) trivial hm]
  rfl

/-- DISP.COMPLETE with the access permitted (R249). -/
theorem exec_dispComplete_eq (hs : inService s .complete = true)
    (hm : s.mayAccess (plicReg s (plicOffset s.cfg (.claim c))) .word .write = true) :
    exec .dispComplete s = .next (setIh (completion s c s.dregs.claimedId) .ret) := by
  refine show execDispComplete s = _ from dispStep_eq hs ?_
  rw [claimAddress_dispCtx hctx, memWrite_row s _ hwf (.claim c) trivial hm]
  rfl

end

/-- Settles O25: the access is the claim event, the report and the route are `claimRoute`. -/
theorem dispatchClaimsTheBestSource : Obligations.DispatchClaimsTheBestSource := by
  intro s c hwf hs hctx hm
  rw [claim_reg] at hm
  rw [exec_dispClaim_eq hwf hctx (inService_of_serving hs) hm]
  refine ⟨fun hbest => ?_, fun src hbest => ⟨_, ?_, setGate_gate s.plic src (.claimed c)⟩⟩
  · rw [claim_of_none hbest, claimRoute_zero]
  · obtain ⟨hpos, hlt, -⟩ := best_source hbest
    have hid : (BitVec.ofNat 32 src).toNat = src := by
      have := nsrc_lt hwf
      rw [BitVec.toNat_ofNat, Nat.mod_eq_of_lt (by omega)]
    have h0 : BitVec.ofNat 32 src ≠ 0 := fun h => by
      rw [h] at hid
      simp at hid
      omega
    rw [claim_of_some hbest, claimRoute_source _ h0, hid]
    rfl

/-! ## The echo service -/

section

variable {s : State} (hwf : s.cfg.wf = true)
include hwf

/-- DISP.RXPOLL with the access permitted (R245). -/
theorem exec_dispRxpoll_eq (hs : inService s .svcRxPoll = true)
    (hm : s.mayAccess (uartReg s 5) .byte .read = true) : exec .dispRxpoll s = .next { s with
      uart := { s.uart with err := 0 }
      dregs := { s.dregs with ih := if s.uart.rxFifo = [] then .svcRxPoll else .svcRxRead } } := by
  refine show execDispRxpoll s = _ from dispStep_eq hs ?_
  rw [uartLoad_lsr hwf hm]
  simp only [Res.andThen, lsr_data_ready]
  cases s.uart.rxFifo <;> rfl

/-- DISP.TXPOLL with the access permitted (R247). -/
theorem exec_dispTxpoll_eq (hs : inService s .svcTxPoll = true)
    (hm : s.mayAccess (uartReg s 5) .byte .read = true) : exec .dispTxpoll s = .next { s with
      uart := { s.uart with err := 0 }
      dregs := { s.dregs with ih := if s.uart.txFifo = [] then .svcTxWrite else .svcTxPoll } } := by
  refine show execDispTxpoll s = _ from dispStep_eq hs ?_
  rw [uartLoad_lsr hwf hm]
  simp only [Res.andThen, lsr_transmit_ready]
  cases s.uart.txFifo <;> rfl

/-- DISP.RXREAD with the access permitted and divisor access off (R246). -/
theorem exec_dispRxread_eq (hs : inService s .svcRxRead = true) (hl : s.uart.lcr.getLsbD 7 = false)
    (hm : s.mayAccess (uartReg s 0) .byte .read = true) : exec .dispRxread s = .next { (rbrRead s).2 with
      dregs := { s.dregs with
        dTxq := if (rbrRead s).1 = 0x0D ∨ (rbrRead s).1 = 0x0A then [0x0D, 0x0A] else [(rbrRead s).1]
        ih := .svcTxPoll } } := by
  refine show execDispRxread s = _ from dispStep_eq hs ?_
  rw [uartLoad_rbr hwf hm hl]
  simp only [Res.andThen, echo_bytes]
  rw [(rbr_frame s).2.1]
  rfl

/-- DISP.TXWRITE with a byte in the echo queue, the access permitted and divisor access off (R248). -/
theorem exec_dispTxwrite_eq (hs : inService s .svcTxWrite = true) (hl : s.uart.lcr.getLsbD 7 = false)
    (hm : s.mayAccess (uartReg s 0) .byte .write = true) {b : Byte} {rest : List Byte} (hq : s.dregs.dTxq = b :: rest) :
    exec .dispTxwrite s = .next { thrWrite s b with
      dregs := { s.dregs with dTxq := rest, ih := if rest = [] then .complete else .svcTxPoll } } := by
  show execDispTxwrite s = _
  rw [execDispTxwrite, if_pos hs, hq]
  refine dispStep_eq hs ?_
  rw [txWriteBody, uartStore_thr b hwf hm hl]
  simp only [Res.andThen, (thr_frame s b).2.1, List.isEmpty_iff]
  rfl

end

theorem rbrRead_cons {s : State} {b : Byte} {rest : List Byte} (hq : s.uart.rxFifo = b :: rest) :
    rbrRead s = (b, s.setUart { s.uart with rxFifo := rest }) := by rw [rbrRead, hq]

theorem rbrRead_nil {s : State} (hq : s.uart.rxFifo = []) : rbrRead s =
    (Config.freeByte s.draws, (s.setFlags { s.flags with uartRx := true }).setDraws (s.draws + 1)) := by rw [rbrRead, hq]

theorem thrWrite_of_room {s : State} {b : Byte} (h : s.uart.txFifo.length < s.uart.cap s.cfg) :
    thrWrite s b = s.setUart { s.uart with txFifo := s.uart.txFifo ++ [b], threIp := false } := if_pos h

theorem thrWrite_of_full {s : State} {b : Byte} (h : ¬s.uart.txFifo.length < s.uart.cap s.cfg) :
    thrWrite s b = s.setFlags { s.flags with uartTx := true } := if_neg h

/-- A refused body is a refused step. -/
theorem dispStep_refuse {s : State} {guard : Bool} {body : State → Res Unit} {r : Refusal} (hg : guard = true)
    (hb : body s = .refuse r) : dispStep s guard body = .refused r := by
  simp [dispStep, hg, hb]

/-- A body that raises is the double trap (60_exceptions.md R302). -/
theorem dispStep_raise {s : State} {guard : Bool} {body : State → Res Unit} {e : BitVec 31} (hg : guard = true)
    (hb : body s = .raise e) : dispStep s guard body = .next (doubleTrap s) := by
  simp [dispStep, hg, hb]

/-- A write of offsets 0 and 1 has no successor while divisor access is on (43_uart.md R181). -/
theorem uartStore_divisor {s : State} (o : Word) (v : Byte) (ho : o.toNat < 2) (hwf : s.cfg.wf = true)
    (hm : s.mayAccess (uartReg s o) .byte .write = true) (hl : s.uart.lcr.getLsbD 7 = true) :
    uartStore s o v = .refuse .uartDivisorLatch := by
  have h3 : (o.setWidth 3).toNat < 2 := by simp; omega
  rw [uartStore_eq s o v hwf (by omega) hm, uartRegWrite, if_pos ⟨hl, h3⟩]

/-- DISP.TXWRITE with a byte in the echo queue is the write's step. -/
theorem exec_dispTxwrite_body {s : State} (hs : inService s .svcTxWrite = true) (hq : s.dregs.dTxq ≠ []) :
    ∃ b rest, s.dregs.dTxq = b :: rest ∧
      exec .dispTxwrite s = dispStep s (inService s .svcTxWrite) (txWriteBody b rest) := by
  obtain ⟨b, rest, hcons⟩ := List.exists_cons_of_ne_nil hq
  refine ⟨b, rest, hcons, ?_⟩
  show execDispTxwrite s = _
  rw [execDispTxwrite, if_pos hs, hcons]

/-- Settles O26: the polls, the read and the write, each by its equation. -/
theorem echoServiceReadsAndWrites : Obligations.EchoServiceReadsAndWrites := by
  intro s hwf
  refine ⟨fun hm => ⟨fun hs => exec_dispRxpoll_eq hwf (inService_of_serving hs) hm,
    fun hs => exec_dispTxpoll_eq hwf (inService_of_serving hs) hm⟩, ?_, ?_⟩
  · intro hs hm echo
    replace hs := inService_of_serving hs
    refine ⟨fun hl => ?_, fun hl b rest hq => ?_, fun hl hq => ⟨Config.freeByte s.draws, s.draws + 1, ?_⟩⟩
    · refine show execDispRxread s = _ from dispStep_refuse hs ?_
      rw [uartLoad_divisor 0 (by decide) hwf hm hl]
      rfl
    · rw [exec_dispRxread_eq hwf hs hl hm, rbrRead_cons hq]
      rfl
    · rw [exec_dispRxread_eq hwf hs hl hm, rbrRead_nil hq]
      rfl
  · intro hs hm
    replace hs := inService_of_serving hs
    refine ⟨fun hq => ?_, fun hl hq => ?_, ?_⟩
    · show execDispTxwrite s = _
      rw [execDispTxwrite, if_pos hs, hq]
    · obtain ⟨b, rest, -, heq⟩ := exec_dispTxwrite_body hs hq
      refine heq.trans (dispStep_refuse hs ?_)
      rw [txWriteBody, uartStore_divisor 0 b (by decide) hwf hm hl]
      rfl
    · intro hl b rest hq d
      rw [exec_dispTxwrite_eq hwf hs hl hm hq]
      by_cases hroom : s.uart.txFifo.length < s.uart.cap s.cfg
      · rw [thrWrite_of_room hroom]
        exact congrArg Host.Outcome.next (if_pos hroom).symm
      · rw [thrWrite_of_full hroom]
        exact congrArg Host.Outcome.next (if_neg hroom).symm

/-! ## The completion and the return -/

/-- Settles O27: the completion event, and the return of the trap's mode. -/
theorem dispatchCompletesAndReturns : Obligations.DispatchCompletesAndReturns := by
  refine ⟨?_, ?_⟩
  · intro s c hwf hs hctx hm id
    rw [claim_reg] at hm
    rw [exec_dispComplete_eq hwf hctx (inService_of_serving hs) hm]
    refine ⟨fun hclaim => ⟨_, ?_, setGate_gate s.plic _ .open⟩, fun hother => ?_⟩
    · rw [completion_of_claim hclaim]
      rfl
    · rw [completion_of_other hother]
      rfl
  · intro s hs mpp
    have hret := inService_of_serving hs
    refine ⟨fun hm hmpp => ⟨_, _, _, exec_dispReturn_machine hret hm hmpp, fun j hj => getLsbD_mstatusMret _ j hj⟩,
      fun hm hspp => ⟨_, _, _, exec_dispReturn_supervisor hret hm hspp, fun j hj => getLsbD_mstatusSret _ j hj⟩, ?_⟩
    rintro (⟨hm, hmpp⟩ | ⟨hm, hspp⟩)
    · rw [exec_dispReturn_eq hret, hm, trapReturn, mretEffects_refuse hmpp]
    · rw [exec_dispReturn_eq hret, hm, trapReturn, sretEffects_refuse hspp]

/-! ## Denied accesses -/

/-- At S, with address translation off, a range in a window that protection denies is an access fault. -/
theorem accessGate_denied {s : State} {addr : Word} {n : Width} {k : AccKind} {w : Window}
    (hw : windowOf s.cfg addr n = some w) (hp : s.priv = .S) (hsatp : s.csr.satp.getLsbD 31 = false)
    (hdeny : pmpAllows s.csr .S addr n k = .deny) : accessGate s addr n k = .fault := by
  unfold accessGate
  rw [hw]
  simp only [hp, hsatp, hdeny, Bool.false_eq_true, and_false, if_false]

theorem memRead_denied {s : State} {addr : Word} {n : Width} (h : accessGate s addr n .read = .fault) :
    memRead s addr n = .raise excLoadFault := by
  unfold memRead
  rw [h]

theorem memWrite_denied {s : State} {addr v : Word} {n : Width} (h : accessGate s addr n .write = .fault) :
    memWrite s addr n v = .raise excStoreFault := by
  unfold memWrite
  rw [h]

section

variable {s : State} (hwf : s.cfg.wf = true) (hp : s.priv = .S) (hsatp : s.csr.satp.getLsbD 31 = false) {o : Word}
  (ho : o.toNat < 8)
include hwf hp hsatp ho

theorem uartLoad_denied (hdeny : pmpAllows s.csr .S (uartReg s o) .byte .read = .deny) :
    uartLoad s o = .raise excLoadFault :=
  memRead_denied (accessGate_denied (windowOf_uart hwf o ho) hp hsatp hdeny)

theorem uartStore_denied (hdeny : pmpAllows s.csr .S (uartReg s o) .byte .write = .deny) (v : Byte) :
    uartStore s o v = .raise excStoreFault :=
  memWrite_denied (accessGate_denied (windowOf_uart hwf o ho) hp hsatp hdeny)

end

/-- Settles O28: the access raises, and a dispatch step that raises is the double trap. -/
theorem deniedDispatchAccessHalts : Obligations.DeniedDispatchAccessHalts := by
  intro s c hwf hd hp hsatp hctx cc u e he hih hdeny hq
  have hs : inService s e.1 = true := (inService_iff s e.1).2 ⟨hd, hih⟩
  have hplic : windowOf s.cfg cc .word = some .plic := by
    rw [show cc = _ from claim_reg s c]
    exact windowOf_plic hwf _ (plicOffset_bounds hwf (.claim c) trivial).2
  have hcc : claimAddress s.cfg s.cfg.plicBase s.dregs.ctx = cc :=
    (claimAddress_dispCtx hctx).trans (claim_reg s c).symm
  simp only [List.mem_cons, List.not_mem_nil, or_false] at he
  rcases he with rfl | rfl | rfl | rfl | rfl | rfl
  · refine show execDispClaim s = _ from dispStep_raise (e := excLoadFault) hs ?_
    rw [hcc, memRead_denied (accessGate_denied hplic hp hsatp hdeny)]
    rfl
  · refine show execDispRxpoll s = _ from dispStep_raise (e := excLoadFault) hs ?_
    rw [uartLoad_denied hwf hp hsatp (o := 5) (by decide) hdeny]
    rfl
  · refine show execDispRxread s = _ from dispStep_raise (e := excLoadFault) hs ?_
    rw [uartLoad_denied hwf hp hsatp (o := 0) (by decide) hdeny]
    rfl
  · refine show execDispTxpoll s = _ from dispStep_raise (e := excLoadFault) hs ?_
    rw [uartLoad_denied hwf hp hsatp (o := 5) (by decide) hdeny]
    rfl
  · obtain ⟨b, rest, -, heq⟩ := exec_dispTxwrite_body hs (hq rfl)
    refine heq.trans (dispStep_raise (e := excStoreFault) hs ?_)
    rw [txWriteBody, uartStore_denied hwf hp hsatp (o := 0) (by decide) hdeny]
    rfl
  · refine show execDispComplete s = _ from dispStep_raise (e := excStoreFault) hs ?_
    rw [hcc, memWrite_denied (accessGate_denied hplic hp hsatp hdeny)]
    rfl

end Sys2Proof.Machine
end

section
/-! SUPPORT. Normal and trap context exclude each other, and `Halted` is left by reset alone: O29, O30. -/

namespace Sys2Proof.Machine

open Sys2Proof

/-- Outside normal context HOST, BOOT and TRAP stand still (10_state.md R49). -/
theorem exec_blocked_of_not_idle {i : Instr} {s : State} (hi : agentOf i ∈ [Agent.host, .boot, .trap])
    (hd : s.disp ≠ .idle) : exec i s = .next s := by
  simp only [List.mem_cons, List.not_mem_nil, or_false] at hi
  rcases hi with hhost | hboot | htrap
  · obtain ⟨body, hbody, -⟩ := host_step i hhost
    rw [hbody, hostCommand_blocked]
    rw [Bool.eq_false_iff]
    exact fun hr => hd ((hostReady_iff s).1 hr).2.1
  · obtain ⟨e, he, rfl⟩ := boot_label hboot
    exact exec_boot_blocked he (.inr hd)
  · cases i with
    | trapInt => exact exec_trapInt_busy hd
    | _ => cases htrap

theorem dispStep_of_guard_false {s : State} {guard : Bool} {body : State → Res Unit} (hg : guard = false) :
    dispStep s guard body = .next s := by rw [hg, dispStep_blocked]

/-- The step of a label of `InterruptHandling`. -/
def serviceInstr : Ih → Instr
  | .report => .dispIreport
  | .claim => .dispClaim
  | .svcRxPoll => .dispRxpoll
  | .svcRxRead => .dispRxread
  | .svcTxPoll => .dispTxpoll
  | .svcTxWrite => .dispTxwrite
  | .complete => .dispComplete
  | .ret => .dispReturn

theorem dispNext_service {s : State} (hd : s.disp = .interruptHandling) :
    dispNext s = some (serviceInstr s.dregs.ih) := by
  rw [dispNext, hd]
  simp only
  cases s.dregs.ih <;> rfl

theorem dispNext_of_inService {s : State} {l : Ih} (hs : inService s l = true) : dispNext s = some (serviceInstr l) := by
  obtain ⟨hd, rfl⟩ := (inService_iff s l).1 hs
  exact dispNext_service hd

/-- A DISP step that is not the enabled one changes nothing (45_trap_dispatch.md R240). -/
theorem exec_disp_blocked {i : Instr} {s : State} (hi : agentOf i = .disp) (h : dispNext s ≠ some i) :
    exec i s = .next s := by
  have hlabel (l : Ih) (hl : serviceInstr l = i) : inService s l = false :=
    Bool.eq_false_iff.2 fun hs => h (hl ▸ dispNext_of_inService hs)
  cases i with
  | dispRoute =>
    have hd : s.disp ≠ .decoding := fun hd => h (by rw [dispNext, hd])
    exact show execDispRoute s = _ from dispStep_of_guard_false (decide_eq_false hd)
  | dispFatal =>
    have hd : s.disp ≠ .exceptionFatal := fun hd => h (by rw [dispNext, hd])
    exact show execDispFatal s = _ from dispStep_of_guard_false (decide_eq_false hd)
  | dispIreport => exact show execDispIreport s = _ from dispStep_of_guard_false (hlabel .report rfl)
  | dispClaim => exact show execDispClaim s = _ from dispStep_of_guard_false (hlabel .claim rfl)
  | dispRxpoll => exact show execDispRxpoll s = _ from dispStep_of_guard_false (hlabel .svcRxPoll rfl)
  | dispRxread => exact show execDispRxread s = _ from dispStep_of_guard_false (hlabel .svcRxRead rfl)
  | dispTxpoll => exact show execDispTxpoll s = _ from dispStep_of_guard_false (hlabel .svcTxPoll rfl)
  | dispTxwrite => exact show execDispTxwrite s = _ from if_neg (by simp [hlabel .svcTxWrite rfl])
  | dispComplete => exact show execDispComplete s = _ from dispStep_of_guard_false (hlabel .complete rfl)
  | dispReturn => exact show execDispReturn s = _ from dispStep_of_guard_false (hlabel .ret rfl)
  | _ => cases hi

theorem dispNext_halted {s : State} (h : s.disp = .idle ∨ s.disp = .halted) : dispNext s = none := by
  rcases h with h | h <;> rw [dispNext, h]

/-- In every other state of the FSM one step of DISP is enabled (45_trap_dispatch.md R240). -/
theorem dispNext_enabled {s : State} (hidle : s.disp ≠ .idle) (hhalted : s.disp ≠ .halted) :
    ∃ i, dispNext s = some i ∧ agentOf i = .disp := by
  cases hd : s.disp with
  | idle => exact absurd hd hidle
  | halted => exact absurd hd hhalted
  | decoding => exact ⟨.dispRoute, by rw [dispNext, hd], rfl⟩
  | exceptionFatal => exact ⟨.dispFatal, by rw [dispNext, hd], rfl⟩
  | interruptHandling => exact ⟨_, dispNext_service hd, by cases s.dregs.ih <;> rfl⟩

/-- Settles O30. -/
theorem contextsExcludeEachOther : Obligations.ContextsExcludeEachOther := by
  refine fun s => ⟨fun hd => ⟨fun i hi => exec_blocked_of_not_idle hi hd, hostNext_blocked (.inr (.inr hd))⟩,
    fun hd i hi => exec_disp_blocked hi (by simp [dispNext_halted hd]), fun hidle hhalted => ?_⟩
  obtain ⟨i, hnext, hi⟩ := dispNext_enabled hidle hhalted
  exact ⟨i, hnext, hi, fun j hj hne => exec_disp_blocked hj (by rw [hnext]; simpa using hne.symm)⟩

/-- The steps of the devices and the environment, reset aside, go on and leave the control state, the flags and the
report alone. -/
theorem exec_device_step {i : Instr} (s : State) (hi : agentOf i ∈ [Agent.gw, .utx, .env]) (hne : i ≠ .reset) :
    ∃ t, exec i s = .next t ∧ controlOf t = controlOf s ∧ t.flags = s.flags ∧ t.sinkLog = s.sinkLog := by
  cases i with
  | plicGateway w =>
    show ∃ t, execPlicGateway w s = .next t ∧ _
    unfold execPlicGateway
    split <;> exact ⟨_, rfl, rfl, rfl, rfl⟩
  | uartTxload =>
    show ∃ t, execUartTxload s = .next t ∧ _
    unfold execUartTxload
    split <;> exact ⟨_, rfl, rfl, rfl, rfl⟩
  | uartTxemit =>
    show ∃ t, execUartTxemit s = .next t ∧ _
    unfold execUartTxemit
    split <;> exact ⟨_, rfl, rfl, rfl, rfl⟩
  | pinLine w b =>
    show ∃ t, execPinLine w b s = .next t ∧ _
    unfold execPinLine
    split <;> exact ⟨_, rfl, rfl, rfl, rfl⟩
  | uartRxarrive b pe fe bi => exact ⟨_, rfl, rfl, rfl, rfl⟩
  | uartModem v => exact ⟨_, rfl, rfl, rfl, rfl⟩
  | pinMtip b => exact ⟨_, rfl, rfl, rfl, rfl⟩
  | pinMsip b => exact ⟨_, rfl, rfl, rfl, rfl⟩
  | reset => exact absurd rfl hne
  | _ => simp [agentOf] at hi

/-- Settles O29: the control agents are blocked, and the others leave the control state. -/
theorem haltedIsLeftOnlyByReset : Obligations.HaltedIsLeftOnlyByReset := by
  intro s hd
  have hidle : s.disp ≠ .idle := by simp [hd]
  have hblocked (i : Instr) (hi : agentOf i ∈ [Agent.host, .boot, .trap, .disp]) : exec i s = .next s := by
    by_cases hdisp : agentOf i = .disp
    · exact exec_disp_blocked hdisp (by simp [dispNext_halted (.inr hd)])
    · exact exec_blocked_of_not_idle (by simpa [hdisp] using hi) hidle
  refine ⟨hblocked, hostNext_blocked (.inr (.inr hidle)), fun i hne => ?_⟩
  by_cases hi : agentOf i ∈ [Agent.host, .boot, .trap, .disp]
  · exact ⟨s, hblocked i hi, hd, rfl, rfl, rfl, rfl, rfl, rfl, rfl, rfl⟩
  · have hdevice : agentOf i ∈ [Agent.gw, .utx, .env] := by
      revert hi
      cases agentOf i <;> simp
    obtain ⟨t, ht, hcontrol, hflags, hlog⟩ := exec_device_step s hdevice hne
    obtain ⟨hpc, hpriv, hcsr, hdisp, hdregs, hboot, hseq, -⟩ := (controlOf_eq_iff s t).1 hcontrol
    exact ⟨t, ht, hdisp.trans hd, hpc, hpriv, hcsr, hboot, hseq, hflags, hlog, hdregs⟩

end Sys2Proof.Machine
end

section
/-! SUPPORT. What every step keeps: the pc and the mode between their events, the sticky flags and the histories, and the
protocol of the dispatch FSM: O54, O55, O60. -/

namespace Sys2Proof.Machine

open Sys2Proof

/-! ## The pc and the mode -/

/-- What trap entry does to the pc and the mode (60_exceptions.md R294). -/
def Trapped (s t : State) : Prop :=
  s.disp = .idle ∧ t.disp = .decoding ∧
    (t.priv = .M ∧ t.pc = s.csr.mtvec ∧ t.csr.mepc = s.pc ∨
      t.priv = .S ∧ s.priv = .S ∧ t.pc = s.csr.stvec ∧ t.csr.sepc = s.pc)

theorem trapEnter_trapped {s t : State} {isInt : Bool} {code : BitVec 31} (hd : s.disp = .idle)
    (hfrom : trapDest s isInt code = .S → s.priv = .S) (h : trapEnter s isInt code = .next t) : Trapped s t := by
  rcases trapEnter_cases h with ⟨-, -, rfl⟩ | ⟨hdest, -, rfl⟩
  · exact ⟨hd, rfl, .inl ⟨rfl, rfl, rfl⟩⟩
  · exact ⟨hd, rfl, .inr ⟨rfl, hfrom hdest, rfl, rfl⟩⟩

/-- An exception is delegated at S alone (60_exceptions.md R304). -/
theorem priv_of_trapDest_exception {s : State} {code : BitVec 31} (h : trapDest s false code = .S) : s.priv = .S := by
  rw [trapDest, if_neg (by simp)] at h
  split at h
  · next hp => exact hp.1
  · cases h

theorem raise_trapped {s t : State} {e : BitVec 31} (hd : s.disp = .idle) (h : raiseException s e = .next t) :
    Trapped s t :=
  trapEnter_trapped (s := { s with hseq := none, r0 := none, r1 := none }) hd priv_of_trapDest_exception h

theorem mem_pc_priv {s t : State} (h : MemEffect s t) : t.pc = s.pc ∧ t.priv = s.priv := by
  rw [MemEffect_frame h]
  exact ⟨rfl, rfl⟩

theorem claimRoute_pc_priv (s : State) (id : Word) : (claimRoute s id).pc = s.pc ∧ (claimRoute s id).priv = s.priv := by
  rw [claimRoute_frame]
  exact ⟨rfl, rfl⟩

/-- What an instruction does to the pc and the mode (10_state.md R22, R23; 60_exceptions.md R307). -/
theorem exec_pc_priv {i : Instr} {s t : State} (h : exec i s = .next t) :
    (t.pc = s.pc ∧ t.priv = s.priv) ∨ Trapped s t ∨
    (i ∈ [Instr.mret, .bootB6, .dispReturn] ∧ t.pc = s.csr.mepc) ∨
    (i ∈ [Instr.sret, .dispReturn] ∧ t.pc = s.csr.sepc ∧ t.priv = .S) ∨
    (i = .hartSetpc t.pc ∧ t.priv = s.priv) ∨ (i = .reset ∧ t.pc = s.cfg.resetEntry ∧ t.priv = .M) := by
  cases exec_shape h with
  | host hr hi u a hu =>
    cases hu with
    | mem u hm => exact .inl (mem_pc_priv hm :)
    | memSeq u q hm => exact .inl (mem_pc_priv hm :)
    | mret t hi hp hm =>
      obtain ⟨-, rfl⟩ := mretEffects_cases hm
      exact .inr (.inr (.inl ⟨by simp [hi], rfl⟩))
    | sret t hi hm =>
      obtain ⟨-, rfl⟩ := sretEffects_cases hm
      exact .inr (.inr (.inr (.inl ⟨by simp [hi], rfl, rfl⟩)))
    | pc a hi ha => exact .inr (.inr (.inr (.inr (.inl ⟨hi, rfl⟩))))
    | _ => exact .inl ⟨rfl, rfl⟩
  | raised hr hi e t he => exact .inr (.inl (raise_trapped ((hostReady_iff s).1 hr).2.1 he))
  | boot6 hi hb hd u hu =>
    obtain ⟨-, rfl⟩ := mretEffects_cases hu
    exact .inr (.inr (.inl ⟨by simp [hi], rfl⟩))
  | interrupt hi hd k hk t ht => exact .inr (.inl (trapEnter_trapped hd (from_supervisor_of_trapDest hk) ht))
  | claim hi hs id u hu =>
    obtain ⟨hpc, hpriv⟩ := mem_pc_priv (memRead_effect hu)
    exact .inl ⟨(claimRoute_pc_priv u id).1.trans hpc, (claimRoute_pc_priv u id).2.trans hpriv⟩
  | rxpoll hi hs l u hu => exact .inl (mem_pc_priv (memRead_effect hu) :)
  | rxread hi hs l u hu => exact .inl (mem_pc_priv (memRead_effect hu) :)
  | txpoll hi hs l u hu => exact .inl (mem_pc_priv (memRead_effect hu) :)
  | txwrite hi hs b rest hq u hu => exact .inl (mem_pc_priv (memWrite_effect hu) :)
  | complete hi hs u hu => exact .inl (mem_pc_priv (memWrite_effect hu) :)
  | ret hi hs u hu =>
    rcases hu with ⟨-, hu⟩ | ⟨-, hu⟩
    · obtain ⟨-, rfl⟩ := mretEffects_cases hu
      exact .inr (.inr (.inl ⟨by simp [hi], rfl⟩))
    · obtain ⟨-, rfl⟩ := sretEffects_cases hu
      exact .inr (.inr (.inr (.inl ⟨by simp [hi], rfl, rfl⟩)))
  | reset hi => exact .inr (.inr (.inr (.inr (.inr ⟨hi, rfl, rfl⟩))))
  | _ => exact .inl ⟨rfl, rfl⟩

/-- Settles O54. -/
theorem pcAndModeChangeOnlyByTheirEvents : Obligations.PcAndModeChangeOnlyByTheirEvents := by
  refine fun s t => ⟨fun i h => exec_pc_priv h, fun h => ?_⟩
  rcases hostNext_cases h with rfl | ⟨-, hd, ⟨u, q, a, hm, rfl⟩ | ⟨e, he⟩⟩
  · exact .inl ⟨rfl, rfl⟩
  · exact .inl (mem_pc_priv hm :)
  · exact .inr (raise_trapped hd he)

/-! ## The histories -/

/-- What grows until reset: the bootstrap's end, the sticky flags and the byte histories (10_state.md R50, R52, R53). -/
structure Grows (s t : State) : Prop where
  boot : s.boot = .done → t.boot = .done
  plicComplete : s.flags.plicComplete = true → t.flags.plicComplete = true
  uartTx : s.flags.uartTx = true → t.flags.uartTx = true
  uartRx : s.flags.uartRx = true → t.flags.uartRx = true
  doubleTrap : s.flags.doubleTrap = true → t.flags.doubleTrap = true
  sink : ∃ a, t.sinkLog = s.sinkLog ++ a
  tx : ∃ a, t.txLog = s.txLog ++ a

theorem Grows.trans {s t u : State} (h : Grows s t) (h' : Grows t u) : Grows s u where
  boot hb := h'.boot (h.boot hb)
  plicComplete hf := h'.plicComplete (h.plicComplete hf)
  uartTx hf := h'.uartTx (h.uartTx hf)
  uartRx hf := h'.uartRx (h.uartRx hf)
  doubleTrap hf := h'.doubleTrap (h.doubleTrap hf)
  sink := by
    obtain ⟨a, ha⟩ := h.sink
    obtain ⟨b, hb⟩ := h'.sink
    exact ⟨a ++ b, by rw [hb, ha, List.append_assoc]⟩
  tx := by
    obtain ⟨a, ha⟩ := h.tx
    obtain ⟨b, hb⟩ := h'.tx
    exact ⟨a ++ b, by rw [hb, ha, List.append_assoc]⟩

/-- A step that leaves the flags and the transmitted bytes, and reports some bytes. -/
theorem Grows.of_report {s t : State} (hb : s.boot = .done → t.boot = .done) (hf : t.flags = s.flags)
    (htx : t.txLog = s.txLog) (hsink : ∃ a, t.sinkLog = s.sinkLog ++ a) : Grows s t :=
  ⟨hb, hf ▸ id, hf ▸ id, hf ▸ id, hf ▸ id, hsink, [], by rw [htx, List.append_nil]⟩

/-- A step that leaves the flags and the histories. -/
theorem Grows.of_frame {s t : State} (hb : s.boot = .done → t.boot = .done) (hf : t.flags = s.flags)
    (htx : t.txLog = s.txLog) (hsink : t.sinkLog = s.sinkLog) : Grows s t :=
  .of_report hb hf htx ⟨[], by rw [hsink, List.append_nil]⟩

/-- A step that sets a flag at most. -/
theorem Grows.of_flags {s : State} {f : FaultFlags} (h1 : s.flags.plicComplete = true → f.plicComplete = true)
    (h2 : s.flags.uartTx = true → f.uartTx = true) (h3 : s.flags.uartRx = true → f.uartRx = true)
    (h4 : s.flags.doubleTrap = true → f.doubleTrap = true) : Grows s (s.setFlags f) :=
  ⟨id, h1, h2, h3, h4, ⟨[], (List.append_nil _).symm⟩, ⟨[], (List.append_nil _).symm⟩⟩

theorem Grows.mem {s t : State} (h : MemEffect s t) : Grows s t := by
  cases h with
  | badComplete c v h => exact .of_flags (fun _ => rfl) id id id
  | takeEmpty h =>
    exact ⟨id, id, id, fun _ => rfl, id, ⟨[], (List.append_nil _).symm⟩, ⟨[], (List.append_nil _).symm⟩⟩
  | putFull h => exact .of_flags id (fun _ => rfl) id id
  | _ => exact .of_frame id rfl rfl rfl

theorem Grows.trapEnter {s t : State} {isInt : Bool} {code : BitVec 31} (h : trapEnter s isInt code = .next t) :
    Grows s t := by
  rcases trapEnter_cases h with ⟨-, -, rfl⟩ | ⟨-, -, rfl⟩ <;> exact .of_frame id rfl rfl rfl

theorem Grows.raise {s t : State} {e : BitVec 31} (h : raiseException s e = .next t) : Grows s t :=
  (Grows.of_frame id rfl rfl rfl : Grows s { s with hseq := none, r0 := none, r1 := none }).trans (.trapEnter h)

theorem Grows.mret {s t : State} (h : mretEffects s = .ok () t) : Grows s t := by
  obtain ⟨-, rfl⟩ := mretEffects_cases h
  exact .of_frame id rfl rfl rfl

theorem Grows.sret {s t : State} (h : sretEffects s = .ok () t) : Grows s t := by
  obtain ⟨-, rfl⟩ := sretEffects_cases h
  exact .of_frame id rfl rfl rfl

theorem Grows.host {i : Instr} {s t : State} (h : HostEffect i s t) : Grows s t := by
  cases h with
  | mem u hm => exact .mem hm
  | memSeq u q hm => exact (Grows.mem hm).trans (.of_frame id rfl rfl rfl)
  | mret t hi hp hm => exact .mret hm
  | sret t hi hm => exact .sret hm
  | _ => exact .of_frame id rfl rfl rfl

theorem Grows.claimRoute (s : State) (w : Word) : Grows s (claimRoute s w) := by
  obtain ⟨tag, v, l, hroute, -⟩ := claimRoute_eq s w
  rw [hroute]
  exact .of_report id rfl rfl ⟨_, rfl⟩

/-- Every instruction but reset lets the histories grow. -/
theorem exec_grows {i : Instr} {s t : State} (h : exec i s = .next t) : t = s.afterReset ∨ Grows s t := by
  have dregs {u : State} (hu : MemEffect s u) (d : DispRegs) : Grows s (u.setDregs d) :=
    (Grows.mem hu).trans (.of_frame id rfl rfl rfl)
  cases exec_shape h with
  | host hr hi u a hu => exact .inr ((Grows.host hu).trans (.of_frame id rfl rfl rfl))
  | raised hr hi e t he => exact .inr (.raise he)
  | boot0 hi hb hd => exact .inr (.of_frame (by simp [hb]) rfl rfl rfl)
  | boot1 hi hb hd => exact .inr (.of_frame (by simp [hb]) rfl rfl rfl)
  | boot2 hi hb hd => exact .inr (.of_frame (by simp [hb]) rfl rfl rfl)
  | boot3 hi hb hd => exact .inr (.of_frame (by simp [hb]) rfl rfl rfl)
  | boot4 hi hb hd => exact .inr (.of_frame (by simp [hb]) rfl rfl rfl)
  | boot5 hi hb hd => exact .inr (.of_frame (by simp [hb]) rfl rfl rfl)
  | boot6 hi hb hd u hu => exact .inr ((Grows.mret hu).trans (.of_frame (fun _ => rfl) rfl rfl rfl))
  | interrupt hi hd k hk t ht => exact .inr (.trapEnter ht)
  | fatal hi hd => exact .inr (.of_report id rfl rfl ⟨_, rfl⟩)
  | ireport hi hs d hd => exact .inr (.of_report id rfl rfl ⟨_, rfl⟩)
  | claim hi hs w u hu => exact .inr ((Grows.mem (memRead_effect hu)).trans (.claimRoute u w))
  | rxpoll hi hs l u hu => exact .inr (dregs (memRead_effect hu) _)
  | rxread hi hs l u hu => exact .inr (dregs (memRead_effect hu) _)
  | txpoll hi hs l u hu => exact .inr (dregs (memRead_effect hu) _)
  | txwrite hi hs b rest hq u hu => exact .inr (dregs (memWrite_effect hu) _)
  | complete hi hs u hu => exact .inr (dregs (memWrite_effect hu) _)
  | ret hi hs u hu =>
    rcases hu with ⟨-, hu⟩ | ⟨-, hu⟩
    · exact .inr ((Grows.mret hu).trans (.of_frame id rfl rfl rfl))
    · exact .inr ((Grows.sret hu).trans (.of_frame id rfl rfl rfl))
  | double hi hd =>
    exact .inr ⟨id, id, id, id, fun _ => rfl, ⟨[], (List.append_nil _).symm⟩, ⟨[], (List.append_nil _).symm⟩⟩
  | txemit hi b hb => exact .inr ⟨id, id, id, id, id, ⟨[], (List.append_nil _).symm⟩, ⟨[b], rfl⟩⟩
  | reset hi => exact .inl rfl
  | _ => exact .inr (.of_frame id rfl rfl rfl)

theorem hostNext_grows {s t : State} (h : hostNext s = .next t) : Grows s t := by
  rcases hostNext_cases h with rfl | ⟨-, -, ⟨u, q, a, hm, rfl⟩ | ⟨e, he⟩⟩
  · exact .of_frame id rfl rfl rfl
  · exact (Grows.mem hm).trans (.of_frame id rfl rfl rfl)
  · exact .raise he

/-- Settles O55. -/
theorem historiesOnlyGrow : Obligations.HistoriesOnlyGrow := by
  intro s t h
  have hcfg : t.cfg = s.cfg := by
    rcases h with ⟨i, hi⟩ | hn
    · exact exec_cfg hi
    · exact hostNext_cfg hn
  have hgrows : t = s.afterReset ∨ Grows s t := by
    rcases h with ⟨i, hi⟩ | hn
    · exact exec_grows hi
    · exact .inr (hostNext_grows hn)
  exact ⟨hcfg, hgrows.imp_right fun ⟨hb, hp, htx, hrx, hdt, hsink, hlog⟩ => ⟨hb, hp, htx, hrx, hdt, hsink, hlog⟩⟩

/-! ## The protocol of the dispatch FSM -/

/-- Every queue holds at least one byte (10_state.md R46). -/
theorem cap_pos {s : State} (hwf : s.cfg.wf = true) (u : Uart) : 0 < u.cap s.cfg := by
  have hdepth : 1 ≤ s.cfg.uartFifoDepth := by have := wf_facts hwf; tauto
  unfold Uart.cap
  split <;> omega

/-- The protocol flags of a state (10_state.md R52), the double trap aside. -/
def protocolFlags (s : State) : Bool × Bool × Bool := (s.flags.plicComplete, s.flags.uartTx, s.flags.uartRx)

theorem claim_flags (s : State) (c : Fin 2) : (claim s c).2.flags = s.flags := by
  cases hb : best s c with
  | none => rw [claim_of_none hb]
  | some src => rw [claim_of_some hb]; rfl

/-- From a coherent state no step of the dispatch FSM sets a protocol flag. -/
theorem disp_keeps_protocolFlags {i : Instr} {s t : State} (h : s.coherent) (hi : agentOf i = .disp)
    (ht : exec i s = .next t) : protocolFlags t = protocolFlags s := by
  have same {u : State} (hu : u.flags = s.flags) : protocolFlags u = protocolFlags s := by
    rw [protocolFlags, hu]
    rfl
  cases exec_shape ht with
  | host hr hhost => rw [hhost] at hi; cases hi
  | raised hr hhost => rw [hhost] at hi; cases hi
  | claim hd hs w u hu =>
    obtain ⟨hin, -, hc⟩ := h.inService hs
    obtain ⟨-, rfl⟩ := claim_word_read hin.wf _ hc.index hu
    exact same ((congrArg State.flags (claimRoute_frame _ w)).trans (claim_flags s _))
  | rxpoll hd hs l u hu =>
    obtain ⟨-, rfl⟩ := lsr_read h.1 hu
    rfl
  | txpoll hd hs l u hu =>
    obtain ⟨-, rfl⟩ := lsr_read h.1 hu
    rfl
  | rxread hd hs l u hu =>
    obtain ⟨-, -, -, -, hne⟩ := h.inService hs
    obtain ⟨b, rest, hq⟩ := List.exists_cons_of_ne_nil hne
    obtain ⟨-, rfl⟩ := rbr_read h.1 hu
    rw [rbrRead_cons hq]
    rfl
  | txwrite hd hs b rest hq u hu =>
    obtain ⟨-, -, -, -, -, hempty⟩ := h.inService hs
    have hroom : s.uart.txFifo.length < s.uart.cap s.cfg := by rw [hempty]; exact cap_pos h.1 _
    rw [thr_write h.1 hu, thrWrite_of_room hroom]
    rfl
  | complete hd hs u hu =>
    obtain ⟨-, -, hc, hsource, hgate⟩ := h.inService hs
    rw [claimAddress_dispCtx hc.index] at hu
    rw [memWrite_row s _ h.1 (.claim _) trivial (memWrite_mayAccess hu)] at hu
    obtain ⟨hpos, hlt⟩ := (isSource_iff _ _).1 hsource
    have hdone : Res.ok () (completion s _ s.dregs.claimedId) = Res.ok () u := hu
    rw [completion_of_claim ⟨hpos, hlt, hgate⟩] at hdone
    obtain ⟨-, rfl⟩ := Res.ok.inj hdone
    rfl
  | ret hd hs u hu =>
    rcases hu with ⟨-, hu⟩ | ⟨-, hu⟩
    · obtain ⟨-, rfl⟩ := mretEffects_cases hu
      rfl
    · obtain ⟨-, rfl⟩ := sretEffects_cases hu
      rfl
  | boot6 hb => subst hb; cases hi
  | interrupt htrap => subst htrap; cases hi
  | reset hreset => subst hreset; cases hi
  | _ => rfl

/-- The return of a coherent trap is never refused (R250). -/
theorem exec_dispReturn_of_coherent {s : State} (h : s.coherent) (hs : inService s .ret = true) :
    ∃ t, exec .dispReturn s = .next t ∧ t.disp = .idle := by
  obtain ⟨hin, -, -⟩ := h.inService hs
  have hret := hin.regs.returnable
  cases hm : s.dregs.trapMode with
  | M => rw [hm] at hret; exact ⟨_, exec_dispReturn_machine hs hm hret, rfl⟩
  | S => rw [hm] at hret; exact ⟨_, exec_dispReturn_supervisor hs hm hret, rfl⟩

theorem hostFinish_no_fault (s : State) (r : Res Answer) (f : Fault) : hostFinish s r ≠ .fault f := by
  cases r with
  | ok a t => simp [hostFinish]
  | raise e => exact trapEnter_no_fault _ _ _ f
  | refuse r => simp [hostFinish]

theorem bootStep_no_fault (s : State) (label next : Boot) (body : State → Res Unit) (f : Fault) :
    bootStep s label next body ≠ .fault f := by
  unfold bootStep
  split
  · split
    · simp
    · exact trapEnter_no_fault _ _ _ f
    · simp
  · simp

theorem dispStep_no_fault (s : State) (guard : Bool) (body : State → Res Unit) (f : Fault) :
    dispStep s guard body ≠ .fault f := by
  unfold dispStep
  split
  · split <;> simp
  · simp

/-- Each DISP step but the echo's write is `dispStep` under its own guard. -/
theorem exec_disp_eq {i : Instr} (hi : agentOf i = .disp) (hne : i ≠ .dispTxwrite) (s : State) :
    ∃ guard body, exec i s = dispStep s guard body := by
  cases i with
  | dispRoute => exact ⟨_, _, show execDispRoute s = _ from rfl⟩
  | dispFatal => exact ⟨_, _, show execDispFatal s = _ from rfl⟩
  | dispIreport => exact ⟨_, _, show execDispIreport s = _ from rfl⟩
  | dispClaim => exact ⟨_, _, show execDispClaim s = _ from rfl⟩
  | dispRxpoll => exact ⟨_, _, show execDispRxpoll s = _ from rfl⟩
  | dispRxread => exact ⟨_, _, show execDispRxread s = _ from rfl⟩
  | dispTxpoll => exact ⟨_, _, show execDispTxpoll s = _ from rfl⟩
  | dispTxwrite => exact absurd rfl hne
  | dispComplete => exact ⟨_, _, show execDispComplete s = _ from rfl⟩
  | dispReturn => exact ⟨_, _, show execDispReturn s = _ from rfl⟩
  | _ => cases hi

theorem exec_trapInt_no_fault (s : State) (f : Fault) : exec .trapInt s ≠ .fault f := by
  show execTrapInt s ≠ _
  unfold execTrapInt
  split
  · split
    · exact trapEnter_no_fault _ _ _ f
    · simp
  · simp

/-- The write of the echo finds a byte in its queue (R248). -/
theorem exec_dispTxwrite_no_fault {s : State} (h : s.coherent) (f : Fault) : exec .dispTxwrite s ≠ .fault f := by
  by_cases hs : inService s .svcTxWrite = true
  · obtain ⟨-, -, -, -, hqueue, -⟩ := h.inService hs
    obtain ⟨b, rest, -, heq⟩ := exec_dispTxwrite_body hs hqueue.1
    rw [heq]
    exact dispStep_no_fault _ _ _ f
  · rw [show exec .dispTxwrite s = .next s from show execDispTxwrite s = _ from if_neg hs]
    simp

/-- No step of a coherent state meets the model's fault (log 17), agent by agent. -/
theorem exec_no_fault_of_coherent {s : State} (h : s.coherent) (i : Instr) (f : Fault) : exec i s ≠ .fault f := by
  cases hi : agentOf i with
  | host =>
    obtain ⟨body, hbody, -⟩ := host_step i hi
    rw [hbody, hostCommand]
    split
    · exact hostFinish_no_fault _ _ f
    · simp
  | boot =>
    obtain ⟨e, he, rfl⟩ := boot_label hi
    obtain ⟨next, body, heq⟩ := exec_boot_eq he s
    rw [heq]
    exact bootStep_no_fault _ _ _ _ f
  | trap =>
    cases i with
    | trapInt => exact exec_trapInt_no_fault s f
    | _ => cases hi
  | disp =>
    by_cases htx : i = .dispTxwrite
    · subst htx
      exact exec_dispTxwrite_no_fault h f
    · obtain ⟨guard, body, heq⟩ := exec_disp_eq hi htx s
      rw [heq]
      exact dispStep_no_fault _ _ _ f
  | gw | utx | env =>
    by_cases hreset : i = .reset
    · subst hreset
      exact fun hf : Host.Outcome.next s.afterReset = .fault f => by cases hf
    · obtain ⟨t, ht, -⟩ := exec_device_step s (by simp [hi]) hreset
      simp [ht]

/-- Settles O60. -/
theorem coherentDispatchBreaksNoProtocol : Obligations.CoherentDispatchBreaksNoProtocol := by
  refine fun s h => ⟨fun i t hi ht => ?_, fun hs => exec_dispReturn_of_coherent h (inService_of_serving hs), exec_no_fault_of_coherent h⟩
  simpa [protocolFlags] using disp_keeps_protocolFlags h hi ht

end Sys2Proof.Machine
end

section
/-! SUPPORT. The gateways: a source pends by its gateway alone and a claim ends by its own completion: O37, O38. -/

namespace Sys2Proof.Machine

open Sys2Proof

/-! ## Pending -/

theorem gatewayReady_iff (s : State) (src : Nat) : gatewayReady s src = true ↔
    (1 ≤ src ∧ src < s.cfg.nsrc) ∧ s.plic.gate src = .open ∧ lineHigh s src = true := by
  simp only [gatewayReady, Bool.and_eq_true, decide_eq_true_eq, isSource_iff, and_assoc]

/-- No memory access makes a source pending. -/
theorem mem_gate_pending {s t : State} (h : MemEffect s t) {src : Nat} (hp : t.plic.gate src = .pending) :
    s.plic.gate src = .pending := by
  rcases mem_gate h src with hsame | ⟨c, hc, -⟩ | ⟨hopen, -⟩
  · exact hsame ▸ hp
  · rw [hc] at hp; cases hp
  · rw [hopen] at hp; cases hp

/-- Settles O37: the gateway's step is its guard; every other step's PLIC is that of one memory access, of a line or of
reset. -/
theorem sourcePendsOnlyByItsGateway : Obligations.SourcePendsOnlyByItsGateway := by
  refine ⟨?_, fun i s t src h hp => ?_, fun s t src h hp => ?_⟩
  · intro s src line
    refine ⟨fun hpos hlt hopen hline => ⟨_, ?_, setGate_gate s.plic src.toNat .pending⟩, fun hclosed => ?_⟩
    · exact show execPlicGateway src s = _ from if_pos ((gatewayReady_iff s _).2 ⟨⟨hpos, hlt⟩, hopen, hline⟩)
    · refine show execPlicGateway src s = _ from if_neg fun hready => ?_
      obtain ⟨-, hopen, hline⟩ := (gatewayReady_iff s _).1 hready
      rcases hclosed with hne | hlow
      · exact hne hopen
      · exact Bool.false_ne_true (hlow.symm.trans hline)
  · rcases exec_plic h with ⟨u, hu, heq⟩ | ⟨w, rfl, hready, heq⟩ | ⟨w, b, -, -, heq⟩ | rfl
    · exact .inl (mem_gate_pending hu (heq ▸ hp))
    · rw [heq, setGate_gate] at hp
      split at hp
      · next hsrc => exact .inr ⟨w, rfl, hsrc.symm, hsrc ▸ ((gatewayReady_iff s _).1 hready).2.1⟩
      · exact .inl hp
    · rw [heq, setExt_gate] at hp
      exact .inl hp
    · cases hp
  · obtain ⟨u, hu, heq⟩ := hostNext_plic h
    exact mem_gate_pending hu (heq ▸ hp)

/-! ## Claims -/

/-- Every claim of `s` stands in `t`. -/
def ClaimsKept (s t : State) : Prop :=
  ∀ (src : Nat) (c : Fin 2), s.plic.gate src = .claimed c → t.plic.gate src = .claimed c

theorem ClaimsKept.of_plic {s t : State} (h : t.plic = s.plic) : ClaimsKept s t := fun _ _ hg => by rw [h, hg]

theorem ClaimsKept.read {s t u : State} {a w : Word} {n : Width} (h : memRead s a n = .ok w u) (ht : t.plic = u.plic) :
    ClaimsKept s t := fun _ _ hg => by rw [ht]; exact memRead_claimed h hg

theorem gate_shape {s : State} {a : Word} {n : Width} {k : AccKind} {w : Window} (h : accessGate s a n k = .pass w) :
    shapeOk w a n = true := by
  unfold accessGate at h
  split at h
  · cases h
  · split at h
    · cases h
    · split at h
      · cases h
      · cases h
      · split at h
        · next hok => cases h; exact hok
        · cases h

/-- A byte is written to the UART alone: the PLIC takes words (20_memory.md R68). -/
theorem memWrite_byte_plic {s t : State} {a v : Word} (h : memWrite s a .byte v = .ok () t) : t.plic = s.plic := by
  unfold memWrite at h
  split at h
  · cases h
  · cases h
  · exact uartRegWrite_plic h
  · next hgate => exact absurd (gate_shape hgate) (by simp [shapeOk])

/-- A step with at most one word write in the MMIO space: it keeps every claim, or its PLIC is the write's. -/
def ClaimStep (s t : State) (write : Option (Word × Word)) : Prop :=
  ClaimsKept s t ∨ ∃ addr v u, write = some (addr, v) ∧ memWrite s addr .word v = .ok () u ∧ t.plic = u.plic

theorem claimStep_load {s t : State} {addr : Word} {n : Width} {f : Word → State → Res Answer} {a : Answer}
    {write : Option (Word × Word)}
    (h : ((memRead s addr n).andThen f) = .ok a t)
    (hf : ∀ w u b v, f w u = .ok b v → v.plic = u.plic := by intro _ _ _ _ hb; cases hb; rfl) : ClaimStep s t write := by
  obtain ⟨w, u, hread, hrest⟩ := andThen_eq_ok h
  exact .inl (.read hread (hf w u a t hrest))

theorem claimStep_byteStore {s t : State} {addr v : Word} {f : Unit → State → Res Answer} {a : Answer}
    {write : Option (Word × Word)}
    (h : ((memWrite s addr .byte v).andThen f) = .ok a t)
    (hf : ∀ w u b v, f w u = .ok b v → v.plic = u.plic := by intro _ _ _ _ hb; cases hb; rfl) : ClaimStep s t write := by
  obtain ⟨w, u, hwrite, hrest⟩ := andThen_eq_ok h
  exact .inl (.of_plic ((hf w u a t hrest).trans (memWrite_byte_plic hwrite)))

theorem claimStep_wordStore {s t : State} {addr v : Word} {f : Unit → State → Res Answer} {a : Answer}
    (h : ((memWrite s addr .word v).andThen f) = .ok a t)
    (hf : ∀ w u b v, f w u = .ok b v → v.plic = u.plic := by intro _ _ _ _ hb; cases hb; rfl) : ClaimStep s t (some (addr, v)) := by
  obtain ⟨w, u, hwrite, hrest⟩ := andThen_eq_ok h
  exact .inr ⟨addr, v, u, rfl, hwrite, hf w u a t hrest⟩

theorem claimStep_csr {s t : State} {n : BitVec 12} {x : CsrAccess} {a : Answer} {write : Option (Word × Word)}
    (h : csrAccess n x s = .ok a t) : ClaimStep s t write := by
  rcases csrAccess_cases h with rfl | ⟨r, v, rfl⟩
  · exact .inl (.of_plic rfl)
  · exact .inl (.of_plic rfl)

/-- HOST's next step at a label is one access, a word write at the labels `seqWordWrite` lists. -/
theorem seqStep_claimStep {q : HostSeq} {s t : State} {a : Answer} (hq : s.hseq = some q) (h : seqStep q s = .ok a t) :
    ClaimStep s t (seqWordWrite s) := by
  rw [seqWordWrite, hq]
  cases q with
  | putcP1 b rest => exact claimStep_load h
  | putcP2 b rest => exact claimStep_byteStore h
  | getcG1 => exact claimStep_load h
  | getcG2 => exact claimStep_load h
  | flushF1 => exact claimStep_load h
  | iesetS2 m v => exact claimStep_byteStore h
  | ieclrC2 m v => exact claimStep_byteStore h
  | enableE2 c i w => exact claimStep_wordStore h
  | initI2 c i th => exact claimStep_load h
  | initI3 c i th w => exact claimStep_wordStore h
  | initI4 c th => exact claimStep_wordStore h

theorem widthOf_cases {w : Word} {n : Width} (h : widthOf w = some n) : (w = 1 ∧ n = .byte) ∨ (w = 4 ∧ n = .word) := by
  unfold widthOf at h
  split at h
  · next hw => cases h; exact .inl ⟨hw, rfl⟩
  · split at h
    · next hw => cases h; exact .inr ⟨hw, rfl⟩
    · cases h

/-- A step of HOST makes at most the word write `wordWrite` lists. -/
theorem host_claimStep (i : Instr) (hi : agentOf i = .host) : ∃ body : State → Res Answer,
    (∀ s, exec i s = hostCommand s body) ∧ ∀ s a t, body s = .ok a t → ClaimStep s t (wordWrite s i) := by
  cases i with
  | csrRead | csrWrite | csrSet | csrClear | regSstatus | regSie | regStvec | regSepc | regScause | regSip | regSatp
  | regMstatus | regMedeleg | regMideleg | regMie | regMtvec | regMepc | regMcause | regMip | regPmpcfg0 | regPmpaddr0
  | regMhartid => exact ⟨_, fun _ => rfl, fun _ _ _ h => claimStep_csr h⟩
  | tcDecode | tcClassify | plicCtx | plicPrioaddr | plicEnaddr | plicThraddr | plicCcaddr | plicPendaddr =>
    exact ⟨_, fun _ => rfl, fun _ _ _ h => by cases h; exact .inl (.of_plic rfl)⟩
  | plicClaim | plicEnable | uartPutc | uartGetc | uartFlush | uartIeset | uartIeclr | uartIpend | regPlicClaim
  | regUartRbr | regUartIir => exact ⟨_, fun _ => rfl, fun _ _ _ h => claimStep_load h⟩
  | plicSetprio | plicSetthr | plicInit | plicComplete | regPlicComplete =>
    exact ⟨_, fun _ => rfl, fun _ _ _ h => claimStep_wordStore h⟩
  | uartFifocfg | regUartThr | regUartFcr => exact ⟨_, fun _ => rfl, fun _ _ _ h => claimStep_byteStore h⟩
  | regPlicPriority _ x | regPlicPending _ x | regPlicEnable _ _ x | regPlicThreshold _ x | regPlicReserved _ x =>
    cases x with
    | read => exact ⟨_, fun _ => rfl, fun _ _ _ h => claimStep_load h⟩
    | write v => exact ⟨_, fun _ => rfl, fun _ _ _ h => claimStep_wordStore h⟩
  | regUartIer x | regUartLcr x | regUartOffset4 x | regUartLsr x | regUartMsr x | regUartOffset7 x =>
    cases x with
    | read => exact ⟨_, fun _ => rfl, fun _ _ _ h => claimStep_load h⟩
    | write v => exact ⟨_, fun _ => rfl, fun _ _ _ h => claimStep_byteStore h⟩
  | mmioLoad addr width =>
    refine ⟨_, fun _ => rfl, fun s a t h => ?_⟩
    split at h
    · cases h
    · exact claimStep_load h
  | mmioStore addr width v =>
    refine ⟨_, fun _ => rfl, fun s a t h => ?_⟩
    rw [show wordWrite s (.mmioStore addr width v) = if width = 4 then some (addr, v) else none from rfl]
    cases hn : widthOf width with
    | none => rw [hn] at h; cases h
    | some n =>
      rw [hn] at h
      rcases widthOf_cases hn with ⟨-, rfl⟩ | ⟨hw, rfl⟩
      · exact claimStep_byteStore h
      · rw [if_pos hw]
        exact claimStep_wordStore h
  | mret =>
    refine ⟨_, fun _ => rfl, fun s a t h => ?_⟩
    split at h
    · obtain ⟨w, u, hret, hu⟩ := andThen_eq_ok h
      cases hu
      obtain ⟨-, rfl⟩ := mretEffects_cases hret
      exact .inl (.of_plic rfl)
    · cases h
  | sret =>
    refine ⟨_, fun _ => rfl, fun s a t h => ?_⟩
    obtain ⟨w, u, hret, hu⟩ := andThen_eq_ok h
    cases hu
    obtain ⟨-, rfl⟩ := sretEffects_cases hret
    exact .inl (.of_plic rfl)
  | hartSetpc addr =>
    refine ⟨_, fun _ => rfl, fun s a t h => ?_⟩
    split at h
    · cases h; exact .inl (.of_plic rfl)
    · cases h
  | hartException code =>
    refine ⟨_, fun _ => rfl, fun s a t h => ?_⟩
    split at h <;> cases h
  | _ => cases hi

/-- Every step: reset, or at most the word write `wordWrite` lists, made by HOST or DISP alone. -/
theorem exec_claimStep {i : Instr} {s t : State} (h : exec i s = .next t) :
    i = .reset ∨ ClaimsKept s t ∨ ((agentOf i = .host ∨ agentOf i = .disp) ∧ ClaimStep s t (wordWrite s i)) := by
  by_cases hhost : agentOf i = .host
  · obtain ⟨body, hbody, hstep⟩ := host_claimStep i hhost
    rw [hbody] at h
    rcases hostCommand_cases h with rfl | ⟨-, a, u, hu, rfl⟩ | ⟨-, e, -, he⟩
    · exact .inr (.inl (.of_plic rfl))
    · exact .inr (.inr ⟨.inl hhost, hstep s a u hu⟩)
    · exact .inr (.inl (.of_plic (raise_plic he)))
  cases exec_shape h with
  | host hr hi => exact absurd hi hhost
  | raised hr hi => exact absurd hi hhost
  | boot6 hi hb hd u hu =>
    obtain ⟨-, rfl⟩ := mretEffects_cases hu
    exact .inr (.inl (.of_plic rfl))
  | interrupt hi hd k hk t ht =>
    rcases trapEnter_cases ht with ⟨-, -, rfl⟩ | ⟨-, -, rfl⟩ <;> exact .inr (.inl (.of_plic rfl))
  | claim hi hs w u hu => exact .inr (.inl (.read hu (route_plic u w)))
  | rxpoll hi hs l u hu => exact .inr (.inl (.read hu rfl))
  | rxread hi hs l u hu => exact .inr (.inl (.read hu rfl))
  | txpoll hi hs l u hu => exact .inr (.inl (.read hu rfl))
  | txwrite hi hs b rest hq u hu => exact .inr (.inl (.of_plic (memWrite_byte_plic hu :)))
  | complete hi hs u hu => subst hi; exact .inr (.inr ⟨.inr rfl, .inr ⟨_, _, u, rfl, hu, rfl⟩⟩)
  | ret hi hs u hu =>
    rcases hu with ⟨-, hu⟩ | ⟨-, hu⟩
    · obtain ⟨-, rfl⟩ := mretEffects_cases hu
      exact .inr (.inl (.of_plic rfl))
    · obtain ⟨-, rfl⟩ := sretEffects_cases hu
      exact .inr (.inl (.of_plic rfl))
  | gateway w hi hready =>
    refine .inr (.inl fun src c hg => ?_)
    have hne : src ≠ w.toNat := fun hsrc => by
      rw [hsrc, ((gatewayReady_iff s _).1 hready).2.1] at hg
      cases hg
    rw [State.setPlic_plic, setGate_gate, if_neg hne, hg]
  | line w b hi hw => exact .inr (.inl fun src c hg => hg)
  | reset hi => exact .inl hi
  | _ => exact .inr (.inl (.of_plic rfl))

theorem hostNext_claimStep {s t : State} (h : hostNext s = .next t) : ClaimStep s t (seqWordWrite s) := by
  unfold hostNext at h
  split at h
  · cases h; exact .inl (.of_plic rfl)
  · next q hq =>
    split at h
    · cases hb : seqStep q s with
      | ok a u =>
        rw [hb] at h
        cases h
        exact (seqStep_claimStep hq hb :)
      | raise e => rw [hb] at h; exact .inl (.of_plic (raise_plic h))
      | refuse r => rw [hb] at h; cases h
    · cases h; exact .inl (.of_plic rfl)

/-- A word write that ends a claim is its completion, and moves no other gateway (R153, R163). -/
theorem ClaimStep.completed {s t : State} {write : Option (Word × Word)} (h : ClaimStep s t write) {src : Nat} {c : Fin 2}
    (hg : s.plic.gate src = .claimed c) : t.plic.gate src = .claimed c ∨
      ((∃ (id : Word) (u : State), write = some (claimAddress s.cfg s.cfg.plicBase (BitVec.ofNat 32 c.val), id) ∧
        id.toNat = src ∧ memWrite s (claimAddress s.cfg s.cfg.plicBase (BitVec.ofNat 32 c.val)) .word id = .ok () u ∧
        t.plic = u.plic) ∧
      t.plic.gate src = .open ∧ ∀ j, j ≠ src → t.plic.gate j = s.plic.gate j) := by
  rcases h with hkept | ⟨addr, v, u, hwrite, hmem, hplic⟩
  · exact .inl (hkept src c hg)
  · by_cases hkept : u.plic.gate src = .claimed c
    · exact .inl (hplic ▸ hkept)
    · obtain ⟨rfl, hv, hu⟩ := memWrite_release hmem hg hkept
      have hgate (j : Nat) : t.plic.gate j = if j = src then .open else s.plic.gate j := by
        rw [hplic, hu, State.setPlic_plic, setGate_gate]
      exact .inr ⟨⟨v, u, hwrite, hv, hmem, hplic⟩, by rw [hgate, if_pos rfl], fun j hj => by rw [hgate, if_neg hj]⟩

/-- Settles O38. -/
theorem claimedSourceWaitsForItsCompletion : Obligations.ClaimedSourceWaitsForItsCompletion := by
  intro s t src c hg kept claimWord completedBy
  refine ⟨fun i h => ?_, fun h => (hostNext_claimStep h).completed hg⟩
  rcases exec_claimStep h with hreset | hkept | ⟨hagent, hstep⟩
  · exact .inr (.inl hreset)
  · exact .inl (hkept src c hg)
  · exact (hstep.completed hg).imp_right fun hdone => .inr ⟨hagent, hdone⟩

end Sys2Proof.Machine
end

section
/-! SUPPORT. The PLIC's multi-step commands, step by step, and the rows with no register: O39, O40. -/

namespace Sys2Proof.Machine

open Sys2Proof

/-- A turn of HOST at a label, in normal context, is the label's step. -/
theorem hostNext_step {s : State} {q : HostSeq} (hb : s.boot = .done) (hd : s.disp = .idle) (hq : s.hseq = some q) :
    hostNext s = hostFinish s (seqStep q s) := by
  unfold hostNext
  rw [hq]
  exact if_pos ⟨hb, hd⟩

theorem enableAt_eq (s : State) (c : Fin 2) {src : Nat} (hsrc : src < 2 ^ 32) :
    enableAt s (BitVec.ofNat 32 c.val) (BitVec.ofNat 32 src) =
      plicReg s (plicOffset s.cfg (.enable c (src / 32))) := enableAddress_eq s.cfg c src hsrc

/-- A word with a source's bit set (42_plic.md R157). -/
theorem getLsbD_withSourceBit (w : Word) {src : Nat} {b : Nat} (hb : b < 32) :
    (withSourceBit w (sourceBit (BitVec.ofNat 32 src))).getLsbD b = (w.getLsbD b || decide (b = src % 32)) := by
  have hbit : (sourceBit (BitVec.ofNat 32 src)).toNat = src % 32 := by
    simp [sourceBit]
  rw [withSourceBit, BitVec.getLsbD_or, hbit, show 1#32 = flag true from rfl, getLsbD_flag_shift _ _ _ hb, Bool.and_true]

theorem regExists_enable {cfg : Config} {c : Fin 2} {src : Nat} (hsrc : src < cfg.nsrc) :
    regExists cfg (.enable c (src / 32)) := by
  show src / 32 < (cfg.nsrc + 31) / 32
  omega

section

variable {s : State} {c : Fin 2} {src : Nat} (hwf : s.cfg.wf = true) (hsrc : src < s.cfg.nsrc)
include hwf hsrc

/-- The enable steps' read of the source's word (42_plic.md R149, R157). -/
theorem enableAt_read (hm : s.mayAccess (plicReg s (plicOffset s.cfg (.enable c (src / 32)))) .word .read = true) :
    memRead s (enableAt s (BitVec.ofNat 32 c.val) (BitVec.ofNat 32 src)) .word =
      .ok (s.plic.enableWord c (src / 32) &&& sourceMask s.cfg (src / 32)) s := by
  rw [enableAt_eq s c (hsrc.trans (nsrc_lt hwf)), memRead_row s hwf _ (regExists_enable hsrc) hm]
  rfl

/-- The enable steps' write of the source's word (42_plic.md R149, R157). -/
theorem enableAt_write (v : Word)
    (hm : s.mayAccess (plicReg s (plicOffset s.cfg (.enable c (src / 32)))) .word .write = true) :
    memWrite s (enableAt s (BitVec.ofNat 32 c.val) (BitVec.ofNat 32 src)) .word v =
      .ok () (s.setPlic (s.plic.setEnableWord c (src / 32) (v &&& sourceMask s.cfg (src / 32)))) := by
  rw [enableAt_eq s c (hsrc.trans (nsrc_lt hwf)), memWrite_row s v hwf _ (regExists_enable hsrc) hm]
  rfl

end

theorem getLsbD_enableRead (s : State) (c : Fin 2) (w : Nat) {b : Nat} (hb : b < 32) :
    (s.plic.enableWord c w &&& sourceMask s.cfg w).getLsbD b =
      (s.cfg.isSource (32 * w + b) && s.plic.enabled c (32 * w + b)) := by
  rw [BitVec.getLsbD_and, getLsbD_enableWord _ _ _ _ hb, getLsbD_sourceMask _ _ _ hb, Bool.and_comm]

/-- The enable table after the write back of a source's word: the source's bit set, the word's other bits as they were
read, no other word changed (42_plic.md R157). -/
theorem enableWrite_words (s : State) (c : Fin 2) (src : Nat) (w : Word) :
    let t := Tab.set 0 (s.plic.ctx c).enable (src / 32)
      (withSourceBit w (sourceBit (BitVec.ofNat 32 src)) &&& sourceMask s.cfg (src / 32))
    (∀ w', w' ≠ src / 32 → Tab.get 0 t w' = s.plic.enableWord c w') ∧
    ∀ b, b < 32 → (Tab.get 0 t (src / 32)).getLsbD b =
      (s.cfg.isSource (32 * (src / 32) + b) && (w.getLsbD b || decide (b = src % 32))) := by
  refine ⟨fun w' hne => ?_, fun b hb => ?_⟩
  · rw [tab_enable_get, if_neg hne]
  · rw [tab_enable_get, if_pos rfl, BitVec.getLsbD_and, getLsbD_withSourceBit w hb, getLsbD_sourceMask _ _ _ hb,
      Bool.and_comm]

/-- Settles O39: each step is its one access, by its row. -/
theorem enableAndInitRunStepByStep : Obligations.EnableAndInitRunStepByStep := by
  intro s c src hwf hpos hsrc ctx id en prio thr wordRead put written
  have hen : en = plicReg s (plicOffset s.cfg (.enable c (src / 32))) := enable_reg s c (src / 32)
  have hprio : prio = plicReg s (plicOffset s.cfg (.priority src)) := priority_reg s src
  have hthr : thr = plicReg s (plicOffset s.cfg (.threshold c)) := threshold_reg s c
  have hread : wordRead (s.plic.enableWord c (src / 32) &&& sourceMask s.cfg (src / 32)) :=
    fun b hb => getLsbD_enableRead s c (src / 32) hb
  have hput (w : Word) (q : Option HostSeq) :
      Host.Outcome.next ((((s.setPlic (s.plic.setEnableWord c (src / 32) w)).setHseq q)).answer none none) =
        put (Tab.set 0 (s.plic.ctx c).enable (src / 32) w) q := by
    rw [setEnableWord_eq]
    rfl
  rw [hen, hprio, hthr]
  refine ⟨fun h hm => ⟨_, hread, ?_⟩, fun h hm p th => ?_, fun hb hd => ⟨fun w hq hm => ?_, fun th hq hm => ⟨_, hread, ?_⟩,
    fun th w hq hm => ?_, ?_⟩⟩
  · show execPlicEnable ctx id s = _
    rw [execPlicEnable, hostCommand_ready h, enableE1, enableAt_read hwf hsrc hm]
    rfl
  · refine ⟨Tab.set 0 s.plic.priority src (p.setWidth 32 &&& s.cfg.prioMax), ?_, fun j => tab_get_set ..⟩
    show execPlicInit ctx id p th s = _
    rw [execPlicInit, hostCommand_ready h, initI1,
      show priorityAddress _ _ id = plicReg s _ from priorityAddress_eq s.cfg src,
      memWrite_row s _ hwf (.priority src) hsrc hm, rowWrite, if_neg (by omega)]
    rfl
  · refine ⟨_, ?_, enableWrite_words s c src w⟩
    rw [hostNext_step hb hd hq, seqStep, enableE2, enableAt_write hwf hsrc _ hm]
    exact hput _ none
  · rw [hostNext_step hb hd hq, seqStep, initI2, enableAt_read hwf hsrc hm]
    rfl
  · refine ⟨_, ?_, enableWrite_words s c src w⟩
    rw [hostNext_step hb hd hq, seqStep, initI3, enableAt_write hwf hsrc _ hm]
    exact hput _ _
  · intro th hq hm x
    rw [hostNext_step hb hd hq, seqStep, initI4,
      show thresholdAddress _ _ ctx = plicReg s _ from thresholdAddress_eq s.cfg c,
      memWrite_row s _ hwf (.threshold c) trivial hm]
    rfl

/-! ## Rows with no register -/

section

variable {s : State} (h : hostReady s = true)
include h

/-- A row whose read has no successor. -/
theorem uartRowAccess_read_refused {o : Word} {r : Refusal} (hr : uartLoad s o = .refuse r) :
    uartRowAccess o .read s = .refused r := by
  rw [uartRowAccess, hostCommand_ready h]
  simp only [hr]
  rfl

/-- A row whose write has no successor. -/
theorem uartRowAccess_write_refused {o : Word} {v : Byte} {r : Refusal} (hr : uartStore s o v = .refuse r) :
    uartRowAccess o (.write v) s = .refused r := by
  rw [uartRowAccess, hostCommand_ready h]
  simp only [hr]
  rfl

end

section

variable {s : State} (hwf : s.cfg.wf = true)
include hwf

theorem uartLoad_unlisted {o : Word} (ho : o = 4 ∨ o = 7) (hm : s.mayAccess (uartReg s o) .byte .read = true) :
    uartLoad s o = .refuse .uartUnlistedRegister := by
  rcases ho with rfl | rfl
  · rw [uartLoad_eq s 4 hwf (by decide) hm, uartRegRead, if_neg (by simp)]
    rfl
  · rw [uartLoad_eq s 7 hwf (by decide) hm, uartRegRead, if_neg (by simp)]
    rfl

theorem uartStore_unlisted {o : Word} (ho : o = 4 ∨ o = 7) (v : Byte)
    (hm : s.mayAccess (uartReg s o) .byte .write = true) : uartStore s o v = .refuse .uartUnlistedRegister := by
  rcases ho with rfl | rfl
  · rw [uartStore_eq s 4 v hwf (by decide) hm, uartRegWrite, if_neg (by simp)]
    rfl
  · rw [uartStore_eq s 7 v hwf (by decide) hm, uartRegWrite, if_neg (by simp)]
    rfl

end

/-- Settles O40. -/
theorem unlistedRegistersStop : Obligations.UnlistedRegistersStop := by
  intro s hwf h may
  refine ⟨fun o v hsize halign hres => ⟨fun hm => ?_, fun hm => ?_⟩, fun v => ⟨fun hm => ?_, fun hm => ?_, fun hm => ?_,
    fun hm => ?_, fun hl => ⟨fun hm => ?_, fun hm => ?_, fun hm => ?_, fun hm => ?_⟩, fun hv hm => ?_⟩⟩
  · show plicRowAccess (fun _ => o) .read s = _
    rw [plicRowAccess, hostCommand_ready h]
    simp only
    rw [memRead_plicReg s o hwf hsize halign hm, plicRegRead_eq, hres]
    rfl
  · show plicRowAccess (fun _ => o) (.write v) s = _
    rw [plicRowAccess, hostCommand_ready h]
    simp only
    rw [memWrite_plicReg s o v hwf hsize halign hm, plicRegWrite_eq, hres]
    rfl
  · exact uartRowAccess_read_refused h (uartLoad_unlisted hwf (.inl rfl) hm)
  · exact uartRowAccess_write_refused h (uartStore_unlisted hwf (.inl rfl) v hm)
  · exact uartRowAccess_read_refused h (uartLoad_unlisted hwf (.inr rfl) hm)
  · exact uartRowAccess_write_refused h (uartStore_unlisted hwf (.inr rfl) v hm)
  · exact uartRowAccess_read_refused h (uartLoad_divisor 0 (by decide) hwf hm hl)
  · exact uartRowAccess_write_refused h (uartStore_divisor 0 v (by decide) hwf hm hl)
  · exact uartRowAccess_read_refused h (uartLoad_divisor 1 (by decide) hwf hm hl)
  · exact uartRowAccess_write_refused h (uartStore_divisor 1 v (by decide) hwf hm hl)
  · refine uartRowAccess_write_refused h ?_
    rw [uartStore_fcr v hwf hm, fcrWrite_trigger _ _ hv]

end Sys2Proof.Machine
end

section
/-! SUPPORT. The UART's registers by their rows, and the driver's commands step by step: O41 to O45. -/

namespace Sys2Proof.Machine

open Sys2Proof

/-! ## Rows -/

/-- A row whose read answers. -/
theorem uartRowAccess_read {s t : State} (h : hostReady s = true) {o w : Word} (hr : uartLoad s o = .ok w t) :
    uartRowAccess o .read s = .next (t.answer (some w) none) := by
  rw [uartRowAccess, hostCommand_ready h]
  simp only [hr]
  rfl

/-- A row whose write goes through. -/
theorem uartRowAccess_write {s t : State} (h : hostReady s = true) {o : Word} {v : Byte}
    (hr : uartStore s o v = .ok () t) : uartRowAccess o (.write v) s = .next (t.answer none none) := by
  rw [uartRowAccess, hostCommand_ready h]
  simp only [hr]
  rfl

/-- Settles O41: each row's read is its register's (`uartLoad_*`), the values bit group by bit group. -/
theorem uartRegisterReads : Obligations.UartRegisterReads := by
  intro s hwf h u may bit gives iid
  refine ⟨fun hm hl => ⟨fun b rest hq => ?_, fun hq => ?_⟩, fun hm hl => ?_, fun hm => ?_, fun hm => ?_, fun hm => ?_,
    fun hm => ?_⟩
  · have hread := uartRowAccess_read h (uartLoad_rbr hwf hm hl)
    rw [rbrRead_cons hq] at hread
    exact hread
  · have hread := uartRowAccess_read h (uartLoad_rbr hwf hm hl)
    rw [rbrRead_nil hq] at hread
    exact ⟨_, _, hread⟩
  · rw [← ier_byte_eq]
    exact uartRowAccess_read h (uartLoad_ier hwf hm hl)
  · have hread := uartRowAccess_read h (uartLoad_iir hwf hm)
    rw [iir_eq] at hread
    exact hread
  · exact uartRowAccess_read h (uartLoad_lcr hwf hm)
  · have hread := uartRowAccess_read h (uartLoad_lsr hwf hm)
    rw [lsr_eq] at hread
    exact hread
  · exact uartRowAccess_read h (uartLoad_msr hwf hm)

/-- Settles O42: each row's write is its register's (`uartStore_*`). -/
theorem uartRegisterWrites : Obligations.UartRegisterWrites := by
  intro s v hwf h u may does
  refine ⟨fun hm hl => ⟨fun hroom => ?_, fun hfull => ?_⟩, fun hm hl => ?_, fun hm hv => ?_, fun hm => ?_, fun hm => ?_,
    fun hm => ?_⟩
  · have hwrite := uartRowAccess_write h (uartStore_thr v hwf hm hl)
    rw [thrWrite_of_room hroom] at hwrite
    exact hwrite
  · have hwrite := uartRowAccess_write h (uartStore_thr v hwf hm hl)
    rw [thrWrite_of_full hfull] at hwrite
    exact hwrite
  · have hwrite := uartRowAccess_write h (uartStore_ier v hwf hm hl)
    rw [ierWrite_eq] at hwrite
    exact hwrite
  · have hstore := uartStore_fcr v hwf hm
    rw [fcrWrite_eq _ _ hv] at hstore
    exact uartRowAccess_write h hstore
  · exact uartRowAccess_write h (uartStore_lcr v hwf hm)
  · exact uartRowAccess_write h (uartStore_lsr v hwf hm)
  · exact uartRowAccess_write h (uartStore_msr v hwf hm)

/-! ## The driver's steps -/

section

variable {s : State} (hwf : s.cfg.wf = true)
include hwf

/-- P1 reads the line status once and waits for the transmit queue to empty (R200). -/
theorem putcP1_eq (hm : s.mayAccess (uartReg s 5) .byte .read = true) (b : Byte) (rest : List Byte) :
    putcP1 b rest s = .ok noAnswer { s with
      uart := { s.uart with err := 0 }
      hseq := some (if s.uart.txFifo = [] then .putcP2 b rest else .putcP1 b rest) } := by
  rw [putcP1, uartLoad_lsr hwf hm]
  simp only [Res.andThen, lsr_transmit_ready, decide_eq_true_eq]
  rfl

/-- P2 writes one byte (R200). -/
theorem putcP2_eq (hm : s.mayAccess (uartReg s 0) .byte .write = true) (hl : s.uart.lcr.getLsbD 7 = false) (b : Byte)
    (rest : List Byte) : putcP2 b rest s = setSeq (thrWrite s b) (match rest with
      | [] => none
      | b' :: rest' => some (.putcP1 b' rest')) := by
  unfold putcP2
  rw [uartStore_thr b hwf hm hl]
  rfl

/-- G1 reads the line status once and waits for data-ready (R201). -/
theorem getcG1_eq (hm : s.mayAccess (uartReg s 5) .byte .read = true) : getcG1 s = .ok noAnswer { s with
    uart := { s.uart with err := 0 }
    hseq := some (if s.uart.rxFifo = [] then .getcG1 else .getcG2) } := by
  rw [getcG1, uartLoad_lsr hwf hm]
  simp only [Res.andThen, lsr_data_ready]
  cases s.uart.rxFifo <;> rfl

/-- F1 reads the line status once and waits for the transmitter to run empty (R202). -/
theorem flushF1_eq (hm : s.mayAccess (uartReg s 5) .byte .read = true) : flushF1 s = .ok noAnswer { s with
    uart := { s.uart with err := 0 }
    hseq := if s.uart.txFifo = [] ∧ s.uart.tsr = none then none else some .flushF1 } := by
  rw [flushF1, uartLoad_lsr hwf hm]
  simp only [Res.andThen, lsr_transmit_empty, Bool.and_eq_true, decide_eq_true_eq]
  rfl

/-- G2 takes a byte, CR turned into LF (R201). -/
theorem getcG2_eq (hm : s.mayAccess (uartReg s 0) .byte .read = true) (hl : s.uart.lcr.getLsbD 7 = false) :
    getcG2 s = .ok (answerOne (if (rbrRead s).1 = 0x0D then 0x0A else (rbrRead s).1.setWidth 32))
      ((rbrRead s).2.setHseq none) := by
  rw [getcG2, uartLoad_rbr hwf hm hl]
  simp only [Res.andThen, crToLf, BitVec.setWidth_setWidth_of_le _ (show 8 ≤ 32 by decide), BitVec.setWidth_eq]
  split <;> rfl

/-- The second step of IESET and IECLR writes the interrupt enables, and may latch the transmit-empty interrupt (R204,
R205). -/
theorem uartStore_enables (hm : s.mayAccess (uartReg s 1) .byte .write = true) (hl : s.uart.lcr.getLsbD 7 = false)
    {v : Byte} {x : BitVec 4} (hx : v.setWidth 4 = x) : uartStore s 1 v = .ok () (s.setUart { s.uart with
      ier := x
      threIp := if s.uart.ier.getLsbD 1 = false ∧ x.getLsbD 1 = true ∧ s.uart.txFifo = [] then true
        else s.uart.threIp }) := by
  have hbit : x.getLsbD 1 = v.getLsbD 1 := by rw [← hx, BitVec.getLsbD_setWidth]; rfl
  rw [uartStore_ier v hwf hm hl, ierWrite_eq, hx, hbit]

end

/-- Settles O43: the command and each later P1 are `putcP1_eq`, P2 is `putcP2_eq`. -/
theorem putcWaitsBeforeEachByte : Obligations.PutcWaitsBeforeEachByte := by
  intro s hwf polled
  refine ⟨fun hm => ⟨fun h => ?_, fun hb hd b q hq => ?_⟩, ?_⟩
  · have hputc (c : Byte) : exec (.uartPutc c) s = polled (putcSeq c).1 (putcSeq c).2 := by
      show execUartPutc c s = _
      rw [execUartPutc, hostCommand_ready h, putcP1_eq hwf hm]
      rfl
    exact ⟨hputc 0x0A, fun c hc => (hputc c).trans (by rw [putcSeq, if_neg hc])⟩
  · rw [hostNext_step hb hd hq, seqStep, putcP1_eq hwf hm]
    rfl
  · intro hm hl hb hd b q hq next
    rw [hostNext_step hb hd hq, seqStep, putcP2_eq hwf hm hl]
    by_cases hroom : s.uart.txFifo.length < s.uart.cap s.cfg
    · rw [thrWrite_of_room hroom]
      exact congrArg (fun t : State => Host.Outcome.next (t.answer none none)) (if_pos hroom).symm
    · rw [thrWrite_of_full hroom]
      exact congrArg (fun t : State => Host.Outcome.next (t.answer none none)) (if_neg hroom).symm

/-- Settles O44. -/
theorem getcAndFlushWait : Obligations.GetcAndFlushWait := by
  intro s hwf polled getc flush
  refine ⟨fun hm => ⟨fun h => ⟨?_, ?_⟩, fun hb hd => ⟨fun hq => ?_, fun hq => ?_⟩⟩, ?_⟩
  · show execUartGetc s = _
    rw [execUartGetc, hostCommand_ready h, getcG1_eq hwf hm]
    rfl
  · show execUartFlush s = _
    rw [execUartFlush, hostCommand_ready h, flushF1_eq hwf hm]
    rfl
  · rw [hostNext_step hb hd hq, seqStep, getcG1_eq hwf hm]
    rfl
  · rw [hostNext_step hb hd hq, seqStep, flushF1_eq hwf hm]
    rfl
  · intro hm hl hb hd hq word
    rw [hostNext_step hb hd hq, seqStep, getcG2_eq hwf hm hl]
    refine ⟨fun b rest hrx => ?_, fun hrx => ⟨Config.freeByte s.draws, s.draws + 1, ?_⟩⟩
    · rw [rbrRead_cons hrx]
      rfl
    · rw [rbrRead_nil hrx]
      rfl

theorem enables_set (old mask : BitVec 4) : (old.setWidth 8 ||| mask.setWidth 8).setWidth 4 = old ||| mask := by
  revert old mask
  decide

theorem enables_clear (old mask : BitVec 4) :
    (old.setWidth 8 &&& ~~~(mask.setWidth 8)).setWidth 4 = old &&& ~~~mask := by
  revert old mask
  decide

/-- Settles O45. -/
theorem interruptEnableAndFifoCommands : Obligations.InterruptEnableAndFifoCommands := by
  intro s mask hwf may wrote read
  have hread (e : BitVec 4) : ((e.setWidth 8).setWidth 32).setWidth 8 = e.setWidth 8 := by revert e; decide
  refine ⟨fun h => ⟨fun hm hl => ⟨?_, ?_⟩, fun hm => ?_, fun hm => ?_⟩, fun hb hd hm hl old => ⟨fun hq => ?_, fun hq => ?_⟩⟩
  · show execUartIeset mask s = _
    rw [execUartIeset, hostCommand_ready h, iesetS1, uartLoad_ier hwf hm hl]
    simp only [Res.andThen, hread]
    rfl
  · show execUartIeclr mask s = _
    rw [execUartIeclr, hostCommand_ready h, ieclrC1, uartLoad_ier hwf hm hl]
    simp only [Res.andThen, hread]
    rfl
  · show execUartIpend s = _
    rw [execUartIpend, hostCommand_ready h]
    simp only [uartLoad_iir hwf hm, Res.andThen, iir_pending]
    rfl
  · show execUartFifocfg s = _
    rw [execUartFifocfg, hostCommand_ready h]
    simp only [uartStore_fcr 7 hwf hm, fcrWrite_eq s.uart 7 (by decide)]
    rfl
  · rw [hostNext_step hb hd hq, seqStep, iesetS2, uartStore_enables hwf hm hl (enables_set old mask)]
    rfl
  · rw [hostNext_step hb hd hq, seqStep, ieclrC2, uartStore_enables hwf hm hl (enables_clear old mask)]
    rfl

end Sys2Proof.Machine
end

section
/-! SUPPORT. The raw accesses of the command port, the checks they meet, and the protection entry: O50, O51, O52. -/

namespace Sys2Proof.Machine

open Sys2Proof

/-! ## The protection entry -/

/-- Every byte of the access matches entry 0 (20_memory.md R75). -/
def pmpAll (c : Csrs) (addr : Word) (n : Width) : Prop :=
  ∀ i, i < n.bytes → pmpMatch ((c.pmpcfg0 >>> 3).setWidth 2) c.pmpaddr0 (addr.toNat + i) = true

theorem pmpMatches_lt_iff (c : Csrs) (addr : Word) (n : Width) : pmpMatches c addr n < n.bytes ↔ ¬pmpAll c addr n := by
  have hle : pmpMatches c addr n ≤ n.bytes := by
    simpa [pmpMatches] using
      List.countP_le_length (l := List.range n.bytes)
        (p := fun i => pmpMatch ((c.pmpcfg0 >>> 3).setWidth 2) c.pmpaddr0 (addr.toNat + i))
  have heq : pmpMatches c addr n = n.bytes ↔ pmpAll c addr n := by
    have hall := List.countP_eq_length (l := List.range n.bytes)
      (p := fun i => pmpMatch ((c.pmpcfg0 >>> 3).setWidth 2) c.pmpaddr0 (addr.toNat + i))
    simpa [pmpMatches, pmpAll] using hall
  rw [← heq]
  omega

theorem pmpAllows_of_partial {c : Csrs} {addr : Word} {n : Width} (h : ¬pmpAll c addr n) (k : AccKind) :
    pmpAllows c .S addr n k = .deny := by
  unfold pmpAllows
  rw [if_neg (by simp), if_pos ((pmpMatches_lt_iff c addr n).2 h)]

/-- The check at S on a full match: the reserved pair, then the bit of the kind. -/
theorem pmpAllows_of_all {c : Csrs} {addr : Word} {n : Width} (h : pmpAll c addr n) (k : AccKind) :
    pmpAllows c .S addr n k =
      if c.pmpcfg0.getLsbD 0 = false ∧ c.pmpcfg0.getLsbD 1 = true then .reserved
      else if (if k = .read then c.pmpcfg0.getLsbD 0 else c.pmpcfg0.getLsbD 1) = true then .allow else .deny := by
  unfold pmpAllows
  rw [if_neg (by simp), if_neg (fun hlt => (pmpMatches_lt_iff c addr n).1 hlt h)]
  cases k <;> rfl

/-- What the bits decide on a full match, for each kind. -/
theorem pmpBits_iff (r w : Bool) (k : AccKind) :
    let answer : PmpAnswer := if r = false ∧ w = true then .reserved
      else if (if k = .read then r else w) = true then .allow else .deny
    (answer = .allow ↔ ¬(r = false ∧ w = true) ∧ (if k = .read then r else w) = true) ∧
      (answer = .reserved ↔ r = false ∧ w = true) := by
  revert r w
  cases k <;> decide

theorem pmpAllows_allow_iff (c : Csrs) (addr : Word) (n : Width) (k : AccKind) : pmpAllows c .S addr n k = .allow ↔
    pmpAll c addr n ∧ ¬(c.pmpcfg0.getLsbD 0 = false ∧ c.pmpcfg0.getLsbD 1 = true) ∧
      (if k = .read then c.pmpcfg0.getLsbD 0 else c.pmpcfg0.getLsbD 1) = true := by
  by_cases h : pmpAll c addr n
  · rw [pmpAllows_of_all h, and_iff_right h]
    exact (pmpBits_iff _ _ k).1
  · rw [pmpAllows_of_partial h]
    exact ⟨nofun, fun hall => absurd hall.1 h⟩

theorem pmpAllows_reserved_iff (c : Csrs) (addr : Word) (n : Width) (k : AccKind) :
    pmpAllows c .S addr n k = .reserved ↔
      pmpAll c addr n ∧ c.pmpcfg0.getLsbD 0 = false ∧ c.pmpcfg0.getLsbD 1 = true := by
  by_cases h : pmpAll c addr n
  · rw [pmpAllows_of_all h, and_iff_right h]
    exact (pmpBits_iff _ _ k).2
  · rw [pmpAllows_of_partial h]
    exact ⟨nofun, fun hall => absurd hall.1 h⟩

/-- The trailing ones of a number written as a power-of-two region's. -/
theorem trailingOnes_region (base t : Nat) : ∀ fuel, t ≤ fuel →
    trailingOnes fuel (base * 2 ^ (t + 1) + (2 ^ t - 1)) = t := by
  induction t with
  | zero =>
    intro fuel _
    cases fuel with
    | zero => rfl
    | succ fuel => rw [trailingOnes, if_neg (by simp)]
  | succ t ih =>
    intro fuel hfuel
    obtain ⟨fuel, rfl⟩ : ∃ k, fuel = k + 1 := ⟨fuel - 1, by omega⟩
    have hpos : 0 < 2 ^ t := Nat.two_pow_pos t
    have hodd : base * 2 ^ (t + 1 + 1) + (2 ^ (t + 1) - 1) = 2 * (base * 2 ^ (t + 1) + (2 ^ t - 1)) + 1 := by
      rw [pow_succ 2 (t + 1), ← mul_assoc, pow_succ 2 t]
      omega
    rw [hodd, trailingOnes, if_pos (by omega), show ∀ x, (2 * x + 1) / 2 = x by omega, ih fuel (by omega)]

/-- In the naturally aligned mode a byte matches exactly inside the region. -/
theorem pmpMatch_region {t base y : Nat} (hp : base * 2 ^ (t + 1) + 2 ^ t ≤ 2 ^ 32) (hy : y < 2 ^ 32) :
    pmpMatch 3 (BitVec.ofNat 32 (base * 2 ^ (t + 1) + (2 ^ t - 1))) y = true ↔
      base * 2 ^ (t + 3) ≤ y ∧ y < (base + 1) * 2 ^ (t + 3) := by
  have hpos : 0 < 2 ^ t := Nat.two_pow_pos t
  have ht : t ≤ 32 := (Nat.pow_le_pow_iff_right (by decide)).1 (show 2 ^ t ≤ 2 ^ 32 by omega)
  have hnum : (BitVec.ofNat 32 (base * 2 ^ (t + 1) + (2 ^ t - 1))).toNat = base * 2 ^ (t + 1) + (2 ^ t - 1) := by
    rw [BitVec.toNat_ofNat, Nat.mod_eq_of_lt (by omega)]
  have hunfold : pmpMatch 3 (BitVec.ofNat 32 (base * 2 ^ (t + 1) + (2 ^ t - 1))) y =
      if t = 32 then true else decide (y / 4 / 2 ^ (t + 1) = (base * 2 ^ (t + 1) + (2 ^ t - 1)) / 2 ^ (t + 1)) := by
    show (if trailingOnes 32 _ = 32 then true else decide (y / 4 / 2 ^ (trailingOnes 32 _ + 1) = _)) = _
    rw [hnum, trailingOnes_region base t 32 ht]
  rw [hunfold]
  have hsucc : 2 ^ (t + 1) = 2 * 2 ^ t := by rw [pow_succ, mul_comm]
  by_cases h32 : t = 32
  · subst h32
    simp only [if_true, true_iff]
    have hbase : base = 0 := by
      by_contra hne
      have : 1 * 2 ^ (32 + 1) ≤ base * 2 ^ (32 + 1) := Nat.mul_le_mul_right _ (by omega)
      omega
    subst hbase
    simpa using lt_trans hy (by decide)
  · have hdiv : (base * 2 ^ (t + 1) + (2 ^ t - 1)) / 2 ^ (t + 1) = base := by
      rw [Nat.add_comm, Nat.add_mul_div_right _ _ (by omega), Nat.div_eq_of_lt (by omega), Nat.zero_add]
    have hy4 : y / 4 / 2 ^ (t + 1) = y / 2 ^ (t + 3) := by
      rw [Nat.div_div_eq_div_mul, show (4 : Nat) = 2 ^ 2 from rfl, ← pow_add, Nat.add_comm 2]
    have hregion : 0 < 2 ^ (t + 3) := Nat.two_pow_pos _
    rw [if_neg h32, decide_eq_true_iff, hdiv, hy4, Nat.div_eq_iff hregion, Nat.add_mul, Nat.one_mul]
    omega

/-- Settles O52. -/
theorem protectionEntryGuardsSupervisor : Obligations.ProtectionEntryGuardsSupervisor := by
  refine ⟨?_, fun p y => ⟨rfl, ?_, ?_⟩, fun t base y hp hy => pmpMatch_region hp hy⟩
  · intro c addr n k all r w
    exact ⟨if_pos rfl, pmpAllows_allow_iff c addr n k, pmpAllows_reserved_iff c addr n k⟩
  · rw [show pmpMatch 1 p y = decide (y / 4 < p.toNat) from rfl, decide_eq_true_iff]
    omega
  · rw [show pmpMatch 2 p y = decide (y / 4 = p.toNat) from rfl, decide_eq_true_iff]
    omega

/-! ## The raw accesses and the checks -/

theorem execHartException_loadFault (s : State) : exec (.hartException 5) s = hostCommand s fun _ => .raise excLoadFault :=
  rfl

theorem execHartException_storeFault (s : State) :
    exec (.hartException 7) s = hostCommand s fun _ => .raise excStoreFault := rfl

section

variable {s : State} {addr width : Word} {n : Width} (hn : widthOf width = some n)
include hn

theorem exec_mmioLoad_eq : exec (.mmioLoad addr width) s =
    hostCommand s fun s => (memRead s addr n).andThen fun w t => .ok (answerOne w) t := by
  show execMmioLoad addr width s = _
  rw [execMmioLoad, hn]

theorem exec_mmioStore_eq (v : Word) : exec (.mmioStore addr width v) s =
    hostCommand s fun s => (memWrite s addr n (storeValue n v)).andThen fun _ t => .ok noAnswer t := by
  show execMmioStore addr width v s = _
  rw [execMmioStore, hn]

theorem exec_mmioLoad_fault (hg : accessGate s addr n .read = .fault) :
    exec (.mmioLoad addr width) s = exec (.hartException 5) s := by
  rw [exec_mmioLoad_eq hn, execHartException_loadFault]
  exact hostCommand_congr s (by rw [memRead_denied hg]; rfl)

theorem exec_mmioStore_fault (v : Word) (hg : accessGate s addr n .write = .fault) :
    exec (.mmioStore addr width v) s = exec (.hartException 7) s := by
  rw [exec_mmioStore_eq hn, execHartException_storeFault]
  exact hostCommand_congr s (by rw [memWrite_denied hg]; rfl)

theorem exec_mmioLoad_refused (h : hostReady s = true) {r : Refusal} (hg : accessGate s addr n .read = .refuse r) :
    exec (.mmioLoad addr width) s = .refused r := by
  have hread : memRead s addr n = .refuse r := by rw [memRead, hg]
  rw [exec_mmioLoad_eq hn, hostCommand_ready h]
  simp only [hread]
  rfl

theorem exec_mmioStore_refused (h : hostReady s = true) (v : Word) {r : Refusal}
    (hg : accessGate s addr n .write = .refuse r) : exec (.mmioStore addr width v) s = .refused r := by
  have hwrite : memWrite s addr n (storeValue n v) = .refuse r := by rw [memWrite, hg]
  rw [exec_mmioStore_eq hn, hostCommand_ready h]
  simp only [hwrite]
  rfl

end

/-- A width that is neither 1 nor 4 is an access fault (R261, R262). -/
theorem exec_mmio_badWidth {s : State} {addr width v : Word} (hn : widthOf width = none) :
    exec (.mmioLoad addr width) s = exec (.hartException 5) s ∧
      exec (.mmioStore addr width v) s = exec (.hartException 7) s := by
  refine ⟨?_, ?_⟩
  · show execMmioLoad addr width s = _
    rw [execMmioLoad, hn]
    rfl
  · show execMmioStore addr width v s = _
    rw [execMmioStore, hn]
    rfl

/-! The gate, check by check (20_memory.md R72, R73). -/

section

variable {s : State} {addr : Word} {n : Width} {k : AccKind}

theorem accessGate_outside (hw : windowOf s.cfg addr n = none) : accessGate s addr n k = .refuse .outsideBlock := by
  unfold accessGate
  rw [hw]

variable {w : Window} (hw : windowOf s.cfg addr n = some w)
include hw

theorem accessGate_translated (hp : s.priv = .S) (hsatp : s.csr.satp.getLsbD 31 = true) :
    accessGate s addr n k = .refuse .translationNotModelled := by
  unfold accessGate
  rw [hw]
  exact if_pos ⟨hp, hsatp⟩

theorem accessGate_reserved (hp : s.priv = .S) (hsatp : s.csr.satp.getLsbD 31 = false)
    (hres : pmpAllows s.csr .S addr n k = .reserved) : accessGate s addr n k = .refuse .pmpReservedRw := by
  unfold accessGate
  rw [hw]
  simp only [hp, hsatp, hres, Bool.false_eq_true, and_false, if_false]

theorem accessGate_misshapen (hm : s.mayAccess addr n k = true) (hshape : shapeOk w addr n = false) :
    accessGate s addr n k = .fault := by
  rw [accessGate_of_mayAccess s addr n k w hw hm, hshape]
  rfl

end

/-- A range of bytes inside a window of `size` bytes. -/
def inRange (addr base : Word) (bytes size : Nat) : Prop :=
  base.toNat ≤ addr.toNat ∧ addr.toNat + bytes ≤ base.toNat + size

/-- The UART window, then the PLIC window; under legal parameters no range lies in both (20_memory.md R66). -/
theorem windowOf_cases {c : Config} (hwf : c.wf = true) (addr : Word) (n : Width) :
    (inRange addr c.uartBase n.bytes 8 → windowOf c addr n = some .uart) ∧
    (inRange addr c.plicBase n.bytes c.plicSize.toNat → windowOf c addr n = some .plic) ∧
    (¬inRange addr c.uartBase n.bytes 8 → ¬inRange addr c.plicBase n.bytes c.plicSize.toNat →
      windowOf c addr n = none) := by
  have hfacts := wf_facts hwf
  have hbytes : 1 ≤ n.bytes := by cases n <;> decide
  refine ⟨fun hu => if_pos hu, fun hp => ?_, fun hu hp => (if_neg hu).trans (if_neg hp)⟩
  have hdisjoint : ¬inRange addr c.uartBase n.bytes 8 := by
    unfold inRange at *
    omega
  exact (if_neg hdisjoint).trans (if_pos hp)

/-- Settles O50: the gate's checks, in their order. -/
theorem rawAccessesAreChecked : Obligations.RawAccessesAreChecked := by
  intro s addr width v lo inUart inPlic n loadFault storeFault
  refine ⟨fun h1 h4 => exec_mmio_badWidth (by rw [widthOf, if_neg h1, if_neg h4]), fun hwf h hwidth => ?_⟩
  have hn : widthOf width = some n ∧ width.toNat = n.bytes := by
    rcases hwidth with rfl | rfl <;> exact ⟨rfl, rfl⟩
  obtain ⟨hn, hbytes⟩ := hn
  obtain ⟨hwuart, hwplic, hwnone⟩ := windowOf_cases hwf addr n
  rw [← hbytes] at hwuart hwplic hwnone
  have hwindow (hin : inUart ∨ inPlic) : ∃ w, windowOf s.cfg addr n = some w :=
    hin.elim (fun hu => ⟨_, hwuart hu⟩) (fun hp => ⟨_, hwplic hp⟩)
  refine ⟨fun hu hp => ?_, fun hin hp hsatp => ?_, fun hin hp hsatp => ?_, fun hshape => ?_⟩
  · have hnone := hwnone hu hp
    exact ⟨exec_mmioLoad_refused hn h (accessGate_outside hnone), exec_mmioStore_refused hn h v (accessGate_outside hnone)⟩
  · obtain ⟨w, hw⟩ := hwindow hin
    exact ⟨exec_mmioLoad_refused hn h (accessGate_translated hw hp hsatp),
      exec_mmioStore_refused hn h v (accessGate_translated hw hp hsatp)⟩
  · obtain ⟨w, hw⟩ := hwindow hin
    exact ⟨fun hdeny => exec_mmioLoad_fault hn (accessGate_denied hw hp hsatp hdeny),
      fun hdeny => exec_mmioStore_fault hn v (accessGate_denied hw hp hsatp hdeny),
      fun hres => exec_mmioLoad_refused hn h (accessGate_reserved hw hp hsatp hres),
      fun hres => exec_mmioStore_refused hn h v (accessGate_reserved hw hp hsatp hres)⟩
  · obtain ⟨w, hw, hbad⟩ : ∃ w, windowOf s.cfg addr n = some w ∧ shapeOk w addr n = false := by
      rcases hshape with ⟨hu, hwd⟩ | ⟨hp, hbad⟩
      · exact ⟨.uart, hwuart hu, by subst hwd; rfl⟩
      · refine ⟨.plic, hwplic hp, ?_⟩
        rcases hbad with rfl | hmis
        · rfl
        · simp [shapeOk, hmis]
    exact ⟨fun hm => exec_mmioLoad_fault hn (accessGate_misshapen hw hm hbad),
      fun hm => exec_mmioStore_fault hn v (accessGate_misshapen hw hm hbad)⟩

/-! ## The raw accesses and the rows -/

/-- Two rows at one offset are one access. -/
theorem plicRowAccess_congr {s : State} {off off' : Config → Word} (hoff : off s.cfg = off' s.cfg) (a : WordAccess) :
    plicRowAccess off a s = plicRowAccess off' a s := by
  rw [plicRowAccess, plicRowAccess]
  exact hostCommand_congr s (by simp only [hoff])

/-- The row of a register at its offset is the access of that offset. -/
theorem exec_plicRow {s : State} {o : Word} {r : PlicReg} (hoff : r ≠ .reserved → plicOffset s.cfg r = o)
    (a : WordAccess) : exec (plicRow o r a) s = plicRowAccess (fun _ => o) a s := by
  cases r with
  | priority src => exact show execRegPlicPriority src a s = _ from plicRowAccess_congr (hoff (by simp)) a
  | pending w => exact show execRegPlicPending w a s = _ from plicRowAccess_congr (hoff (by simp)) a
  | enable c w => exact show execRegPlicEnable c w a s = _ from plicRowAccess_congr (hoff (by simp)) a
  | threshold c => exact show execRegPlicThreshold c a s = _ from plicRowAccess_congr (hoff (by simp)) a
  | claim c =>
    cases a with
    | read => exact show execRegPlicClaim c s = _ from plicRowAccess_congr (hoff (by simp)) .read
    | write v => exact show execRegPlicComplete c v s = _ from plicRowAccess_congr (hoff (by simp)) (.write v)
  | reserved => rfl

theorem exec_mmioLoad_plic (s : State) (o : Word) :
    exec (.mmioLoad (s.cfg.plicBase + o) 4) s = plicRowAccess (fun _ => o) .read s := by
  rw [exec_mmioLoad_eq (n := .word) rfl, plicRowAccess]
  exact hostCommand_congr s rfl

theorem exec_mmioStore_plic (s : State) (o v : Word) :
    exec (.mmioStore (s.cfg.plicBase + o) 4 v) s = plicRowAccess (fun _ => o) (.write v) s := by
  rw [exec_mmioStore_eq (n := .word) rfl, plicRowAccess]
  exact hostCommand_congr s rfl

theorem exec_mmioLoad_uart (s : State) (o : Word) :
    exec (.mmioLoad (s.cfg.uartBase + o) 1) s = uartRowAccess o .read s := by
  rw [exec_mmioLoad_eq (n := .byte) rfl, uartRowAccess]
  exact hostCommand_congr s rfl

theorem storeValue_byte (v : Word) : storeValue .byte v = (v.setWidth 8).setWidth 32 := by
  apply BitVec.eq_of_toNat_eq
  rw [storeValue, BitVec.toNat_and, show (0xFF : Word).toNat = 2 ^ 8 - 1 from rfl, Nat.and_two_pow_sub_one_eq_mod]
  simp
  omega

theorem exec_mmioStore_uart (s : State) (o v : Word) :
    exec (.mmioStore (s.cfg.uartBase + o) 1 v) s = uartRowAccess o (.write (v.setWidth 8)) s := by
  rw [exec_mmioStore_eq (n := .byte) rfl, storeValue_byte]
  exact hostCommand_congr s rfl

theorem word_lt_eight {o : Word} (ho : o.toNat < 8) :
    o = 0 ∨ o = 1 ∨ o = 2 ∨ o = 3 ∨ o = 4 ∨ o = 5 ∨ o = 6 ∨ o = 7 := by
  simp only [← BitVec.toNat_inj]
  simp
  omega

theorem exec_uartReadRow (s : State) {o : Word} (ho : o.toNat < 8) :
    exec (uartReadRow (o.setWidth 3)) s = uartRowAccess o .read s := by
  rcases word_lt_eight ho with rfl | rfl | rfl | rfl | rfl | rfl | rfl | rfl <;> rfl

theorem exec_uartWriteRow (s : State) {o : Word} (ho : o.toNat < 8) (v : Byte) :
    exec (uartWriteRow (o.setWidth 3) v) s = uartRowAccess o (.write v) s := by
  rcases word_lt_eight ho with rfl | rfl | rfl | rfl | rfl | rfl | rfl | rfl <;> rfl

/-- A read of a PLIC register answers, and leaves the CSR file, the pc and the UART. -/
theorem rowRead_ok (s : State) {r : PlicReg} (hr : r ≠ .reserved) :
    ∃ x t, rowRead s r = .ok x t ∧ t.csr = s.csr ∧ t.pc = s.pc ∧ t.uart = s.uart := by
  cases r with
  | claim c =>
    refine ⟨_, _, rfl, ?_⟩
    cases hb : best s c with
    | none => rw [claim_of_none hb]; exact ⟨rfl, rfl, rfl⟩
    | some src => rw [claim_of_some hb]; exact ⟨rfl, rfl, rfl⟩
  | reserved => exact absurd rfl hr
  | _ => exact ⟨_, _, rfl, rfl, rfl, rfl⟩

/-- A write of a PLIC register goes through, and leaves the CSR file, the pc and the UART. -/
theorem rowWrite_ok (s : State) (v : Word) {r : PlicReg} (hr : r ≠ .reserved) :
    ∃ t, rowWrite s v r = .ok () t ∧ t.csr = s.csr ∧ t.pc = s.pc ∧ t.uart = s.uart := by
  cases r with
  | priority src =>
    refine ⟨_, rfl, ?_⟩
    split <;> exact ⟨rfl, rfl, rfl⟩
  | claim c =>
    refine ⟨_, rfl, ?_⟩
    unfold completion
    split <;> exact ⟨rfl, rfl, rfl⟩
  | reserved => exact absurd rfl hr
  | _ => exact ⟨_, rfl, rfl, rfl, rfl⟩

/-- Settles O51: a raw access is the access of its offset, and so is the row the map selects there. -/
theorem rawAccessesReachTheRegisters : Obligations.RawAccessesReachTheRegisters := by
  intro s o v hwf at4 at1
  have hoff : plicSelect s.cfg o.toNat ≠ .reserved → plicOffset s.cfg (plicSelect s.cfg o.toNat) = o := fun hne =>
    BitVec.eq_of_toNat_eq (plicSelect_exists hwf o.toNat o.isLt hne).2
  refine ⟨fun _ => ⟨?_, ?_⟩, fun ho => ⟨?_, ?_⟩, fun h hsize halign hne => ⟨fun hm => ?_, fun hm => ?_⟩, fun a x =>
    ⟨?_, ?_, ?_, ?_⟩⟩
  · rw [exec_mmioLoad_plic, exec_plicRow hoff]
  · rw [exec_mmioStore_plic, exec_plicRow hoff]
  · rw [exec_mmioLoad_uart, exec_uartReadRow s ho]
  · rw [exec_mmioStore_uart, exec_uartWriteRow s ho]
  · obtain ⟨x, t, hread, hcsr, hpc, huart⟩ := rowRead_ok s hne
    refine ⟨t.answer (some x) none, ?_, by simp, hcsr, hpc, huart⟩
    rw [exec_mmioLoad_plic, plicRowAccess, hostCommand_ready h]
    simp only
    rw [memRead_plicReg s o hwf hsize halign hm, plicRegRead_eq, hread]
    rfl
  · obtain ⟨t, hwrite, hcsr, hpc, huart⟩ := rowWrite_ok s v hne
    refine ⟨t.answer none none, ?_, by simp, hcsr, hpc, huart⟩
    rw [exec_mmioStore_plic, plicRowAccess, hostCommand_ready h]
    simp only
    rw [memWrite_plicReg s o v hwf hsize halign hm, plicRegWrite_eq, hwrite]
    rfl
  · rw [exec_mmioStore_eq (n := .word) rfl]
    exact show execPlicSetprio a x s = _ from hostCommand_congr s rfl
  · rw [exec_mmioStore_eq (n := .word) rfl]
    exact show execPlicSetthr a x s = _ from hostCommand_congr s rfl
  · rw [exec_mmioLoad_eq (n := .word) rfl]
    exact show execPlicClaim a s = _ from hostCommand_congr s rfl
  · rw [exec_mmioStore_eq (n := .word) rfl]
    exact show execPlicComplete a x s = _ from hostCommand_congr s rfl

end Sys2Proof.Machine
end
